-- ==== Sys2Proof/Word.lean ====
section
/-! DEFINITION. The word types of the AD96 (00 R4, 11 R197): an unqualified word is 64 bits. -/

namespace Sys2Proof

/-- A word: 64 bits (R4). -/
abbrev W64 := BitVec 64

/-- A byte of memory. -/
abbrev Byte := BitVec 8

/-- The contents of a vector register: 4,096 bits (R197). -/
abbrev Vec := BitVec 4096

/-- The contents of a mask register: 1,024 bits (R197). -/
abbrev Msk := BitVec 1024

/-- A register number of a class with 32 members: s0-s31, v0-v31, or a tile field (R102). -/
abbrev Reg := BitVec 5

/-- A predicate number p0-p7 (R102). -/
abbrev PReg := BitVec 3

/-- A mask register number k0-k7 (R102). -/
abbrev KReg := BitVec 3

end Sys2Proof
end

