-- ==== Sys2Proof/Syntax.lean ====
section
/-! DEFINITION. The steps of the AD96 as syntax: one constructor of Instr for each row of spec/opcode_table.json.
Rows that are Uldor words carry their operand fields (05 R84-R101), the nine collective step words theirs (21 R345),
and rows that are events of an engine, the fabric, the Rolernis complex, the host, management or a pin carry the names
of the parts they act on and what their agent supplies. -/

namespace Sys2Proof

/-- A sequencer named physically: package, core of the package (0-95) and sequencer of the core (0-3) (01 R34). -/
structure Sid where
  pkg : Nat
  core : Nat
  seq : Nat
  deriving DecidableEq, Repr

/-- The three engine queues of a sequencer (03 R40). -/
inductive EQ where
  | l | c | s
  deriving DecidableEq, Repr

/-- The guard of a word: predicate PG, negated when PN is 1 (05 R84, R86). -/
structure Guard where
  pg : PReg
  pn : Bool
  deriving DecidableEq, Repr

/-- What every L, C and S word carries beside its operands: the token bits and the guard (05 R84). -/
structure EHead where
  gl : Bool
  gr : Bool
  pl : Bool
  pr : Bool
  g : Guard
  deriving DecidableEq, Repr

/-- The operand types of the scalar integer instructions: codes 9 and 10 (05 R94). -/
inductive ITy where
  | i64 | n64
  deriving DecidableEq, Repr

/-- The operand types of the scalar float instructions: codes 21 and 22 (05 R94). -/
inductive FTy where
  | fp32 | fp64
  deriving DecidableEq, Repr

/-- The element and operand types that have a code (05 R94). -/
inductive Ty where
  | i4 | n4 | i8 | n8 | i16 | n16 | i32 | n32 | i64 | n64
  | e2m1 | e4m3 | e5m2 | bf16 | fp16 | fp32 | fp64 | e8m0
  deriving DecidableEq, Repr

/-- The rounding codes (05 R95): the mode captured from FPC, or one of four fixed modes. -/
inductive Rnd where
  | dyn | rne | rtz | rup | rdn
  deriving DecidableEq, Repr

/-- The scopes (05 R96, 03 R69). -/
inductive Scope where
  | seq | core | team | pkg | dom
  deriving DecidableEq, Repr

/-- The conditions of compares (05 R97). -/
inductive Cond where
  | eq | ne | lt | le | gt | ge | uo | ord
  deriving DecidableEq, Repr

/-- The state registers of `sget` (09 R188). -/
inductive SReg where
  | fpc | fps | tags | tagi | lc0 | lc1 | prio | memb | lease | fqd | slot | vseq | vcore | vteam | tshape | ctx
  | sern | sera | cyc | vpkg
  | base (n : BitVec 4)
  deriving DecidableEq, Repr

/-- The operand fields of a CX word but for OPX (05 R92). -/
structure CX where
  tag : BitVec 6
  p : Reg
  a : Reg
  b : Reg
  c : Reg
  scope : Scope
  notag : Bool
  deriving DecidableEq, Repr

/-- A coefficient of a step's chunk expression (21 R345): zero, plus one or minus one. -/
inductive Coef where
  | zero | plus | minus
  deriving DecidableEq, Repr

/-- Where a check-bit error is found (23 R367, 05 R106): a structure held for one context, a line of an instruction cache, a reply
cache, a remap table or slice map, or the blight map. -/
inductive EccSite where
  | context (i : Sid) (loc : W64)
  | icacheLine (core slot line : Nat)
  | replyCache (core : Nat)
  | dieMap (die : Nat)
  | blightMap
  deriving DecidableEq, Repr

/-- The steps of the AD96, one constructor for each row of the opcode table: the rows that have a
word in the table's order, then the events (DEFERRED_FAULT_DELIVERY first, the others in the
table's order). -/
inductive Instr where
  /-- R158: Integer add, wrapping or saturating. -/
  | add (g : Guard) (ty : ITy) (sat : Bool) (d a b : Reg)
  /-- R158: Integer subtract. -/
  | sub (g : Guard) (ty : ITy) (sat : Bool) (d a b : Reg)
  /-- R158: Integer multiply, low 64 bits or saturated. -/
  | mul (g : Guard) (ty : ITy) (sat : Bool) (d a b : Reg)
  /-- R158: High 64 bits of the 128-bit product. -/
  | mulh (g : Guard) (ty : ITy) (d a b : Reg)
  /-- R158: Integer divide truncating toward zero; division by zero gives all ones. -/
  | div (g : Guard) (ty : ITy) (sat : Bool) (d a b : Reg)
  /-- R158: Integer remainder. -/
  | rem (g : Guard) (ty : ITy) (d a b : Reg)
  /-- R158: Bitwise and. -/
  | and (g : Guard) (ty : ITy) (d a b : Reg)
  /-- R158: Bitwise or. -/
  | or (g : Guard) (ty : ITy) (d a b : Reg)
  /-- R158: Bitwise exclusive or. -/
  | xor (g : Guard) (ty : ITy) (d a b : Reg)
  /-- R158: Shift left by b[5:0], optionally saturating. -/
  | shl (g : Guard) (ty : ITy) (sat : Bool) (d a b : Reg)
  /-- R158: Logical shift right. -/
  | shr (g : Guard) (ty : ITy) (d a b : Reg)
  /-- R158: Arithmetic shift right. -/
  | sra (g : Guard) (ty : ITy) (d a b : Reg)
  /-- R158: Signed or unsigned minimum. -/
  | min (g : Guard) (ty : ITy) (d a b : Reg)
  /-- R158: Signed or unsigned maximum. -/
  | max (g : Guard) (ty : ITy) (d a b : Reg)
  /-- R158: Select sA or sB by a predicate. -/
  | sel (g : Guard) (ty : ITy) (d a b : Reg) (c : PReg)
  /-- R158: Count leading zeros. -/
  | clz (g : Guard) (ty : ITy) (d a : Reg)
  /-- R158: Count trailing zeros. -/
  | ctz (g : Guard) (ty : ITy) (d a : Reg)
  /-- R158: Count one bits. -/
  | popc (g : Guard) (ty : ITy) (d a : Reg)
  /-- R159: Add a sign-extended 36-bit immediate. -/
  | addi (g : Guard) (d a : Reg) (imm : BitVec 36)
  /-- R159: And with an immediate. -/
  | andi (g : Guard) (d a : Reg) (imm : BitVec 36)
  /-- R159: Or with an immediate. -/
  | ori (g : Guard) (d a : Reg) (imm : BitVec 36)
  /-- R159: Exclusive or with an immediate. -/
  | xori (g : Guard) (d a : Reg) (imm : BitVec 36)
  /-- R159: Shift left by an immediate. -/
  | shli (g : Guard) (d a : Reg) (imm : BitVec 36)
  /-- R159: Logical shift right by an immediate. -/
  | shri (g : Guard) (d a : Reg) (imm : BitVec 36)
  /-- R159: Arithmetic shift right by an immediate. -/
  | srai (g : Guard) (d a : Reg) (imm : BitVec 36)
  /-- R159: Multiply by an immediate. -/
  | muli (g : Guard) (d a : Reg) (imm : BitVec 36)
  /-- R160: Load a sign-extended 41-bit immediate. -/
  | movi (g : Guard) (d : Reg) (imm : BitVec 41)
  /-- R160: Replace bits [63:23] of sD. -/
  | movhi (g : Guard) (d : Reg) (imm : BitVec 41)
  /-- R161: Form a 57-bit address from a register and an immediate. -/
  | lea (g : Guard) (d a : Reg) (imm : BitVec 36)
  /-- R161: Form an address with a 64-bit immediate. -/
  | leal (g : Guard) (d a : Reg) (imm : BitVec 64)
  /-- R161: Load a 64-bit immediate. -/
  | movl (g : Guard) (d : Reg) (imm : BitVec 64)
  /-- R163: Zero-extending 8-bit load. -/
  | ld8 (g : Guard) (d a : Reg) (imm : BitVec 36)
  /-- R163: Zero-extending 16-bit load. -/
  | ld16 (g : Guard) (d a : Reg) (imm : BitVec 36)
  /-- R163: Zero-extending 32-bit load. -/
  | ld32 (g : Guard) (d a : Reg) (imm : BitVec 36)
  /-- R163: 64-bit load. -/
  | ld64 (g : Guard) (d a : Reg) (imm : BitVec 36)
  /-- R163: Sign-extending 8-bit load. -/
  | ld8s (g : Guard) (d a : Reg) (imm : BitVec 36)
  /-- R163: Sign-extending 16-bit load. -/
  | ld16s (g : Guard) (d a : Reg) (imm : BitVec 36)
  /-- R163: Sign-extending 32-bit load. -/
  | ld32s (g : Guard) (d a : Reg) (imm : BitVec 36)
  /-- R163: 8-bit store, performed after the harrow compare. -/
  | st8 (g : Guard) (d a : Reg) (imm : BitVec 36)
  /-- R163: 16-bit store. -/
  | st16 (g : Guard) (d a : Reg) (imm : BitVec 36)
  /-- R163: 32-bit store. -/
  | st32 (g : Guard) (d a : Reg) (imm : BitVec 36)
  /-- R163: 64-bit store. -/
  | st64 (g : Guard) (d a : Reg) (imm : BitVec 36)
  /-- R167: Scalar float add. -/
  | fadd (g : Guard) (ty : FTy) (rnd : Rnd) (d a b : Reg)
  /-- R167: Scalar float subtract. -/
  | fsub (g : Guard) (ty : FTy) (rnd : Rnd) (d a b : Reg)
  /-- R167: Scalar float multiply. -/
  | fmul (g : Guard) (ty : FTy) (rnd : Rnd) (d a b : Reg)
  /-- R167: Scalar float divide. -/
  | fdiv (g : Guard) (ty : FTy) (rnd : Rnd) (d a b : Reg)
  /-- R167: Scalar fused multiply-add. -/
  | ffma (g : Guard) (ty : FTy) (rnd : Rnd) (d a b c : Reg)
  /-- R167: Scalar float square root. -/
  | fsqrt (g : Guard) (ty : FTy) (rnd : Rnd) (d a : Reg)
  /-- R167: Scalar float minimum. -/
  | fmin (g : Guard) (ty : FTy) (d a b : Reg)
  /-- R167: Scalar float maximum. -/
  | fmax (g : Guard) (ty : FTy) (d a b : Reg)
  /-- R168: Scalar conversion between integer and float types. -/
  | fcvt (g : Guard) (ty ty2 : Ty) (rnd : Rnd) (sat : Bool) (d a : Reg)
  /-- R169: Integer compare into a predicate. -/
  | cmp (g : Guard) (ty : ITy) (cond : Cond) (d : PReg) (a b : Reg)
  /-- R169: Float compare into a predicate. -/
  | fcmp (g : Guard) (ty : FTy) (cond : Cond) (d : PReg) (a b : Reg)
  /-- R170: Predicate and. -/
  | pand (g : Guard) (d a b : PReg)
  /-- R170: Predicate or. -/
  | por (g : Guard) (d a b : PReg)
  /-- R170: Predicate exclusive or. -/
  | pxor (g : Guard) (d a b : PReg)
  /-- R170: Predicate not. -/
  | pnot (g : Guard) (d a : PReg)
  /-- R171: Branch to a word offset. -/
  | br (g : Guard) (imm : BitVec 41)
  /-- R171: Jump to a register address, checked under R105. -/
  | jr (g : Guard) (a : Reg)
  /-- R171: Call, writing the link register. -/
  | call (g : Guard) (d : Reg) (imm : BitVec 41)
  /-- R171: Call through a register. -/
  | callr (g : Guard) (d a : Reg)
  /-- R171: Return through a register. -/
  | ret (g : Guard) (a : Reg)
  /-- R171: Set a loop counter. -/
  | lset (g : Guard) (n : Bool) (a : Reg) (imm : BitVec 36)
  /-- R171: Decrement a loop counter and branch while it is above 0. -/
  | lend (g : Guard) (n : Bool) (imm : BitVec 41)
  /-- R174: Build a seed record, release, and push it locally or as a remote seed push. -/
  | sow (g : Guard) (d a : Reg)
  /-- R54: End the seed: drain the queues, release the lease, and decrement the join. -/
  | reap (g : Guard)
  /-- R71: Plain barrier arrival, waiting for the flip. -/
  | bar (g : Guard) (sc : Scope)
  /-- R71: Barrier arrival with drop, which does not wait. -/
  | bard (g : Guard) (sc : Scope)
  /-- R71: Barrier arrival with join, which waits for the next flip. -/
  | barj (g : Guard) (sc : Scope)
  /-- R177: Read a snapshot of the four token FIFO counts. -/
  | tokget (g : Guard) (d : Reg)
  /-- R177: Once the queues have drained, set the token FIFO counts. -/
  | tokset (g : Guard) (a : Reg)
  /-- R179: Wait for any of the named tags. -/
  | wtany (g : Guard) (d a : Reg)
  /-- R179: Wait for all of the named tags. -/
  | wtall (g : Guard) (d a : Reg)
  /-- R179: Wait for a named tag and return the index of the lowest one set. -/
  | wtff (g : Guard) (d a : Reg)
  /-- R180: Wait until an arrival counter reaches a value. -/
  | wcnt (g : Guard) (sc : Scope) (d a b : Reg)
  /-- R181: Hold dispatch until the named queues have drained. -/
  | qfence (g : Guard) (f l c s : Bool)
  /-- R182: Release at a scope. -/
  | rel (g : Guard) (sc : Scope)
  /-- R182: Acquire at a scope, discarding the gather cache. -/
  | acq (g : Guard) (sc : Scope)
  /-- R178: Clear the named TAGS bits. -/
  | tagclr (g : Guard) (a : Reg)
  /-- R185: Atomic add on an atomic-window word. -/
  | aadd (g : Guard) (d a b : Reg)
  /-- R185: Atomic FP32 add. -/
  | afadd (g : Guard) (d a b : Reg)
  /-- R185: Atomic minimum. -/
  | amin (g : Guard) (ty : ITy) (d a b : Reg)
  /-- R185: Atomic maximum. -/
  | amax (g : Guard) (ty : ITy) (d a b : Reg)
  /-- R185: Atomic and. -/
  | aand (g : Guard) (d a b : Reg)
  /-- R185: Atomic or. -/
  | aor (g : Guard) (d a b : Reg)
  /-- R185: Atomic exclusive or. -/
  | axor (g : Guard) (d a b : Reg)
  /-- R185: Atomic swap. -/
  | aswap (g : Guard) (d a b : Reg)
  /-- R185: Atomic compare and swap. -/
  | acas (g : Guard) (d a b c : Reg)
  /-- R188: Read a state register. -/
  | sget (g : Guard) (d : Reg) (n : SReg)
  /-- R190: Write FPC, which affects words dispatched afterwards. -/
  | ssetFpc (g : Guard) (a : Reg)
  /-- R130: Replace FPS in this ck; later flag sets are ORed in. -/
  | ssetFps (g : Guard) (a : Reg)
  /-- R190: Replace TAGS in this ck; later completions are ORed in. -/
  | ssetTags (g : Guard) (a : Reg)
  /-- R190: Write LEASE.LMAX, which takes effect at the next grant. -/
  | ssetLease (g : Guard) (a : Reg)
  /-- R190: Write PRIO.P, which takes effect at the next arbitration. -/
  | ssetPrio (g : Guard) (a : Reg)
  /-- R190: Write MEMB, which takes effect for the next barrier word. -/
  | ssetMemb (g : Guard) (a : Reg)
  /-- R190: Write LC0 or LC1, which takes effect for the next lend. -/
  | ssetLc (g : Guard) (n : Bool) (a : Reg)
  /-- R189: Write a BASEn buffer address. -/
  | ssetBase (g : Guard) (n : BitVec 4) (a : Reg)
  /-- R191: Wait for earlier C entries to complete, then trap on enabled flags. -/
  | tfence (g : Guard)
  /-- R404: System service 0, which returns 0. -/
  | sysNop (g : Guard) (d a : Reg)
  /-- R404: Return the domain time in ns. -/
  | sysDtime (g : Guard) (d a : Reg)
  /-- R404: Post a USER event on the invoking queue. -/
  | sysHostevent (g : Guard) (d a : Reg)
  /-- R404: Return the remaining energy allowance. -/
  | sysAllowance (g : Guard) (d a : Reg)
  /-- R404: Replace the invocation's remaining estimate. -/
  | sysEstimate (g : Guard) (d a : Reg)
  /-- R404: Return the context's DCTX, root VP and team count. -/
  | sysCtxinfo (g : Guard) (d a : Reg)
  /-- R404: Services 6 to 15 return all ones. -/
  | sysNoService (g : Guard) (d a : Reg) (n : BitVec 4)
  /-- R193: Check a new carve word and hold dispatch of the core's scratchpad-touching entries until they drain. -/
  | pchg (g : Guard) (a : Reg)
  /-- R194: Drop the context's translations of one address on this package. -/
  | tlbi (g : Guard) (a : Reg)
  /-- R194: Drop every translation of the context on this package. -/
  | tlbia (g : Guard)
  /-- R195: Zero a frame and clear its blight bit. -/
  | blclr (g : Guard) (a : Reg)
  /-- R196: Query whether a frame is blighted. -/
  | blq (g : Guard) (d a : Reg)
  /-- R231: Push a format word with its captured tensor scales to the format queue, waiting when it is full. -/
  | mfmt (g : Guard) (a : Reg)
  /-- R360: Check a work-entry record and arm the entry in WAITTRIG. -/
  | karm (g : Guard) (d a b : Reg)
  /-- R361: Return a work entry's status word. -/
  | kstat (g : Guard) (d b : Reg)
  /-- R362: Free a work entry, or set DISPEND so that it is freed at HALT. -/
  | kdis (g : Guard) (d b : Reg)
  /-- R205: Vector add. -/
  | vadd (h : EHead) (ty : Ty) (rnd : Rnd) (sat sb : Bool) (km : KReg) (d a b : Reg)
  /-- R205: Vector subtract. -/
  | vsub (h : EHead) (ty : Ty) (rnd : Rnd) (sat sb : Bool) (km : KReg) (d a b : Reg)
  /-- R205: Vector multiply. -/
  | vmul (h : EHead) (ty : Ty) (rnd : Rnd) (sat sb : Bool) (km : KReg) (d a b : Reg)
  /-- R205: Vector high-half multiply. -/
  | vmulh (h : EHead) (ty : Ty) (sb : Bool) (km : KReg) (d a b : Reg)
  /-- R205: Vector fused multiply-add. -/
  | vfma (h : EHead) (ty : Ty) (rnd : Rnd) (sat sb sc : Bool) (km : KReg) (d a b c : Reg)
  /-- R205: Vector fused multiply-subtract. -/
  | vfms (h : EHead) (ty : Ty) (rnd : Rnd) (sat sb sc : Bool) (km : KReg) (d a b c : Reg)
  /-- R205: Vector negated fused multiply-add. -/
  | vfnma (h : EHead) (ty : Ty) (rnd : Rnd) (sat sb sc : Bool) (km : KReg) (d a b c : Reg)
  /-- R205: Vector absolute value. -/
  | vabs (h : EHead) (ty : Ty) (sat : Bool) (km : KReg) (d a : Reg)
  /-- R205: Vector negate. -/
  | vneg (h : EHead) (ty : Ty) (sat : Bool) (km : KReg) (d a : Reg)
  /-- R205: Vector minimum. -/
  | vmin (h : EHead) (ty : Ty) (sb : Bool) (km : KReg) (d a b : Reg)
  /-- R205: Vector maximum. -/
  | vmax (h : EHead) (ty : Ty) (sb : Bool) (km : KReg) (d a b : Reg)
  /-- R205: Vector absolute difference. -/
  | vabd (h : EHead) (ty : Ty) (rnd : Rnd) (sat sb : Bool) (km : KReg) (d a b : Reg)
  /-- R205: Vector clamp. -/
  | vclamp (h : EHead) (ty : Ty) (sb sc : Bool) (km : KReg) (d a b c : Reg)
  /-- R205: Vector divide. -/
  | vdiv (h : EHead) (ty : Ty) (rnd : Rnd) (sat sb : Bool) (km : KReg) (d a b : Reg)
  /-- R206: Vector and. -/
  | vand (h : EHead) (ty : Ty) (sb : Bool) (km : KReg) (d a b : Reg)
  /-- R206: Vector or. -/
  | vor (h : EHead) (ty : Ty) (sb : Bool) (km : KReg) (d a b : Reg)
  /-- R206: Vector exclusive or. -/
  | vxor (h : EHead) (ty : Ty) (sb : Bool) (km : KReg) (d a b : Reg)
  /-- R206: Vector complement. -/
  | vnot (h : EHead) (ty : Ty) (km : KReg) (d a : Reg)
  /-- R206: Vector shift left. -/
  | vshl (h : EHead) (ty : Ty) (sat sb : Bool) (km : KReg) (d a b : Reg)
  /-- R206: Vector logical shift right. -/
  | vshr (h : EHead) (ty : Ty) (sb : Bool) (km : KReg) (d a b : Reg)
  /-- R206: Vector arithmetic shift right. -/
  | vsra (h : EHead) (ty : Ty) (sb : Bool) (km : KReg) (d a b : Reg)
  /-- R206: Vector rotate left. -/
  | vrot (h : EHead) (ty : Ty) (sb : Bool) (km : KReg) (d a b : Reg)
  /-- R207: Vector compare into a mask. -/
  | vcmp (h : EHead) (ty : Ty) (cond : Cond) (sb : Bool) (km : KReg) (d : KReg) (a b : Reg)
  /-- R208: Select elements by a mask. -/
  | vsel (h : EHead) (ty : Ty) (km : KReg) (d a b : Reg) (c : KReg)
  /-- R209: Mask and. -/
  | kand (h : EHead) (d a b : KReg)
  /-- R209: Mask or. -/
  | kor (h : EHead) (d a b : KReg)
  /-- R209: Mask exclusive or. -/
  | kxor (h : EHead) (d a b : KReg)
  /-- R209: Mask not. -/
  | knot (h : EHead) (d a : KReg)
  /-- R209: Mask move. -/
  | kmov (h : EHead) (d a : KReg)
  /-- R209: Write 64 bits of a mask from a scalar. -/
  | kmovS (h : EHead) (d : KReg) (a : Reg) (c : BitVec 4)
  /-- R209: Population count of a mask. -/
  | kpop (h : EHead) (km : KReg) (d : Reg) (a : KReg)
  /-- R210: Permute elements by index. -/
  | vperm (h : EHead) (ty : Ty) (km : KReg) (d a b : Reg)
  /-- R210: Reverse elements. -/
  | vrev (h : EHead) (ty : Ty) (km : KReg) (d a : Reg)
  /-- R210: Interleave two registers into a pair. -/
  | vzip (h : EHead) (ty : Ty) (d a b : Reg)
  /-- R210: De-interleave two registers into a pair. -/
  | vunzip (h : EHead) (ty : Ty) (d a b : Reg)
  /-- R210: Slide elements across two registers. -/
  | vslide (h : EHead) (ty : Ty) (km : KReg) (d a b c : Reg)
  /-- R210: Broadcast a scalar to every element. -/
  | vbcast (h : EHead) (ty : Ty) (km : KReg) (d a : Reg)
  /-- R210: Broadcast one element to every element. -/
  | vbcastEl (h : EHead) (ty : Ty) (km : KReg) (d a b : Reg)
  /-- R210: Extract one element into element 0. -/
  | vext (h : EHead) (ty : Ty) (d a b : Reg)
  /-- R210: Insert a scalar into one element. -/
  | vins (h : EHead) (ty : Ty) (d a b : Reg)
  /-- R210: Vector move. -/
  | vmov (h : EHead) (ty : Ty) (km : KReg) (d a : Reg)
  /-- R210: Compress the active elements. -/
  | vcmpr (h : EHead) (ty : Ty) (km : KReg) (d a : Reg)
  /-- R210: Expand into the active elements. -/
  | vexpd (h : EHead) (ty : Ty) (km : KReg) (d a : Reg)
  /-- R212: Widening add into a pair. -/
  | vwadd (h : EHead) (ty ty2 : Ty) (rnd : Rnd) (sat : Bool) (km : KReg) (d a b : Reg)
  /-- R212: Widening multiply into a pair. -/
  | vwmul (h : EHead) (ty ty2 : Ty) (rnd : Rnd) (sat : Bool) (km : KReg) (d a b : Reg)
  /-- R213: Widening conversion into a group. -/
  | vwcvt (h : EHead) (ty ty2 : Ty) (rnd : Rnd) (sat : Bool) (km : KReg) (d a : Reg)
  /-- R213: Narrowing conversion from a group. -/
  | vnar (h : EHead) (ty ty2 : Ty) (rnd : Rnd) (sat : Bool) (km : KReg) (d a : Reg)
  /-- R214: Single-register conversion by part. -/
  | vcvt (h : EHead) (ty ty2 : Ty) (rnd : Rnd) (sat : Bool) (km : KReg) (d a : Reg) (part : BitVec 2)
  /-- R215: Expand 4-bit codes through a 16-byte table. -/
  | vunpk (h : EHead) (ty ty2 : Ty) (km : KReg) (d a b c : Reg)
  /-- R217: Segmented tree sum. -/
  | vsum (h : EHead) (ty : Ty) (rnd : Rnd) (sat : Bool) (km : KReg) (d a : Reg) (l : BitVec 4)
  /-- R217: Widening segmented tree sum. -/
  | vsumw (h : EHead) (ty ty2 : Ty) (rnd : Rnd) (sat : Bool) (km : KReg) (d a : Reg) (l : BitVec 4)
  /-- R217: Segmented maximum. -/
  | vmaxr (h : EHead) (ty : Ty) (km : KReg) (d a : Reg) (l : BitVec 4)
  /-- R217: Segmented minimum. -/
  | vminr (h : EHead) (ty : Ty) (km : KReg) (d a : Reg) (l : BitVec 4)
  /-- R219: e^x, correctly rounded. -/
  | vexp (h : EHead) (ty : Ty) (km : KReg) (d a : Reg)
  /-- R219: 2^x. -/
  | vexp2 (h : EHead) (ty : Ty) (km : KReg) (d a : Reg)
  /-- R219: log2 x. -/
  | vlog2 (h : EHead) (ty : Ty) (km : KReg) (d a : Reg)
  /-- R219: Reciprocal. -/
  | vrcp (h : EHead) (ty : Ty) (km : KReg) (d a : Reg)
  /-- R219: Reciprocal square root. -/
  | vrsqrt (h : EHead) (ty : Ty) (km : KReg) (d a : Reg)
  /-- R218: Square root, rounded once. -/
  | vsqrt (h : EHead) (ty : Ty) (rnd : Rnd) (km : KReg) (d a : Reg)
  /-- R219: Sine. -/
  | vsin (h : EHead) (ty : Ty) (km : KReg) (d a : Reg)
  /-- R219: Cosine. -/
  | vcos (h : EHead) (ty : Ty) (km : KReg) (d a : Reg)
  /-- R219: Hyperbolic tangent. -/
  | vtanh (h : EHead) (ty : Ty) (km : KReg) (d a : Reg)
  /-- R219: Sigmoid. -/
  | vsigm (h : EHead) (ty : Ty) (km : KReg) (d a : Reg)
  /-- R221: Counter-based random elements. -/
  | vrand (h : EHead) (ty : Ty) (km : KReg) (d a b : Reg)
  /-- R222: Load 512 B of scratchpad. -/
  | vld (h : EHead) (d a : Reg) (imm : BitVec 36)
  /-- R222: Store 512 B to scratchpad. -/
  | vst (h : EHead) (d a : Reg) (imm : BitVec 36)
  /-- R222: Strided chunk load. -/
  | vlds (h : EHead) (ty : Ty) (km : KReg) (d a b : Reg)
  /-- R222: Strided chunk store. -/
  | vsts (h : EHead) (ty : Ty) (km : KReg) (d a b : Reg)
  /-- R222: Indexed element load. -/
  | vldx (h : EHead) (ty : Ty) (km : KReg) (d a b : Reg)
  /-- R222: Indexed element store. -/
  | vstx (h : EHead) (ty : Ty) (km : KReg) (d a b : Reg)
  /-- R222: Load 64 B into all eight chunks. -/
  | vldb (h : EHead) (d a : Reg) (imm : BitVec 36)
  /-- R243: Request the matrix lease. -/
  | mlease (h : EHead)
  /-- R243: Release the matrix lease. -/
  | mrel (h : EHead)
  /-- R245: Block-scaled or integer matrix product into a tile. -/
  | mmul (h : EHead) (t ab ap bb bp : Reg) (asrc bsrc acc : Bool) (kf : BitVec 12)
  /-- R246: FP32 or FP64 product built from 8-bit digit passes and folds. -/
  | mslice (h : EHead) (t ab ap bb bp : Reg) (acc : Bool) (s : BitVec 4) (kf : BitVec 12)
  /-- R248: Zero a tile. -/
  | mzero (h : EHead) (t : Reg)
  /-- R249: Load or add scratchpad lines into a tile. -/
  | mld (h : EHead) (t ab ap : Reg) (acc : Bool)
  /-- R250: Read a tile out to scratchpad, applying tensor scales. -/
  | mst (h : EHead) (t ab ap : Reg)
  /-- R251: Arm a panel on the row or column bus. -/
  | msow (h : EHead) (ab ap : Reg) (col : Bool) (kf : BitVec 12)
  /-- R272: Copy by pattern into the own scratchpad. -/
  | cpy (h : EHead) (f : CX) (na : Bool)
  /-- R274: Gather by index list into the own scratchpad. -/
  | cgat (h : EHead) (f : CX) (na : Bool)
  /-- R275: Multicast a copy to the team cores in a mask. -/
  | cmc (h : EHead) (f : CX) (na : Bool)
  /-- R272: Copy out of the own scratchpad. -/
  | cpyo (h : EHead) (f : CX) (na : Bool)
  /-- R298: Remote copy into the own scratchpad. -/
  | cget (h : EHead) (f : CX) (na : Bool)
  /-- R298: Remote copy from the own scratchpad. -/
  | cput (h : EHead) (f : CX) (na : Bool)
  /-- R301: Signal store: an add or set on an atomic-window word with a release. -/
  | ksig (h : EHead) (f : CX) (na : Bool)
  /-- R326: Subscribe a query block: check its table, make LIDX live and append entries to the page lists. -/
  | asub (h : EHead) (tag : BitVec 6) (notag : Bool) (r : Reg)
  /-- R328: Withdraw a query block and free its state. -/
  | aunsub (h : EHead) (tag : BitVec 6) (notag : Bool) (r : Reg)
  /-- R336: Copy a partial into the sheaf buffer once its window is open. -/
  | amerge (h : EHead) (tag : BitVec 6) (notag : Bool) (r a b : Reg)
  /-- R333: Free a page slot after the earlier S entries have completed. -/
  | afin (h : EHead) (tag : BitVec 6) (notag : Bool) (r : Reg)
  /-- R332: Wait until a page has landed in its slot. -/
  | await (h : EHead) (tag : BitVec 6) (notag : Bool) (r : Reg)
  /-- R346: Send chunk c to a peer. -/
  | send (ps x : Bool) (mr m0 m1 : Coef) (v : BitVec 20)
  /-- R346: Receive chunk c, write it, and optionally forward it. -/
  | recv (ps x : Bool) (mr m0 m1 : Coef) (v : BitVec 20)
  /-- R346: Receive, reduce with the local chunk, and send on. -/
  | rrs (ps x : Bool) (mr m0 m1 : Coef) (v : BitVec 20)
  /-- R346: Copy chunk c locally from source to destination. -/
  | copy (mr m0 m1 : Coef) (v : BitVec 20)
  /-- R346: Wait until WSIG reaches V + G × WINC. -/
  | wait (v : BitVec 20)
  /-- R346: Open a counted loop. -/
  | loop (j x : Bool) (v : BitVec 20)
  /-- R346: Close a loop. -/
  | endl (j : Bool)
  /-- R346: Set a peer slot. -/
  | peer (ps : Bool) (v : BitVec 20)
  /-- R349: End the generation: final writes, release, DSIG addition, G + 1. -/
  | halt
  /-- R363: A deferred fault stops its recording sequencer at the next instruction boundary. -/
  | deferredFaultDelivery (i : Sid)
  /-- R41: The front end dispatches an L-, C- or S-route word into its engine queue, resolving the guard, the scalar operands and FPC, once the queue has room. -/
  | dispatch (w : BitVec 64)
  /-- R42: The harrow re-executes a word 6 ck behind the front end and compares it; a matching front-end store is performed at this point. -/
  | harrowCompare (i : Sid) (k : Nat) (ok : Bool)
  /-- R47: A completed entry retires in queue order and puts its tokens once each FIFO it names holds at most 7. -/
  | entryRetire (i : Sid) (q : EQ)
  /-- R48: Within 64 ck of a token deadlock arising, the device abandons the seed and raises the precise fault token deadlock. -/
  | tokenDeadlock (i : Sid)
  /-- R20: An instruction-cache miss fills from the context's granary slot; a line with a double-bit error is refilled. -/
  | instructionFetchMissFill (i : Sid)
  /-- R52: An idle sequencer pops the head of its core's highest-priority non-empty seed queue and starts the seed in the state of R53. -/
  | seedPop (i : Sid)
  /-- R58: When a queue's head timer reaches 65,536 ck, the head record moves to the tail of the next-higher-priority queue. -/
  | seedAging (p c q : Nat)
  /-- R62: When the back-off after a NACK expires, the sower resends the refused push and every later push in its replay window. -/
  | nackResend (i : Sid) (k : Nat)
  /-- R73: A combined domain-scope arrival message reaches the root package and its arrivals are applied one at a time. -/
  | barrierArrivalMessage (p dctx inst : Nat)
  /-- R73: A release message for a flip reaches a package, which releases each of its waiting arrivals. -/
  | barrierReleaseMessage (p k : Nat)
  /-- R78: The arbiter grants the free matrix array to an eligible waiting sequencer by PRIO, then by round-robin. -/
  | leaseGrant (p c : Nat)
  /-- R77: A lease held for LEASE_MAX × T_max while another sequencer waits ends. -/
  | leaseTimeLimit (p c : Nat)
  /-- R183: A front-end word waiting on a tag, counter, barrier, fence, token or reply finds its condition met and completes. -/
  | frontEndWaitEnd (i : Sid)
  /-- R165: The data of a front-end load returns and is written to sD, releasing any word that waits on sD. -/
  | loadDataReturn (i : Sid) (k : Nat)
  /-- R187: The old value of a non-posted atomic returns to the waiting front end. -/
  | atomicReply (i : Sid)
  /-- R260: Once the drain ends, apply the carve: discard the gather cache, power granules down or wake them. -/
  | pchgApply (p c : Nat)
  /-- R261: A waking granule ends its zero fill, releasing any stalled accesses. -/
  | granuleFillEnd (p c k : Nat)
  /-- R242: When a command would enter the array, its kind and tensor-scale checks are made again. -/
  | arrayEntryCheck (i : Sid)
  /-- R237: Once every member presents a receiver, a bus stream begins and reaches all members in the same ck. -/
  | streamBegin (p d : Nat) (col : Bool) (line : Nat)
  /-- R280: The copy engine takes up a sequencer's next piece round-robin and requests it. -/
  | copyPieceRequest (p c : Nat)
  /-- R276: A piece is performed, and its bytes are added to the arrival counter. -/
  | piecePerformed (i : Sid) (cid piece : Nat)
  /-- R270: A request reaches a slice and is merged into a pending delivery or served separately. -/
  | sliceRequest (p d k : Nat)
  /-- R269: A delivery slot reaches a station in its mask and satisfies that station's outstanding reads. -/
  | ringDelivery (p d k : Nat)
  /-- R265: A copy engine receives REHOME, waits for the new map and re-issues the request. -/
  | rehome (p d k : Nat)
  /-- R265: Management retires a slice: write-back, a new map with GEN + 1, and power-down. -/
  | sliceRetire (p d k : Nat) (map : List Nat)
  /-- R265: The retiring slice powers down once no request to it remains. -/
  | slicePowerDown (p d k : Nat)
  /-- R37: Management takes a core offline after an uncontained machine check. -/
  | coreOffline (p c : Nat)
  /-- R294: A packet reaches the destination router die and is issued in FSEQ order or held for reordering. -/
  | remotePacketArrival (k : Nat)
  /-- R305: The owner handles a non-idempotent request: a reply-cache hit, ORPHANED, NACK, a fault, or perform. -/
  | remoteOperation (p k : Nat)
  /-- R303: An answer reaches the requester and ends the serial, which advances SERA.ACK. -/
  | answerArrival (p k : Nat)
  /-- R307: A request unanswered for 64 µs is resent under its original serial and FSEQ. -/
  | resendTimeout (i : Sid) (k : Nat)
  /-- R307: After NACK(FULL) or NACK(ABSENT), the request is resent after a doubling back-off. -/
  | nackBackoffResend (i : Sid) (k : Nat)
  /-- R296: A packet whose send is 48 µs or more in the past is discarded wherever it is. -/
  | packetExpiry (k : Nat)
  /-- R306: A reply-cache entry is freed when its hold timer reaches 4 ms. -/
  | replyCacheExpiry (p c k : Nat)
  /-- R310: A lane loses lock, fails a check or shows excess errors and becomes FALLOW, with a stripe change. -/
  | laneFallow (p port lane : Nat)
  /-- R310: Management retrains a FALLOW lane back to ACTIVE. -/
  | laneRetrain (p port lane : Nat)
  /-- R30: Management assigns a spare global index to replace a retired link. -/
  | spareLinkAssign (p port g : Nat)
  /-- R312: A receiver acknowledges a good flit or asks for a replay from the first bad one. -/
  | flitReceive (p port : Nat) (good : Bool)
  /-- R312: The sender replays flits from its replay buffer on request. -/
  | flitReplay (p port : Nat)
  /-- R315: A router chooses a minimal or non-minimal next hop for a packet. -/
  | packetRoute (k port : Nat)
  /-- R316: A packet that has waited 4,096 ck, or has no legal hop, moves to HL. -/
  | headlandMove (k : Nat)
  /-- R318: On a link or package failure, management starts draining HL for a tree rebuild. -/
  | treeDrain
  /-- R318: When the drain ends or 40 µs pass, routers load tree e + 1. -/
  | treeSwitch
  /-- R327: HOLD × 1,024 ck after activation, a layer's main pass begins. -/
  | mainPassHoldExpiry (p d k : Nat)
  /-- R329: The sower serves a page: it multicasts it to slot k, writes the headers and pushes page seeds. -/
  | sowerServePage (p d : Nat)
  /-- R339: A gleaning pass begins over pages with entries of running teams. -/
  | gleaningPassStart (p d k : Nat)
  /-- R337: A merge unit merges a block's head partial into its accumulator and raises HEAD. -/
  | sheafMerge (p d k : Nat)
  /-- R349: A watched TSIG reaches its threshold and a generation starts. -/
  | workEntryTrigger (p e : Nat)
  /-- R354: A collective packet is matched to a step, staged, refused or discarded as a duplicate. -/
  | collPacketArrival (p k : Nat)
  /-- R352: A lost or refused collective packet is resent. -/
  | collPacketResend (p e k : Nat)
  /-- R357: A step timer reaching 2^32 ck faults the entry with FCODE 5. -/
  | stepTimeout (p e : Nat)
  /-- R358: An entry receives ABORT from another rank and faults with FCODE 6. -/
  | abortReceived (p k : Nat)
  /-- R355: SUSPEND reaches a rank, which forwards it and enters SUSP. -/
  | collSuspendMessage (p k : Nat)
  /-- R356: RESUME circles the ring and the entry leaves SUSP. -/
  | collResumeMessage (p k : Nat)
  /-- R367: A check-bit error is corrected or gives a contained or uncontained machine check. -/
  | secdedError (p : Nat) (site : EccSite) (double : Bool)
  /-- R369: The scheduler decides DRAIN, KILL or CHECKPOINT for a blocking invocation. -/
  | preemptionDecision (p newcomer victim : Nat)
  /-- R370: A draining invocation not done at 2 × DRAIN_LIMIT is checkpointed. -/
  | drainExpiry (p k : Nat)
  /-- R373: Close admission, stop the front ends, settle requests and quiesce the engines. -/
  | checkpoint (p dctx vteam : Nat) (passes : List Nat)
  /-- R375: Once quiesced, discard the gather cache, write the save image and release the cores. -/
  | checkpointImage (p dctx vteam sb : Nat)
  /-- R381: Restore a team on chosen cores, perform the pending and re-issue lists, resend, and start. -/
  | teamResume (p dctx vteam die row col : Nat)
  /-- R389: An uncorrectable error or a management request sets a frame's blight bit. -/
  | blightSet (p frame : Nat)
  /-- R397: A host write of a queue's write index enters the event queue. -/
  | wixWrite (p q : Nat) (v : BitVec 32)
  /-- R399: A write to WAKE is a wake event for the queue. -/
  | wakeWrite (p q : Nat) (v : BitVec 64)
  /-- R392: A host write to bytes 16–47 of a queue record, effective only when IDLE, OVERRUN or STOPPED. -/
  | queueRecordWrite (p q : Nat) (bytes : List (BitVec 8))
  /-- R394: A MAPPED queue accepts the entry at RIX into the journal, or goes OVERRUN. -/
  | entryAccept (p q : Nat)
  /-- R398: A free hardware slot is granted to the asking queue. -/
  | slotMap (p q : Nat)
  /-- R398: A queue idle for 10 µs is unmapped. -/
  | slotUnmapIdle (p q : Nat)
  /-- R398: A queue that has held its slot for 1 ms while another waits is unmapped. -/
  | slotUnmapFairness (p q : Nat)
  /-- R399: A reported write satisfies a WAIT watch and wakes the queue. -/
  | watchSatisfied (p q : Nat)
  /-- R395: Command NOP. -/
  | cmdNop (p q j : Nat)
  /-- R400: Copy, check, sign-verify and scan a slot object and pin its weights. -/
  | loadslot (p q j : Nat)
  /-- R400: Free an unused granary slot. -/
  | freeslot (p q j : Nat)
  /-- R400: Check residency and request placement of a team. -/
  | invoke (p q j : Nat)
  /-- R67: Once cores are free, place the team, write the state and push the root seed. -/
  | placement (p k die row col : Nat)
  /-- R400: Once all members are idle with nothing outstanding, release the cores and VTEAM. -/
  | teamRelease (p dctx vteam : Nat)
  /-- R399: Park the queue until a signal word reaches a value. -/
  | cmdWait (p q j : Nat)
  /-- R395: Set or add to a signal word. -/
  | signal (p q j : Nat)
  /-- R402: Snapshot a plan and run its nodes in dependence order. -/
  | replay (p q j : Nat)
  /-- R402: A plan node starts when all its predecessors have completed OK, or is SKIPPED. -/
  | replayNodeStart (p q j node : Nat)
  /-- R395: Create a context with its package table and root. -/
  | ctxnew (p q j : Nat)
  /-- R412: End a context on the package. -/
  | ctxend (p q j : Nat)
  /-- R413: Resume the stopped teams of a context. -/
  | ctxresume (p q j : Nat)
  /-- R393: Write the status word, make the SIG addition and post the completion event. -/
  | commandCompletion (p q j : Nat)
  /-- R403: After a Rolernis core fault, another core continues the queue from the journal. -/
  | rolernisTakeover (p q j : Nat)
  /-- R405: At the end of an accounting period, SPENT is reduced by the allowance. -/
  | allowancePeriodEnd (p : Nat)
  /-- R406: A supply droop stretches the die clock within 2 ck. -/
  | droopStretch (p d : Nat) (on : Bool)
  /-- R407: SUSPEND on MGMT: stop accepting, checkpoint, suspend entries, write back, acknowledge. -/
  | domainSuspend (p : Nat)
  /-- R407: A missing acknowledgement at 4.5 s abandons the suspend. -/
  | suspendAbandon
  /-- R407: Once all packages have acknowledged, memories enter self-refresh and only the retention island stays powered. -/
  | retentionEntry
  /-- R408: RESUME on MGMT brings every package back as a warm restart. -/
  | domainResume (p : Nat)
  /-- R411: Asserting RESET_N resets the package as a cold restart, incrementing INC. -/
  | packageReset (p : Nat)
  /-- R409: A host RDMA WRITE to a registered physical range. -/
  | rdmaWrite (p addr : Nat) (bytes : List (BitVec 8))
  /-- R409: A host RDMA READ from a registered range. -/
  | rdmaRead (p addr len : Nat)
  /-- R409: A host RoCEv2 SEND. -/
  | rdmaSend (p : Nat) (bytes : List (BitVec 8))
  /-- R410: The boot ROM verifies a firmware image's signature and rollback count, and measures it. -/
  | firmwareBoot (p : Nat) (image key sig : List (BitVec 8)) (version : Nat)
  /-- R410: Return the measurement log signed with the device key. -/
  | measurementRequest (p : Nat)
  /-- R405: When SPENT reaches 1,000 × ALLOW during a period, the queue stops starting entries and gives up its hardware slot. -/
  | allowanceExhausted (p q : Nat)
  /-- R355: Management takes one participating context's buffers out of memory, which suspends that context's running work entries at step boundaries. -/
  | contextEviction (p dctx : Nat)
  /-- R313: Management returns a retired link to service. -/
  | linkReturn (p port : Nat)
  deriving DecidableEq, Repr

end Sys2Proof
end

