-- ==== Sys2Proof/WellFormed.lean ====
section
/-! DEFINITION. Which operand values an instruction may carry: the checks of 05 R102 and R103 and of each instruction's own
entry that the types of Syntax.lean do not make already. -/

namespace Sys2Proof

/-- The width of a type in bits (05 R94). -/
def Ty.width : Ty → Nat
  | .i4 | .n4 | .e2m1 => 4
  | .i8 | .n8 | .e4m3 | .e5m2 | .e8m0 => 8
  | .i16 | .n16 | .bf16 | .fp16 => 16
  | .i32 | .n32 | .fp32 => 32
  | .i64 | .n64 | .fp64 => 64

/-- The class INT of 11 R203. -/
def Ty.isInt : Ty → Bool
  | .i4 | .n4 | .i8 | .n8 | .i16 | .n16 | .i32 | .n32 => true
  | _ => false

/-- The class FLT of 11 R203. -/
def Ty.isFlt : Ty → Bool
  | .bf16 | .fp16 | .fp32 => true
  | _ => false

/-- The types that are floating-point formats (07 R123). -/
def Ty.isFloat : Ty → Bool
  | .e2m1 | .e4m3 | .e5m2 | .bf16 | .fp16 | .fp32 | .fp64 => true
  | _ => false

/-- The signed integer types (07 R120). -/
def Ty.isSigned : Ty → Bool
  | .i4 | .i8 | .i16 | .i32 | .i64 => true
  | _ => false

/-- The class ARITH of 11 R203. -/
def Ty.isArith (t : Ty) : Bool := t.isInt || t.isFlt

/-- The class ANY of 11 R203. -/
def Ty.isAny : Ty → Bool
  | .i64 | .n64 | .fp64 | .e8m0 => false
  | _ => true

/-- The class WIDE of 11 R203: the 16-bit and 32-bit types of ANY. -/
def Ty.isWide (t : Ty) : Bool := t.isAny && (t.width == 16 || t.width == 32)

/-- The elements of a vector register of type t (11 R197). -/
def Ty.count (t : Ty) : Nat := 4096 / t.width

/-- The types `fcvt` accepts (09 R166). -/
def fcvtTys : List Ty := [.i32, .n32, .i64, .n64, .fp32, .fp64]

/-- The type pairs of `vwadd` and `vwmul`, source first (11 R212). -/
def widenPair : Ty → Ty → Bool
  | .i4, .i8 | .i8, .i16 | .i16, .i32 | .n4, .n8 | .n8, .n16 | .n16, .n32 => true
  | .e4m3, .bf16 | .e4m3, .fp16 | .e5m2, .bf16 | .e5m2, .fp16 | .bf16, .fp32 | .fp16, .fp32 => true
  | _, _ => false

/-- The type pairs of `vsumw`, source first (11 R216). -/
def sumwPair : Ty → Ty → Bool
  | .i4, .i8 | .i4, .i16 | .i8, .i16 | .i8, .i32 | .i16, .i32 => true
  | .n4, .n8 | .n4, .n16 | .n8, .n16 | .n8, .n32 | .n16, .n32 => true
  | .e4m3, .bf16 | .e4m3, .fp16 | .e4m3, .fp32 | .e5m2, .bf16 | .e5m2, .fp16 | .e5m2, .fp32 => true
  | .bf16, .fp32 | .fp16, .fp32 => true
  | _, _ => false

/-- The wider type is 2 or 4 times as wide as the narrower (11 R211, R213). -/
def groupOf (narrow wide : Ty) : Bool := wide.width == 2 * narrow.width || wide.width == 4 * narrow.width

/-- The ratio of the wider to the narrower of two types (11 R214). A conversion's is at most 4 (R211; assumption 53). -/
def ratio (t u : Ty) : Nat := if t.width ≤ u.width then u.width / t.width else t.width / u.width

/-- The segment exponent runs from 1 to log2 of the source's element count (11 R216). -/
def segOk (t : Ty) (l : BitVec 4) : Bool := 1 ≤ l.toNat && 2 ^ l.toNat ≤ t.count

/-- The guard `!p0` is no guard (05 R103, GUARD). -/
def Guard.ok (g : Guard) : Bool := !(g.pg == 0 && g.pn)

/-- The token bits of an L word are GR and PR (03 R46). -/
def EHead.okL (h : EHead) : Bool := !h.gl && !h.pl && h.g.ok

/-- Every token bit is legal on a C word (03 R46). -/
def EHead.okC (h : EHead) : Bool := h.g.ok

/-- The token bits of an S word are GL and PL (03 R46). -/
def EHead.okS (h : EHead) : Bool := !h.gr && !h.pr && h.g.ok

/-- An instruction whose operand values the spec admits: the word it encodes to passes every check of 05 R103 that one
word can fail by itself. The events of the table carry no encoding and are admitted whole. -/
def Instr.wf : Instr → Bool
  | .dispatch .. => true
  | .harrowCompare .. => true
  | .entryRetire .. => true
  | .tokenDeadlock .. => true
  | .instructionFetchMissFill .. => true
  | .seedPop .. => true
  | .seedAging .. => true
  | .nackResend .. => true
  | .barrierArrivalMessage .. => true
  | .barrierReleaseMessage .. => true
  | .leaseGrant .. => true
  | .leaseTimeLimit .. => true
  | .frontEndWaitEnd .. => true
  | .loadDataReturn .. => true
  | .add g .. => g.ok
  | .sub g .. => g.ok
  | .mul g .. => g.ok
  | .mulh g .. => g.ok
  | .div g .. => g.ok
  | .rem g .. => g.ok
  | .and g .. => g.ok
  | .or g .. => g.ok
  | .xor g .. => g.ok
  | .shl g .. => g.ok
  | .shr g .. => g.ok
  | .sra g .. => g.ok
  | .min g .. => g.ok
  | .max g .. => g.ok
  | .sel g .. => g.ok
  | .clz g .. => g.ok
  | .ctz g .. => g.ok
  | .popc g .. => g.ok
  | .addi g .. => g.ok
  | .andi g .. => g.ok
  | .ori g .. => g.ok
  | .xori g .. => g.ok
  | .shli g _ _ imm => g.ok && imm.toNat ≤ 63
  | .shri g _ _ imm => g.ok && imm.toNat ≤ 63
  | .srai g _ _ imm => g.ok && imm.toNat ≤ 63
  | .muli g .. => g.ok
  | .movi g .. => g.ok
  | .movhi g .. => g.ok
  | .lea g .. => g.ok
  | .leal g .. => g.ok
  | .movl g .. => g.ok
  | .ld8 g .. => g.ok
  | .ld16 g .. => g.ok
  | .ld32 g .. => g.ok
  | .ld64 g .. => g.ok
  | .ld8s g .. => g.ok
  | .ld16s g .. => g.ok
  | .ld32s g .. => g.ok
  | .st8 g .. => g.ok
  | .st16 g .. => g.ok
  | .st32 g .. => g.ok
  | .st64 g .. => g.ok
  | .fadd g .. => g.ok
  | .fsub g .. => g.ok
  | .fmul g .. => g.ok
  | .fdiv g .. => g.ok
  | .ffma g .. => g.ok
  | .fsqrt g .. => g.ok
  | .fmin g .. => g.ok
  | .fmax g .. => g.ok
  | .fcvt g ty ty2 .. => g.ok && (fcvtTys.contains ty && fcvtTys.contains ty2 && (ty.isFloat || ty2.isFloat) && ty ≠ ty2)
  | .cmp g _ cond .. => g.ok && cond ≠ .uo && cond ≠ .ord
  | .fcmp g .. => g.ok
  | .pand g .. => g.ok
  | .por g .. => g.ok
  | .pxor g .. => g.ok
  | .pnot g .. => g.ok
  | .br g .. => g.ok
  | .jr g .. => g.ok
  | .call g .. => g.ok
  | .callr g .. => g.ok
  | .ret g .. => g.ok
  | .lset g .. => g.ok
  | .lend g .. => g.ok
  | .sow g _ a => g.ok && a.toNat ≤ 28
  | .reap g => g.ok
  | .bar g .. => g.ok
  | .bard g .. => g.ok
  | .barj g .. => g.ok
  | .tokget g .. => g.ok
  | .tokset g .. => g.ok
  | .wtany g .. => g.ok
  | .wtall g .. => g.ok
  | .wtff g .. => g.ok
  | .wcnt g .. => g.ok
  | .qfence g f l c s => g.ok && (f || l || c || s)
  | .rel g .. => g.ok
  | .acq g .. => g.ok
  | .tagclr g .. => g.ok
  | .aadd g .. => g.ok
  | .afadd g .. => g.ok
  | .amin g .. => g.ok
  | .amax g .. => g.ok
  | .aand g .. => g.ok
  | .aor g .. => g.ok
  | .axor g .. => g.ok
  | .aswap g .. => g.ok
  | .acas g .. => g.ok
  | .atomicReply .. => true
  | .sget g .. => g.ok
  | .ssetFpc g .. => g.ok
  | .ssetFps g .. => g.ok
  | .ssetTags g .. => g.ok
  | .ssetLease g .. => g.ok
  | .ssetPrio g .. => g.ok
  | .ssetMemb g .. => g.ok
  | .ssetLc g .. => g.ok
  | .ssetBase g .. => g.ok
  | .tfence g => g.ok
  | .sysNop g .. => g.ok
  | .sysDtime g .. => g.ok
  | .sysHostevent g .. => g.ok
  | .sysAllowance g .. => g.ok
  | .sysEstimate g .. => g.ok
  | .sysCtxinfo g .. => g.ok
  | .sysNoService g _ _ n => g.ok && 6 ≤ n.toNat
  | .pchg g .. => g.ok
  | .pchgApply .. => true
  | .granuleFillEnd .. => true
  | .tlbi g .. => g.ok
  | .tlbia g => g.ok
  | .blclr g .. => g.ok
  | .blq g .. => g.ok
  | .mfmt g .. => g.ok
  | .karm g .. => g.ok
  | .kstat g .. => g.ok
  | .kdis g .. => g.ok
  | .vadd h ty rnd .. => h.okC && (ty.isArith && (rnd == .dyn || ty.isFlt))
  | .vsub h ty rnd .. => h.okC && (ty.isArith && (rnd == .dyn || ty.isFlt))
  | .vmul h ty rnd .. => h.okC && (ty.isArith && (rnd == .dyn || ty.isFlt))
  | .vmulh h ty .. => h.okC && ty.isInt
  | .vfma h ty rnd .. => h.okC && (ty.isArith && (rnd == .dyn || ty.isFlt))
  | .vfms h ty rnd .. => h.okC && (ty.isArith && (rnd == .dyn || ty.isFlt))
  | .vfnma h ty rnd .. => h.okC && (ty.isArith && (rnd == .dyn || ty.isFlt))
  | .vabs h ty sat .. => h.okC && (ty.isArith && (!sat || ty.isInt))
  | .vneg h ty sat .. => h.okC && (ty.isArith && (!sat || ty.isInt))
  | .vmin h ty .. => h.okC && ty.isArith
  | .vmax h ty .. => h.okC && ty.isArith
  | .vabd h ty rnd .. => h.okC && (ty.isArith && (rnd == .dyn || ty.isFlt))
  | .vclamp h ty .. => h.okC && ty.isArith
  | .vdiv h ty rnd .. => h.okC && (ty.isArith && (rnd == .dyn || ty.isFlt))
  | .vand h ty .. => h.okC && ty.isInt
  | .vor h ty .. => h.okC && ty.isInt
  | .vxor h ty .. => h.okC && ty.isInt
  | .vnot h ty .. => h.okC && ty.isInt
  | .vshl h ty .. => h.okC && ty.isInt
  | .vshr h ty .. => h.okC && ty.isInt
  | .vsra h ty .. => h.okC && ty.isInt
  | .vrot h ty .. => h.okC && ty.isInt
  | .vcmp h ty cond .. => h.okC && (ty.isArith && (ty.isFlt || (cond ≠ .uo && cond ≠ .ord)))
  | .vsel h ty .. => h.okC && ty.isAny
  | .kand h .. => h.okC
  | .kor h .. => h.okC
  | .kxor h .. => h.okC
  | .knot h .. => h.okC
  | .kmov h .. => h.okC
  | .kmovS h .. => h.okC
  | .kpop h .. => h.okC
  | .vperm h ty .. => h.okC && ty.isWide
  | .vrev h ty .. => h.okC && ty.isAny
  | .vzip h ty d .. => h.okC && ty.isAny && d.toNat % 2 == 0
  | .vunzip h ty d .. => h.okC && ty.isAny && d.toNat % 2 == 0
  | .vslide h ty .. => h.okC && ty.isAny
  | .vbcast h ty .. => h.okC && ty.isAny
  | .vbcastEl h ty .. => h.okC && ty.isAny
  | .vext h ty .. => h.okC && ty.isAny
  | .vins h ty .. => h.okC && ty.isAny
  | .vmov h ty .. => h.okC && ty.isAny
  | .vcmpr h ty .. => h.okC && ty.isAny
  | .vexpd h ty .. => h.okC && ty.isAny
  | .vwadd h ty ty2 rnd sat _ d .. => h.okC && (widenPair ty2 ty && (ty.isFloat || (rnd == .dyn && !sat)) && d.toNat % 2 == 0)
  | .vwmul h ty ty2 rnd sat _ d .. => h.okC && (widenPair ty2 ty && (ty.isFloat || (rnd == .dyn && !sat)) && d.toNat % 2 == 0)
  | .vwcvt h ty ty2 _ _ _ d .. => h.okC && ty.isAny && ty2.isAny && groupOf ty2 ty && d.toNat % (ty.width / ty2.width) == 0
  | .vnar h ty ty2 _ _ _ _ a => h.okC && ty.isAny && ty2.isAny && groupOf ty ty2 && a.toNat % (ty2.width / ty.width) == 0
  | .vcvt h ty ty2 _ _ _ _ _ part => h.okC && (ty.isAny && (ty2.isAny || (ty2 == .e8m0 && [Ty.e4m3, .bf16, .fp32].contains ty)) && ty ≠ ty2 && ratio ty ty2 ≤ 4 && part.toNat < ratio ty ty2)
  | .vunpk h ty ty2 _ d .. => h.okC && [Ty.i8, .n8, .e4m3, .e5m2].contains ty && [Ty.i4, .n4, .e2m1].contains ty2 && d.toNat % 2 == 0
  | .vsum h ty rnd sat _ _ _ l => h.okC && (ty.isArith && (rnd == .dyn || ty.isFlt) && (!sat || ty.isInt) && segOk ty l)
  | .vsumw h ty ty2 rnd sat _ _ _ l => h.okC && (sumwPair ty2 ty && (rnd == .dyn || ty.isFloat) && (!sat || ty.isInt) && segOk ty2 l && ty.width / ty2.width ≤ 2 ^ l.toNat)
  | .vmaxr h ty _ _ _ l => h.okC && ty.isArith && segOk ty l
  | .vminr h ty _ _ _ l => h.okC && ty.isArith && segOk ty l
  | .vexp h ty .. => h.okC && ty.isFlt
  | .vexp2 h ty .. => h.okC && ty.isFlt
  | .vlog2 h ty .. => h.okC && ty.isFlt
  | .vrcp h ty .. => h.okC && ty.isFlt
  | .vrsqrt h ty .. => h.okC && ty.isFlt
  | .vsqrt h ty .. => h.okC && ty.isFlt
  | .vsin h ty .. => h.okC && ty.isFlt
  | .vcos h ty .. => h.okC && ty.isFlt
  | .vtanh h ty .. => h.okC && ty.isFlt
  | .vsigm h ty .. => h.okC && ty.isFlt
  | .vrand h ty .. => h.okC && (ty.isInt || ty.isFlt)
  | .vld h .. => h.okC
  | .vst h .. => h.okC
  | .vlds h ty .. => h.okC && ty.isAny
  | .vsts h ty .. => h.okC && ty.isAny
  | .vldx h ty .. => h.okC && ty.isWide
  | .vstx h ty .. => h.okC && ty.isWide
  | .vldb h .. => h.okC
  | .mlease h => h.okC
  | .mrel h => h.okC
  | .mmul h t ab ap bb bp asrc bsrc .. => h.okC && (t.toNat ≤ 29 && (!asrc || (ab == 0 && ap == 0)) && (!bsrc || (bb == 0 && bp == 0)))
  | .mslice h t _ _ _ _ _ s .. => h.okC && t.toNat ≤ 29 && 1 ≤ s.toNat && s.toNat ≤ 10
  | .mzero h t => h.okC && t.toNat ≤ 29
  | .mld h t .. => h.okC && t.toNat ≤ 29
  | .mst h t .. => h.okC && t.toNat ≤ 29
  | .msow h .. => h.okC
  | .arrayEntryCheck .. => true
  | .streamBegin .. => true
  | .cpy h f .. => h.okL && (!f.notag || f.tag == 0)
  | .cgat h f .. => h.okL && (!f.notag || f.tag == 0)
  | .cmc h f .. => h.okL && (!f.notag || f.tag == 0)
  | .cpyo h f .. => h.okS && (!f.notag || f.tag == 0)
  | .cget h f .. => h.okL && (!f.notag || f.tag == 0)
  | .cput h f .. => h.okS && (!f.notag || f.tag == 0)
  | .ksig h f .. => h.okS && (!f.notag || f.tag == 0) && f.b == 0
  | .copyPieceRequest .. => true
  | .piecePerformed .. => true
  | .sliceRequest .. => true
  | .ringDelivery .. => true
  | .rehome .. => true
  | .sliceRetire .. => true
  | .slicePowerDown .. => true
  | .coreOffline .. => true
  | .remotePacketArrival .. => true
  | .remoteOperation .. => true
  | .answerArrival .. => true
  | .resendTimeout .. => true
  | .nackBackoffResend .. => true
  | .packetExpiry .. => true
  | .replyCacheExpiry .. => true
  | .laneFallow .. => true
  | .laneRetrain .. => true
  | .spareLinkAssign .. => true
  | .flitReceive .. => true
  | .flitReplay .. => true
  | .packetRoute .. => true
  | .headlandMove .. => true
  | .treeDrain => true
  | .treeSwitch => true
  | .asub h tag notag .. => h.okS && (!notag || tag == 0)
  | .aunsub h tag notag .. => h.okS && (!notag || tag == 0)
  | .amerge h tag notag .. => h.okS && (!notag || tag == 0)
  | .afin h tag notag .. => h.okS && (!notag || tag == 0)
  | .await h tag notag .. => h.okL && (!notag || tag == 0)
  | .mainPassHoldExpiry .. => true
  | .sowerServePage .. => true
  | .gleaningPassStart .. => true
  | .sheafMerge .. => true
  | .workEntryTrigger .. => true
  | .send .. => true
  | .recv .. => true
  | .rrs .. => true
  | .copy .. => true
  | .wait .. => true
  | .loop .. => true
  | .endl .. => true
  | .peer .. => true
  | .halt => true
  | .collPacketArrival .. => true
  | .collPacketResend .. => true
  | .stepTimeout .. => true
  | .abortReceived .. => true
  | .collSuspendMessage .. => true
  | .collResumeMessage .. => true
  | .deferredFaultDelivery .. => true
  | .secdedError .. => true
  | .preemptionDecision .. => true
  | .drainExpiry .. => true
  | .checkpoint .. => true
  | .checkpointImage .. => true
  | .teamResume .. => true
  | .blightSet .. => true
  | .wixWrite .. => true
  | .wakeWrite .. => true
  | .queueRecordWrite .. => true
  | .entryAccept .. => true
  | .slotMap .. => true
  | .slotUnmapIdle .. => true
  | .slotUnmapFairness .. => true
  | .watchSatisfied .. => true
  | .cmdNop .. => true
  | .loadslot .. => true
  | .freeslot .. => true
  | .invoke .. => true
  | .placement .. => true
  | .teamRelease .. => true
  | .cmdWait .. => true
  | .signal .. => true
  | .replay .. => true
  | .replayNodeStart .. => true
  | .ctxnew .. => true
  | .ctxend .. => true
  | .ctxresume .. => true
  | .commandCompletion .. => true
  | .rolernisTakeover .. => true
  | .allowancePeriodEnd .. => true
  | .droopStretch .. => true
  | .domainSuspend .. => true
  | .suspendAbandon => true
  | .retentionEntry => true
  | .domainResume .. => true
  | .packageReset .. => true
  | .rdmaWrite .. => true
  | .rdmaRead .. => true
  | .rdmaSend .. => true
  | .firmwareBoot .. => true
  | .measurementRequest .. => true
  | .allowanceExhausted .. => true
  | .contextEviction .. => true
  | .linkReturn .. => true

end Sys2Proof
end

