-- ==== Sys2Proof/Decode.lean ====
section
/-! DEFINITION. Decoding an Uldor word (05 R84-R105), total on any words and bytes and rejecting by the page scanner's reason
codes (05 R103); decoding a collective step (21 R345); and the encoder, written from the same encoding tables. -/

namespace Sys2Proof

/-- The page scanner's reason codes, in the order of their numbers (05 R103). -/
inductive Reason where
  | opcode | token | field | type | round | sat | scope | select | reg | align | combo | guard | split | target
  deriving DecidableEq, Repr

/-- The number of a reason code (05 R103). -/
def Reason.num : Reason → Nat
  | .opcode => 1 | .token => 2 | .field => 3 | .type => 4 | .round => 5 | .sat => 6 | .scope => 7
  | .select => 8 | .reg => 9 | .align => 10 | .combo => 11 | .guard => 12 | .split => 13 | .target => 14

/-- The type codes (05 R94). -/
def Ty.code : Ty → BitVec 5
  | .i4 => 1 | .n4 => 2 | .i8 => 3 | .n8 => 4 | .i16 => 5 | .n16 => 6 | .i32 => 7 | .n32 => 8 | .i64 => 9 | .n64 => 10
  | .e2m1 => 16 | .e4m3 => 17 | .e5m2 => 18 | .bf16 => 19 | .fp16 => 20 | .fp32 => 21 | .fp64 => 22 | .e8m0 => 23

/-- The type of a code; codes 0, 11-15 and 24-31 name none (05 R94). -/
def Ty.ofCode? (c : BitVec 5) : Option Ty :=
  match c with
  | 1 => some .i4 | 2 => some .n4 | 3 => some .i8 | 4 => some .n8 | 5 => some .i16 | 6 => some .n16 | 7 => some .i32
  | 8 => some .n32 | 9 => some .i64 | 10 => some .n64 | 16 => some .e2m1 | 17 => some .e4m3 | 18 => some .e5m2
  | 19 => some .bf16 | 20 => some .fp16 | 21 => some .fp32 | 22 => some .fp64 | 23 => some .e8m0 | _ => none

/-- The type of a code that the scanner has accepted. -/
def Ty.ofCode (c : BitVec 5) : Ty := (Ty.ofCode? c).getD .i4

/-- The code of a scalar integer type (05 R94). -/
def ITy.code : ITy → BitVec 5
  | .i64 => 9 | .n64 => 10

/-- The scalar integer type of an accepted code. -/
def ITy.ofCode (c : BitVec 5) : ITy := if c = 10 then .n64 else .i64

/-- The code of a scalar float type (05 R94). -/
def FTy.code : FTy → BitVec 5
  | .fp32 => 21 | .fp64 => 22

/-- The scalar float type of an accepted code. -/
def FTy.ofCode (c : BitVec 5) : FTy := if c = 22 then .fp64 else .fp32

/-- The rounding codes (05 R95). -/
def Rnd.code : Rnd → BitVec 3
  | .dyn => 0 | .rne => 1 | .rtz => 2 | .rup => 3 | .rdn => 4

/-- The rounding of an accepted code. -/
def Rnd.ofCode (c : BitVec 3) : Rnd :=
  match c with
  | 1 => .rne | 2 => .rtz | 3 => .rup | 4 => .rdn | _ => .dyn

/-- The scope codes (05 R96). -/
def Scope.code : Scope → BitVec 3
  | .seq => 0 | .core => 1 | .team => 2 | .pkg => 3 | .dom => 4

/-- The scope of an accepted code. -/
def Scope.ofCode (c : BitVec 3) : Scope :=
  match c with
  | 1 => .core | 2 => .team | 3 => .pkg | 4 => .dom | _ => .seq

/-- The condition codes (05 R97). -/
def Cond.code : Cond → BitVec 3
  | .eq => 0 | .ne => 1 | .lt => 2 | .le => 3 | .gt => 4 | .ge => 5 | .uo => 6 | .ord => 7

/-- The condition of a code (05 R97). -/
def Cond.ofCode (c : BitVec 3) : Cond :=
  match c with
  | 0 => .eq | 1 => .ne | 2 => .lt | 3 => .le | 4 => .gt | 5 => .ge | 6 => .uo | _ => .ord

/-- The numbers of the state registers (09 R188). -/
def SReg.num : SReg → BitVec 36
  | .fpc => 0 | .fps => 1 | .tags => 2 | .tagi => 3 | .lc0 => 4 | .lc1 => 5 | .prio => 6 | .memb => 7 | .lease => 8
  | .fqd => 9 | .slot => 10 | .vseq => 11 | .vcore => 12 | .vteam => 13 | .tshape => 14 | .ctx => 15 | .sern => 16
  | .sera => 17 | .cyc => 18 | .vpkg => 19 | .base n => 0x20#36 ||| n.setWidth 36

/-- The state register of a number; the other numbers are unlisted (09 R188). -/
def SReg.ofNum? (n : BitVec 36) : Option SReg :=
  match n with
  | 0 => some .fpc | 1 => some .fps | 2 => some .tags | 3 => some .tagi | 4 => some .lc0 | 5 => some .lc1
  | 6 => some .prio | 7 => some .memb | 8 => some .lease | 9 => some .fqd | 10 => some .slot | 11 => some .vseq
  | 12 => some .vcore | 13 => some .vteam | 14 => some .tshape | 15 => some .ctx | 16 => some .sern | 17 => some .sera
  | 18 => some .cyc | 19 => some .vpkg
  | n => if n >>> 4 = 2 then some (.base (n.setWidth 4)) else none

/-- The state register of a listed number. -/
def SReg.ofNum (n : BitVec 36) : SReg := (SReg.ofNum? n).getD .fpc

/-- The state registers with an RW field, which `sset` accepts (09 R188, R189). -/
def SReg.writable (n : BitVec 36) : Bool :=
  match n with
  | 0 | 1 | 2 | 4 | 5 | 6 | 7 | 8 => true
  | n => n >>> 4 = 2

/-- The fields common to all words, and the operand bits (05 R84). -/
structure Raw where
  q : BitVec 2
  gl : Bool := false
  gr : Bool := false
  pl : Bool := false
  pr : Bool := false
  op : BitVec 8
  pg : BitVec 3
  pn : Bool
  body : BitVec 46
  deriving DecidableEq, Repr

/-- One bit as a bit vector of width one. -/
def bit1 (b : Bool) : BitVec 1 := BitVec.ofBool b

/-- The bit vector with bit k equal to b and the rest 0. -/
def bit {w : Nat} (k : Nat) (b : Bool) : BitVec w := if b then 1#w <<< k else 0#w

/-- The common fields of a word (05 R84). -/
def Raw.ofWord (w : W64) : Raw :=
  { q := w.extractLsb' 62 2, gl := w.getLsbD 61, gr := w.getLsbD 60, pl := w.getLsbD 59, pr := w.getLsbD 58,
    op := w.extractLsb' 50 8, pg := w.extractLsb' 47 3, pn := w.getLsbD 46, body := w.extractLsb' 0 46 }

/-- The word with the given common fields (05 R84). -/
def Raw.toWord (r : Raw) : W64 :=
  r.q ++ bit1 r.gl ++ bit1 r.gr ++ bit1 r.pl ++ bit1 r.pr ++ r.op ++ r.pg ++ bit1 r.pn ++ r.body

/-- The operands of an RRR word (05 R88). -/
structure RRR where
  d : Reg := 0
  a : Reg := 0
  b : Reg := 0
  c : Reg := 0
  ty : BitVec 5 := 0
  ty2 : BitVec 5 := 0
  rnd : BitVec 3 := 0
  sat : Bool := false
  scope : BitVec 3 := 0
  km : KReg := 0
  opx : BitVec 6 := 0
  deriving DecidableEq, Repr

/-- The operand fields of an RRR word (05 R88). -/
def RRR.ofBits (w : BitVec 46) : RRR :=
  { d := w.extractLsb' 41 5, a := w.extractLsb' 36 5, b := w.extractLsb' 31 5, c := w.extractLsb' 26 5,
    ty := w.extractLsb' 21 5, ty2 := w.extractLsb' 16 5, rnd := w.extractLsb' 13 3, sat := w.getLsbD 12,
    scope := w.extractLsb' 9 3, km := w.extractLsb' 6 3, opx := w.extractLsb' 0 6 }

/-- The operand bits of an RRR word (05 R88). -/
def RRR.toBits (r : RRR) : BitVec 46 :=
  r.d ++ r.a ++ r.b ++ r.c ++ r.ty ++ r.ty2 ++ r.rnd ++ bit1 r.sat ++ r.scope ++ r.km ++ r.opx

/-- The operands of an RRI word (05 R89). -/
structure RRI where
  d : Reg := 0
  a : Reg := 0
  imm : BitVec 36 := 0
  deriving DecidableEq, Repr

/-- The operand fields of an RRI word (05 R89). -/
def RRI.ofBits (w : BitVec 46) : RRI :=
  { d := w.extractLsb' 41 5, a := w.extractLsb' 36 5, imm := w.extractLsb' 0 36 }

/-- The operand bits of an RRI word (05 R89). -/
def RRI.toBits (r : RRI) : BitVec 46 := r.d ++ r.a ++ r.imm

/-- The operands of an RI word (05 R90). -/
structure RI where
  d : Reg := 0
  imm : BitVec 41 := 0
  deriving DecidableEq, Repr

/-- The operand fields of an RI word (05 R90). -/
def RI.ofBits (w : BitVec 46) : RI := { d := w.extractLsb' 41 5, imm := w.extractLsb' 0 41 }

/-- The operand bits of an RI word (05 R90). -/
def RI.toBits (r : RI) : BitVec 46 := r.d ++ r.imm

/-- The operands of an MX word (05 R91). -/
structure MX where
  t : Reg := 0
  ab : Reg := 0
  ap : Reg := 0
  bb : Reg := 0
  bp : Reg := 0
  asrc : Bool := false
  bsrc : Bool := false
  acc : Bool := false
  s : BitVec 4 := 0
  bus : BitVec 2 := 0
  kf : BitVec 12 := 0
  deriving DecidableEq, Repr

/-- The operand fields of an MX word (05 R91). -/
def MX.ofBits (w : BitVec 46) : MX :=
  { t := w.extractLsb' 41 5, ab := w.extractLsb' 36 5, ap := w.extractLsb' 31 5, bb := w.extractLsb' 26 5,
    bp := w.extractLsb' 21 5, asrc := w.getLsbD 20, bsrc := w.getLsbD 19, acc := w.getLsbD 18, s := w.extractLsb' 14 4,
    bus := w.extractLsb' 12 2, kf := w.extractLsb' 0 12 }

/-- The operand bits of an MX word (05 R91). -/
def MX.toBits (r : MX) : BitVec 46 :=
  r.t ++ r.ab ++ r.ap ++ r.bb ++ r.bp ++ bit1 r.asrc ++ bit1 r.bsrc ++ bit1 r.acc ++ r.s ++ r.bus ++ r.kf

/-- The operands of a CX word as bits (05 R92): SCOPE may hold a reserved code. -/
structure CXB where
  tag : BitVec 6 := 0
  p : Reg := 0
  a : Reg := 0
  b : Reg := 0
  c : Reg := 0
  scope : BitVec 3 := 0
  notag : Bool := false
  opx : BitVec 16 := 0
  deriving DecidableEq, Repr

/-- The operand fields of a CX word (05 R92). -/
def CXB.ofBits (w : BitVec 46) : CXB :=
  { tag := w.extractLsb' 40 6, p := w.extractLsb' 35 5, a := w.extractLsb' 30 5, b := w.extractLsb' 25 5,
    c := w.extractLsb' 20 5, scope := w.extractLsb' 17 3, notag := w.getLsbD 16, opx := w.extractLsb' 0 16 }

/-- The operand bits of a CX word (05 R92). -/
def CXB.toBits (r : CXB) : BitVec 46 :=
  r.tag ++ r.p ++ r.a ++ r.b ++ r.c ++ r.scope ++ bit1 r.notag ++ r.opx

/-- The operands of a CX word whose scope code the scanner has accepted. -/
structure CXW where
  f : CX
  opx : BitVec 16 := 0
  deriving DecidableEq, Repr

/-- The accepted operands of a CX word. -/
def CXW.ofB (r : CXB) : CXW :=
  { f := { tag := r.tag, p := r.p, a := r.a, b := r.b, c := r.c, scope := Scope.ofCode r.scope, notag := r.notag },
    opx := r.opx }

/-- The bits' fields of a CX word. -/
def CXW.toB (r : CXW) : CXB :=
  { tag := r.f.tag, p := r.f.p, a := r.f.a, b := r.f.b, c := r.f.c, scope := r.f.scope.code, notag := r.f.notag,
    opx := r.opx }

/-- The operands of the first word of a two-word form (05 R93). -/
structure XX where
  d : Reg := 0
  a : Reg := 0
  rest : BitVec 36 := 0
  deriving DecidableEq, Repr

/-- The operand fields of a two-word form's first word (05 R93). -/
def XX.ofBits (w : BitVec 46) : XX :=
  { d := w.extractLsb' 41 5, a := w.extractLsb' 36 5, rest := w.extractLsb' 0 36 }

/-- The operand bits of a two-word form's first word (05 R93). -/
def XX.toBits (r : XX) : BitVec 46 := r.d ++ r.a ++ r.rest

/-- What an instruction lets a register field hold: nothing (it must be 0), any of 32, one of 8, or one of 2 (05 R102). -/
inductive Cls where
  | absent | full | eight | two
  deriving DecidableEq, Repr

/-- A field that the encoding does not include is 0 (05 R103, FIELD). -/
def Cls.fieldOk (c : Cls) (x : Reg) : Bool := c ≠ .absent || x == 0

/-- A register field lies within its class (05 R102, R103, REG). -/
def Cls.regOk : Cls → Reg → Bool
  | .eight, x => x ≤ 7
  | .two, x => x ≤ 1
  | _, _ => true

/-- What an RRR instruction accepts: the register fields its template uses, whether TYPE and TYPE2 are accepted as they
stand, whether RND, SAT, SCOPE and KM may be other than 0, whether OPX is defined, and whether the groups are aligned. -/
structure Need where
  d : Cls := .absent
  a : Cls := .absent
  b : Cls := .absent
  c : Cls := .absent
  ty : Option Bool := none
  rnd : Bool := false
  sat : Bool := false
  scope : Bool := false
  km : Bool := false
  opx : Option Bool := none
  align : Bool := true

/-- What an RRI, RI or X instruction accepts. -/
structure NeedI where
  d : Cls := .absent
  a : Cls := .absent
  sel : Bool := true
  combo : Bool := true

/-- TYPE is accepted by p, with TYPE2 = 0. -/
def isTy (p : Ty → Bool) (r : RRR) : Option Bool := some ((Ty.ofCode? r.ty).any p && r.ty2 == 0)

/-- TYPE and TYPE2 are a pair that p accepts. -/
def isTys (p : Ty → Ty → Bool) (r : RRR) : Option Bool :=
  some ((Ty.ofCode? r.ty).any fun t => (Ty.ofCode? r.ty2).any fun u => p t u)

/-- The F-route RRR instructions (05 R98; 09 R157-R196, 13 R231, 21 R359). -/
def needF (op : BitVec 8) (r : RRR) : Option Need :=
  match op with
  | 0x01 => some { d := .full, a := .full, b := .full, ty := some ((r.ty == 9 || r.ty == 10) && r.ty2 == 0), sat := true }
  | 0x02 => some { d := .full, a := .full, b := .full, ty := some ((r.ty == 9 || r.ty == 10) && r.ty2 == 0), sat := true }
  | 0x03 => some { d := .full, a := .full, b := .full, ty := some ((r.ty == 9 || r.ty == 10) && r.ty2 == 0), sat := true }
  | 0x04 => some { d := .full, a := .full, b := .full, ty := some ((r.ty == 9 || r.ty == 10) && r.ty2 == 0) }
  | 0x05 => some { d := .full, a := .full, b := .full, ty := some ((r.ty == 9 || r.ty == 10) && r.ty2 == 0), sat := true }
  | 0x06 => some { d := .full, a := .full, b := .full, ty := some ((r.ty == 9 || r.ty == 10) && r.ty2 == 0) }
  | 0x07 => some { d := .full, a := .full, b := .full, ty := some ((r.ty == 9 || r.ty == 10) && r.ty2 == 0) }
  | 0x08 => some { d := .full, a := .full, b := .full, ty := some ((r.ty == 9 || r.ty == 10) && r.ty2 == 0) }
  | 0x09 => some { d := .full, a := .full, b := .full, ty := some ((r.ty == 9 || r.ty == 10) && r.ty2 == 0) }
  | 0x0a => some { d := .full, a := .full, b := .full, ty := some ((r.ty == 9 || r.ty == 10) && r.ty2 == 0), sat := true }
  | 0x0b => some { d := .full, a := .full, b := .full, ty := some ((r.ty == 9 || r.ty == 10) && r.ty2 == 0) }
  | 0x0c => some { d := .full, a := .full, b := .full, ty := some ((r.ty == 9 || r.ty == 10) && r.ty2 == 0) }
  | 0x0d => some { d := .full, a := .full, b := .full, ty := some ((r.ty == 9 || r.ty == 10) && r.ty2 == 0) }
  | 0x0e => some { d := .full, a := .full, b := .full, ty := some ((r.ty == 9 || r.ty == 10) && r.ty2 == 0) }
  | 0x0f => some { d := .full, a := .full, b := .full, c := .eight, ty := some ((r.ty == 9 || r.ty == 10) && r.ty2 == 0) }
  | 0x10 => some { d := .full, a := .full, ty := some ((r.ty == 9 || r.ty == 10) && r.ty2 == 0) }
  | 0x11 => some { d := .full, a := .full, ty := some ((r.ty == 9 || r.ty == 10) && r.ty2 == 0) }
  | 0x12 => some { d := .full, a := .full, ty := some ((r.ty == 9 || r.ty == 10) && r.ty2 == 0) }
  | 0x38 => some { d := .full, a := .full, b := .full, ty := some ((r.ty == 21 || r.ty == 22) && r.ty2 == 0), rnd := true }
  | 0x39 => some { d := .full, a := .full, b := .full, ty := some ((r.ty == 21 || r.ty == 22) && r.ty2 == 0), rnd := true }
  | 0x3a => some { d := .full, a := .full, b := .full, ty := some ((r.ty == 21 || r.ty == 22) && r.ty2 == 0), rnd := true }
  | 0x3b => some { d := .full, a := .full, b := .full, ty := some ((r.ty == 21 || r.ty == 22) && r.ty2 == 0), rnd := true }
  | 0x3c => some { d := .full, a := .full, b := .full, c := .full, ty := some ((r.ty == 21 || r.ty == 22) && r.ty2 == 0), rnd := true }
  | 0x3d => some { d := .full, a := .full, ty := some ((r.ty == 21 || r.ty == 22) && r.ty2 == 0), rnd := true }
  | 0x3e => some { d := .full, a := .full, b := .full, ty := some ((r.ty == 21 || r.ty == 22) && r.ty2 == 0) }
  | 0x3f => some { d := .full, a := .full, b := .full, ty := some ((r.ty == 21 || r.ty == 22) && r.ty2 == 0) }
  | 0x40 => some { d := .full, a := .full, ty := isTys (fun t u => fcvtTys.contains t && fcvtTys.contains u && (t.isFloat || u.isFloat) && t ≠ u) r, rnd := true, sat := true }
  | 0x48 => some { d := .eight, a := .full, b := .full, ty := some ((r.ty == 9 || r.ty == 10) && r.ty2 == 0), opx := some (r.opx ≤ 5) }
  | 0x49 => some { d := .eight, a := .full, b := .full, ty := some ((r.ty == 21 || r.ty == 22) && r.ty2 == 0), opx := some (r.opx ≤ 7) }
  | 0x4a => some { d := .eight, a := .eight, b := .eight }
  | 0x4b => some { d := .eight, a := .eight, b := .eight }
  | 0x4c => some { d := .eight, a := .eight, b := .eight }
  | 0x4d => some { d := .eight, a := .eight }
  | 0x51 => some { a := .full }
  | 0x53 => some { d := .full, a := .full }
  | 0x54 => some { a := .full }
  | 0x60 => some { d := .full, a := .full, align := r.a ≤ 28 }
  | 0x61 => some {}
  | 0x62 => some { scope := true }
  | 0x63 => some { scope := true }
  | 0x64 => some { scope := true }
  | 0x68 => some { d := .full }
  | 0x69 => some { a := .full }
  | 0x6a => some { d := .full, a := .full }
  | 0x6b => some { d := .full, a := .full }
  | 0x6c => some { d := .full, a := .full }
  | 0x6d => some { d := .full, a := .full, b := .full, scope := true }
  | 0x6e => some { opx := some (1 ≤ r.opx && r.opx ≤ 15) }
  | 0x6f => some { scope := true }
  | 0x70 => some { scope := true }
  | 0x71 => some { a := .full }
  | 0x78 => some { d := .full, a := .full, b := .full, ty := some (r.ty == 9 && r.ty2 == 0) }
  | 0x79 => some { d := .full, a := .full, b := .full, ty := some (r.ty == 21 && r.ty2 == 0) }
  | 0x7a => some { d := .full, a := .full, b := .full, ty := some ((r.ty == 9 || r.ty == 10) && r.ty2 == 0) }
  | 0x7b => some { d := .full, a := .full, b := .full, ty := some ((r.ty == 9 || r.ty == 10) && r.ty2 == 0) }
  | 0x7c => some { d := .full, a := .full, b := .full, ty := some (r.ty == 9 && r.ty2 == 0) }
  | 0x7d => some { d := .full, a := .full, b := .full, ty := some (r.ty == 9 && r.ty2 == 0) }
  | 0x7e => some { d := .full, a := .full, b := .full, ty := some (r.ty == 9 && r.ty2 == 0) }
  | 0x7f => some { d := .full, a := .full, b := .full, ty := some (r.ty == 9 && r.ty2 == 0) }
  | 0x80 => some { d := .full, a := .full, b := .full, c := .full, ty := some (r.ty == 9 && r.ty2 == 0) }
  | 0x8a => some {}
  | 0x8b => some { d := .full, a := .full, opx := some (r.opx ≤ 15) }
  | 0x8c => some { a := .full }
  | 0x8d => some { a := .full }
  | 0x8e => some {}
  | 0x8f => some { a := .full }
  | 0x90 => some { d := .full, a := .full }
  | 0x91 => some { a := .full }
  | 0x98 => some { d := .full, a := .full, b := .full }
  | 0x99 => some { d := .full, b := .full }
  | 0x9a => some { d := .full, b := .full }
  | _ => none

/-- The C-route RRR instructions (05 R100, 11 R204-R222). Of `vbcast` (0x26) with an OPX that the spec does not define, OPX[0] alone says
whether B counts as an included field, so that a B other than 0 is FIELD with OPX = 2 and SELECT with OPX = 3: the model's choice, for the
spec names only the forms OPX = 0 and OPX = 1 (R103; assumption 54). -/
def needC (op : BitVec 8) (r : RRR) : Option Need :=
  match op with
  | 0x01 => some { d := .full, a := .full, b := .full, ty := isTy Ty.isArith r, rnd := (Ty.ofCode r.ty).isFlt, sat := true, km := true, opx := some (r.opx ≤ 1) }
  | 0x02 => some { d := .full, a := .full, b := .full, ty := isTy Ty.isArith r, rnd := (Ty.ofCode r.ty).isFlt, sat := true, km := true, opx := some (r.opx ≤ 1) }
  | 0x03 => some { d := .full, a := .full, b := .full, ty := isTy Ty.isArith r, rnd := (Ty.ofCode r.ty).isFlt, sat := true, km := true, opx := some (r.opx ≤ 1) }
  | 0x04 => some { d := .full, a := .full, b := .full, ty := isTy Ty.isInt r, km := true, opx := some (r.opx ≤ 1) }
  | 0x05 => some { d := .full, a := .full, b := .full, c := .full, ty := isTy Ty.isArith r, rnd := (Ty.ofCode r.ty).isFlt, sat := true, km := true, opx := some (r.opx ≤ 3) }
  | 0x06 => some { d := .full, a := .full, b := .full, c := .full, ty := isTy Ty.isArith r, rnd := (Ty.ofCode r.ty).isFlt, sat := true, km := true, opx := some (r.opx ≤ 3) }
  | 0x07 => some { d := .full, a := .full, b := .full, c := .full, ty := isTy Ty.isArith r, rnd := (Ty.ofCode r.ty).isFlt, sat := true, km := true, opx := some (r.opx ≤ 3) }
  | 0x08 => some { d := .full, a := .full, ty := isTy Ty.isArith r, sat := (Ty.ofCode r.ty).isInt, km := true }
  | 0x09 => some { d := .full, a := .full, ty := isTy Ty.isArith r, sat := (Ty.ofCode r.ty).isInt, km := true }
  | 0x0a => some { d := .full, a := .full, b := .full, ty := isTy Ty.isArith r, km := true, opx := some (r.opx ≤ 1) }
  | 0x0b => some { d := .full, a := .full, b := .full, ty := isTy Ty.isArith r, km := true, opx := some (r.opx ≤ 1) }
  | 0x0c => some { d := .full, a := .full, b := .full, ty := isTy Ty.isArith r, rnd := (Ty.ofCode r.ty).isFlt, sat := true, km := true, opx := some (r.opx ≤ 1) }
  | 0x0d => some { d := .full, a := .full, b := .full, c := .full, ty := isTy Ty.isArith r, km := true, opx := some (r.opx ≤ 3) }
  | 0x0e => some { d := .full, a := .full, b := .full, ty := isTy Ty.isArith r, rnd := (Ty.ofCode r.ty).isFlt, sat := true, km := true, opx := some (r.opx ≤ 1) }
  | 0x11 => some { d := .full, a := .full, b := .full, ty := isTy Ty.isInt r, km := true, opx := some (r.opx ≤ 1) }
  | 0x12 => some { d := .full, a := .full, b := .full, ty := isTy Ty.isInt r, km := true, opx := some (r.opx ≤ 1) }
  | 0x13 => some { d := .full, a := .full, b := .full, ty := isTy Ty.isInt r, km := true, opx := some (r.opx ≤ 1) }
  | 0x14 => some { d := .full, a := .full, ty := isTy Ty.isInt r, km := true }
  | 0x15 => some { d := .full, a := .full, b := .full, ty := isTy Ty.isInt r, sat := true, km := true, opx := some (r.opx ≤ 1) }
  | 0x16 => some { d := .full, a := .full, b := .full, ty := isTy Ty.isInt r, km := true, opx := some (r.opx ≤ 1) }
  | 0x17 => some { d := .full, a := .full, b := .full, ty := isTy Ty.isInt r, km := true, opx := some (r.opx ≤ 1) }
  | 0x18 => some { d := .full, a := .full, b := .full, ty := isTy Ty.isInt r, km := true, opx := some (r.opx ≤ 1) }
  | 0x19 => some { d := .eight, a := .full, b := .full, ty := isTy Ty.isArith r, km := true, opx := some (r.opx ≤ 15 && ((Ty.ofCode r.ty).isFlt || r.opx &&& 7 ≤ 5)) }
  | 0x1a => some { d := .full, a := .full, b := .full, c := .eight, ty := isTy Ty.isAny r, km := true }
  | 0x1b => some { d := .eight, a := .eight, b := .eight }
  | 0x1c => some { d := .eight, a := .eight, b := .eight }
  | 0x1d => some { d := .eight, a := .eight, b := .eight }
  | 0x1e => some { d := .eight, a := .eight }
  | 0x1f => some (if r.opx.getLsbD 5 then { d := .eight, a := .full, opx := some (!r.opx.getLsbD 4) } else { d := .eight, a := .eight })
  | 0x20 => some { d := .full, a := .eight, ty := some (r.ty == 8 && r.ty2 == 0), km := true }
  | 0x21 => some { d := .full, a := .full, b := .full, ty := isTy Ty.isWide r, km := true }
  | 0x22 => some { d := .full, a := .full, ty := isTy Ty.isAny r, km := true }
  | 0x23 => some { d := .full, a := .full, b := .full, ty := isTy Ty.isAny r, align := r.d.toNat % 2 == 0 }
  | 0x24 => some { d := .full, a := .full, b := .full, ty := isTy Ty.isAny r, align := r.d.toNat % 2 == 0 }
  | 0x25 => some { d := .full, a := .full, b := .full, c := .full, ty := isTy Ty.isAny r, km := true }
  | 0x26 => some (if r.opx.getLsbD 0 then { d := .full, a := .full, b := .full, ty := isTy Ty.isAny r, km := true, opx := some (r.opx == 1) }
      else { d := .full, a := .full, ty := isTy Ty.isAny r, km := true })
  | 0x27 => some { d := .full, a := .full, b := .full, ty := isTy Ty.isAny r }
  | 0x28 => some { d := .full, a := .full, b := .full, ty := isTy Ty.isAny r }
  | 0x29 => some { d := .full, a := .full, ty := isTy Ty.isAny r, km := true }
  | 0x2a => some { d := .full, a := .full, ty := isTy Ty.isAny r, km := true }
  | 0x2b => some { d := .full, a := .full, ty := isTy Ty.isAny r, km := true }
  | 0x2c => some { d := .full, a := .full, b := .full, ty := isTys (fun t u => widenPair u t) r, rnd := (Ty.ofCode r.ty).isFloat, sat := (Ty.ofCode r.ty).isFloat, km := true, align := r.d.toNat % 2 == 0 }
  | 0x2d => some { d := .full, a := .full, b := .full, ty := isTys (fun t u => widenPair u t) r, rnd := (Ty.ofCode r.ty).isFloat, sat := (Ty.ofCode r.ty).isFloat, km := true, align := r.d.toNat % 2 == 0 }
  | 0x2e => some { d := .full, a := .full, ty := isTys (fun t u => t.isAny && u.isAny && groupOf u t) r, rnd := true, sat := true, km := true, align := r.d.toNat % ((Ty.ofCode r.ty).width / (Ty.ofCode r.ty2).width) == 0 }
  | 0x2f => some { d := .full, a := .full, ty := isTys (fun t u => t.isAny && u.isAny && groupOf t u) r, rnd := true, sat := true, km := true, align := r.a.toNat % ((Ty.ofCode r.ty2).width / (Ty.ofCode r.ty).width) == 0 }
  | 0x30 => some { d := .full, a := .full, ty := isTys (fun t u => t.isAny && (u.isAny || (u == .e8m0 && [Ty.e4m3, .bf16, .fp32].contains t)) && t ≠ u && ratio t u ≤ 4) r, rnd := true, sat := true, km := true, opx := some (r.opx ≤ 3 && (r.opx.toNat < ratio (Ty.ofCode r.ty) (Ty.ofCode r.ty2))) }
  | 0x31 => some { d := .full, a := .full, b := .full, c := .full, ty := isTys (fun t u => [Ty.i8, .n8, .e4m3, .e5m2].contains t && [Ty.i4, .n4, .e2m1].contains u) r, km := true, align := r.d.toNat % 2 == 0 }
  | 0x32 => some { d := .full, a := .full, ty := isTy Ty.isArith r, rnd := (Ty.ofCode r.ty).isFlt, sat := (Ty.ofCode r.ty).isInt, km := true, opx := some (r.opx ≤ 15 && segOk (Ty.ofCode r.ty) (r.opx.setWidth 4)) }
  | 0x33 => some { d := .full, a := .full, ty := isTys (fun t u => sumwPair u t) r, rnd := (Ty.ofCode r.ty).isFloat, sat := (Ty.ofCode r.ty).isInt, km := true, opx := some (r.opx ≤ 15 && segOk (Ty.ofCode r.ty2) (r.opx.setWidth 4) && (Ty.ofCode r.ty).width / (Ty.ofCode r.ty2).width ≤ 2 ^ r.opx.toNat) }
  | 0x34 => some { d := .full, a := .full, ty := isTy Ty.isArith r, km := true, opx := some (r.opx ≤ 15 && segOk (Ty.ofCode r.ty) (r.opx.setWidth 4)) }
  | 0x35 => some { d := .full, a := .full, ty := isTy Ty.isArith r, km := true, opx := some (r.opx ≤ 15 && segOk (Ty.ofCode r.ty) (r.opx.setWidth 4)) }
  | 0x36 => some { d := .full, a := .full, ty := isTy Ty.isFlt r, km := true }
  | 0x37 => some { d := .full, a := .full, ty := isTy Ty.isFlt r, km := true }
  | 0x38 => some { d := .full, a := .full, ty := isTy Ty.isFlt r, km := true }
  | 0x39 => some { d := .full, a := .full, ty := isTy Ty.isFlt r, km := true }
  | 0x3a => some { d := .full, a := .full, ty := isTy Ty.isFlt r, km := true }
  | 0x3b => some { d := .full, a := .full, ty := isTy Ty.isFlt r, rnd := true, km := true }
  | 0x3c => some { d := .full, a := .full, ty := isTy Ty.isFlt r, km := true }
  | 0x3d => some { d := .full, a := .full, ty := isTy Ty.isFlt r, km := true }
  | 0x3e => some { d := .full, a := .full, ty := isTy Ty.isFlt r, km := true }
  | 0x3f => some { d := .full, a := .full, ty := isTy Ty.isFlt r, km := true }
  | 0x40 => some { d := .full, a := .full, b := .full, ty := isTy (fun t => t.isInt || t.isFlt) r, km := true }
  | 0x43 => some { d := .full, a := .full, b := .full, ty := isTy Ty.isAny r, km := true }
  | 0x44 => some { d := .full, a := .full, b := .full, ty := isTy Ty.isAny r, km := true }
  | 0x45 => some { d := .full, a := .full, b := .full, ty := isTy Ty.isWide r, km := true }
  | 0x46 => some { d := .full, a := .full, b := .full, ty := isTy Ty.isWide r, km := true }
  | _ => none

/-- The F-route RRI instructions (05 R98; 09 R159-R163, R171, R188). -/
def needRri (op : BitVec 8) (r : RRI) : Option NeedI :=
  match op with
  | 0x18 => some { d := .full, a := .full }
  | 0x19 => some { d := .full, a := .full }
  | 0x1a => some { d := .full, a := .full }
  | 0x1b => some { d := .full, a := .full }
  | 0x1c => some { d := .full, a := .full, combo := r.imm ≤ 63 }
  | 0x1d => some { d := .full, a := .full, combo := r.imm ≤ 63 }
  | 0x1e => some { d := .full, a := .full, combo := r.imm ≤ 63 }
  | 0x1f => some { d := .full, a := .full }
  | 0x22 => some { d := .full, a := .full }
  | 0x28 => some { d := .full, a := .full }
  | 0x29 => some { d := .full, a := .full }
  | 0x2a => some { d := .full, a := .full }
  | 0x2b => some { d := .full, a := .full }
  | 0x2c => some { d := .full, a := .full }
  | 0x2d => some { d := .full, a := .full }
  | 0x2e => some { d := .full, a := .full }
  | 0x30 => some { d := .full, a := .full }
  | 0x31 => some { d := .full, a := .full }
  | 0x32 => some { d := .full, a := .full }
  | 0x33 => some { d := .full, a := .full }
  | 0x55 => some { d := .two, a := .full }
  | 0x88 => some { d := .full, sel := (SReg.ofNum? r.imm).isSome }
  | 0x89 => some { a := .full, sel := SReg.writable r.imm }
  | _ => none

/-- The C-route RRI instructions (05 R100, 11 R222). -/
def needRriC (op : BitVec 8) (_r : RRI) : Option NeedI :=
  match op with
  | 0x41 => some { d := .full, a := .full }
  | 0x42 => some { d := .full, a := .full }
  | 0x47 => some { d := .full, a := .full }
  | _ => none

/-- The RI instructions (05 R98; 09 R160, R171). -/
def needRi (op : BitVec 8) (_r : RI) : Option NeedI :=
  match op with
  | 0x20 => some { d := .full }
  | 0x21 => some { d := .full }
  | 0x50 => some {}
  | 0x52 => some { d := .full }
  | 0x56 => some { d := .two }
  | _ => none

/-- The two-word forms (05 R98, R93; 09 R161). -/
def needX (op : BitVec 8) (_r : XX) : Option NeedI :=
  match op with
  | 0x23 => some { d := .full, a := .full }
  | 0x24 => some { d := .full }
  | _ => none

/-- What an MX command's encoding leaves out is 0 (13 R243-R251; 05 R103, FIELD). -/
def MX.fieldOk (op : BitVec 8) (r : MX) : Bool :=
  let noA := r.ab == 0 && r.ap == 0
  let noB := r.bb == 0 && r.bp == 0 && !r.bsrc
  match op with
  | 0xC0 | 0xC1 => r == {}
  | 0xC2 => r.s == 0 && r.bus == 0
  | 0xC3 => r.bus == 0
  | 0xC4 => noA && noB && !r.asrc && !r.acc && r.s == 0 && r.bus == 0 && r.kf == 0
  | 0xC5 => noB && !r.asrc && r.s == 0 && r.bus == 0 && r.kf == 0
  | 0xC6 => noB && !r.asrc && !r.acc && r.s == 0 && r.bus == 0 && r.kf == 0
  | _ => r.t == 0 && noB && !r.asrc && !r.acc && r.s == 0

/-- The combinations an MX command forbids (05 R91, R103; 13 R246, R251). -/
def MX.comboOk (op : BitVec 8) (r : MX) : Bool :=
  match op with
  | 0xC2 => (!r.asrc || (r.ab == 0 && r.ap == 0)) && (!r.bsrc || (r.bb == 0 && r.bp == 0))
  | 0xC3 => 1 ≤ r.s && r.s ≤ 10 && !r.asrc && !r.bsrc
  | 0xC7 => r.bus == 1 || r.bus == 2
  | _ => true

/-- What a CX command's encoding leaves out is 0 (17 R301; 19 R325, R332, R333, R336; 05 R103, FIELD). -/
def CXB.fieldOk (q : BitVec 2) (op : BitVec 8) (r : CXB) : Bool :=
  if q == 1 then (op ≠ 5 || (r.a == 0 && r.b == 0 && r.c == 0))
  else match op with
    | 3 => r.b == 0
    | 4 | 5 | 7 => r.a == 0 && r.b == 0 && r.c == 0
    | 6 => r.c == 0
    | _ => true

/-- Whether a CX command takes a scope and an OPX bit (15 R273, 17 R297, R301). -/
def CXB.copies (q : BitVec 2) (op : BitVec 8) : Bool := if q == 1 then op ≠ 5 else op ≤ 3

/-- The first check that fails, in the order given. -/
def firstBad : List (Bool × Reason) → Option Reason
  | [] => none
  | (true, _) :: rest => firstBad rest
  | (false, r) :: _ => some r

/-- The token bits that each route allows (03 R46, 05 R87). -/
def tokOk (w : Raw) : Bool :=
  match w.q with
  | 0 => !w.gl && !w.gr && !w.pl && !w.pr
  | 1 => !w.gl && !w.pl
  | 2 => true
  | _ => !w.gr && !w.pr

/-- `!p0` is no guard (05 R103, GUARD). -/
def guardOk (w : Raw) : Bool := !(w.pg == 0 && w.pn)

/-- The checks of an RRR word, in the order of their codes (05 R103). -/
def checkRrr (w : Raw) (r : RRR) : Option Need → Option Reason
  | none => some .opcode
  | some n => firstBad
      [(tokOk w, .token),
       (n.d.fieldOk r.d && n.a.fieldOk r.a && n.b.fieldOk r.b && n.c.fieldOk r.c, .field),
       (n.ty.getD (r.ty == 0 && r.ty2 == 0), .type),
       (r.rnd == 0 || (n.rnd && r.rnd ≤ 4), .round),
       (!r.sat || n.sat, .sat),
       (r.scope == 0 || (n.scope && r.scope ≤ 4), .scope),
       (n.opx.getD (r.opx == 0), .select),
       (n.d.regOk r.d && n.a.regOk r.a && n.b.regOk r.b && n.c.regOk r.c, .reg),
       (n.align, .align),
       (r.km == 0 || n.km, .combo),
       (guardOk w, .guard)]

/-- The checks of an RRI, RI or X word (05 R103); `rest` are the bits that must be 0. -/
def checkImm (w : Raw) (d a : Reg) (rest : Bool) : Option NeedI → Option Reason
  | none => some .opcode
  | some n => firstBad
      [(tokOk w, .token), (n.d.fieldOk d && n.a.fieldOk a && rest, .field), (n.sel, .select),
       (n.d.regOk d && n.a.regOk a, .reg), (n.combo, .combo), (guardOk w, .guard)]

/-- The checks of an MX word (05 R103). -/
def checkMx (w : Raw) (r : MX) : Option Reason :=
  firstBad [(tokOk w, .token), (r.fieldOk w.op, .field), (r.t ≤ 29, .reg), (r.comboOk w.op, .combo), (guardOk w, .guard)]

/-- The checks of a CX word (05 R103). -/
def checkCx (w : Raw) (r : CXB) : Option Reason :=
  firstBad
    [(if w.q == 1 then 1 ≤ w.op && w.op ≤ 5 else 1 ≤ w.op && w.op ≤ 7, .opcode), (tokOk w, .token),
     (r.fieldOk w.q w.op, .field), (r.scope == 0 || (CXB.copies w.q w.op && r.scope ≤ 4), .scope),
     (r.opx == 0 || (CXB.copies w.q w.op && r.opx ≤ 1), .select), (!r.notag || r.tag == 0, .combo), (guardOk w, .guard)]

/-- The formats (05 R88-R93). -/
inductive Fmt where
  | rrr | rri | ri | mx | cx | x
  deriving DecidableEq, Repr

/-- The format that Q and OP select (05 R85, R98-R101). -/
def fmtOf (q : BitVec 2) (op : BitVec 8) : Fmt :=
  match q with
  | 0 =>
    if op == 0x23 || op == 0x24 then .x
    else if op == 0x20 || op == 0x21 || op == 0x50 || op == 0x52 || op == 0x56 then .ri
    else if (0x18 ≤ op && op ≤ 0x33) || op == 0x55 || op == 0x88 || op == 0x89 then .rri
    else .rrr
  | 2 =>
    if 0xC0 ≤ op && op ≤ 0xC7 then .mx
    else if op == 0x41 || op == 0x42 || op == 0x47 then .rri
    else .rrr
  | _ => .cx

/-- The checks that one word can fail by itself (05 R103, reasons 0x01 to 0x0C): none when the word is legal. -/
def scanWord (w : W64) : Option Reason :=
  let h := Raw.ofWord w
  match fmtOf h.q h.op with
  | .rrr => let r := RRR.ofBits h.body; checkRrr h r (if h.q == 0 then needF h.op r else needC h.op r)
  | .rri => let r := RRI.ofBits h.body; checkImm h r.d r.a true (if h.q == 0 then needRri h.op r else needRriC h.op r)
  | .ri => let r := RI.ofBits h.body; checkImm h r.d 0 true (needRi h.op r)
  | .x => let r := XX.ofBits h.body; checkImm h r.d r.a (r.rest == 0) (needX h.op r)
  | .mx => checkMx h (MX.ofBits h.body)
  | .cx => checkCx h (CXB.ofBits h.body)

/-- The instruction an F-route RRR word stands for. -/
def buildF (op : BitVec 8) (g : Guard) (r : RRR) : Option Instr :=
  match op with
  | 0x01 => some (.add g (ITy.ofCode r.ty) r.sat r.d r.a r.b)
  | 0x02 => some (.sub g (ITy.ofCode r.ty) r.sat r.d r.a r.b)
  | 0x03 => some (.mul g (ITy.ofCode r.ty) r.sat r.d r.a r.b)
  | 0x04 => some (.mulh g (ITy.ofCode r.ty) r.d r.a r.b)
  | 0x05 => some (.div g (ITy.ofCode r.ty) r.sat r.d r.a r.b)
  | 0x06 => some (.rem g (ITy.ofCode r.ty) r.d r.a r.b)
  | 0x07 => some (.and g (ITy.ofCode r.ty) r.d r.a r.b)
  | 0x08 => some (.or g (ITy.ofCode r.ty) r.d r.a r.b)
  | 0x09 => some (.xor g (ITy.ofCode r.ty) r.d r.a r.b)
  | 0x0a => some (.shl g (ITy.ofCode r.ty) r.sat r.d r.a r.b)
  | 0x0b => some (.shr g (ITy.ofCode r.ty) r.d r.a r.b)
  | 0x0c => some (.sra g (ITy.ofCode r.ty) r.d r.a r.b)
  | 0x0d => some (.min g (ITy.ofCode r.ty) r.d r.a r.b)
  | 0x0e => some (.max g (ITy.ofCode r.ty) r.d r.a r.b)
  | 0x0f => some (.sel g (ITy.ofCode r.ty) r.d r.a r.b (r.c.setWidth 3))
  | 0x10 => some (.clz g (ITy.ofCode r.ty) r.d r.a)
  | 0x11 => some (.ctz g (ITy.ofCode r.ty) r.d r.a)
  | 0x12 => some (.popc g (ITy.ofCode r.ty) r.d r.a)
  | 0x38 => some (.fadd g (FTy.ofCode r.ty) (Rnd.ofCode r.rnd) r.d r.a r.b)
  | 0x39 => some (.fsub g (FTy.ofCode r.ty) (Rnd.ofCode r.rnd) r.d r.a r.b)
  | 0x3a => some (.fmul g (FTy.ofCode r.ty) (Rnd.ofCode r.rnd) r.d r.a r.b)
  | 0x3b => some (.fdiv g (FTy.ofCode r.ty) (Rnd.ofCode r.rnd) r.d r.a r.b)
  | 0x3c => some (.ffma g (FTy.ofCode r.ty) (Rnd.ofCode r.rnd) r.d r.a r.b r.c)
  | 0x3d => some (.fsqrt g (FTy.ofCode r.ty) (Rnd.ofCode r.rnd) r.d r.a)
  | 0x3e => some (.fmin g (FTy.ofCode r.ty) r.d r.a r.b)
  | 0x3f => some (.fmax g (FTy.ofCode r.ty) r.d r.a r.b)
  | 0x40 => some (.fcvt g (Ty.ofCode r.ty) (Ty.ofCode r.ty2) (Rnd.ofCode r.rnd) r.sat r.d r.a)
  | 0x48 => some (.cmp g (ITy.ofCode r.ty) (Cond.ofCode (r.opx.setWidth 3)) (r.d.setWidth 3) r.a r.b)
  | 0x49 => some (.fcmp g (FTy.ofCode r.ty) (Cond.ofCode (r.opx.setWidth 3)) (r.d.setWidth 3) r.a r.b)
  | 0x4a => some (.pand g (r.d.setWidth 3) (r.a.setWidth 3) (r.b.setWidth 3))
  | 0x4b => some (.por g (r.d.setWidth 3) (r.a.setWidth 3) (r.b.setWidth 3))
  | 0x4c => some (.pxor g (r.d.setWidth 3) (r.a.setWidth 3) (r.b.setWidth 3))
  | 0x4d => some (.pnot g (r.d.setWidth 3) (r.a.setWidth 3))
  | 0x51 => some (.jr g r.a)
  | 0x53 => some (.callr g r.d r.a)
  | 0x54 => some (.ret g r.a)
  | 0x60 => some (.sow g r.d r.a)
  | 0x61 => some (.reap g)
  | 0x62 => some (.bar g (Scope.ofCode r.scope))
  | 0x63 => some (.bard g (Scope.ofCode r.scope))
  | 0x64 => some (.barj g (Scope.ofCode r.scope))
  | 0x68 => some (.tokget g r.d)
  | 0x69 => some (.tokset g r.a)
  | 0x6a => some (.wtany g r.d r.a)
  | 0x6b => some (.wtall g r.d r.a)
  | 0x6c => some (.wtff g r.d r.a)
  | 0x6d => some (.wcnt g (Scope.ofCode r.scope) r.d r.a r.b)
  | 0x6e => some (.qfence g (r.opx.getLsbD 0) (r.opx.getLsbD 1) (r.opx.getLsbD 2) (r.opx.getLsbD 3))
  | 0x6f => some (.rel g (Scope.ofCode r.scope))
  | 0x70 => some (.acq g (Scope.ofCode r.scope))
  | 0x71 => some (.tagclr g r.a)
  | 0x78 => some (.aadd g r.d r.a r.b)
  | 0x79 => some (.afadd g r.d r.a r.b)
  | 0x7a => some (.amin g (ITy.ofCode r.ty) r.d r.a r.b)
  | 0x7b => some (.amax g (ITy.ofCode r.ty) r.d r.a r.b)
  | 0x7c => some (.aand g r.d r.a r.b)
  | 0x7d => some (.aor g r.d r.a r.b)
  | 0x7e => some (.axor g r.d r.a r.b)
  | 0x7f => some (.aswap g r.d r.a r.b)
  | 0x80 => some (.acas g r.d r.a r.b r.c)
  | 0x8a => some (.tfence g)
  | 0x8b => some (match r.opx with
      | 0 => .sysNop g r.d r.a
      | 1 => .sysDtime g r.d r.a
      | 2 => .sysHostevent g r.d r.a
      | 3 => .sysAllowance g r.d r.a
      | 4 => .sysEstimate g r.d r.a
      | 5 => .sysCtxinfo g r.d r.a
      | _ => .sysNoService g r.d r.a (r.opx.setWidth 4))
  | 0x8c => some (.pchg g r.a)
  | 0x8d => some (.tlbi g r.a)
  | 0x8e => some (.tlbia g)
  | 0x8f => some (.blclr g r.a)
  | 0x90 => some (.blq g r.d r.a)
  | 0x91 => some (.mfmt g r.a)
  | 0x98 => some (.karm g r.d r.a r.b)
  | 0x99 => some (.kstat g r.d r.b)
  | 0x9a => some (.kdis g r.d r.b)
  | _ => none

/-- The instruction a C-route RRR word stands for. -/
def buildC (op : BitVec 8) (h : EHead) (r : RRR) : Option Instr :=
  match op with
  | 0x01 => some (.vadd h (Ty.ofCode r.ty) (Rnd.ofCode r.rnd) r.sat (r.opx.getLsbD 0) r.km r.d r.a r.b)
  | 0x02 => some (.vsub h (Ty.ofCode r.ty) (Rnd.ofCode r.rnd) r.sat (r.opx.getLsbD 0) r.km r.d r.a r.b)
  | 0x03 => some (.vmul h (Ty.ofCode r.ty) (Rnd.ofCode r.rnd) r.sat (r.opx.getLsbD 0) r.km r.d r.a r.b)
  | 0x04 => some (.vmulh h (Ty.ofCode r.ty) (r.opx.getLsbD 0) r.km r.d r.a r.b)
  | 0x05 => some (.vfma h (Ty.ofCode r.ty) (Rnd.ofCode r.rnd) r.sat (r.opx.getLsbD 0) (r.opx.getLsbD 1) r.km r.d r.a r.b r.c)
  | 0x06 => some (.vfms h (Ty.ofCode r.ty) (Rnd.ofCode r.rnd) r.sat (r.opx.getLsbD 0) (r.opx.getLsbD 1) r.km r.d r.a r.b r.c)
  | 0x07 => some (.vfnma h (Ty.ofCode r.ty) (Rnd.ofCode r.rnd) r.sat (r.opx.getLsbD 0) (r.opx.getLsbD 1) r.km r.d r.a r.b r.c)
  | 0x08 => some (.vabs h (Ty.ofCode r.ty) r.sat r.km r.d r.a)
  | 0x09 => some (.vneg h (Ty.ofCode r.ty) r.sat r.km r.d r.a)
  | 0x0a => some (.vmin h (Ty.ofCode r.ty) (r.opx.getLsbD 0) r.km r.d r.a r.b)
  | 0x0b => some (.vmax h (Ty.ofCode r.ty) (r.opx.getLsbD 0) r.km r.d r.a r.b)
  | 0x0c => some (.vabd h (Ty.ofCode r.ty) (Rnd.ofCode r.rnd) r.sat (r.opx.getLsbD 0) r.km r.d r.a r.b)
  | 0x0d => some (.vclamp h (Ty.ofCode r.ty) (r.opx.getLsbD 0) (r.opx.getLsbD 1) r.km r.d r.a r.b r.c)
  | 0x0e => some (.vdiv h (Ty.ofCode r.ty) (Rnd.ofCode r.rnd) r.sat (r.opx.getLsbD 0) r.km r.d r.a r.b)
  | 0x11 => some (.vand h (Ty.ofCode r.ty) (r.opx.getLsbD 0) r.km r.d r.a r.b)
  | 0x12 => some (.vor h (Ty.ofCode r.ty) (r.opx.getLsbD 0) r.km r.d r.a r.b)
  | 0x13 => some (.vxor h (Ty.ofCode r.ty) (r.opx.getLsbD 0) r.km r.d r.a r.b)
  | 0x14 => some (.vnot h (Ty.ofCode r.ty) r.km r.d r.a)
  | 0x15 => some (.vshl h (Ty.ofCode r.ty) r.sat (r.opx.getLsbD 0) r.km r.d r.a r.b)
  | 0x16 => some (.vshr h (Ty.ofCode r.ty) (r.opx.getLsbD 0) r.km r.d r.a r.b)
  | 0x17 => some (.vsra h (Ty.ofCode r.ty) (r.opx.getLsbD 0) r.km r.d r.a r.b)
  | 0x18 => some (.vrot h (Ty.ofCode r.ty) (r.opx.getLsbD 0) r.km r.d r.a r.b)
  | 0x19 => some (.vcmp h (Ty.ofCode r.ty) (Cond.ofCode (r.opx.setWidth 3)) (r.opx.getLsbD 3) r.km (r.d.setWidth 3) r.a r.b)
  | 0x1a => some (.vsel h (Ty.ofCode r.ty) r.km r.d r.a r.b (r.c.setWidth 3))
  | 0x1b => some (.kand h (r.d.setWidth 3) (r.a.setWidth 3) (r.b.setWidth 3))
  | 0x1c => some (.kor h (r.d.setWidth 3) (r.a.setWidth 3) (r.b.setWidth 3))
  | 0x1d => some (.kxor h (r.d.setWidth 3) (r.a.setWidth 3) (r.b.setWidth 3))
  | 0x1e => some (.knot h (r.d.setWidth 3) (r.a.setWidth 3))
  | 0x1f => some (if r.opx.getLsbD 5 then .kmovS h (r.d.setWidth 3) r.a (r.opx.setWidth 4) else .kmov h (r.d.setWidth 3) (r.a.setWidth 3))
  | 0x20 => some (.kpop h r.km r.d (r.a.setWidth 3))
  | 0x21 => some (.vperm h (Ty.ofCode r.ty) r.km r.d r.a r.b)
  | 0x22 => some (.vrev h (Ty.ofCode r.ty) r.km r.d r.a)
  | 0x23 => some (.vzip h (Ty.ofCode r.ty) r.d r.a r.b)
  | 0x24 => some (.vunzip h (Ty.ofCode r.ty) r.d r.a r.b)
  | 0x25 => some (.vslide h (Ty.ofCode r.ty) r.km r.d r.a r.b r.c)
  | 0x26 => some (if r.opx.getLsbD 0 then .vbcastEl h (Ty.ofCode r.ty) r.km r.d r.a r.b else .vbcast h (Ty.ofCode r.ty) r.km r.d r.a)
  | 0x27 => some (.vext h (Ty.ofCode r.ty) r.d r.a r.b)
  | 0x28 => some (.vins h (Ty.ofCode r.ty) r.d r.a r.b)
  | 0x29 => some (.vmov h (Ty.ofCode r.ty) r.km r.d r.a)
  | 0x2a => some (.vcmpr h (Ty.ofCode r.ty) r.km r.d r.a)
  | 0x2b => some (.vexpd h (Ty.ofCode r.ty) r.km r.d r.a)
  | 0x2c => some (.vwadd h (Ty.ofCode r.ty) (Ty.ofCode r.ty2) (Rnd.ofCode r.rnd) r.sat r.km r.d r.a r.b)
  | 0x2d => some (.vwmul h (Ty.ofCode r.ty) (Ty.ofCode r.ty2) (Rnd.ofCode r.rnd) r.sat r.km r.d r.a r.b)
  | 0x2e => some (.vwcvt h (Ty.ofCode r.ty) (Ty.ofCode r.ty2) (Rnd.ofCode r.rnd) r.sat r.km r.d r.a)
  | 0x2f => some (.vnar h (Ty.ofCode r.ty) (Ty.ofCode r.ty2) (Rnd.ofCode r.rnd) r.sat r.km r.d r.a)
  | 0x30 => some (.vcvt h (Ty.ofCode r.ty) (Ty.ofCode r.ty2) (Rnd.ofCode r.rnd) r.sat r.km r.d r.a (r.opx.setWidth 2))
  | 0x31 => some (.vunpk h (Ty.ofCode r.ty) (Ty.ofCode r.ty2) r.km r.d r.a r.b r.c)
  | 0x32 => some (.vsum h (Ty.ofCode r.ty) (Rnd.ofCode r.rnd) r.sat r.km r.d r.a (r.opx.setWidth 4))
  | 0x33 => some (.vsumw h (Ty.ofCode r.ty) (Ty.ofCode r.ty2) (Rnd.ofCode r.rnd) r.sat r.km r.d r.a (r.opx.setWidth 4))
  | 0x34 => some (.vmaxr h (Ty.ofCode r.ty) r.km r.d r.a (r.opx.setWidth 4))
  | 0x35 => some (.vminr h (Ty.ofCode r.ty) r.km r.d r.a (r.opx.setWidth 4))
  | 0x36 => some (.vexp h (Ty.ofCode r.ty) r.km r.d r.a)
  | 0x37 => some (.vexp2 h (Ty.ofCode r.ty) r.km r.d r.a)
  | 0x38 => some (.vlog2 h (Ty.ofCode r.ty) r.km r.d r.a)
  | 0x39 => some (.vrcp h (Ty.ofCode r.ty) r.km r.d r.a)
  | 0x3a => some (.vrsqrt h (Ty.ofCode r.ty) r.km r.d r.a)
  | 0x3b => some (.vsqrt h (Ty.ofCode r.ty) (Rnd.ofCode r.rnd) r.km r.d r.a)
  | 0x3c => some (.vsin h (Ty.ofCode r.ty) r.km r.d r.a)
  | 0x3d => some (.vcos h (Ty.ofCode r.ty) r.km r.d r.a)
  | 0x3e => some (.vtanh h (Ty.ofCode r.ty) r.km r.d r.a)
  | 0x3f => some (.vsigm h (Ty.ofCode r.ty) r.km r.d r.a)
  | 0x40 => some (.vrand h (Ty.ofCode r.ty) r.km r.d r.a r.b)
  | 0x43 => some (.vlds h (Ty.ofCode r.ty) r.km r.d r.a r.b)
  | 0x44 => some (.vsts h (Ty.ofCode r.ty) r.km r.d r.a r.b)
  | 0x45 => some (.vldx h (Ty.ofCode r.ty) r.km r.d r.a r.b)
  | 0x46 => some (.vstx h (Ty.ofCode r.ty) r.km r.d r.a r.b)
  | _ => none

/-- The instruction an F-route RRI word stands for. -/
def buildRri (op : BitVec 8) (g : Guard) (r : RRI) : Option Instr :=
  match op with
  | 0x18 => some (.addi g r.d r.a r.imm)
  | 0x19 => some (.andi g r.d r.a r.imm)
  | 0x1a => some (.ori g r.d r.a r.imm)
  | 0x1b => some (.xori g r.d r.a r.imm)
  | 0x1c => some (.shli g r.d r.a r.imm)
  | 0x1d => some (.shri g r.d r.a r.imm)
  | 0x1e => some (.srai g r.d r.a r.imm)
  | 0x1f => some (.muli g r.d r.a r.imm)
  | 0x22 => some (.lea g r.d r.a r.imm)
  | 0x28 => some (.ld8 g r.d r.a r.imm)
  | 0x29 => some (.ld16 g r.d r.a r.imm)
  | 0x2a => some (.ld32 g r.d r.a r.imm)
  | 0x2b => some (.ld64 g r.d r.a r.imm)
  | 0x2c => some (.ld8s g r.d r.a r.imm)
  | 0x2d => some (.ld16s g r.d r.a r.imm)
  | 0x2e => some (.ld32s g r.d r.a r.imm)
  | 0x30 => some (.st8 g r.d r.a r.imm)
  | 0x31 => some (.st16 g r.d r.a r.imm)
  | 0x32 => some (.st32 g r.d r.a r.imm)
  | 0x33 => some (.st64 g r.d r.a r.imm)
  | 0x55 => some (.lset g (r.d == 1) r.a r.imm)
  | 0x88 => some (.sget g r.d (SReg.ofNum r.imm))
  | 0x89 => some (match r.imm with
      | 0 => .ssetFpc g r.a
      | 1 => .ssetFps g r.a
      | 2 => .ssetTags g r.a
      | 8 => .ssetLease g r.a
      | 6 => .ssetPrio g r.a
      | 7 => .ssetMemb g r.a
      | 4 | 5 => .ssetLc g (r.imm == 5) r.a
      | _ => .ssetBase g (r.imm.setWidth 4) r.a)
  | _ => none

/-- The instruction a C-route RRI word stands for. -/
def buildRriC (op : BitVec 8) (h : EHead) (r : RRI) : Option Instr :=
  match op with
  | 0x41 => some (.vld h r.d r.a r.imm)
  | 0x42 => some (.vst h r.d r.a r.imm)
  | 0x47 => some (.vldb h r.d r.a r.imm)
  | _ => none

/-- The instruction an RI word stands for. -/
def buildRi (op : BitVec 8) (g : Guard) (r : RI) : Option Instr :=
  match op with
  | 0x20 => some (.movi g r.d r.imm)
  | 0x21 => some (.movhi g r.d r.imm)
  | 0x50 => some (.br g r.imm)
  | 0x52 => some (.call g r.d r.imm)
  | 0x56 => some (.lend g (r.d == 1) r.imm)
  | _ => none

/-- The instruction a two-word form stands for, with its second word. -/
def buildX (op : BitVec 8) (g : Guard) (r : XX) (ext : W64) : Option Instr :=
  match op with
  | 0x23 => some (.leal g r.d r.a ext)
  | 0x24 => some (.movl g r.d ext)
  | _ => none

/-- The command an MX word stands for. -/
def buildMx (op : BitVec 8) (h : EHead) (r : MX) : Option Instr :=
  match op with
  | 0xc0 => some (.mlease h)
  | 0xc1 => some (.mrel h)
  | 0xc2 => some (.mmul h r.t r.ab r.ap r.bb r.bp r.asrc r.bsrc r.acc r.kf)
  | 0xc3 => some (.mslice h r.t r.ab r.ap r.bb r.bp r.acc r.s r.kf)
  | 0xc4 => some (.mzero h r.t)
  | 0xc5 => some (.mld h r.t r.ab r.ap r.acc)
  | 0xc6 => some (.mst h r.t r.ab r.ap)
  | 0xc7 => some (.msow h r.ab r.ap (r.bus == 2) r.kf)
  | _ => none

/-- The command an L-route word stands for. -/
def buildL (op : BitVec 8) (h : EHead) (r : CXW) : Option Instr :=
  match op with
  | 0x01 => some (.cpy h r.f (r.opx == 1))
  | 0x02 => some (.cgat h r.f (r.opx == 1))
  | 0x03 => some (.cmc h r.f (r.opx == 1))
  | 0x04 => some (.cget h r.f (r.opx == 1))
  | 0x05 => some (.await h r.f.tag r.f.notag r.f.p)
  | _ => none

/-- The command an S-route word stands for. -/
def buildS (op : BitVec 8) (h : EHead) (r : CXW) : Option Instr :=
  match op with
  | 0x01 => some (.cpyo h r.f (r.opx == 1))
  | 0x02 => some (.cput h r.f (r.opx == 1))
  | 0x03 => some (.ksig h r.f (r.opx == 1))
  | 0x04 => some (.asub h r.f.tag r.f.notag r.f.p)
  | 0x05 => some (.aunsub h r.f.tag r.f.notag r.f.p)
  | 0x06 => some (.amerge h r.f.tag r.f.notag r.f.p r.f.a r.f.b)
  | 0x07 => some (.afin h r.f.tag r.f.notag r.f.p)
  | _ => none

/-- The guard of a word (05 R84). -/
def Raw.guard (w : Raw) : Guard := ⟨w.pg, w.pn⟩

/-- The token bits and guard of an engine word (05 R84). -/
def Raw.head (w : Raw) : EHead := ⟨w.gl, w.gr, w.pl, w.pr, w.guard⟩

/-- The instruction a legal word stands for; `ext` is the word after it, used by the two-word forms alone. -/
def buildWord (w ext : W64) : Option Instr :=
  let h := Raw.ofWord w
  match fmtOf h.q h.op with
  | .rrr =>
    if h.q == 0 then buildF h.op h.guard (RRR.ofBits h.body) else buildC h.op h.head (RRR.ofBits h.body)
  | .rri =>
    if h.q == 0 then buildRri h.op h.guard (RRI.ofBits h.body) else buildRriC h.op h.head (RRI.ofBits h.body)
  | .ri => buildRi h.op h.guard (RI.ofBits h.body)
  | .x => buildX h.op h.guard (XX.ofBits h.body) ext
  | .mx => buildMx h.op h.head (MX.ofBits h.body)
  | .cx =>
    if h.q == 1 then buildL h.op h.head (CXW.ofB (CXB.ofBits h.body)) else buildS h.op h.head (CXW.ofB (CXB.ofBits h.body))

/-- Decoding a word (05 R84-R103): an instruction, or the page scanner's reason for rejecting the word. -/
def decodeWord (w ext : W64) : Except Reason Instr :=
  match scanWord w with
  | some r => .error r
  | none =>
    match buildWord w ext with
    | some i => .ok i
    | none => .error .opcode

/-- The word is the first of a two-word form (05 R93): `leal` or `movl`. -/
def twoWord (w : W64) : Bool :=
  let h := Raw.ofWord w
  h.q == 0 && (h.op == 0x23 || h.op == 0x24)

/-- Eight bytes as a little-endian word (00 R4). -/
def wordOfBytes : List Byte → W64
  | b0 :: b1 :: b2 :: b3 :: b4 :: b5 :: b6 :: b7 :: _ => b7 ++ b6 ++ b5 ++ b4 ++ b3 ++ b2 ++ b1 ++ b0
  | _ => 0

/-- Decoding code bytes: the instruction with the bytes after it. Bytes that end within the instruction are rejected with
SPLIT (05 R103, 0x0D). -/
def decodeBytes (bs : List Byte) : Except Reason (Instr × List Byte) :=
  if bs.length < 8 then .error .split
  else
    let w := wordOfBytes bs
    if twoWord w then
      match scanWord w with
      | some r => .error r
      | none =>
        if bs.length < 16 then .error .split
        else (decodeWord w (wordOfBytes (bs.drop 8))).map fun i => (i, bs.drop 16)
    else (decodeWord w 0).map fun i => (i, bs.drop 8)

/-- The coefficient codes of a step (21 R345). -/
def Coef.code : Coef → BitVec 2
  | .zero => 0 | .plus => 1 | .minus => 3

/-- The coefficient of a code; 10 is reserved (21 R345). -/
def Coef.ofCode? (c : BitVec 2) : Option Coef :=
  match c with
  | 0 => some .zero | 1 => some .plus | 3 => some .minus | _ => none

/-- The bits of a step (21 R345). -/
def stepBits (op : BitVec 4) (ps x : Bool) (mr m0 m1 : Coef) (v : BitVec 20) : BitVec 32 :=
  op ++ bit1 ps ++ bit1 x ++ mr.code ++ m0.code ++ m1.code ++ v

/-- Decoding a collective step (21 R345, R346): none where OP or a coefficient is reserved or an unused field is not 0. -/
def decodeStep (w : BitVec 32) : Option Instr := do
  let ps := w.getLsbD 27
  let x := w.getLsbD 26
  let mr ← Coef.ofCode? (w.extractLsb' 24 2)
  let m0 ← Coef.ofCode? (w.extractLsb' 22 2)
  let m1 ← Coef.ofCode? (w.extractLsb' 20 2)
  let v := w.extractLsb' 0 20
  let noM := mr == .zero && m0 == .zero && m1 == .zero
  match w.extractLsb' 28 4 with
  | 1 => some (.send ps x mr m0 m1 v)
  | 2 => some (.recv ps x mr m0 m1 v)
  | 3 => some (.rrs ps x mr m0 m1 v)
  | 4 => if ps || x then none else some (.copy mr m0 m1 v)
  | 5 => if ps || x || !noM then none else some (.wait v)
  | 6 => if noM then some (.loop ps x v) else none
  | 7 => if x || !noM || v ≠ 0 then none else some (.endl ps)
  | 8 => if x || !noM then none else some (.peer ps v)
  | 15 => if ps || x || !noM || v ≠ 0 then none else some .halt
  | _ => none

/-- What an instruction encodes to: one word, a word pair, a 32-bit step, or, for an event, nothing. -/
inductive Code where
  | none
  | word (w : W64)
  | pair (w ext : W64)
  | step (w : BitVec 32)
  deriving DecidableEq, Repr

/-- The fields before the operands: an F word's guard, or an engine word's route, tokens and guard. -/
inductive Hd where
  | f (g : Guard)
  | e (q : BitVec 2) (h : EHead)

/-- The word of a header, opcode and operand bits (05 R84). -/
def Hd.word (h : Hd) (op : BitVec 8) (body : BitVec 46) : W64 :=
  match h with
  | .f g => Raw.toWord { q := 0, op := op, pg := g.pg, pn := g.pn, body := body }
  | .e q h =>
    Raw.toWord { q := q, gl := h.gl, gr := h.gr, pl := h.pl, pr := h.pr, op := op, pg := h.g.pg, pn := h.g.pn, body := body }

/-- An RRR word. -/
def Code.rrrWord (h : Hd) (op : BitVec 8) (r : RRR) : Code := .word (h.word op r.toBits)

/-- An RRI word. -/
def Code.rriWord (h : Hd) (op : BitVec 8) (r : RRI) : Code := .word (h.word op r.toBits)

/-- An RI word. -/
def Code.riWord (h : Hd) (op : BitVec 8) (r : RI) : Code := .word (h.word op r.toBits)

/-- An MX word. -/
def Code.mxWord (h : Hd) (op : BitVec 8) (r : MX) : Code := .word (h.word op r.toBits)

/-- A CX word. -/
def Code.cxWord (h : Hd) (op : BitVec 8) (r : CXW) : Code := .word (h.word op r.toB.toBits)

/-- A two-word form. -/
def Code.xWord (h : Hd) (op : BitVec 8) (r : XX) (ext : W64) : Code := .pair (h.word op r.toBits) ext

/-- The words of an instruction (05 R84-R101), from the same encoding tables; an event of the table has none. -/
def encode : Instr → Code
  | .dispatch .. => .none
  | .harrowCompare .. => .none
  | .entryRetire .. => .none
  | .tokenDeadlock .. => .none
  | .instructionFetchMissFill .. => .none
  | .seedPop .. => .none
  | .seedAging .. => .none
  | .nackResend .. => .none
  | .barrierArrivalMessage .. => .none
  | .barrierReleaseMessage .. => .none
  | .leaseGrant .. => .none
  | .leaseTimeLimit .. => .none
  | .frontEndWaitEnd .. => .none
  | .loadDataReturn .. => .none
  | .add g ty sat d a b => .rrrWord (.f g) 0x01 { d := d, a := a, b := b, ty := ty.code, sat := sat }
  | .sub g ty sat d a b => .rrrWord (.f g) 0x02 { d := d, a := a, b := b, ty := ty.code, sat := sat }
  | .mul g ty sat d a b => .rrrWord (.f g) 0x03 { d := d, a := a, b := b, ty := ty.code, sat := sat }
  | .mulh g ty d a b => .rrrWord (.f g) 0x04 { d := d, a := a, b := b, ty := ty.code }
  | .div g ty sat d a b => .rrrWord (.f g) 0x05 { d := d, a := a, b := b, ty := ty.code, sat := sat }
  | .rem g ty d a b => .rrrWord (.f g) 0x06 { d := d, a := a, b := b, ty := ty.code }
  | .and g ty d a b => .rrrWord (.f g) 0x07 { d := d, a := a, b := b, ty := ty.code }
  | .or g ty d a b => .rrrWord (.f g) 0x08 { d := d, a := a, b := b, ty := ty.code }
  | .xor g ty d a b => .rrrWord (.f g) 0x09 { d := d, a := a, b := b, ty := ty.code }
  | .shl g ty sat d a b => .rrrWord (.f g) 0x0a { d := d, a := a, b := b, ty := ty.code, sat := sat }
  | .shr g ty d a b => .rrrWord (.f g) 0x0b { d := d, a := a, b := b, ty := ty.code }
  | .sra g ty d a b => .rrrWord (.f g) 0x0c { d := d, a := a, b := b, ty := ty.code }
  | .min g ty d a b => .rrrWord (.f g) 0x0d { d := d, a := a, b := b, ty := ty.code }
  | .max g ty d a b => .rrrWord (.f g) 0x0e { d := d, a := a, b := b, ty := ty.code }
  | .sel g ty d a b c => .rrrWord (.f g) 0x0f { d := d, a := a, b := b, c := c.setWidth 5, ty := ty.code }
  | .clz g ty d a => .rrrWord (.f g) 0x10 { d := d, a := a, ty := ty.code }
  | .ctz g ty d a => .rrrWord (.f g) 0x11 { d := d, a := a, ty := ty.code }
  | .popc g ty d a => .rrrWord (.f g) 0x12 { d := d, a := a, ty := ty.code }
  | .addi g d a imm => .rriWord (.f g) 0x18 { d := d, a := a, imm := imm }
  | .andi g d a imm => .rriWord (.f g) 0x19 { d := d, a := a, imm := imm }
  | .ori g d a imm => .rriWord (.f g) 0x1a { d := d, a := a, imm := imm }
  | .xori g d a imm => .rriWord (.f g) 0x1b { d := d, a := a, imm := imm }
  | .shli g d a imm => .rriWord (.f g) 0x1c { d := d, a := a, imm := imm }
  | .shri g d a imm => .rriWord (.f g) 0x1d { d := d, a := a, imm := imm }
  | .srai g d a imm => .rriWord (.f g) 0x1e { d := d, a := a, imm := imm }
  | .muli g d a imm => .rriWord (.f g) 0x1f { d := d, a := a, imm := imm }
  | .movi g d imm => .riWord (.f g) 0x20 { d := d, imm := imm }
  | .movhi g d imm => .riWord (.f g) 0x21 { d := d, imm := imm }
  | .lea g d a imm => .rriWord (.f g) 0x22 { d := d, a := a, imm := imm }
  | .leal g d a imm => .xWord (.f g) 0x23 { d := d, a := a } imm
  | .movl g d imm => .xWord (.f g) 0x24 { d := d } imm
  | .ld8 g d a imm => .rriWord (.f g) 0x28 { d := d, a := a, imm := imm }
  | .ld16 g d a imm => .rriWord (.f g) 0x29 { d := d, a := a, imm := imm }
  | .ld32 g d a imm => .rriWord (.f g) 0x2a { d := d, a := a, imm := imm }
  | .ld64 g d a imm => .rriWord (.f g) 0x2b { d := d, a := a, imm := imm }
  | .ld8s g d a imm => .rriWord (.f g) 0x2c { d := d, a := a, imm := imm }
  | .ld16s g d a imm => .rriWord (.f g) 0x2d { d := d, a := a, imm := imm }
  | .ld32s g d a imm => .rriWord (.f g) 0x2e { d := d, a := a, imm := imm }
  | .st8 g d a imm => .rriWord (.f g) 0x30 { d := d, a := a, imm := imm }
  | .st16 g d a imm => .rriWord (.f g) 0x31 { d := d, a := a, imm := imm }
  | .st32 g d a imm => .rriWord (.f g) 0x32 { d := d, a := a, imm := imm }
  | .st64 g d a imm => .rriWord (.f g) 0x33 { d := d, a := a, imm := imm }
  | .fadd g ty rnd d a b => .rrrWord (.f g) 0x38 { d := d, a := a, b := b, ty := ty.code, rnd := rnd.code }
  | .fsub g ty rnd d a b => .rrrWord (.f g) 0x39 { d := d, a := a, b := b, ty := ty.code, rnd := rnd.code }
  | .fmul g ty rnd d a b => .rrrWord (.f g) 0x3a { d := d, a := a, b := b, ty := ty.code, rnd := rnd.code }
  | .fdiv g ty rnd d a b => .rrrWord (.f g) 0x3b { d := d, a := a, b := b, ty := ty.code, rnd := rnd.code }
  | .ffma g ty rnd d a b c => .rrrWord (.f g) 0x3c { d := d, a := a, b := b, c := c, ty := ty.code, rnd := rnd.code }
  | .fsqrt g ty rnd d a => .rrrWord (.f g) 0x3d { d := d, a := a, ty := ty.code, rnd := rnd.code }
  | .fmin g ty d a b => .rrrWord (.f g) 0x3e { d := d, a := a, b := b, ty := ty.code }
  | .fmax g ty d a b => .rrrWord (.f g) 0x3f { d := d, a := a, b := b, ty := ty.code }
  | .fcvt g ty ty2 rnd sat d a => .rrrWord (.f g) 0x40 { d := d, a := a, ty := ty.code, ty2 := ty2.code, rnd := rnd.code, sat := sat }
  | .cmp g ty cond d a b => .rrrWord (.f g) 0x48 { d := d.setWidth 5, a := a, b := b, ty := ty.code, opx := cond.code.setWidth 6 }
  | .fcmp g ty cond d a b => .rrrWord (.f g) 0x49 { d := d.setWidth 5, a := a, b := b, ty := ty.code, opx := cond.code.setWidth 6 }
  | .pand g d a b => .rrrWord (.f g) 0x4a { d := d.setWidth 5, a := a.setWidth 5, b := b.setWidth 5 }
  | .por g d a b => .rrrWord (.f g) 0x4b { d := d.setWidth 5, a := a.setWidth 5, b := b.setWidth 5 }
  | .pxor g d a b => .rrrWord (.f g) 0x4c { d := d.setWidth 5, a := a.setWidth 5, b := b.setWidth 5 }
  | .pnot g d a => .rrrWord (.f g) 0x4d { d := d.setWidth 5, a := a.setWidth 5 }
  | .br g imm => .riWord (.f g) 0x50 { imm := imm }
  | .jr g a => .rrrWord (.f g) 0x51 { a := a }
  | .call g d imm => .riWord (.f g) 0x52 { d := d, imm := imm }
  | .callr g d a => .rrrWord (.f g) 0x53 { d := d, a := a }
  | .ret g a => .rrrWord (.f g) 0x54 { a := a }
  | .lset g n a imm => .rriWord (.f g) 0x55 { d := if n then 1 else 0, a := a, imm := imm }
  | .lend g n imm => .riWord (.f g) 0x56 { d := if n then 1 else 0, imm := imm }
  | .sow g d a => .rrrWord (.f g) 0x60 { d := d, a := a }
  | .reap g => .rrrWord (.f g) 0x61 {}
  | .bar g sc => .rrrWord (.f g) 0x62 { scope := sc.code }
  | .bard g sc => .rrrWord (.f g) 0x63 { scope := sc.code }
  | .barj g sc => .rrrWord (.f g) 0x64 { scope := sc.code }
  | .tokget g d => .rrrWord (.f g) 0x68 { d := d }
  | .tokset g a => .rrrWord (.f g) 0x69 { a := a }
  | .wtany g d a => .rrrWord (.f g) 0x6a { d := d, a := a }
  | .wtall g d a => .rrrWord (.f g) 0x6b { d := d, a := a }
  | .wtff g d a => .rrrWord (.f g) 0x6c { d := d, a := a }
  | .wcnt g sc d a b => .rrrWord (.f g) 0x6d { d := d, a := a, b := b, scope := sc.code }
  | .qfence g f l c s => .rrrWord (.f g) 0x6e { opx := bit 0 f ||| bit 1 l ||| bit 2 c ||| bit 3 s }
  | .rel g sc => .rrrWord (.f g) 0x6f { scope := sc.code }
  | .acq g sc => .rrrWord (.f g) 0x70 { scope := sc.code }
  | .tagclr g a => .rrrWord (.f g) 0x71 { a := a }
  | .aadd g d a b => .rrrWord (.f g) 0x78 { d := d, a := a, b := b, ty := 9 }
  | .afadd g d a b => .rrrWord (.f g) 0x79 { d := d, a := a, b := b, ty := 21 }
  | .amin g ty d a b => .rrrWord (.f g) 0x7a { d := d, a := a, b := b, ty := ty.code }
  | .amax g ty d a b => .rrrWord (.f g) 0x7b { d := d, a := a, b := b, ty := ty.code }
  | .aand g d a b => .rrrWord (.f g) 0x7c { d := d, a := a, b := b, ty := 9 }
  | .aor g d a b => .rrrWord (.f g) 0x7d { d := d, a := a, b := b, ty := 9 }
  | .axor g d a b => .rrrWord (.f g) 0x7e { d := d, a := a, b := b, ty := 9 }
  | .aswap g d a b => .rrrWord (.f g) 0x7f { d := d, a := a, b := b, ty := 9 }
  | .acas g d a b c => .rrrWord (.f g) 0x80 { d := d, a := a, b := b, c := c, ty := 9 }
  | .atomicReply .. => .none
  | .sget g d n => .rriWord (.f g) 0x88 { d := d, imm := n.num }
  | .ssetFpc g a => .rriWord (.f g) 0x89 { a := a, imm := 0 }
  | .ssetFps g a => .rriWord (.f g) 0x89 { a := a, imm := 1 }
  | .ssetTags g a => .rriWord (.f g) 0x89 { a := a, imm := 2 }
  | .ssetLease g a => .rriWord (.f g) 0x89 { a := a, imm := 8 }
  | .ssetPrio g a => .rriWord (.f g) 0x89 { a := a, imm := 6 }
  | .ssetMemb g a => .rriWord (.f g) 0x89 { a := a, imm := 7 }
  | .ssetLc g n a => .rriWord (.f g) 0x89 { a := a, imm := if n then 5 else 4 }
  | .ssetBase g n a => .rriWord (.f g) 0x89 { a := a, imm := 0x20#36 ||| n.setWidth 36 }
  | .tfence g => .rrrWord (.f g) 0x8a {}
  | .sysNop g d a => .rrrWord (.f g) 0x8b { d := d, a := a }
  | .sysDtime g d a => .rrrWord (.f g) 0x8b { d := d, a := a, opx := 1 }
  | .sysHostevent g d a => .rrrWord (.f g) 0x8b { d := d, a := a, opx := 2 }
  | .sysAllowance g d a => .rrrWord (.f g) 0x8b { d := d, a := a, opx := 3 }
  | .sysEstimate g d a => .rrrWord (.f g) 0x8b { d := d, a := a, opx := 4 }
  | .sysCtxinfo g d a => .rrrWord (.f g) 0x8b { d := d, a := a, opx := 5 }
  | .sysNoService g d a n => .rrrWord (.f g) 0x8b { d := d, a := a, opx := n.setWidth 6 }
  | .pchg g a => .rrrWord (.f g) 0x8c { a := a }
  | .pchgApply .. => .none
  | .granuleFillEnd .. => .none
  | .tlbi g a => .rrrWord (.f g) 0x8d { a := a }
  | .tlbia g => .rrrWord (.f g) 0x8e {}
  | .blclr g a => .rrrWord (.f g) 0x8f { a := a }
  | .blq g d a => .rrrWord (.f g) 0x90 { d := d, a := a }
  | .mfmt g a => .rrrWord (.f g) 0x91 { a := a }
  | .karm g d a b => .rrrWord (.f g) 0x98 { d := d, a := a, b := b }
  | .kstat g d b => .rrrWord (.f g) 0x99 { d := d, b := b }
  | .kdis g d b => .rrrWord (.f g) 0x9a { d := d, b := b }
  | .vadd h ty rnd sat sb km d a b => .rrrWord (.e 2 h) 0x01 { d := d, a := a, b := b, ty := ty.code, rnd := rnd.code, sat := sat, km := km, opx := bit 0 sb }
  | .vsub h ty rnd sat sb km d a b => .rrrWord (.e 2 h) 0x02 { d := d, a := a, b := b, ty := ty.code, rnd := rnd.code, sat := sat, km := km, opx := bit 0 sb }
  | .vmul h ty rnd sat sb km d a b => .rrrWord (.e 2 h) 0x03 { d := d, a := a, b := b, ty := ty.code, rnd := rnd.code, sat := sat, km := km, opx := bit 0 sb }
  | .vmulh h ty sb km d a b => .rrrWord (.e 2 h) 0x04 { d := d, a := a, b := b, ty := ty.code, km := km, opx := bit 0 sb }
  | .vfma h ty rnd sat sb sc km d a b c => .rrrWord (.e 2 h) 0x05 { d := d, a := a, b := b, c := c, ty := ty.code, rnd := rnd.code, sat := sat, km := km, opx := bit 0 sb ||| bit 1 sc }
  | .vfms h ty rnd sat sb sc km d a b c => .rrrWord (.e 2 h) 0x06 { d := d, a := a, b := b, c := c, ty := ty.code, rnd := rnd.code, sat := sat, km := km, opx := bit 0 sb ||| bit 1 sc }
  | .vfnma h ty rnd sat sb sc km d a b c => .rrrWord (.e 2 h) 0x07 { d := d, a := a, b := b, c := c, ty := ty.code, rnd := rnd.code, sat := sat, km := km, opx := bit 0 sb ||| bit 1 sc }
  | .vabs h ty sat km d a => .rrrWord (.e 2 h) 0x08 { d := d, a := a, ty := ty.code, sat := sat, km := km }
  | .vneg h ty sat km d a => .rrrWord (.e 2 h) 0x09 { d := d, a := a, ty := ty.code, sat := sat, km := km }
  | .vmin h ty sb km d a b => .rrrWord (.e 2 h) 0x0a { d := d, a := a, b := b, ty := ty.code, km := km, opx := bit 0 sb }
  | .vmax h ty sb km d a b => .rrrWord (.e 2 h) 0x0b { d := d, a := a, b := b, ty := ty.code, km := km, opx := bit 0 sb }
  | .vabd h ty rnd sat sb km d a b => .rrrWord (.e 2 h) 0x0c { d := d, a := a, b := b, ty := ty.code, rnd := rnd.code, sat := sat, km := km, opx := bit 0 sb }
  | .vclamp h ty sb sc km d a b c => .rrrWord (.e 2 h) 0x0d { d := d, a := a, b := b, c := c, ty := ty.code, km := km, opx := bit 0 sb ||| bit 1 sc }
  | .vdiv h ty rnd sat sb km d a b => .rrrWord (.e 2 h) 0x0e { d := d, a := a, b := b, ty := ty.code, rnd := rnd.code, sat := sat, km := km, opx := bit 0 sb }
  | .vand h ty sb km d a b => .rrrWord (.e 2 h) 0x11 { d := d, a := a, b := b, ty := ty.code, km := km, opx := bit 0 sb }
  | .vor h ty sb km d a b => .rrrWord (.e 2 h) 0x12 { d := d, a := a, b := b, ty := ty.code, km := km, opx := bit 0 sb }
  | .vxor h ty sb km d a b => .rrrWord (.e 2 h) 0x13 { d := d, a := a, b := b, ty := ty.code, km := km, opx := bit 0 sb }
  | .vnot h ty km d a => .rrrWord (.e 2 h) 0x14 { d := d, a := a, ty := ty.code, km := km }
  | .vshl h ty sat sb km d a b => .rrrWord (.e 2 h) 0x15 { d := d, a := a, b := b, ty := ty.code, sat := sat, km := km, opx := bit 0 sb }
  | .vshr h ty sb km d a b => .rrrWord (.e 2 h) 0x16 { d := d, a := a, b := b, ty := ty.code, km := km, opx := bit 0 sb }
  | .vsra h ty sb km d a b => .rrrWord (.e 2 h) 0x17 { d := d, a := a, b := b, ty := ty.code, km := km, opx := bit 0 sb }
  | .vrot h ty sb km d a b => .rrrWord (.e 2 h) 0x18 { d := d, a := a, b := b, ty := ty.code, km := km, opx := bit 0 sb }
  | .vcmp h ty cond sb km d a b => .rrrWord (.e 2 h) 0x19 { d := d.setWidth 5, a := a, b := b, ty := ty.code, km := km, opx := cond.code.setWidth 6 ||| bit 3 sb }
  | .vsel h ty km d a b c => .rrrWord (.e 2 h) 0x1a { d := d, a := a, b := b, c := c.setWidth 5, ty := ty.code, km := km }
  | .kand h d a b => .rrrWord (.e 2 h) 0x1b { d := d.setWidth 5, a := a.setWidth 5, b := b.setWidth 5 }
  | .kor h d a b => .rrrWord (.e 2 h) 0x1c { d := d.setWidth 5, a := a.setWidth 5, b := b.setWidth 5 }
  | .kxor h d a b => .rrrWord (.e 2 h) 0x1d { d := d.setWidth 5, a := a.setWidth 5, b := b.setWidth 5 }
  | .knot h d a => .rrrWord (.e 2 h) 0x1e { d := d.setWidth 5, a := a.setWidth 5 }
  | .kmov h d a => .rrrWord (.e 2 h) 0x1f { d := d.setWidth 5, a := a.setWidth 5 }
  | .kmovS h d a c => .rrrWord (.e 2 h) 0x1f { d := d.setWidth 5, a := a, opx := 0x20#6 ||| c.setWidth 6 }
  | .kpop h km d a => .rrrWord (.e 2 h) 0x20 { d := d, a := a.setWidth 5, ty := 8, km := km }
  | .vperm h ty km d a b => .rrrWord (.e 2 h) 0x21 { d := d, a := a, b := b, ty := ty.code, km := km }
  | .vrev h ty km d a => .rrrWord (.e 2 h) 0x22 { d := d, a := a, ty := ty.code, km := km }
  | .vzip h ty d a b => .rrrWord (.e 2 h) 0x23 { d := d, a := a, b := b, ty := ty.code }
  | .vunzip h ty d a b => .rrrWord (.e 2 h) 0x24 { d := d, a := a, b := b, ty := ty.code }
  | .vslide h ty km d a b c => .rrrWord (.e 2 h) 0x25 { d := d, a := a, b := b, c := c, ty := ty.code, km := km }
  | .vbcast h ty km d a => .rrrWord (.e 2 h) 0x26 { d := d, a := a, ty := ty.code, km := km }
  | .vbcastEl h ty km d a b => .rrrWord (.e 2 h) 0x26 { d := d, a := a, b := b, ty := ty.code, km := km, opx := 1 }
  | .vext h ty d a b => .rrrWord (.e 2 h) 0x27 { d := d, a := a, b := b, ty := ty.code }
  | .vins h ty d a b => .rrrWord (.e 2 h) 0x28 { d := d, a := a, b := b, ty := ty.code }
  | .vmov h ty km d a => .rrrWord (.e 2 h) 0x29 { d := d, a := a, ty := ty.code, km := km }
  | .vcmpr h ty km d a => .rrrWord (.e 2 h) 0x2a { d := d, a := a, ty := ty.code, km := km }
  | .vexpd h ty km d a => .rrrWord (.e 2 h) 0x2b { d := d, a := a, ty := ty.code, km := km }
  | .vwadd h ty ty2 rnd sat km d a b => .rrrWord (.e 2 h) 0x2c { d := d, a := a, b := b, ty := ty.code, ty2 := ty2.code, rnd := rnd.code, sat := sat, km := km }
  | .vwmul h ty ty2 rnd sat km d a b => .rrrWord (.e 2 h) 0x2d { d := d, a := a, b := b, ty := ty.code, ty2 := ty2.code, rnd := rnd.code, sat := sat, km := km }
  | .vwcvt h ty ty2 rnd sat km d a => .rrrWord (.e 2 h) 0x2e { d := d, a := a, ty := ty.code, ty2 := ty2.code, rnd := rnd.code, sat := sat, km := km }
  | .vnar h ty ty2 rnd sat km d a => .rrrWord (.e 2 h) 0x2f { d := d, a := a, ty := ty.code, ty2 := ty2.code, rnd := rnd.code, sat := sat, km := km }
  | .vcvt h ty ty2 rnd sat km d a part => .rrrWord (.e 2 h) 0x30 { d := d, a := a, ty := ty.code, ty2 := ty2.code, rnd := rnd.code, sat := sat, km := km, opx := part.setWidth 6 }
  | .vunpk h ty ty2 km d a b c => .rrrWord (.e 2 h) 0x31 { d := d, a := a, b := b, c := c, ty := ty.code, ty2 := ty2.code, km := km }
  | .vsum h ty rnd sat km d a l => .rrrWord (.e 2 h) 0x32 { d := d, a := a, ty := ty.code, rnd := rnd.code, sat := sat, km := km, opx := l.setWidth 6 }
  | .vsumw h ty ty2 rnd sat km d a l => .rrrWord (.e 2 h) 0x33 { d := d, a := a, ty := ty.code, ty2 := ty2.code, rnd := rnd.code, sat := sat, km := km, opx := l.setWidth 6 }
  | .vmaxr h ty km d a l => .rrrWord (.e 2 h) 0x34 { d := d, a := a, ty := ty.code, km := km, opx := l.setWidth 6 }
  | .vminr h ty km d a l => .rrrWord (.e 2 h) 0x35 { d := d, a := a, ty := ty.code, km := km, opx := l.setWidth 6 }
  | .vexp h ty km d a => .rrrWord (.e 2 h) 0x36 { d := d, a := a, ty := ty.code, km := km }
  | .vexp2 h ty km d a => .rrrWord (.e 2 h) 0x37 { d := d, a := a, ty := ty.code, km := km }
  | .vlog2 h ty km d a => .rrrWord (.e 2 h) 0x38 { d := d, a := a, ty := ty.code, km := km }
  | .vrcp h ty km d a => .rrrWord (.e 2 h) 0x39 { d := d, a := a, ty := ty.code, km := km }
  | .vrsqrt h ty km d a => .rrrWord (.e 2 h) 0x3a { d := d, a := a, ty := ty.code, km := km }
  | .vsqrt h ty rnd km d a => .rrrWord (.e 2 h) 0x3b { d := d, a := a, ty := ty.code, rnd := rnd.code, km := km }
  | .vsin h ty km d a => .rrrWord (.e 2 h) 0x3c { d := d, a := a, ty := ty.code, km := km }
  | .vcos h ty km d a => .rrrWord (.e 2 h) 0x3d { d := d, a := a, ty := ty.code, km := km }
  | .vtanh h ty km d a => .rrrWord (.e 2 h) 0x3e { d := d, a := a, ty := ty.code, km := km }
  | .vsigm h ty km d a => .rrrWord (.e 2 h) 0x3f { d := d, a := a, ty := ty.code, km := km }
  | .vrand h ty km d a b => .rrrWord (.e 2 h) 0x40 { d := d, a := a, b := b, ty := ty.code, km := km }
  | .vld h d a imm => .rriWord (.e 2 h) 0x41 { d := d, a := a, imm := imm }
  | .vst h d a imm => .rriWord (.e 2 h) 0x42 { d := d, a := a, imm := imm }
  | .vlds h ty km d a b => .rrrWord (.e 2 h) 0x43 { d := d, a := a, b := b, ty := ty.code, km := km }
  | .vsts h ty km d a b => .rrrWord (.e 2 h) 0x44 { d := d, a := a, b := b, ty := ty.code, km := km }
  | .vldx h ty km d a b => .rrrWord (.e 2 h) 0x45 { d := d, a := a, b := b, ty := ty.code, km := km }
  | .vstx h ty km d a b => .rrrWord (.e 2 h) 0x46 { d := d, a := a, b := b, ty := ty.code, km := km }
  | .vldb h d a imm => .rriWord (.e 2 h) 0x47 { d := d, a := a, imm := imm }
  | .mlease h => .mxWord (.e 2 h) 0xc0 {}
  | .mrel h => .mxWord (.e 2 h) 0xc1 {}
  | .mmul h t ab ap bb bp asrc bsrc acc kf => .mxWord (.e 2 h) 0xc2 { t := t, ab := ab, ap := ap, bb := bb, bp := bp, asrc := asrc, bsrc := bsrc, acc := acc, kf := kf }
  | .mslice h t ab ap bb bp acc s kf => .mxWord (.e 2 h) 0xc3 { t := t, ab := ab, ap := ap, bb := bb, bp := bp, acc := acc, s := s, kf := kf }
  | .mzero h t => .mxWord (.e 2 h) 0xc4 { t := t }
  | .mld h t ab ap acc => .mxWord (.e 2 h) 0xc5 { t := t, ab := ab, ap := ap, acc := acc }
  | .mst h t ab ap => .mxWord (.e 2 h) 0xc6 { t := t, ab := ab, ap := ap }
  | .msow h ab ap col kf => .mxWord (.e 2 h) 0xc7 { ab := ab, ap := ap, kf := kf, bus := if col then 2 else 1 }
  | .arrayEntryCheck .. => .none
  | .streamBegin .. => .none
  | .cpy h f na => .cxWord (.e 1 h) 0x01 { f := f, opx := if na then 1 else 0 }
  | .cgat h f na => .cxWord (.e 1 h) 0x02 { f := f, opx := if na then 1 else 0 }
  | .cmc h f na => .cxWord (.e 1 h) 0x03 { f := f, opx := if na then 1 else 0 }
  | .cpyo h f na => .cxWord (.e 3 h) 0x01 { f := f, opx := if na then 1 else 0 }
  | .cget h f na => .cxWord (.e 1 h) 0x04 { f := f, opx := if na then 1 else 0 }
  | .cput h f na => .cxWord (.e 3 h) 0x02 { f := f, opx := if na then 1 else 0 }
  | .ksig h f na => .cxWord (.e 3 h) 0x03 { f := f, opx := if na then 1 else 0 }
  | .copyPieceRequest .. => .none
  | .piecePerformed .. => .none
  | .sliceRequest .. => .none
  | .ringDelivery .. => .none
  | .rehome .. => .none
  | .sliceRetire .. => .none
  | .slicePowerDown .. => .none
  | .coreOffline .. => .none
  | .remotePacketArrival .. => .none
  | .remoteOperation .. => .none
  | .answerArrival .. => .none
  | .resendTimeout .. => .none
  | .nackBackoffResend .. => .none
  | .packetExpiry .. => .none
  | .replyCacheExpiry .. => .none
  | .laneFallow .. => .none
  | .laneRetrain .. => .none
  | .spareLinkAssign .. => .none
  | .flitReceive .. => .none
  | .flitReplay .. => .none
  | .packetRoute .. => .none
  | .headlandMove .. => .none
  | .treeDrain => .none
  | .treeSwitch => .none
  | .asub h tag notag r => .cxWord (.e 3 h) 0x04 { f := { tag, p := r, a := 0, b := 0, c := 0, scope := .seq, notag } }
  | .aunsub h tag notag r => .cxWord (.e 3 h) 0x05 { f := { tag, p := r, a := 0, b := 0, c := 0, scope := .seq, notag } }
  | .amerge h tag notag r a b => .cxWord (.e 3 h) 0x06 { f := { tag, p := r, a := a, b := b, c := 0, scope := .seq, notag } }
  | .afin h tag notag r => .cxWord (.e 3 h) 0x07 { f := { tag, p := r, a := 0, b := 0, c := 0, scope := .seq, notag } }
  | .await h tag notag r => .cxWord (.e 1 h) 0x05 { f := { tag, p := r, a := 0, b := 0, c := 0, scope := .seq, notag } }
  | .mainPassHoldExpiry .. => .none
  | .sowerServePage .. => .none
  | .gleaningPassStart .. => .none
  | .sheafMerge .. => .none
  | .workEntryTrigger .. => .none
  | .send ps x mr m0 m1 v => .step (stepBits 1 ps x mr m0 m1 v)
  | .recv ps x mr m0 m1 v => .step (stepBits 2 ps x mr m0 m1 v)
  | .rrs ps x mr m0 m1 v => .step (stepBits 3 ps x mr m0 m1 v)
  | .copy mr m0 m1 v => .step (stepBits 4 false false mr m0 m1 v)
  | .wait v => .step (stepBits 5 false false .zero .zero .zero v)
  | .loop j x v => .step (stepBits 6 j x .zero .zero .zero v)
  | .endl j => .step (stepBits 7 j false .zero .zero .zero 0)
  | .peer ps v => .step (stepBits 8 ps false .zero .zero .zero v)
  | .halt => .step (stepBits 15 false false .zero .zero .zero 0)
  | .collPacketArrival .. => .none
  | .collPacketResend .. => .none
  | .stepTimeout .. => .none
  | .abortReceived .. => .none
  | .collSuspendMessage .. => .none
  | .collResumeMessage .. => .none
  | .deferredFaultDelivery .. => .none
  | .secdedError .. => .none
  | .preemptionDecision .. => .none
  | .drainExpiry .. => .none
  | .checkpoint .. => .none
  | .checkpointImage .. => .none
  | .teamResume .. => .none
  | .blightSet .. => .none
  | .wixWrite .. => .none
  | .wakeWrite .. => .none
  | .queueRecordWrite .. => .none
  | .entryAccept .. => .none
  | .slotMap .. => .none
  | .slotUnmapIdle .. => .none
  | .slotUnmapFairness .. => .none
  | .watchSatisfied .. => .none
  | .cmdNop .. => .none
  | .loadslot .. => .none
  | .freeslot .. => .none
  | .invoke .. => .none
  | .placement .. => .none
  | .teamRelease .. => .none
  | .cmdWait .. => .none
  | .signal .. => .none
  | .replay .. => .none
  | .replayNodeStart .. => .none
  | .ctxnew .. => .none
  | .ctxend .. => .none
  | .ctxresume .. => .none
  | .commandCompletion .. => .none
  | .rolernisTakeover .. => .none
  | .allowancePeriodEnd .. => .none
  | .droopStretch .. => .none
  | .domainSuspend .. => .none
  | .suspendAbandon => .none
  | .retentionEntry => .none
  | .domainResume .. => .none
  | .packageReset .. => .none
  | .rdmaWrite .. => .none
  | .rdmaRead .. => .none
  | .rdmaSend .. => .none
  | .firmwareBoot .. => .none
  | .measurementRequest .. => .none
  | .allowanceExhausted .. => .none
  | .contextEviction .. => .none
  | .linkReturn .. => .none

/-- The first word of an encoded instruction; an event has none. -/
def Instr.word (i : Instr) : W64 :=
  match encode i with
  | .word w => w
  | .pair w _ => w
  | _ => 0

/-- What the decoder reads from an instruction whose bits are w, numbered as spec/opcode_table.json numbers them: a row of at
most 32 bits is a collective step (21 R345), any other an Uldor word with its extension word above it (05 R84, R93). -/
def decodeTableWord (nbits w : Nat) : Option Instr :=
  if nbits ≤ 32 then decodeStep (BitVec.ofNat 32 w)
  else (decodeWord (BitVec.ofNat 64 w) (BitVec.ofNat 64 (w >>> 64))).toOption

end Sys2Proof
end

