-- ==== Sys2Proof/Config.lean ====
section
/-! DEFINITION. What an implementation fixes and what the spec leaves open: the model's turns, the free values (opaque
constants with no body, so that nothing can be proved of a value of theirs) and the figures of 00 R12 that the rules use. -/

namespace Sys2Proof

/-- A turn says which agent makes the next step (assumption 1). The order between agents is left open by 09 R165, R187,
15 R284 and 17 R319; State.tape holds the turns to come. `front` lets a front end fetch and run one word, `issue` lets an
engine queue issue its oldest unissued entry, `windrow` lets a work entry run its next step word, `unit` is one of the
table's events, `piece` lets the windrow engine read or write one 64 B piece of a step in progress (21 R350), `tick` lets the core
clock advance, and `charge` is the energy that activity counters charge to a command
queue in microjoules (25 R405). -/
inductive Turn where
  | front (i : Sid)
  | issue (i : Sid) (q : EQ)
  | windrow (p e : Nat)
  | unit (e : Instr)
  | piece (p e k u : Nat) (wr : Bool)
  | tick (n : Nat)
  | charge (p q uj : Nat)
  deriving DecidableEq, Repr, Inhabited

namespace Config

/-- The turn that comes when the tape holds none: the spec fixes no order between agents (assumption 1). -/
opaque nextTurn : Nat → Turn

/-- A free truth value, drawn at the counter State.free (assumption 2). -/
opaque freeBool : Nat → Bool

/-- A free natural number, drawn at the counter State.free (assumption 2). -/
opaque freeNat : Nat → Nat

/-- The domain time in ns when the core clock's count began, less what a package may be behind: the spec gives the domain time
(25 R404) no epoch (assumption 2). -/
opaque domainEpoch : Nat

/-- Whether a Falcon-1024 signature of a message verifies under a key (25 R400, R410). The spec names FIPS 206 and does not
state the algorithm (assumption 16). -/
opaque falconVerify (key msg sig : List Byte) : Bool

/-- The package's own Falcon-1024 signature of a message (25 R410), in the same standing (assumption 16). -/
opaque falconSign (pkg : Nat) (msg : List Byte) : List Byte

/-- The bytes 0 to 51 of a saved outstanding-table entry (23 R379) as far as the spec names them without a layout: the kind's
code, and how target address, operands, stream, FSEQ and last send stand in their bytes. A function of what the entry holds
(assumption 2). -/
opaque savedKind (kind : Nat) : Nat
@[inherit_doc savedKind] opaque savedBody (kind addr : Nat) (operands : List Nat) (fseq : Option Nat) (last : Nat) : List (BitVec 8)

/-- The bytes of a 32 B event of a queue's event ring: the spec gives events no layout (25 R392, R394; assumption 33). -/
opaque eventByte : List Nat → Nat → BitVec 8

/-- The physical location of a machine check, as AUX gives it: the spec gives it no form (23 R365; assumption 2). A function of the
code and of the package, core and sequencer. -/
opaque checkLocation : Nat → Nat → Nat → Nat → BitVec 64

/-- The packets that a router's virtual channel has room for at an input, beyond one: the spec speaks of credit and gives no number
(17 R314; assumption 2). -/
opaque vcDepth : Nat

/-- The depth of each engine queue (03 R40). -/
def queueDepth : Nat := 16

/-- The outstanding table's size (17 R303). -/
def maxOutstanding : Nat := 256

/-- The replay window of refused pushes (03 R62). -/
def replayWindow : Nat := 16

/-- The reply cache's entries per core (17 R304). -/
def replyEntries : Nat := 4096

/-- The copies one sequencer may have issued and incomplete (23 R374). -/
def maxCopies : Nat := 64

/-- The pending front-end entries a save block holds (23 R378). -/
def maxPending : Nat := 16

/-- The lag of the harrow in ck (03 R42). -/
def harrowLag : Nat := 6

/-- The age at which a head record moves up, in ck (03 R58). -/
def agingCk : Nat := 65536

/-- The detection bound of a token deadlock in ck (03 R48). -/
def deadlockCk : Nat := 64

/-- T_max, the longest array occupancy in ck (13 R253). -/
def tMax : Nat := 457984

/-- The core clock's cycles per microsecond (00 R12). -/
def ckPerUs : Nat := 3000

/-- The end-to-end retransmission time, 64 µs, in ck (17 R307). -/
def resendCk : Nat := 64 * ckPerUs

/-- The life of a packet copy, 48 µs, in ck (17 R296). -/
def expiryCk : Nat := 48 * ckPerUs

/-- The hold of a reply-cache entry, 4 ms, in ck (17 R306). -/
def holdCk : Nat := 4000 * ckPerUs

/-- The send after which a silent destination is unreachable (17 R307). -/
def maxSends : Nat := 16

/-- The step timer's limit in ck (21 R357). -/
def stepTimerCk : Nat := 2 ^ 32

/-- The wait after which a packet moves to the headland channel, in ck (17 R316). -/
def headlandCk : Nat := 4096

/-- The size of the scratchpad in bytes (01 R19). -/
def spadBytes : Nat := 8 * 2 ^ 20

/-- The size of the atomic window in bytes (01 R18). -/
def winBytes : Nat := 192 * 1024

/-- The bytes of one instruction-cache line; the spec gives no line size (assumption 18). -/
def icacheLine : Nat := 128

/-- The lines of an instruction cache of 256 KiB (01 R20). -/
def icacheLines : Nat := 256 * 1024 / icacheLine

end Config

end Sys2Proof
end

