-- ==== Sys2Proof/Machine/State.lean ====
section
/-! DEFINITION. The state of the AD96: one domain of packages, as plain data; the reasons a step can stop; and the state
after reset. Each field's comment names the rule of spec/ that gives it; the model's own fields say so. -/

namespace Sys2Proof.Machine

/-! ## Reasons a step stops -/

/-- Why the machine stops. A fault that the spec describes is no stop: it is a next state (23 R363-R366). -/
inductive Fault where
  /-- Raised by a word or entry meaning when State.who names a package, core or sequencer that is not in the machine: no
  agent of the spec makes such a step. Safe: the machine does nothing. -/
  | noSequencer
  deriving DecidableEq, Repr

/-- Why the model gives a step no meaning. -/
inductive Refusal where
  /-- Raised by an arm of exec whose instruction has no meaning yet. Safe. -/
  | notModelled (mnemonic : String)
  /-- Raised by the fetch of a front end or by the issue of a queue entry whose word the page scanner would have rejected:
  the run-time decoder receives legal words only (05 R103, R106). Safe. -/
  | illegalWord (word : W64)
  deriving DecidableEq, Repr

/-! ## Sparse stores -/

/-- A sparse store in canonical form: keys rising, no entry equal to what an unlisted key reads as (assumption 4). -/
abbrev Cells (α : Type) := List (Nat × α)

/-- A memory: bytes by address. An unlisted address reads 0 (assumption 4). -/
abbrev Memory := List Host.Cell

/-! ## Names and places -/

/-- The identity a requester's operations bear (17 R302): DCTX, VP, VTEAM and VSEQ. -/
structure Ident where
  dctx : Nat := 0
  vp : Nat := 0
  vt : Nat := 0
  vs : Nat := 0
  deriving DecidableEq, Repr

/-- A place that an access reaches: physical memory of a package; a scratchpad byte or an atomic-window byte of a physical
core of a package; or the same of a core named virtually, resolved where it lies (17 R289). -/
inductive Place where
  | mem (pkg pa : Nat)
  | spad (pkg core off : Nat)
  | win (pkg core off : Nat)
  | vspad (vp vt vc off : Nat)
  | vwin (vp vt vc off : Nat)
  deriving DecidableEq, Repr

/-- The atomic operations (09 R185). -/
inductive Atom where
  | add | fadd | minS | minU | maxS | maxU | and | or | xor | swap | cas
  deriving DecidableEq, Repr

/-- The three kinds of barrier arrival (03 R71). -/
inductive Arrive where
  | plain | drop | join
  deriving DecidableEq, Repr

/-- A barrier waiter or arrival: which sequencer, and whether it joins (03 R71), and the code address of its word. -/
structure Arrival where
  id : Ident
  kind : Arrive
  caddr : W64 := 0
  deriving DecidableEq, Repr

/-- A barrier instance (03 R71). `waiting` are the plain and join arrivals not yet released. -/
structure Barrier where
  expect : Nat := 0
  arrived : Nat := 0
  pend : Int := 0
  phase : Bool := false
  waiting : List Arrival := []
  deriving DecidableEq, Repr

/-! ## The fault record -/

/-- A fault as it is detected (23 R363-R365). -/
structure FaultRec where
  code : Nat := 0
  queue : Nat := 0
  deferred : Bool := false
  reason : Nat := 0
  level : Nat := 0
  caddr : W64 := 0
  addr : W64 := 0
  aux : W64 := 0
  cyc : W64 := 0
  resumable : Bool := false
  deriving DecidableEq, Repr

/-! ## Requests, answers and packets -/

/-- What a request asks of its destination (17 R293, R302; 03 R73). -/
inductive Op where
  | load (n : Nat)
  | store (n : Nat) (v : W64)
  | atomic (k : Atom) (b c : W64)
  | push (words : List W64)
  | joinDec
  | count (n : Nat)
  | put (bytes : List Byte) (counter : Option Place) (na : Bool)
  | get (n : Nat)
  | sig (set : Bool) (v : W64)
  | arrive (dctx inst : Nat) (who : List Arrival)
  | release (dctx inst : Nat) (who : List Arrival)
  deriving DecidableEq, Repr

/-- What issued a request, and where its answer goes: a pending front-end access, the waiting front end, nothing (posted), a
copy's piece or a piece's counter, a queue entry, or a package's barrier unit. -/
inductive Origin where
  | pend (id : Nat)
  | front
  | posted
  | piece (cid n : Nat)
  | counter (cid n : Nat)
  | entry (q : EQ) (id : Nat)
  | unit
  deriving DecidableEq, Repr

/-- A request on its way (17 R293-R309). `serial` is present for a non-idempotent operation, `fseq` for one on the ordered
stream of a flow to another package. -/
structure Req where
  who : Sid
  id : Ident
  serial : Option Nat := none
  ordered : Bool := false
  fseq : Option Nat := none
  dpkg : Nat
  inc : Nat := 0
  ack : Nat := 0
  op : Op
  place : Place
  addr : W64 := 0
  caddr : W64 := 0
  origin : Origin := .posted
  deriving DecidableEq, Repr

/-- The answers of R302, R305 and R307. -/
inductive Ans where
  | result (v : W64)
  | data (bytes : List Byte)
  | fault (f : FaultRec)
  | orphaned
  | nackFull
  | nackAbsent
  | nackSeed (backoff : Nat)
  deriving DecidableEq, Repr

/-- An outstanding-table entry (17 R303, 23 R379): the request, its attempts, the ck of its last send and, after a NACK, the
number of NACKs in a row and the ck at which it is resent. Idempotent remote requests stand here too, without a serial. -/
structure Out where
  req : Req
  attempts : Nat := 1
  lastSend : Nat := 0
  nacks : Nat := 0
  resendAt : Option Nat := none
  refused : Bool := false
  reg : Reg := 0
  deriving DecidableEq, Repr

/-! ## Sequencers -/

/-- The states of a sequencer (03 R81). -/
inductive SeqSt where
  | unbound | idle | run | drain | saved | halt
  deriving DecidableEq, Repr

/-- An engine queue entry (03 R41, R44; 23 R379). `id` is the model's own handle. -/
structure Entry where
  id : Nat
  word : W64
  caddr : W64 := 0
  guard : Bool := true
  mode : BitVec 4 := 0
  ops : List W64 := []
  compared : Bool := false
  issued : Bool := false
  done : Bool := false
  deriving DecidableEq, Repr

/-- A front-end load or store that has executed and is not yet performed, or whose data has not yet been written
(09 R165, 23 R379). -/
structure Pend where
  id : Nat
  store : Bool
  size : Nat
  sext : Bool := false
  reg : Reg := 0
  va : W64
  place : Place
  data : W64 := 0
  compared : Bool := false
  sent : Bool := false
  ready : Bool := false
  caddr : W64 := 0
  /-- The access has met an uncorrectable error (23 R389): its fault is deferred, and it is performed after the resume. -/
  bad : Bool := false
  deriving DecidableEq, Repr

/-- A format-queue entry (13 R230, 23 R378): the format word and the two tensor scales. -/
structure Fmtw where
  word : W64
  ta : BitVec 32
  tb : BitVec 32
  deriving DecidableEq, Repr

/-- An item of the front-end stream that the harrow has not yet compared (03 R42): an engine entry, a front-end store or
the push of an `mfmt` (13 R231), with the ck in which it executed. -/
inductive HItem where
  | entry (q : EQ) (id ck : Nat)
  | store (id ck : Nat)
  | fmt (f : Fmtw) (ck : Nat)
  deriving DecidableEq, Repr

/-- A piece of a copy that has been requested (15 R280): whether its bytes (or its acknowledgement) have come back; the place that it
writes; and the parts of it that ring deliveries have brought, by station and offset in the piece (15 R269). -/
structure Flight where
  n : Nat
  ready : Bool := false
  bytes : List Byte := []
  dst : Option Place := none
  parts : List (Nat × Nat × List Byte) := []
  deriving DecidableEq, Repr

/-- A copy that has issued and is not complete (15 R277, 23 R374): its entry, the operands captured at dispatch, the pattern
record read at issue, the indices of a `cgat` read so far (15 R274), the next piece to request, the pieces in flight, the
performed pieces at or above `low`, the counter additions not yet answered, and the piece at which a fault stopped it. -/
structure Copy where
  id : Nat
  q : EQ
  word : W64
  caddr : W64
  ops : List W64
  pat : List Byte
  idx : List Nat := []
  next : Nat := 0
  low : Nat := 0
  done : List Nat := []
  flight : List Flight := []
  adds : Nat := 0
  stop : Option Nat := none
  listed : Bool := false
  /-- The package that every piece of a `cput` or `cget` reaches (17 R298), once a piece has been asked for. -/
  far : Option Nat := none
  deriving DecidableEq, Repr

/-- What a waiting front end waits for (09 R183 and the entries of the waiting words). -/
inductive Wait where
  /-- Dispatch into a full queue (03 R40); tried again at each turn. -/
  | dispatch (e : EQ)
  /-- `mfmt` with a full format queue (13 R231); tried again at each turn. -/
  | fmt
  /-- The flip of a barrier instance (03 R71). -/
  | bar (sc : Scope) (released : Bool)
  /-- A tag wait: any, all or first (09 R179). -/
  | tags (sel : Nat) (d : Reg) (m : W64)
  /-- An arrival counter of the own window (09 R180). -/
  | wcnt (sc : Scope) (d : Reg) (off : Nat) (b : W64)
  /-- The queues of a `qfence` (09 R181). -/
  | qfence (f l c s : Bool)
  /-- A release (09 R182). -/
  | rel (sc : Scope)
  /-- An acquire (09 R182). -/
  | acq (sc : Scope)
  /-- `tokset` (09 R177). -/
  | tokset (v : W64)
  /-- `tfence` (09 R191). -/
  | tfence
  /-- `reap` (03 R54). -/
  | reap
  /-- The old value of a non-posted atomic, whose word counts as executed; `val` is the reply once it is here (09 R187,
  23 R373). -/
  | reply (d : Reg) (serial : Option Nat) (val : Option W64)
  /-- The reply to a `sys` word, already decided by the Rolernis complex (09 R192). -/
  | service (d : Reg) (val : W64)
  /-- `sow` to the own core with a full queue or after a back-off (03 R62): the ck from which it is tried again. -/
  | sow (at_ : Nat)
  /-- `pchg` (09 R193): the new carve. -/
  | pchg (w : W64)
  /-- `tlbi` and `tlbia` (09 R194): the accesses that were under way. -/
  | tlb (under : List (Sid × Nat))
  deriving DecidableEq, Repr

/-- The resumption record of an interrupted `mslice` (13 R247): its entry and the format entry it popped, the diagonal and A
digit index of the next pass (diagonal 0 before the pre-pass has finished), e + 1 of the 384 scales, and the partial diagonal
sum by element. `flags` are the flags raised so far, which the spec's record does not hold (assumption 21). -/
structure MsRec where
  entry : Nat
  fmt : Fmtw
  nextM : Nat := 0
  nextI : Nat := 0
  scales : List Int := []
  acc : List Int := []
  flags : Nat := 0
  deriving DecidableEq, Repr

/-- A sequencer (01 R17). -/
structure Seq where
  st : SeqSt := .unbound
  pc : W64 := 0
  s : Vector W64 32 := Vector.replicate 32 0
  p : BitVec 8 := 0
  v : Vector Vec 32 := Vector.replicate 32 0
  k : Vector Msk 8 := Vector.replicate 8 0
  lc0 : W64 := 0
  lc1 : W64 := 0
  fpc : W64 := 0
  fps : W64 := 0
  tags : W64 := 0
  /-- The tags whose copies certify core scope or wider (05 R92, 09 R179). -/
  tagAcq : W64 := 0
  memb : W64 := 0
  prio : BitVec 2 := 0
  lmax : BitVec 6 := 63
  base : Vector (BitVec 57) 16 := Vector.replicate 16 0
  slotN : BitVec 6 := 0
  dbase : BitVec 57 := 0
  vseq : BitVec 8 := 0
  vcore : BitVec 6 := 0
  vteam : BitVec 6 := 0
  rows : BitVec 3 := 0
  cols : BitVec 4 := 0
  dctx : BitVec 16 := 0
  lctx : BitVec 6 := 0
  vpN : BitVec 10 := 0
  vpV : BitVec 10 := 0
  sern : BitVec 24 := 0
  ack : BitVec 24 := 0
  out : List Out := []
  /-- Token counts LC, CL, CS, SC (03 R45). -/
  lc : Nat := 0
  cl : Nat := 0
  cs : Nat := 0
  sc : Nat := 0
  fq : List Fmtw := []
  ql : List Entry := []
  qc : List Entry := []
  qs : List Entry := []
  harrow : List HItem := []
  fe : List Pend := []
  wait : Option Wait := none
  /-- The reply of a `sys` word that has been served and has not yet ended (09 R192). -/
  sysDone : Option W64 := none
  copies : List Copy := []
  msrec : Option MsRec := none
  frec : Option FaultRec := none
  deferred : List FaultRec := []
  aband : Bool := false
  /-- The sequencer was IDLE when a deferred fault stopped it. -/
  idleStop : Bool := false
  /-- A flip recorded while saved, at core, team, package and domain scope (23 R378). -/
  flip : BitVec 4 := 0
  lheld : Bool := false
  /-- The arrival that still stands at a barrier, by scope and instance, while its word has not completed (03 R75). -/
  atBar : Option (Scope × Nat) := none
  /-- The model's own: the next handle for entries, accesses and copies. -/
  next : Nat := 0
  deriving DecidableEq, Repr

/-! ## Cores -/

/-- The kinds of a tile (13 R239). -/
inductive TileKind where
  | zero | f32 | i32 | p32 | p64 | member
  deriving DecidableEq, Repr

/-- A program tile (01 R18, 13 R239): its kind, tensor scales and 256 x 128 words; an unlisted word is 0. -/
structure Tile where
  kind : TileKind := .zero
  ta : BitVec 32 := 0x3F800000
  tb : BitVec 32 := 0x3F800000
  data : Cells (BitVec 32) := []
  deriving DecidableEq, Repr

/-- A command that has entered the array and waits for a bus stream (13 R236, R237): the sequencer, its C entry, the format
entry it popped, whether it is a receiver (an `mmul` that takes A, B or both from a bus) or an `msow`, and the scratchpad bytes
it will read, as offset and length (13 R228). -/
structure ArrCmd where
  seq : Nat
  entry : Nat
  fmt : Fmtw
  fromRow : Bool := false
  fromCol : Bool := false
  reads : List (Nat × Nat) := []
  deriving DecidableEq, Repr

/-- A reply-cache entry (17 R304) with its hold timer, counted in ck. -/
structure Reply where
  id : Ident
  serial : Nat
  result : W64
  hold : Nat := 0
  deriving DecidableEq, Repr

/-- What a core is bound to (03 R65): context, team and virtual core. -/
structure Binding where
  dctx : Nat
  vteam : Nat
  vcore : Nat
  deriving DecidableEq, Repr

/-- A page slot that the sower has delivered to (19 R321, R331): its number, the scratchpad offsets of its page and of its
header, and whether it is held. -/
structure PageSlot where
  slot : Nat
  page : Nat
  header : Nat
  held : Bool := true
  deriving DecidableEq, Repr

/-- A block read that a core's station has outstanding (15 R269): the sequencer, copy and piece; the block; the bytes of it, and where
they stand in the piece. -/
structure BlockRead where
  seq : Nat
  cid : Nat
  piece : Nat
  block : Nat
  off : Nat
  len : Nat
  at_ : Nat
  deriving DecidableEq, Repr

/-- A core (01 R17-R19). -/
structure Core where
  seqs : Vector Seq 4 := Vector.replicate 4 {}
  spad : Memory := []
  win : Memory := []
  tiles : Vector Tile 30 := Vector.replicate 30 {}
  array : List ArrCmd := []
  replies : List Reply := []
  carve : W64 := 0
  /-- Granules whose fill has not ended, with the ck by which it ends (15 R261). -/
  waking : List (Nat × Nat) := []
  /-- Gather-cache lines: line address and bytes (15 R285). -/
  gather : List (Nat × List Byte) := []
  /-- Instruction-cache lines present, by slot and line number, with their bytes (01 R20). -/
  icache : List (Nat × Nat × List Byte) := []
  holder : Option Nat := none
  lastHolder : Nat := 0
  grantCk : Nat := 0
  /-- Matrix commands issued under the current lease (09 R189), and LEASE_MAX as it stood at the grant (09 R190). -/
  leaseIssued : Nat := 0
  leaseMax : Nat := 64
  /-- Sequencers that wait for the lease, longest first, with the holders granted since (03 R78). -/
  leaseWait : List (Nat × List Nat) := []
  bars : Vector Barrier 4 := Vector.replicate 4 {}
  /-- The ck at which the head timer of seed queue 0, 1, 2 started; none while the queue is empty (03 R58). -/
  headCk : Vector (Option Nat) 3 := Vector.replicate 3 none
  /-- The ck of the last push to seed queue 0 to 3, and the pushes of that ck, which no pop sees yet (03 R52). -/
  pushed : Vector (Nat × Nat) 4 := Vector.replicate 4 (0, 0)
  pages : List PageSlot := []
  bound : Option Binding := none
  offline : Bool := false
  /-- Where the copy engine's round-robin stands (15 R280). -/
  rr : Nat := 0
  /-- The block reads that the core's ring station has outstanding (15 R269). -/
  reads : List BlockRead := []
  /-- The blocks of requests that met REHOME and are not answered yet (15 R265). -/
  rehomed : List Nat := []
  deriving DecidableEq, Repr

/-! ## Dies -/

/-- A line that a slice holds (01 R28, 15 R263): its slice, its number PA[43:7], and whether it is dirty. Its bytes are those of the
package's memory, for no agent sees memory apart from its slice (R281). -/
structure SliceLine where
  slice : Nat
  line : Nat
  dirty : Bool
  deriving DecidableEq, Repr

/-- A request of a copy engine to a slice (15 R263-R266, R270): the copy's piece, its physical address and length, the slice of the
die for each block it touches, by the map of generation `gen`; the bytes of a write; the cores that receive of a `cmc`; `.na`; the ck
from which it waits; the asking die's slices, where a slice of that die has forwarded it here (01 R28); and whether it is issued
again after REHOME. -/
structure SliceReq where
  who : Sid
  cid : Nat
  piece : Nat
  slices : List Nat
  gen : Nat
  pa : Nat
  bytes : Nat
  write : Option (List Byte) := none
  mask : List Nat := []
  na : Bool := false
  since : Nat := 0
  fwd : Option (List Nat) := none
  again : Bool := false
  deriving DecidableEq, Repr

/-- Sideband of a delivery (15 R269, R275; 19 R329): a `cmc` piece's bytes in the block, with their place in the piece, or a page
slot's bytes at a scratchpad offset; and the cores that take them. -/
inductive Band where
  | cmc (who : Sid) (cid n off len at_ : Nat) (dsts : List Nat)
  | page (off : Nat) (dsts : List Nat)
  deriving DecidableEq, Repr

/-- A delivery slot's contents, or a write acknowledgement, from when a slice has formed it (15 R266, R269, R270): the slice, the
block's address and bytes, its valid lines, the 48-bit mask of the die-local cores that wait for it, and sideband. `fresh` says that no
write to the block has been performed since its data was read; `sent` is the ck in which it was injected, with its slot. -/
structure Delivery where
  slice : Nat
  pa : Nat
  bytes : List Byte := []
  lines : List Nat := []
  mask : BitVec 48 := 0
  side : List Band := []
  ack : Option (Sid × Nat × Nat) := none
  fresh : Bool := true
  sent : Option (Nat × Nat) := none
  deriving DecidableEq, Repr

/-- A slot position of a ring plane that has carried something (15 R267): the plane, the position, and the ck in which it became empty
or will become so. -/
structure RingSlot where
  plane : Nat
  pos : Nat
  free : Nat
  deriving DecidableEq, Repr

/-- The states of a slice (15 R265). -/
inductive SliceSt where
  | serving | retiring | rehoming | off
  deriving DecidableEq, Repr

/-- The phases of a layer (19 R324, R327, R339): held open for subscriptions, in its main pass, between passes, in a gleaning pass, or
retired with counts still to be zeroed. -/
inductive Phase where
  | hold | main | rest | glean | ending
  deriving DecidableEq, Repr

/-- An active layer at the sower (19 R327-R329): the descriptor's address and bytes, the context it belongs to, who activated
it and when, its subscriptions, the rank it serves next and the count of pages served. -/
structure Layer where
  desc : W64
  bytes : List Byte
  dctx : Nat
  by_ : Ident
  caddr : W64 := 0
  since : Nat := 0
  started : Nat := 0
  subs : Nat := 0
  phase : Phase := .hold
  rank : Nat := 0
  served : Nat := 0
  checked : List Nat := []
  /-- Of a retired layer, the ranks whose counts are not zeroed yet (19 R324). -/
  left : List Nat := []
  deriving DecidableEq, Repr

/-- A live block in the sheaf buffer (19 R334-R338): its record and table as read, HEAD, the rows' M and L, the accumulator,
the partials held by position, and the positions with a reserved pool slot. -/
structure Block where
  dctx : Nat
  vteam : Nat
  vcore : Nat
  core : Nat
  record : List Byte
  table : List Nat
  head : Nat := 0
  m : List (BitVec 32)
  l : List (BitVec 32)
  o : Cells (BitVec 32) := []
  held : List (Nat × List Byte) := []
  reserved : List Nat := []
  /-- Subscribed during a gleaning pass, and so served from the next one on (19 R339). -/
  late : Bool := false
  /-- The completion writes that have been made (19 R338). -/
  written : Nat := 0
  by_ : Ident
  caddr : W64 := 0
  addr : W64 := 0
  deriving DecidableEq, Repr

/-- A panel that an issued `msow` has armed (13 R237): the sender, its entry, code address and team, the ck in which it armed
with its VCORE, its bus, the operand type, K, and whether it carries block scales; its base and pitch, and its scale area.
`bad` marks one whose receivers did not match it (13 R238). -/
structure Panel where
  who : Sid
  entry : Nat
  caddr : W64
  dctx : Nat
  vteam : Nat
  vcore : Nat
  ck : Nat
  col : Bool
  line : Nat
  otype : Nat
  kext : Nat
  abs : Bool
  base : W64
  pitch : W64
  area : Nat
  bad : Bool := false
  deriving DecidableEq, Repr

/-- An Izain die (01 R16, R21-R28). -/
structure Die where
  map : List Nat := (List.range 64).map (· % 24)
  gen : Nat := 0
  slices : List SliceSt := List.replicate 24 .serving
  reqs : List SliceReq := []
  panels : List Panel := []
  deliv : List Delivery := []
  lines : List SliceLine := []
  ring : List RingSlot := []
  /-- The injections and the latches of the ring's stations, by station and ck (01 R21); those long past are dropped. -/
  injected : List (Nat × Nat) := []
  latched : List (Nat × Nat) := []
  /-- The slot whose time-division tables the ring uses, none for the default tables; the one before, and the ck of the change
  (15 R267, 25 R401). -/
  tdm : Option Nat := none
  tdmOld : Option Nat := none
  tdmAt : Nat := 0
  layers : List Layer := []
  blocks : List Block := []
  stretched : Bool := false
  deriving DecidableEq, Repr

/-! ## The package's router die -/

/-- A context on a package (23 R380, R391; 17 R288): numbers, root table, the packages by VP with the INC each had, its
package-scope and domain-scope barriers, and the reason it is stopping. -/
structure Context where
  dctx : Nat
  lctx : Nat
  root : Nat
  vps : List (Nat × Nat)
  pkgBars : Cells Barrier := []
  domBars : Cells Barrier := []
  stopping : Option Nat := none
  ended : Bool := false
  /-- Teams that were placed here and have been released since: VTEAM and number of members (17 R289). -/
  past : List (Nat × Nat) := []
  deriving DecidableEq, Repr

/-- The states of a team (23 R380): placed and running, stopping for a checkpoint, saved for a resume, or stopped with its
context. -/
inductive TeamSt where
  | running | closing | saved | stopped
  deriving DecidableEq, Repr

/-- A team (03 R65-R68, 23 R380): its rectangle, its save block, its team-scope barriers and its slot. `home` is the
package whose Rolernis complex runs its invocation; `reason` is the stop reason of R376 (and the model's own: 5 of a killed team, 6 of
one whose context ends), `stopAt` the ck of the stop. -/
structure Team where
  dctx : Nat
  vteam : Nat
  st : TeamSt
  die : Nat
  row : Nat
  col : Nat
  rows : Nat
  cols : Nat
  slot : Nat
  inv : Nat
  home : Nat := 0
  save : Nat := 0
  reason : Nat := 0
  bars : Vector Barrier 16 := Vector.replicate 16 {}
  stopAt : Nat := 0
  /-- The cores as the last checkpoint left them, by VCORE: what the image of 23 R375 holds. -/
  saved : List Core := []
  deriving DecidableEq, Repr

/-- A granary slot (25 R400, 05 R104, R117): where its object lies, the header's figures and the continuation map. -/
structure Slot where
  loaded : Bool := false
  base : Nat := 0
  codesz : Nat := 0
  datasz : Nat := 0
  entry : Nat := 0
  cont : List Nat := []
  ntdm : Nat := 0
  tdmoff : Nat := 0
  wbase : Nat := 0
  wlen : Nat := 0
  deriving DecidableEq, Repr

/-- The journal states of an accepted entry (25 R403). -/
inductive JState where
  | accepted | started | done
  deriving DecidableEq, Repr

/-- A node of a replay (25 R402): its command entry, its predecessors and its outcome. -/
structure Node where
  bytes : List Byte
  preds : List Nat
  st : JState := .accepted
  status : Option (Nat × Nat) := none
  inv : Option Nat := none
  deriving DecidableEq, Repr

/-- An accepted command entry in the journal (25 R393, R394, R403): its index, its bytes as copied, its state, the last
recorded step of a command with several, its outcome once known, and a replay's snapshot. -/
structure JEntry where
  idx : Nat
  bytes : List Byte
  st : JState := .accepted
  step : Nat := 0
  outcome : Option (Nat × Nat) := none
  nodes : List Node := []
  deriving DecidableEq, Repr

/-- What the Rolernis complex keeps of a command queue beside its record (25 R394-R399). -/
structure CQueue where
  num : Nat
  entries : List JEntry := []
  wake : Bool := false
  askedAt : Option Nat := none
  mappedAt : Nat := 0
  /-- The ck at which the queue last had something to accept or to start (25 R398). -/
  busyAt : Nat := 0
  watch : Option (Nat × W64) := none
  /-- A write has been reported that satisfies the watch (25 R399). -/
  seen : Bool := false
  /-- The events posted to the queue's event ring so far (25 R392). -/
  events : Nat := 0
  deriving DecidableEq, Repr

/-- The scheduler's decision for an invocation (23 R369). -/
inductive Decision where
  | none | drain (at_ : Nat) | kill | checkpoint
  deriving DecidableEq, Repr

/-- An invocation (25 R400, 23 R369): the queue, entry and plan node it came from, its payload, the ck of team start, and its
estimate. -/
structure Invocation where
  id : Nat
  q : Nat
  idx : Nat
  node : Option Nat := none
  bytes : List Byte
  estimate : Nat := 0
  start : Option Nat := none
  decision : Decision := .none
  ended : Bool := false
  /-- The CTXRESUME that waits for this invocation's join (25 R413): queue, index and plan node. -/
  resumer : Option (Nat × Nat × Option Nat) := none
  deriving DecidableEq, Repr

/-- What a killed invocation leaves for its next run (23 R371): its queue, entry and node, and SERN.NEXT by VSEQ. -/
structure Killed where
  q : Nat
  idx : Nat
  node : Option Nat
  serials : List (Nat × Nat)
  deriving DecidableEq, Repr

/-- An event of the Rolernis complex's event queue (25 R397). -/
inductive Event where
  | wix | wake | satisfied | completion | refill
  deriving DecidableEq, Repr

/-- What the package has posted to a queue's event ring or to the host (25 R393, R394, R404, R409, R410), and the notifications of
queue pairs (25 R392). The layout of an event is not in the spec, so the model also keeps here what each says (assumption 33). -/
inductive Posted where
  | completed (q idx status detail : Nat)
  | overrun (q rix : Nat)
  | user (q : Nat) (v : W64)
  | notified (q qp : Nat)
  | read (bytes : List Byte)
  | log (bytes sig : List Byte)
  deriving DecidableEq, Repr

/-- The states of a work entry (21 R349). -/
inductive WorkSt where
  | free | waittrig | run | susp | done | fault
  deriving DecidableEq, Repr

/-- What a collective packet is (21 R348, R352, R355, R356, R358). -/
inductive CollKind where
  | data (c nc chunk dtype off : Nat) (bytes : List Byte)
  | abort | suspend (origin : Nat) | resume (origin : Nat)
  deriving DecidableEq, Repr

/-- A collective packet: the context, collective, generation, sender's and receiver's rank, its sequence number per
(COLL, G, sender, receiver), and what it carries. -/
structure CollPkt where
  dctx : Nat
  coll : Nat
  g : Nat
  src : Nat
  dst : Nat
  seq : Nat
  kind : CollKind
  deriving DecidableEq, Repr

/-- A collective packet sent and not yet answered (21 R352). -/
structure CollOut where
  pkt : CollPkt
  dpkg : Nat
  attempts : Nat := 1
  lastSend : Nat := 0
  resendAt : Option Nat := none
  deriving DecidableEq, Repr

/-- A step in progress (21 R348): its index, word and chunk; the rank it receives from and the number of the first packet of
its chunk there; the rank it sends to and the first number of its chunk there; the packets of the chunk handled so far; and, of the
others, the 64 B pieces read so far, with their bytes, and those written. -/
structure StepRun where
  idx : Nat
  word : BitVec 32
  chunk : Nat
  src : Option Nat := none
  rbase : Nat := 0
  dst : Option Nat := none
  sbase : Nat := 0
  got : List Nat := []
  read : List (Nat × List Byte) := []
  wrote : List Nat := []
  deriving DecidableEq, Repr

/-- A physical work entry (21 R344, R349): the record, rank table and step program as `karm` read them, and its progress. -/
structure Work where
  st : WorkSt := .free
  before : WorkSt := .free
  dctx : Nat := 0
  ve : Nat := 0
  record : List Byte := []
  ranks : List Nat := []
  steps : List (BitVec 32) := []
  vteam : Nat := 0
  by_ : Ident := {}
  caddr : W64 := 0
  g : Nat := 0
  pc : Nat := 0
  i0 : Nat := 0
  i1 : Nat := 0
  n0 : Option Nat := none
  n1 : Option Nat := none
  pa : Option Nat := none
  pb : Option Nat := none
  runs : List StepRun := []
  /-- Packets in the staging buffers, with the port of each (21 R353). -/
  staged : List (Nat × CollPkt) := []
  outs : List CollOut := []
  /-- Of this generation, by peer rank: the next number to send, the next number that a receiving step takes, and the numbers
  counted (21 R348, R352). -/
  sendSeq : List (Nat × Nat) := []
  recvNext : List (Nat × Nat) := []
  recvSeq : List (Nat × Nat) := []
  timer : Nat := 0
  nan : Bool := false
  ovf : Bool := false
  dispend : Bool := false
  fcode : Nat := 0
  /-- A value of the word at TSIG has been reported that starts the next generation (21 R349). -/
  trig : Bool := false
  /-- A suspension has begun: no further step starts (21 R355). `passed` are the ranks whose SUSPEND has come
  here, and `pass` those whose SUSPEND is still to be sent on. -/
  holding : Bool := false
  passed : List Nat := []
  pass : List Nat := []
  /-- A suspended entry has been restored and has sent its RESUME (21 R356). -/
  restored : Bool := false
  deriving DecidableEq, Repr

/-- The body of a fabric packet. -/
inductive Body where
  | req (r : Req)
  | ans (r : Req) (a : Ans)
  | coll (c : CollPkt)
  | collAck (c : CollPkt) (refused : Bool)
  deriving DecidableEq, Repr

/-- A packet on the fabric (17 R294-R316): where it is (a router, or a link between a port and its neighbour), its planes'
channel (0-4 dragonfly, 5 headland, 6 COLL, 7 MGMT), whether it waits in a reorder buffer, the tree epoch it entered HL under, and
the ck from which it waits at its router. -/
structure Packet where
  id : Nat
  src : Nat
  dst : Nat
  at_ : Nat
  port : Option Nat := none
  /-- The port by which it came to its router, and the output that it waits for there. -/
  via : Nat := 0
  want : Option Nat := none
  vc : Nat := 0
  fresh : Bool := true
  held : Bool := false
  response : Bool := false
  epoch : Nat := 0
  since : Nat := 0
  sent : Nat
  body : Body
  deriving DecidableEq, Repr

/-- What a package reports to management (17 R310): a lane's state and the corrected flit errors counted on it, or a link's retirement. -/
inductive Report where
  | lane (port lane : Nat) (active : Bool) (errors : Nat)
  | retired (port : Nat)
  deriving DecidableEq, Repr

/-- A flit of a link's replay buffer (17 R312): its sequence number, the packet it belongs to and whether it is the last. -/
structure Flit where
  seq : Nat
  pkt : Nat
  last : Bool
  deriving DecidableEq, Repr

/-- A router port (17 R310-R313): its ACTIVE lanes, retirement, the flits sent and not acknowledged, the next sequence number
to send and the one it expects to receive, whether the receiver has asked for a replay, and the global index assigned to it
(01 R30). Of the dealing over lanes (R311): whether a stripe-change control flit is to be sent, the lanes over which flits are dealt and
the lane from which the next one is looked for. Of R310: the flits received, and the lane and place of each that was corrected, in the
last 2^30. Of R314 and 21 R353: the channels served in the current round, by plane, and the collectives served in theirs. -/
structure Port where
  lanes : BitVec 8 := 0xFF
  retired : Bool := false
  replay : List Flit := []
  toSend : List Flit := []
  txSeq : Nat := 0
  rxSeq : Nat := 0
  nak : Bool := false
  gindex : Option Nat := none
  change : Bool := false
  stripe : BitVec 8 := 0xFF
  lane : Nat := 0
  rxCount : Nat := 0
  errs : List (Nat × Nat) := []
  served : List (Bool × Nat) := []
  collServed : List (Nat × Nat) := []
  deriving DecidableEq, Repr

/-- The sender's side of an ordered stream (17 R294): the next FSEQ and the numbers not yet answered. -/
structure FlowTx where
  dctx : Nat
  dst : Nat
  next : Nat := 0
  open_ : List Nat := []
  deriving DecidableEq, Repr

/-- The destination's side of an ordered stream (17 R294): the next FSEQ to issue, the next FSEQ whose answer is released, and
the answers held. A packet that waits in the reorder buffer stays in State.net, marked `held`. -/
structure FlowRx where
  dctx : Nat
  src : Nat
  next : Nat := 0
  ansNext : Nat := 0
  ans : List (Nat × Req × Ans) := []
  deriving DecidableEq, Repr

/-- A request in a package's mesh that its owner or home has not yet handled (17 R305; 23 R373). -/
structure MeshReq where
  req : Req
  src : Nat
  /-- The ck in which the mesh took it. -/
  at_ : Nat := 0
  deriving DecidableEq, Repr

/-- A cached leaf or table entry of a TLB or walk cache (23 R386): level, the address bits above the level's span, the entry,
and whether it is a 64 KiB entry. -/
structure Cached where
  lctx : Nat
  level : Nat
  tag : Nat
  entry : W64
  big : Bool := false
  deriving DecidableEq, Repr

/-- The first read of a CRIT leaf, at its address and level, of a walk that is under way (23 R384). -/
structure CritRead where
  who : Sid
  lctx : Nat
  va : W64
  addr : Nat
  lvl : Nat
  entry : W64
  ck : Nat
  deriving DecidableEq, Repr

/-- The settings that management makes on a package (23 R369, R388; 25 R392, R400, R405, R409, R410). -/
structure Settings where
  qtbase : Nat := 0
  bmbase : Nat := 0x59F000000
  slotBase : Nat := 0x0A00000000
  hostRanges : List (Nat × Nat) := []
  needSig : Bool := false
  slotKey : List Byte := []
  bootKeyHash : List Byte := []
  drainLimit : Nat := 3000000
  killGap : Nat := 8
  period : Nat := 30000000
  deriving DecidableEq, Repr

/-- A package (01 R16, R29-R34; 17 R309). -/
structure Package where
  num : Nat
  inc : Nat := 0
  resetCk : Nat := 0
  /-- L, the populated LPDDR6 capacity in bytes (01 R27). -/
  lpddr : Nat := 0
  mem : Memory := []
  settings : Settings := {}
  cores : Vector Core 96 := Vector.replicate 96 {}
  dies : Vector Die 2 := Vector.replicate 2 {}
  ctxs : List Context := []
  teams : List Team := []
  slots : Vector Slot 64 := Vector.replicate 64 {}
  queues : List CQueue := []
  evq : List (Nat × Event) := []
  invs : List Invocation := []
  nextInv : Nat := 0
  killed : List Killed := []
  posted : List Posted := []
  /-- The queues whose WAKE word an agent other than the host has written in the current step (25 R392). -/
  woken : List Nat := []
  works : Vector Work 64 := Vector.replicate 64 {}
  ports : Vector Port 32 := Vector.replicate 32 {}
  flowsTx : List FlowTx := []
  flowsRx : List FlowRx := []
  mesh : List MeshReq := []
  answers : List (Req × Ans) := []
  /-- Copies of ordered requests that the router die holds for a checkpointed team (17 R307). -/
  routerCopies : List Out := []
  /-- Requests of the package's barrier units to the root package (03 R73), and their serials. -/
  unitOut : List Out := []
  unitNext : Nat := 0
  /-- Messages of barrier units already performed here: package and serial (03 R73). -/
  unitSeen : List (Nat × Nat) := []
  tlb : List Cached := []
  walk : List Cached := []
  crit : List CritRead := []
  /-- The ck at which the accounting period began (25 R405). -/
  periodAt : Nat := 0
  /-- The step of a suspend under way (25 R407): 0 running, 1-5 the steps, 6 retention. -/
  susp : Nat := 0
  suspAck : Bool := false
  /-- Headland: draining for a rebuild, and the current epoch (17 R318). -/
  epoch : Nat := 0
  /-- Firmware (25 R410): version running, fused rollback count, measurement log. -/
  fwVersion : Nat := 0
  rollback : Nat := 0
  mlog : List (List Byte) := []
  /-- Single-bit errors corrected and counted for management (23 R367), and its reports of lanes and links (17 R310). -/
  corrected : Nat := 0
  reports : List Report := []
  offline : Bool := false
  deriving DecidableEq, Repr

/-! ## The machine -/

/-- The state of one domain. `tape`, `free`, `who` and `whoEntry` are the model's own: the turns to come, the counter at
which free values are drawn, and the sequencer and work entry that act in the current turn (assumptions 1 and 2). -/
structure State where
  tape : List Turn := []
  free : Nat := 0
  who : Sid := ⟨0, 0, 0⟩
  whoEntry : Nat × Nat := (0, 0)
  /-- Core clocks since reset (00 R7, R8): what CYC and every timer read. -/
  ck : Nat := 0
  /-- Time passed since reset, in thirds of a nanosecond: a ck takes one of them, and more while a die is stretched (00 R8,
  25 R406). -/
  time : Nat := 0
  pkgs : List Package := []
  net : List Packet := []
  nextPkt : Nat := 0
  /-- A whole-domain suspend (25 R407): the time of its broadcast. -/
  suspendAt : Option Nat := none
  /-- A headland drain (17 R318): the ck at which it began. -/
  drainAt : Option Nat := none
  /-- The headland tree that the routers have loaded (17 R316, R318): each package but the root, with its parent. -/
  tree : List (Nat × Nat) := []
  /-- The epoch of that tree (17 R318). -/
  treeEpoch : Nat := 0
  deriving DecidableEq, Repr

/-- Package 0 right after its reset, and no other package (assumptions 3 to 7). -/
def State.reset : State := { pkgs := [{ num := 0 }] }

end Sys2Proof.Machine
end

