-- ==== Sys2Proof/Machine/Ops.lean ====
section
/-! DEFINITION. The named operations over the machine's state: sparse stores, the packages, cores and sequencers, registers,
memories, queues and tokens, taking a fault, and stopping and resuming what a fault stops (23 R363-R368). -/

namespace Sys2Proof.Machine

/-! ## Sparse stores -/

/-- The entry of key k, or d where none is listed. -/
def cellGet {α : Type} (d : α) : Cells α → Nat → α
  | [], _ => d
  | (a, b) :: r, k => if a = k then b else cellGet d r k

/-- Insertion of an entry in its place by key. -/
def cellIns {α : Type} (k : Nat) (v : α) : Cells α → Cells α
  | [] => [(k, v)]
  | (a, b) :: r => if a = k then (k, v) :: r else if k < a then (k, v) :: (a, b) :: r else (a, b) :: cellIns k v r

/-- The entry of key k becomes v; a value equal to the unlisted value d is not listed. -/
def cellPut {α : Type} [DecidableEq α] (d : α) (m : Cells α) (k : Nat) (v : α) : Cells α :=
  if v = d then m.filter (fun e => !decide (e.1 = k)) else cellIns k v m

/-- Keys rise strictly from a lower bound. -/
def cellSorted {α : Type} : Option Nat → Cells α → Bool
  | _, [] => true
  | lo, (a, _) :: r => (match lo with | none => true | some b => decide (b < a)) && cellSorted (some a) r

/-- The canonical form of a memory whose unlisted bytes read as `dflt`: addresses strictly rising, and no entry equal to what
an unlisted address reads as. -/
def Memory.wf (dflt : Nat → Byte) (m : Memory) : Bool :=
  cellSorted none m && m.all fun e => !decide (e.2 = dflt e.1)

/-- The byte at an address. -/
def memGet (dflt : Nat → Byte) (m : Memory) (a : Nat) : Byte := cellGet (dflt a) m a

/-- The byte at an address becomes v. -/
def memPut (dflt : Nat → Byte) (m : Memory) (a : Nat) (v : Byte) : Memory := cellPut (dflt a) m a v

/-- Bytes from an address on. -/
def memBytes (dflt : Nat → Byte) (m : Memory) (a n : Nat) : List Byte :=
  (List.range n).map fun i => memGet dflt m (a + i)

/-- Bytes written from an address on. -/
def memSet (dflt : Nat → Byte) (m : Memory) (a : Nat) : List Byte → Memory
  | [] => m
  | b :: bs => memSet dflt (memPut dflt m a b) (a + 1) bs

/-- Scratchpads and atomic windows read 0 where nothing is listed (assumption 4). -/
def zeroByte (_ : Nat) : Byte := 0

/-- The number whose little-endian bytes are given (00 R4). -/
def leNat : List Byte → Nat
  | [] => 0
  | b :: bs => b.toNat + 256 * leNat bs

/-- The n little-endian bytes of a number (00 R4). -/
def leBytes : Nat → Nat → List Byte
  | 0, _ => []
  | n + 1, v => BitVec.ofNat 8 v :: leBytes n (v / 256)

/-- The field of a record's bytes: `n` bytes from `off`, as a number. -/
def fieldAt (bs : List Byte) (off n : Nat) : Nat := leNat ((bs.drop off).take n)

/-- Bits [hi:lo] of a number. -/
def bitsOf (x hi lo : Nat) : Nat := (x / 2 ^ lo) % 2 ^ (hi - lo + 1)

/-! ## Vectors -/

/-- The element of a vector, or d beyond its end. -/
def vget {α : Type} {n : Nat} (d : α) (v : Vector α n) (i : Nat) : α := if h : i < n then v[i] else d

/-- The element of a vector changed by f; nothing beyond its end. -/
def vmod {α : Type} {n : Nat} (v : Vector α n) (i : Nat) (f : α → α) : Vector α n :=
  if h : i < n then v.set i (f v[i]) else v

/-- The element of a vector replaced. -/
def vput {α : Type} {n : Nat} (v : Vector α n) (i : Nat) (x : α) : Vector α n := vmod v i fun _ => x

/-! ## Packages, dies, cores and sequencers -/

/-- The package of a number is in the domain. -/
def State.hasPkg (s : State) (n : Nat) : Bool := s.pkgs.any fun p => p.num == n

/-- The package of a number. -/
def State.pkg (s : State) (n : Nat) : Package := (s.pkgs.find? fun p => p.num == n).getD { num := n }

/-- The package of a number changed by f. -/
def State.modPkg (s : State) (n : Nat) (f : Package → Package) : State :=
  { s with pkgs := s.pkgs.map fun p => if p.num = n then f p else p }

/-- A core of a package. -/
def Package.core (p : Package) (c : Nat) : Core := vget {} p.cores c

/-- A core of a package changed by f. -/
def Package.modCore (p : Package) (c : Nat) (f : Core → Core) : Package := { p with cores := vmod p.cores c f }

/-- A core, by package and physical core number (01 R34). -/
def State.core (s : State) (p c : Nat) : Core := (s.pkg p).core c

/-- A core changed by f. -/
def State.modCore (s : State) (p c : Nat) (f : Core → Core) : State := s.modPkg p fun k => k.modCore c f

/-- A die of a package. -/
def Package.die (p : Package) (d : Nat) : Die := vget {} p.dies d

/-- A die changed by f. -/
def State.modDie (s : State) (p d : Nat) (f : Die → Die) : State := s.modPkg p fun k => { k with dies := vmod k.dies d f }

/-- A sequencer of a core. -/
def Core.seq (c : Core) (q : Nat) : Seq := vget {} c.seqs q

/-- A sequencer of a core changed by f. -/
def Core.modSeq (c : Core) (q : Nat) (f : Seq → Seq) : Core := { c with seqs := vmod c.seqs q f }

/-- The sequencer is in the machine. -/
def State.has (s : State) (i : Sid) : Bool := s.hasPkg i.pkg && decide (i.core < 96) && decide (i.seq < 4)

/-- A sequencer. -/
def State.seq (s : State) (i : Sid) : Seq := (s.core i.pkg i.core).seq i.seq

/-- A sequencer changed by f. -/
def State.modSeq (s : State) (i : Sid) (f : Seq → Seq) : State := s.modCore i.pkg i.core fun c => c.modSeq i.seq f

/-- A work entry of a package. -/
def State.work (s : State) (p e : Nat) : Work := vget {} (s.pkg p).works e

/-- A work entry changed by f. -/
def State.modWork (s : State) (p e : Nat) (f : Work → Work) : State := s.modPkg p fun k => { k with works := vmod k.works e f }

/-- The die of a physical core (01 R34). -/
def dieOf (c : Nat) : Nat := c / 48

/-- Every sequencer of a package, by physical number (01 R34). -/
def sidsOf (p : Nat) : List Sid :=
  (List.range 96).flatMap fun c => (List.range 4).map fun q => ⟨p, c, q⟩

/-! ## Free values -/

/-- A free truth value, and the state with the counter moved on (assumption 2). -/
def State.drawBool (s : State) : Bool × State := (Config.freeBool s.free, { s with free := s.free + 1 })

/-- A free number, and the state with the counter moved on (assumption 2). -/
def State.drawNat (s : State) : Nat × State := (Config.freeNat s.free, { s with free := s.free + 1 })

/-! ## Registers -/

/-- A scalar register; s0 reads 0 (00 R11, 09 R154). -/
def Seq.sr (q : Seq) (r : Reg) : W64 := if r = 0 then 0 else vget 0 q.s r.toNat

/-- A scalar register written; a write to s0 is discarded (09 R154). -/
def Seq.setS (q : Seq) (r : Reg) (v : W64) : Seq := if r = 0 then q else { q with s := vput q.s r.toNat v }

/-- A predicate; p0 reads true (09 R154). -/
def Seq.pr (q : Seq) (r : PReg) : Bool := r == 0 || q.p.getLsbD r.toNat

/-- A predicate written; a write to p0 is discarded (09 R154). -/
def Seq.setP (q : Seq) (r : PReg) (v : Bool) : Seq :=
  if r = 0 then q else { q with p := (q.p &&& ~~~(1#8 <<< r.toNat)) ||| (if v then 1#8 <<< r.toNat else 0) }

/-- A vector register (11 R197). -/
def Seq.vr (q : Seq) (r : Reg) : Vec := vget 0 q.v r.toNat

/-- A vector register written. -/
def Seq.setV (q : Seq) (r : Reg) (v : Vec) : Seq := { q with v := vput q.v r.toNat v }

/-- A mask register; k0 reads as all ones (11 R197). -/
def Seq.kr (q : Seq) (r : KReg) : Msk := if r = 0 then BitVec.allOnes 1024 else vget 0 q.k r.toNat

/-- A mask register written; a write to k0 is discarded (11 R197). -/
def Seq.setK (q : Seq) (r : KReg) (v : Msk) : Seq := if r = 0 then q else { q with k := vput q.k r.toNat v }

/-- The guard's value (05 R84, R86). -/
def Seq.guard (q : Seq) (g : Guard) : Bool := q.pr g.pg != g.pn

/-- The program counter moved on by n bytes. -/
def Seq.adv (q : Seq) (n : Nat) : Seq := { q with pc := q.pc + BitVec.ofNat 64 n }

/-- FPS flags ORed in (07 R127, R130). -/
def Seq.orFps (q : Seq) (f : W64) : Seq := { q with fps := q.fps ||| f }

/-- A sequencer's identity (17 R302). -/
def Seq.ident (q : Seq) : Ident := ⟨q.dctx.toNat, q.vpV.toNat, q.vteam.toNat, q.vseq.toNat⟩

/-- A load that has not yet written register r (09 R165). -/
def Seq.loading (q : Seq) (r : Reg) : Bool := r != 0 && q.fe.any fun e => !e.store && e.reg == r

/-- No register of the list waits for a load's data (09 R165). -/
def Seq.clear (q : Seq) (rs : List Reg) : Bool := rs.all fun r => !q.loading r

/-! ## Engine queues -/

/-- An engine queue's entries, oldest first (03 R40). -/
def Seq.queue (q : Seq) : EQ → List Entry
  | .l => q.ql
  | .c => q.qc
  | .s => q.qs

/-- An engine queue replaced. -/
def Seq.setQueue (q : Seq) (e : EQ) (es : List Entry) : Seq :=
  match e with
  | .l => { q with ql := es }
  | .c => { q with qc := es }
  | .s => { q with qs := es }

/-- The entry of a handle changed by f. -/
def Seq.modEntry (q : Seq) (e : EQ) (id : Nat) (f : Entry → Entry) : Seq :=
  q.setQueue e ((q.queue e).map fun x => if x.id = id then f x else x)

/-- The oldest entry that has not issued: the head of the queue in the sense of 03 R42, R44. -/
def Seq.headOf (q : Seq) (e : EQ) : Option Entry := (q.queue e).find? fun x => !x.issued

/-- Every entry of the queue has completed (03 R44). -/
def Seq.allDone (q : Seq) (e : EQ) : Bool := (q.queue e).all (·.done)

/-- L, C and S are empty, every entry retired (03 R54, 09 R177). -/
def Seq.drained (q : Seq) : Bool := q.ql.isEmpty && q.qc.isEmpty && q.qs.isEmpty

/-- The copy command's tag, where its entry names one (09 R178): the guard was true and NOTAG is 0. -/
def Entry.tag? (e : Entry) : Option Nat :=
  let h := Raw.ofWord e.word
  let f := CXB.ofBits h.body
  if e.guard && (h.q == 1 || h.q == 3) && !f.notag then some f.tag.toNat else none

/-- A copy's tag, where it names one. -/
def Copy.tag? (c : Copy) : Option Nat :=
  let f := CXB.ofBits (Raw.ofWord c.word).body
  if f.notag then none else some f.tag.toNat

/-- An outstanding entry names tag n: an L or S entry that has not completed, or a listed copy (09 R178). -/
def Seq.namesTag (q : Seq) (n : Nat) : Bool :=
  q.ql.any (fun e => !e.done && e.tag? == some n) || q.qs.any (fun e => !e.done && e.tag? == some n) ||
    q.copies.any (fun c => c.listed && c.tag? == some n)

/-- TAGI: bit n is 1 while any outstanding entry names tag n (09 R178, R189). -/
def Seq.tagi (q : Seq) : W64 :=
  (List.range 64).foldl (fun acc n => if q.namesTag n then acc ||| (1#64 <<< n) else acc) 0

/-- An entry completes (03 R44): it is marked, and tag n is set if it was the last outstanding entry that names it
(09 R178). -/
def Seq.complete (q : Seq) (e : EQ) (id : Nat) : Seq :=
  match (q.queue e).find? (fun x => x.id == id) with
  | none => q
  | some x =>
    let q := q.modEntry e id fun y => { y with done := true, issued := true }
    match x.tag? with
    | none => q
    | some n => if q.namesTag n then q else { q with tags := q.tags ||| (1#64 <<< n) }

/-! ## Dependence tokens (03 R45-R47) -/

/-- The tokens that an entry takes at issue are there: GL from the left neighbour, GR from the right. -/
def Seq.canTake (q : Seq) (e : EQ) (h : EHead) : Bool :=
  match e with
  | .l => !h.gr || decide (0 < q.cl)
  | .c => (!h.gl || decide (0 < q.lc)) && (!h.gr || decide (0 < q.sc))
  | .s => !h.gl || decide (0 < q.cs)

/-- One token taken from each FIFO that the entry names. -/
def Seq.take (q : Seq) (e : EQ) (h : EHead) : Seq :=
  match e with
  | .l => if h.gr then { q with cl := q.cl - 1 } else q
  | .c => { q with lc := if h.gl then q.lc - 1 else q.lc, sc := if h.gr then q.sc - 1 else q.sc }
  | .s => if h.gl then { q with cs := q.cs - 1 } else q

/-- The tokens an entry took, given back (23 R373). -/
def Seq.untake (q : Seq) (e : EQ) (h : EHead) : Seq :=
  match e with
  | .l => if h.gr then { q with cl := q.cl + 1 } else q
  | .c => { q with lc := if h.gl then q.lc + 1 else q.lc, sc := if h.gr then q.sc + 1 else q.sc }
  | .s => if h.gl then { q with cs := q.cs + 1 } else q

/-- The token bits and guard of an entry's word. -/
def Entry.head (e : Entry) : EHead := (Raw.ofWord e.word).head

/-- An issued entry stands unissued in its queue again, with its tokens (23 R373). -/
def Seq.unissue (q : Seq) (e : EQ) (id : Nat) : Seq :=
  match (q.queue e).find? fun x => x.id == id with
  | none => q
  | some x => (q.untake e x.head).modEntry e id fun y => { y with issued := false }

/-- Every FIFO that the entry puts into holds at most 7 tokens. -/
def Seq.canPut (q : Seq) (e : EQ) (h : EHead) : Bool :=
  match e with
  | .l => !h.pr || decide (q.lc ≤ 7)
  | .c => (!h.pl || decide (q.cl ≤ 7)) && (!h.pr || decide (q.cs ≤ 7))
  | .s => !h.pl || decide (q.sc ≤ 7)

/-- One token put into each FIFO that the entry names. -/
def Seq.put (q : Seq) (e : EQ) (h : EHead) : Seq :=
  match e with
  | .l => if h.pr then { q with lc := q.lc + 1 } else q
  | .c => { q with cl := if h.pl then q.cl + 1 else q.cl, cs := if h.pr then q.cs + 1 else q.cs }
  | .s => if h.pl then { q with sc := q.sc + 1 } else q

/-- The four counts as `tokget` gives them (09 R177). -/
def Seq.tokens (q : Seq) : W64 :=
  BitVec.ofNat 64 (q.lc % 16 + 16 * (q.cl % 16) + 256 * (q.cs % 16) + 4096 * (q.sc % 16))

/-! ## Package memory (01 R27) -/

/-- What an unlisted byte of package memory reads as: the SLOTN byte of a queue record reads 0xFF, its reset value
(25 R392), and every other byte 0 (assumption 4). -/
def Package.unlisted (p : Package) (a : Nat) : Byte :=
  if p.settings.qtbase ≤ a && a < p.settings.qtbase + 128 * 4096 && (a - p.settings.qtbase) % 128 == 52 then 0xFF else 0

/-- A byte of the package's memory. -/
def Package.byte (p : Package) (a : Nat) : Byte := memGet p.unlisted p.mem a

/-- Bytes of the package's memory. -/
def Package.bytes (p : Package) (a n : Nat) : List Byte := memBytes p.unlisted p.mem a n

/-- Bytes of the package's memory written. -/
def Package.setBytes (p : Package) (a : Nat) (bs : List Byte) : Package := { p with mem := memSet p.unlisted p.mem a bs }

/-- A little-endian number in the package's memory. -/
def Package.num' (p : Package) (a n : Nat) : Nat := leNat (p.bytes a n)

/-- The physical address lies in a populated range (01 R27). -/
def Package.populated (p : Package) (pa : Nat) : Bool :=
  decide (pa < 0x0C000000000) || (decide (0x10000000000 ≤ pa) && decide (pa < 0x10000000000 + p.lpddr))

/-- The die that a physical address is home to (01 R27). -/
def Package.homeDie (p : Package) (pa : Nat) : Nat :=
  if pa < 0x06000000000 then 0 else if pa < 0x0C000000000 then 1 else if pa < 0x10000000000 + p.lpddr / 2 then 0 else 1

/-! ## Slices (15 R263, R264; 01 R28) -/

/-- The slice-map index of a physical address (15 R264). -/
def sliceIndex (pa : Nat) : Nat :=
  bitsOf pa 13 8 ^^^ bitsOf pa 19 14 ^^^ bitsOf pa 25 20 ^^^ bitsOf pa 31 26 ^^^ bitsOf pa 37 32 ^^^ bitsOf pa 43 38

/-- The slice that a die's map names for an address. -/
def Die.sliceOf (d : Die) (pa : Nat) : Nat := d.map.getD (sliceIndex pa) 0

/-- The 128 B lines that n bytes from an address on touch. -/
def linesOf (pa n : Nat) : List Nat := (List.range ((pa + n - 1) / 128 - pa / 128 + 1)).map fun k => pa / 128 + k

/-- A slice takes in a line, dirty where a write has brought it (15 R263): one that is retiring allocates none (R265), and one that is
full gives up the line it has held longest. Replacement is not visible. -/
def Die.allocate (d : Die) (line : Nat) (dirty : Bool) : Die :=
  let n := d.sliceOf (128 * line)
  let was := d.lines.any fun l => l.line == line && l.dirty
  if d.slices.getD n .off ≠ .serving then d
  else
    let ls := { slice := n, line := line, dirty := dirty || was } :: d.lines.filter fun l => l.line ≠ line
    { d with lines := if (ls.filter fun l => l.slice == n).length ≤ 32768 then ls
                      else (ls.reverse.eraseP fun l => l.slice == n).reverse }

/-- A write of n bytes from an address on has been performed: no formed delivery of a block of theirs is merged into any more
(15 R270). -/
def Die.wrote (d : Die) (a n : Nat) : Die :=
  { d with deliv := d.deliv.map fun v => if a < v.pa + 256 ∧ v.pa < a + n then { v with fresh := false } else v }

/-- The queues whose WAKE word a write of n bytes from an address on meets (25 R392). -/
def Package.wakesAt (p : Package) (a n : Nat) : List Nat :=
  let t := p.settings.qtbase
  if n = 0 || a + n ≤ t || t + 128 * 4096 ≤ a then []
  else
    ((List.range ((n + 254) / 128)).map fun i => (a - t) / 128 + i).filter fun q =>
      decide (q < 4096) && decide (a < t + 128 * q + 16) && decide (t + 128 * q + 8 < a + n)

/-- Bytes of the package's memory written at their home, whose slice takes in their lines with `alloc` (15 R263, R281): a write to the
WAKE word of a queue is a wake event (25 R392). -/
def Package.writeAt (p : Package) (alloc : Bool) (a : Nat) (bs : List Byte) : Package :=
  let dies := p.dies.map fun d => d.wrote a bs.length
  { p.setBytes a bs with
    woken := p.woken ++ p.wakesAt a bs.length
    dies := if alloc then vmod dies (p.homeDie a) fun d => (linesOf a bs.length).foldl (fun d l => d.allocate l true) d else dies }

/-- Bytes written, allocated in their slice. -/
def Package.write (p : Package) (a : Nat) (bs : List Byte) : Package := p.writeAt true a bs

/-- The frame index of the blight map (23 R388). -/
def frameIndex (pa : Nat) : Nat :=
  if pa < 0x10000000000 then pa / 4096 else 0xC000000 + (pa - 0x10000000000) / 4096

/-- The frame's blight bit (23 R388). -/
def Package.blighted (p : Package) (pa : Nat) : Bool :=
  let f := frameIndex pa
  (p.byte (p.settings.bmbase + f / 8)).getLsbD (f % 8)

/-- The frame's blight bit written (23 R389; 09 R195). -/
def Package.setBlight (p : Package) (pa : Nat) (b : Bool) : Package :=
  let f := frameIndex pa
  let a := p.settings.bmbase + f / 8
  let x := p.byte a
  p.setBytes a [(x &&& ~~~(1#8 <<< (f % 8))) ||| (if b then 1#8 <<< (f % 8) else 0)]

/-- The fetch address is a legal one (05 R105): a multiple of 8, below CODESZ, and not a second word. -/
def Slot.fetchOk (t : Slot) (pc : W64) : Bool :=
  t.loaded && pc.toNat % 8 == 0 && decide (pc.toNat < t.codesz) && !t.cont.contains (pc.toNat / 8)

/-! ## Scratchpads and atomic windows (15 R255-R259) -/

/-- DG x 64 KiB: the end of the direct region (15 R258). -/
def directEnd (carve : W64) : Nat := bitsOf carve.toNat 7 0 * 65536

/-- QB: the start of the queue region (15 R258). -/
def queueBase (carve : W64) : Nat := Config.spadBytes - bitsOf carve.toNat 23 16 * 65536

/-- G: the size of the gather cache (15 R258). -/
def gatherSize (carve : W64) : Nat :=
  match bitsOf carve.toNat 9 8 with
  | 0 => 0
  | 1 => 512 * 1024
  | 2 => 1024 * 1024
  | _ => 2048 * 1024

/-- The bytes lie in the direct region of the carve. -/
def inDirect (carve : W64) (off n : Nat) : Bool := decide (off + n ≤ directEnd carve)

/-- The bytes lie in the queue region of the carve. -/
def inQueue (carve : W64) (off n : Nat) : Bool := decide (queueBase carve ≤ off) && decide (off + n ≤ Config.spadBytes)

/-- Scratchpad bytes. -/
def Core.spadBytes (c : Core) (off n : Nat) : List Byte := memBytes zeroByte c.spad off n

/-- Scratchpad bytes written. -/
def Core.setSpad (c : Core) (off : Nat) (bs : List Byte) : Core := { c with spad := memSet zeroByte c.spad off bs }

/-- Window bytes. -/
def Core.winBytes (c : Core) (off n : Nat) : List Byte := memBytes zeroByte c.win off n

/-- Window bytes written. -/
def Core.setWin (c : Core) (off : Nat) (bs : List Byte) : Core := { c with win := memSet zeroByte c.win off bs }

/-- A 64-bit window word. -/
def Core.winWord (c : Core) (off : Nat) : W64 := BitVec.ofNat 64 (leNat (c.winBytes off 8))

/-- A granule whose fill has not ended holds a byte of the range (15 R261). -/
def Core.wakingAt (c : Core) (off n : Nat) : Bool := c.waking.any fun g => decide (off / 65536 ≤ g.1) && decide (g.1 ≤ (off + n - 1) / 65536)

/-! ## Contexts and teams -/

/-- A context of the package by DCTX (23 R391). -/
def Package.ctx? (p : Package) (dctx : Nat) : Option Context := p.ctxs.find? fun c => c.dctx == dctx

/-- A context changed by f. -/
def Package.modCtx (p : Package) (dctx : Nat) (f : Context → Context) : Package :=
  { p with ctxs := p.ctxs.map fun c => if c.dctx = dctx then f c else c }

/-- A team of the package (23 R380). -/
def Package.team? (p : Package) (dctx vteam : Nat) : Option Team := p.teams.find? fun t => t.dctx == dctx && t.vteam == vteam

/-- A team changed by f. -/
def Package.modTeam (p : Package) (dctx vteam : Nat) (f : Team → Team) : Package :=
  { p with teams := p.teams.map fun t => if t.dctx = dctx ∧ t.vteam = vteam then f t else t }

/-- The number of members of a team. -/
def Team.size (t : Team) : Nat := t.rows * t.cols

/-- The number of members of a team that is or has been placed on the package; none for one never placed (17 R289). -/
def Package.membersOf? (p : Package) (dctx vteam : Nat) : Option Nat :=
  match p.team? dctx vteam with
  | some t => some t.size
  | none => (p.ctx? dctx).bind fun c => (c.past.find? fun x => x.1 == vteam).map (·.2)

/-- The physical core of a member (03 R66; 01 R34). -/
def Team.coreOf (t : Team) (vc : Nat) : Nat := t.die * 48 + (t.row + vc / t.cols) * 8 + t.col + vc % t.cols

/-- The physical cores of a team, by VCORE. -/
def Team.cores (t : Team) : List Nat := (List.range t.size).map t.coreOf

/-- The team holds its cores. -/
def Team.placed (t : Team) : Bool := t.st == .running || t.st == .closing

/-- The sequencers of a team, by VSEQ (03 R66). -/
def Team.sids (t : Team) (p : Nat) : List Sid := t.cores.flatMap fun c => (List.range 4).map fun q => ⟨p, c, q⟩

/-- The package is the virtual package vp of a context, by its own package map (23 R380). -/
def Package.isVp (p : Package) (dctx vp : Nat) : Bool := (p.ctx? dctx).any fun c => (c.vps.map (·.1))[vp]? == some p.num

/-- The sequencer with a virtual identity, while its team holds cores (17 R302). -/
def State.findSeq (s : State) (i : Ident) : Option Sid :=
  s.pkgs.findSome? fun p =>
    if p.isVp i.dctx i.vp then
      (p.team? i.dctx i.vt).bind fun t =>
        if t.placed && decide (i.vs / 4 < t.size) then some ⟨p.num, t.coreOf (i.vs / 4), i.vs % 4⟩ else none
    else none

/-- Every package that holds the context changed by f. -/
def State.modCtxAll (s : State) (dctx : Nat) (f : Context → Context) : State :=
  { s with pkgs := s.pkgs.map fun p => p.modCtx dctx f }

/-! ## Command entries and invocations (25 R395, R400, R403, R413) -/

/-- A journal entry of a queue changed by f. -/
def Package.modJ (k : Package) (q idx : Nat) (f : JEntry → JEntry) : Package :=
  { k with queues := k.queues.map fun c =>
      if c.num = q then { c with entries := c.entries.map fun e => if e.idx = idx then f e else e } else c }

/-- The outcome, STATUS and DETAIL, of an accepted entry, or of a node of a replay; the first one stays. -/
def Package.setOutcome (k : Package) (q idx : Nat) (node : Option Nat) (o : Nat × Nat) : Package :=
  k.modJ q idx fun e =>
    match node with
    | none => { e with outcome := some (e.outcome.getD o) }
    | some n => { e with nodes := e.nodes.modify n fun d => { d with status := some (d.status.getD o) } }

/-- An invocation changed by f. -/
def Package.modInv (k : Package) (id : Nat) (f : Invocation → Invocation) : Package :=
  { k with invs := k.invs.map fun v => if v.id = id then f v else v }

/-- The invocation that a team runs, at the Rolernis complex of its home package. -/
def State.invOf (s : State) (t : Team) : Option Invocation := (s.pkg t.home).invs.find? fun v => v.id == t.inv

/-- The root join block of the team that a core serves, as VCORE 0, stands at this window offset: the invocation whose join it
counts, while that has not ended, and its home package (25 R400). -/
def State.rootJoin? (s : State) (p c off : Nat) : Option (Nat × Invocation) :=
  match (s.core p c).bound with
  | none => none
  | some b =>
    if b.vcore ≠ 0 || off ≠ 0x2FFC0 then none
    else ((s.pkg p).team? b.dctx b.vteam).bind fun t => ((s.invOf t).filter fun v => !v.ended).map fun v => (t.home, v)

/-- The join of an invocation has reached 0: its INVOKE completes with OK, or, after a stop, the CTXRESUME that resumed it, once
every invocation which that one resumed has ended (25 R400, R413). -/
def Package.joined (k : Package) (v : Invocation) : Package :=
  let k := k.modInv v.id fun v => { v with ended := true }
  match v.resumer with
  | none => k.setOutcome v.q v.idx v.node (0, 0)
  | some r => if k.invs.any fun w => w.resumer == some r && !w.ended then k else k.setOutcome r.1 r.2.1 r.2.2 (0, 0)

/-! ## Faults (23 R363-R368) -/

/-- The class of a fault code (23 R364). -/
def faultClass (code : Nat) : Nat :=
  if code ≤ 3 then 0 else if code ≤ 0x1D then 1 else if code = 0x1E then 2 else if code = 0x1F then 3
  else if code ≤ 0x25 then 4 else if code ≤ 0x32 then 5 else 6

/-- Whether a fault is resumable (23 R363). -/
def faultResumable (code : Nat) (deferred : Bool) : Bool :=
  match faultClass code with
  | 0 => true
  | 1 => !deferred && code ≠ 0x10
  | 2 => true
  | 5 => code == 0x31
  | _ => false

/-- The fault codes of 23 R364. -/
def fcTranslation : Nat := 0x01
@[inherit_doc fcTranslation] def fcProtection : Nat := 0x02
@[inherit_doc fcTranslation] def fcBlight : Nat := 0x03
@[inherit_doc fcTranslation] def fcAlignment : Nat := 0x04
@[inherit_doc fcTranslation] def fcAtomicTarget : Nat := 0x05
@[inherit_doc fcTranslation] def fcTeamRange : Nat := 0x06
@[inherit_doc fcTranslation] def fcWindow : Nat := 0x07
@[inherit_doc fcTranslation] def fcSpadRange : Nat := 0x08
@[inherit_doc fcTranslation] def fcCopySpace : Nat := 0x09
@[inherit_doc fcTranslation] def fcPattern : Nat := 0x0A
@[inherit_doc fcTranslation] def fcCarve : Nat := 0x0B
@[inherit_doc fcTranslation] def fcQueueControl : Nat := 0x0C
@[inherit_doc fcTranslation] def fcSeedRecord : Nat := 0x0D
@[inherit_doc fcTranslation] def fcSowTarget : Nat := 0x0E
@[inherit_doc fcTranslation] def fcFetchRange : Nat := 0x0F
@[inherit_doc fcTranslation] def fcTokenDeadlock : Nat := 0x10
@[inherit_doc fcTranslation] def fcTokenCount : Nat := 0x11
@[inherit_doc fcTranslation] def fcFmtEmpty : Nat := 0x12
@[inherit_doc fcTranslation] def fcFmtOverflow : Nat := 0x13
@[inherit_doc fcTranslation] def fcMatrixFormat : Nat := 0x14
@[inherit_doc fcTranslation] def fcTileRange : Nat := 0x15
@[inherit_doc fcTranslation] def fcTileKind : Nat := 0x16
@[inherit_doc fcTranslation] def fcTensorScale : Nat := 0x17
@[inherit_doc fcTranslation] def fcMatrixOperand : Nat := 0x18
@[inherit_doc fcTranslation] def fcAttnRecord : Nat := 0x19
@[inherit_doc fcTranslation] def fcAttnIndex : Nat := 0x1A
@[inherit_doc fcTranslation] def fcPageSlot : Nat := 0x1B
@[inherit_doc fcTranslation] def fcWorkEntry : Nat := 0x1C
@[inherit_doc fcTranslation] def fcStepProgram : Nat := 0x1D
@[inherit_doc fcTranslation] def fcArithmetic : Nat := 0x1E
@[inherit_doc fcTranslation] def fcOutcomeUnknown : Nat := 0x1F
@[inherit_doc fcTranslation] def fcJoinUnderflow : Nat := 0x20
@[inherit_doc fcTranslation] def fcBarrierCount : Nat := 0x21
@[inherit_doc fcTranslation] def fcBusExtent : Nat := 0x22
@[inherit_doc fcTranslation] def fcBlockTable : Nat := 0x23
@[inherit_doc fcTranslation] def fcAttnRegion : Nat := 0x24
@[inherit_doc fcTranslation] def fcCollective : Nat := 0x25
@[inherit_doc fcTranslation] def fcHarrow : Nat := 0x30
@[inherit_doc fcTranslation] def fcUnreachable : Nat := 0x31
@[inherit_doc fcTranslation] def fcUncorrectable : Nat := 0x32
@[inherit_doc fcTranslation] def fcOffline : Nat := 0x33

/-- The number of a queue in a fault record (23 R365). -/
def eqNum : EQ → Nat
  | .l => 1
  | .c => 2
  | .s => 3

/-- CYC: the ck since the package's reset (09 R189). -/
def State.cyc (s : State) (p : Nat) : W64 := BitVec.ofNat 64 (s.ck - (s.pkg p).resetCk)

/-- A context starts to stop on every package that holds it, with a stop reason of 23 R376; the first reason stays. -/
def State.stopCtx (s : State) (dctx reason : Nat) : State :=
  s.modCtxAll dctx fun c => { c with stopping := some (c.stopping.getD reason) }

/-- The offset of the header of sequencer q of VCORE v in a save block (23 R376-R378). -/
def saveHeader (v q : Nat) : Nat := 0x10000 + 0xD40000 * v + 0xC40000 + 0x40000 * q

/-- The 64 bytes of a fault record (23 R365). -/
def faultBytes (f : FaultRec) : List Byte :=
  leBytes 8 (f.code * 2 ^ 56 + faultClass f.code * 2 ^ 52 + f.queue * 2 ^ 50 + (if f.resumable then 2 ^ 49 else 0) +
      (if f.deferred then 2 ^ 48 else 0) + f.reason * 2 ^ 44 + f.level * 2 ^ 40 + f.caddr.toNat % 2 ^ 32) ++
    leBytes 8 f.addr.toNat ++ leBytes 8 f.aux.toNat ++ leBytes 8 f.cyc.toNat ++ List.replicate 32 0

/-- A fault recorded in the save block of a sequencer whose team is saved, where it holds no record yet (23 R365). -/
def recordSaved (p : Nat) (i : Ident) (f : FaultRec) (s : State) : State :=
  match (s.pkg p).team? i.dctx i.vt with
  | none => s
  | some t =>
    let v := i.vs / 4
    let n := i.vs % 4
    match t.saved[v]? with
    | none => s
    | some c =>
      if (c.seq n).frec.isSome then s
      else
        let h := t.save + saveHeader v n
        s.modPkg p fun k =>
          let k := (k.setBytes (h + 7) [k.byte (h + 7) ||| 1]).setBytes (h + 0x40) (faultBytes f)
          k.modTeam i.dctx i.vt fun t =>
            { t with saved := t.saved.modify v fun c => c.modSeq n fun q => { q with frec := some f } }

/-- The package where a team of a virtual package of a context is (23 R380). -/
def State.teamPkg (s : State) (i : Ident) : Option Nat :=
  (s.pkgs.find? fun p => p.isVp i.dctx i.vp && (p.team? i.dctx i.vt).isSome).map (·.num)

/-- The bit of a scope in the FLIP mask, and its place in R378's order. -/
def scopeBit : Scope → Nat
  | .team => 1
  | .pkg => 2
  | .dom => 3
  | _ => 0

/-- A front end leaves its wait (09 R183, 23 R373): a flip that has come to a barrier word is recorded (03 R75), and the wait
of a non-posted atomic stays, for its word counts as executed. -/
def Seq.dropWait (q : Seq) : Seq :=
  match q.wait with
  | some (.reply _ _ _) => q
  | some (.bar sc true) => { q with wait := none, flip := q.flip ||| (1#4 <<< scopeBit sc) }
  | _ => { q with wait := none }

/-- The lease ends (03 R77). -/
def Core.endLease (c : Core) : Core := { c with holder := none, leaseIssued := 0 }

/-- The lease ends where the sequencer holds it. -/
def Core.dropLease (c : Core) (n : Nat) : Core := if c.holder = some n then c.endLease else c

/-- TAKING A FAULT (23 R365, R366): the sequencer writes its fault record, if it holds none, and stops; its program counter
stays at the word it stands at, a wait is abandoned, and its context starts to stop. A machine check ends the lease that the
sequencer holds (03 R77). -/
def takeFault (i : Sid) (f : FaultRec) (s : State) : State :=
  let q := s.seq i
  let f := { f with cyc := if f.deferred then f.cyc else s.cyc i.pkg, resumable := faultResumable f.code f.deferred }
  let s := if faultClass f.code < 5 then s else s.modCore i.pkg i.core fun c => c.dropLease i.seq
  let s := s.modSeq i fun q =>
    { q.dropWait with
      frec := some (q.frec.getD f), st := .halt
      idleStop := (if q.st == .halt then q.idleStop else q.st == .idle) }
  s.stopCtx q.dctx.toNat (if faultClass f.code ≥ 5 then 3 else 2)

/-- A store of the front-end stream (03 R42). -/
def HItem.isStore : HItem → Bool
  | .store _ _ => true
  | _ => false

/-- The running seed is abandoned (23 R368): unissued entries of L, C and S are discarded, no store that failed the compare takes
effect, which are those not yet compared where the compare failed, and ABAND is set. -/
def Seq.abandon (failed : Bool) (q : Seq) : Seq :=
  { q with
    ql := q.ql.filter (·.issued), qc := q.qc.filter (·.issued), qs := q.qs.filter (·.issued)
    fe := if failed then q.fe.filter fun e => !e.store || e.compared else q.fe
    harrow := if failed then [] else q.harrow.filter HItem.isStore
    aband := true }

/-- A contained machine check or a token deadlock (23 R367, R368): the seed is abandoned unless the check is "fabric
unreachable"; CADDR is the front end's program counter. -/
def machineCheck (i : Sid) (code : Nat) (aux : W64) (s : State) : State :=
  let pc := (s.seq i).pc
  let s := if code = fcUnreachable then s else s.modSeq i (Seq.abandon (code == fcHarrow))
  takeFault i { code := code, caddr := pc, aux := aux } s

/-- The physical location that AUX of a machine check names (23 R365). -/
def checkAux (i : Sid) (code : Nat) : W64 := Config.checkLocation code i.pkg i.core i.seq

/-- Cores of a package are taken offline (01 R37): the sequencers of one that serves a context stop, and sequencer 0 records
"core offline" with the core as AUX, which stops the context. They stand in HALT until the checkpoint of the context (R37) releases the core,
whereupon they are UNBOUND, as 03 R81 says of an offline core's: the state between is the model's reading (assumption 61). -/
def takeOffline (p : Nat) (cs : List Nat) (s : State) : State :=
  cs.foldl (fun s c =>
    let k := s.core p c
    if k.offline then s
    else
      let s := s.modCore p c fun k => { k with offline := true }
      if k.bound.isNone then s
      else
        let s := s.modCore p c fun k =>
          { k with seqs := k.seqs.map fun q => if q.st == .unbound || q.st == .halt then q
                                               else { q.dropWait with st := .halt, idleStop := q.st == .idle } }
        takeFault ⟨p, c, 0⟩ { code := fcOffline, caddr := (s.seq ⟨p, c, 0⟩).pc, aux := BitVec.ofNat 64 c } s) s

/-- The physical cores of a die. -/
def dieCores (d : Nat) : List Nat := (List.range 48).map fun c => 48 * d + c

/-- A deferred fault is recorded for the sequencer with a virtual identity (23 R363): delivered at its next instruction
boundary, or recorded in its save block while its team holds no core. -/
def deferFault (i : Ident) (f : FaultRec) (s : State) : State :=
  let f := { f with deferred := true }
  match s.findSeq i with
  | some j => s.modSeq j fun q => { q with deferred := q.deferred ++ [{ f with cyc := s.cyc j.pkg }] }
  | none =>
    match s.teamPkg i with
    | none => s
    | some p => recordSaved p i { f with cyc := s.cyc p, resumable := faultResumable f.code true } (s.stopCtx i.dctx 2)

/-- A precise fault at an F word (09 R156): CADDR is the word's address. -/
def wordFault (i : Sid) (code : Nat) (addr : W64) (s : State) (aux : W64 := 0) : State :=
  takeFault i { code := code, caddr := (s.seq i).pc, addr := addr, aux := aux } s

/-- A precise fault at a queue head (11 R201, 15 R278): the entry keeps its place and has no effect. -/
def entryFault (i : Sid) (q : EQ) (e : Entry) (code : Nat) (addr : W64) (s : State) : State :=
  takeFault i { code := code, queue := eqNum q, caddr := e.caddr, addr := addr } s

end Sys2Proof.Machine
end

