-- ==== Sys2Proof/Machine/Operands.lean ====
section
/-! DEFINITION. Memory operands: translating a global address (23 R382-R390), the slot region (25 R400), window addresses and
their checks (15 R255, R256; 17 R289-R291), and reading and writing the place an address names. -/

namespace Sys2Proof.Machine

/-! ## Translation -/

/-- The result of a translation: a place in a package's memory, a fault (code, reason, level), or a walk that must wait for
the second read of a CRIT leaf (23 R384). -/
inductive Tr where
  | ok (pkg pa : Nat)
  | fault (code reason level : Nat)
  | stall
  deriving DecidableEq, Repr

/-- The bits of a table entry that are reserved at a level, for an entry that is or is not a leaf, with REM as given
(23 R383). -/
def tableReserved (lvl : Nat) (leaf rem : Bool) : W64 :=
  let common : W64 := 0x60000000000007F8 ||| 0x0003F00000000000
  if leaf then
    common ||| (if rem then 0 else 0x0FFC000000000000) ||| (if lvl = 1 then 0 else 0x800)
      ||| (if lvl = 3 then 0x3FFFF000 else if lvl = 2 then 0x1FF000 else 0)
  else common ||| 0x9FFC000000000802

/-- The bytes that a slot maps from its region's base: code pages, data pages and weights, one after another (25 R400). -/
def Slot.codePages (t : Slot) : Nat := (t.codesz + 4095) / 4096 * 4096

/-- The data pages of a slot. -/
def Slot.dataPages (t : Slot) : Nat := (t.datasz + 4095) / 4096 * 4096

/-- The end of a slot's mapped range. -/
def Slot.mapped (t : Slot) : Nat := t.codePages + t.dataPages + t.wlen

/-- The frame is a granary frame: a code or data page of a loaded slot, or its pinned weights (05 R106, 25 R400). -/
def Package.granary (p : Package) (pa : Nat) : Bool :=
  p.slots.toList.any fun t => t.loaded &&
    ((decide (t.base ≤ pa) && decide (pa < t.base + t.codePages + t.dataPages)) ||
      (decide (t.wbase ≤ pa) && decide (pa < t.wbase + t.wlen)))

/-- The frame takes a write of the Rolernis complex or of the host: it is populated, it is no granary frame, which LOADSLOT alone
writes (05 R106), and it is not blighted (23 R390). -/
def Package.frameOpen (p : Package) (pa : Nat) : Bool := p.populated pa && !p.granary pa && !p.blighted pa

/-- A write of the Rolernis complex within one frame, made where the frame takes it (assumption 42). -/
def Package.engineWrite (p : Package) (pa : Nat) (bs : List Byte) : Package := if p.frameOpen pa then p.write pa bs else p

/-- A walk's end: a leaf with its level and its address, or a fault's reason and level; `entry` is the leaf as read. -/
inductive WalkEnd where
  | leaf (entry : W64) (lvl addr : Nat)
  | fault (reason lvl : Nat)
  deriving DecidableEq, Repr

/-- The walk of the slot region, whose tables the Rolernis complex keeps (25 R400): a level-1 leaf with W = 0 where a byte is
mapped, and reason 1 at the level of the first entry that is not valid elsewhere. -/
def slotWalk (p : Package) (va : Nat) : WalkEnd :=
  let n := bitsOf va 47 40
  let off := va % 2 ^ 40
  let t := vget {} p.slots n
  if n ≥ 64 || !t.loaded then .fault 1 4
  else
    let m := t.mapped
    if off < m then
      let pa := if off < t.codePages + t.dataPages then t.base + off else t.wbase + (off - t.codePages - t.dataPages)
      .leaf (BitVec.ofNat 64 (pa / 4096 * 4096 + 5)) 1 0
    else if off / 2 ^ 21 * 2 ^ 21 < m then .fault 1 1
    else if off / 2 ^ 30 * 2 ^ 30 < m then .fault 1 2
    else if off / 2 ^ 39 * 2 ^ 39 < m then .fault 1 3
    else .fault 1 4

/-- The five-level walk from level `lvl` down (23 R382-R384). `cached` gives a walk-cache entry to use at a level. -/
def tableWalk (p : Package) (va : Nat) (cached : Nat → Option W64) : Nat → Nat → WalkEnd
  | 0, _ => .fault 1 1
  | l + 1, t =>
    let lvl := l + 1
    let e := (cached lvl).getD (BitVec.ofNat 64 (p.num' (t + 8 * bitsOf va (9 * lvl + 11) (9 * lvl + 3)) 8))
    let leaf := e.getLsbD 2
    let addr := bitsOf e.toNat 43 12 * 4096
    if p.blighted t then .fault 7 lvl
    else if !e.getLsbD 0 then .fault 1 lvl
    else if e &&& tableReserved lvl (leaf || lvl == 1) (e.getLsbD 60) ≠ 0 then .fault 2 lvl
    else if (lvl == 1 && !leaf) || (lvl ≥ 4 && leaf) then .fault 2 lvl
    else if lvl == 1 || leaf then .leaf e lvl (t + 8 * bitsOf va (9 * lvl + 11) (9 * lvl + 3))
    else if !p.populated addr then .fault 4 lvl
    else tableWalk p va cached l addr

/-- The bytes that a leaf of a level covers. -/
def leafSpan (lvl : Nat) : Nat := 2 ^ (12 + 9 * (lvl - 1))

/-- A cached leaf covers the address (23 R385, R386). -/
def Cached.covers (c : Cached) (lctx va : Nat) : Bool :=
  c.lctx == lctx && (if c.big then c.tag == va / 65536 else c.tag == va / leafSpan c.level)

/-- The checks after the leaf (23 R384), through a leaf that may be a 64 KiB entry. -/
def checkLeaf (p : Package) (cx : Context) (e : W64) (lvl va : Nat) (big wr blight : Bool) : Tr :=
  let vp := bitsOf e.toNat 59 50
  let own := (cx.vps.map (·.1)).findIdx (· == p.num)
  let rem := e.getLsbD 60 && vp ≠ own
  let span := if big then 65536 else leafSpan lvl
  let pa := bitsOf e.toNat 43 12 * 4096 / span * span + va % span
  if e.getLsbD 60 && vp ≥ cx.vps.length then .fault fcTranslation 6 lvl
  else if !rem && !p.populated pa then .fault fcTranslation 4 lvl
  else if wr && !e.getLsbD 1 then .fault fcProtection 1 lvl
  else if wr && !rem && p.granary pa then .fault fcProtection 2 lvl
  else if blight && !rem && p.blighted pa then .fault fcBlight 0 0
  else .ok (if rem then ((cx.vps.map (·.1))[vp]?).getD p.num else p.num) pa

/-- The leaf that a walk leaves in the translation caches (23 R386), as a 64 KiB entry where `big` says so (R385). -/
def cacheWalk (lctx va : Nat) (e : W64) (lvl : Nat) (big : Bool) (p : Package) : Package :=
  let tag := if big then va / 65536 else va / leafSpan lvl
  { p with tlb := { lctx := lctx, level := lvl, tag := tag, entry := e, big := big } ::
      p.tlb.filter fun c => !(c.lctx == lctx && c.level == lvl && c.entry == e && c.tag == tag && c.big == big) }

/-- The non-leaf entries on a walk's path, for the walk cache: level, tag and entry. -/
def pathEntries (p : Package) (va : Nat) : Nat → Nat → List (Nat × Nat × W64)
  | 0, _ => []
  | l + 1, t =>
    let lvl := l + 1
    let e : W64 := BitVec.ofNat 64 (p.num' (t + 8 * bitsOf va (9 * lvl + 11) (9 * lvl + 3)) 8)
    if lvl == 1 || !e.getLsbD 0 || e.getLsbD 2 then []
    else (lvl, va / leafSpan lvl, e) :: pathEntries p va l (bitsOf e.toNat 43 12 * 4096)

/-- The end of a walk is kept in the caches, with the table entries above it (23 R385, R386). -/
def keepWalk (p lctx v root : Nat) (e : W64) (lvl : Nat) (big : Bool) (s : State) : State :=
  s.modPkg p fun k =>
    let k := cacheWalk lctx v e lvl big k
    let new := (pathEntries k v 5 root).map fun x => ({ lctx := lctx, level := x.1, tag := x.2.1, entry := x.2.2 } : Cached)
    { k with walk := new.filter (fun c => !k.walk.contains c) ++ k.walk }

/-- A walk ends at a leaf. One with CONT = 1 may serve as a 64 KiB entry of its group or as its own (23 R385): a free value
(assumption 14). -/
def endWalk (p : Nat) (cx : Context) (v : Nat) (e : W64) (lvl : Nat) (wr blight : Bool) (s : State) : Tr × State :=
  let (big, s) := if lvl == 1 && e.getLsbD 11 then s.drawBool else (false, s)
  (checkLeaf (s.pkg p) cx e lvl v big wr blight, keepWalk p cx.lctx v cx.root e lvl big s)

/-- Translating an address for an agent of a context (23 R382-R390). A cached translation may be used in place of a walk, and
a walk-cache entry in place of a table entry: which is a free value (assumption 14). A walk that has read a CRIT leaf reads that leaf
again, at least 64 ck later, and ends (assumption 15). -/
def translate (p dctx : Nat) (who : Sid) (va : W64) (wr blight : Bool) (s : State) : Tr × State :=
  let k := s.pkg p
  match k.ctx? dctx with
  | none => (.fault fcTranslation 1 5, s)
  | some cx =>
    let v := va.toNat % 2 ^ 57
    if bitsOf v 56 48 = 0x1FE then
      match slotWalk k v with
      | .fault r l => (.fault fcTranslation r l, s)
      | .leaf e l _ => (checkLeaf k cx e l v false wr blight, s)
    else
      match k.crit.find? fun c => c.who == who && c.lctx == cx.lctx && c.va == va with
      | some c =>
        if s.ck < c.ck + 64 then (.stall, s)
        else
          let s := s.modPkg p fun k => { k with crit := k.crit.filter (· != c) }
          if BitVec.ofNat 64 (k.num' c.addr 8) ≠ c.entry then (.fault fcTranslation 5 c.lvl, s)
          else endWalk p cx v c.entry c.lvl wr blight s
      | none =>
        let hits := k.tlb.filter fun c => c.covers cx.lctx v
        let (useHit, s) := if hits.isEmpty then (false, s) else s.drawBool
        let (pick, s) := if useHit then s.drawNat else (0, s)
        match (if useHit then hits[pick % hits.length]? else none) with
        | some c => (checkLeaf k cx c.entry c.level v c.big wr blight, s)
        | none =>
          let paths := k.walk.filter fun c => c.lctx == cx.lctx && c.tag == v / leafSpan c.level
          let (coin, s) := if paths.isEmpty then (0, s) else s.drawNat
          let cached := fun lvl => if coin.testBit lvl then (paths.find? fun c => c.level == lvl).map (·.entry) else none
          match tableWalk k v cached 5 cx.root with
          | .fault r l => (.fault fcTranslation r l, s)
          | .leaf e lvl a =>
            if e.getLsbD 63 then
              (.stall, s.modPkg p fun k =>
                { k with crit := { who := who, lctx := cx.lctx, va := va, addr := a, lvl := lvl, entry := e, ck := s.ck } :: k.crit })
            else endWalk p cx v e lvl wr blight s

/-! ## Window addresses (15 R255; 17 R289) -/

/-- Bits [56:48] are all ones: a window address. -/
def isWindow (va : W64) : Bool := bitsOf va.toNat 56 48 == 0x1FF

/-- The kinds of access, which differ in the places they may reach (15 R256, 17 R290). -/
inductive Acc where
  | load | store | atomic | counter | sig | copySrc | copyDst
  deriving DecidableEq, Repr

/-- The access may reach only atomic-window words. -/
def Acc.word : Acc → Bool
  | .atomic | .counter | .sig => true
  | _ => false

/-- The outcome of resolving an operand: a place, a fault, or a wait. -/
inductive Res where
  | ok (pl : Place)
  | fault (f : FaultRec)
  | stall
  deriving DecidableEq, Repr

/-- A fault at a named address. -/
def badAt (code : Nat) (va : W64) : Res := .fault { code := code, addr := va }

/-- The scratchpad regions that an access may reach at a core (15 R256, 17 R290): `remote` for a CLASS 10 address. -/
def spadAllowed (k : Acc) (remote : Bool) (carve : W64) (off n : Nat) : Bool :=
  match k with
  | .load | .store => inDirect carve off n || (!remote && inQueue carve off n)
  | _ => inDirect carve off n

/-- The checks 3 and 4 of 15 R256 on the place and size, at the addressed core's carve: the fault code, or none. -/
def spaceFault (k : Acc) (remote : Bool) (carve : W64) (win : Bool) (off n : Nat) : Option Nat :=
  if win then
    if off ≥ Config.winBytes then some fcWindow
    else if k == .copySrc || k == .copyDst then some fcCopySpace
    else none
  else if k.word then some fcAtomicTarget
  else if !spadAllowed k remote carve off n then some fcSpadRange
  else none

/-- Resolving a window address for an access of n bytes by sequencer i (15 R256, 17 R289): the checks made at the requester.
A team member's carve is checked here for a copy, at the head of its queue (15 R278), and where the access is performed; another
package's only there. A CLASS 10 address of a team that was placed and has been released or killed since passes here, and its request is
answered NACK(ABSENT) where it comes to: the model's choice, for R289 speaks only of a team never placed (assumption 59). -/
def resolveWindow (i : Sid) (va : W64) (n : Nat) (k : Acc) (s : State) : Res :=
  let v := va.toNat
  let q := s.seq i
  let off := bitsOf v 22 0
  let win := va.getLsbD 23
  let vc := bitsOf v 45 40
  match bitsOf v 47 46 with
  | 0 =>
    if bitsOf v 39 24 ≠ 0 then badAt fcWindow va
    else
      match (s.pkg i.pkg).team? q.dctx.toNat q.vteam.toNat with
      | none => badAt fcTeamRange va
      | some t =>
        let own := vc == 63 || vc == q.vcore.toNat
        if vc ≠ 63 && vc ≥ t.size then badAt fcTeamRange va
        else
          let c := if own then i.core else t.coreOf vc
          let carve := (s.core i.pkg c).carve
          let bad := if own || win || !(k == .load || k == .store) then spaceFault k false carve win off n else none
          match bad with
          | some f => badAt f va
          | none => .ok (if win then .win i.pkg c off else .spad i.pkg c off)
  | 2 =>
    let vt := bitsOf v 39 34
    let vp := bitsOf v 33 24
    match (s.pkg i.pkg).ctx? q.dctx.toNat with
    | none => badAt fcTeamRange va
    | some cx =>
      match cx.vps[vp]? with
      | none => badAt fcTeamRange va
      | some d =>
        match (s.pkg d.1).membersOf? q.dctx.toNat vt with
        | none => badAt fcTeamRange va
        | some n =>
          if vc ≥ n then badAt fcTeamRange va
          else .ok (if win then .vwin vp vt vc off else .vspad vp vt vc off)
  | _ => badAt fcWindow va

/-- Resolving an operand of n bytes (09 R163, R186; 15 R255, R256; 17 R289-R291): canonical form, then
alignment and the window's checks or the translation; an operand that must be a window word is found to be one before its
alignment is checked, and an address of an atomic or a signal that is none gives "atomic target" (09 R186, 17 R301). That "atomic target"
so comes before the "window" of R256 is a reading (assumption 60). -/
def resolve (i : Sid) (va : W64) (n : Nat) (k : Acc) (s : State) : Res × State :=
  if va.toNat ≥ 2 ^ 57 then (.fault { code := fcTranslation, addr := va, reason := 3 }, s)
  else if k.word then
    if !isWindow va then (badAt fcAtomicTarget va, s)
    else
      match resolveWindow i va 1 k s with
      | .ok pl => (if va.toNat % n ≠ 0 then badAt fcAlignment va else .ok pl, s)
      | .fault f => (if f.code = fcWindow && k ≠ .counter then badAt fcAtomicTarget va else .fault f, s)
      | .stall => (.stall, s)
  else if va.toNat % n ≠ 0 then (badAt fcAlignment va, s)
  else if isWindow va then (resolveWindow i va n k s, s)
  else
    match translate i.pkg (s.seq i).dctx.toNat i va (k == .store || k == .copyDst) true s with
    | (.ok p pa, s) => (.ok (.mem p pa), s)
    | (.fault c r l, s) => (.fault { code := c, addr := va, reason := r, level := l }, s)
    | (.stall, s) => (.stall, s)

/-! ## Places -/

/-- A place on the package that stands for a virtually named one, when its team holds cores (17 R289, 23 R380). -/
def physical (s : State) (p dctx : Nat) : Place → Option Place
  | .vspad _ vt vc off => ((s.pkg p).team? dctx vt).bind fun t => if t.st == .running || t.st == .closing then some (.spad p (t.coreOf vc) off) else none
  | .vwin _ vt vc off => ((s.pkg p).team? dctx vt).bind fun t => if t.st == .running || t.st == .closing then some (.win p (t.coreOf vc) off) else none
  | pl => some pl

/-- The bytes at a physical place. -/
def readPlace (s : State) (n : Nat) : Place → List Byte
  | .mem p pa => (s.pkg p).bytes pa n
  | .spad p c off => (s.core p c).spadBytes off n
  | .win p c off => (s.core p c).winBytes off n
  | _ => []

/-- Bytes written at a physical place. -/
def writePlace (bs : List Byte) (pl : Place) (s : State) : State :=
  match pl with
  | .mem p pa => s.modPkg p fun k => k.write pa bs
  | .spad p c off => s.modCore p c fun k => k.setSpad off bs
  | .win p c off => s.modCore p c fun k => k.setWin off bs
  | _ => s

/-- The place holds a byte of a waking granule, so the access stalls (15 R261). -/
def placeWaking (s : State) (n : Nat) : Place → Bool
  | .spad p c off => (s.core p c).wakingAt off n
  | _ => false

/-- The region check that falls to the addressed core (15 R256, 17 R290). -/
def placeFault (s : State) (k : Acc) (remote : Bool) (n : Nat) : Place → Option Nat
  | .spad p c off => spaceFault k remote (s.core p c).carve false off n
  | .win p c off => spaceFault k remote (s.core p c).carve true off n
  | _ => none

/-- Two places share a byte. -/
def overlap (m n : Nat) : Place → Place → Bool
  | .mem p a, .mem q b => p == q && decide (a < b + n) && decide (b < a + m)
  | .spad p c a, .spad q d b => p == q && c == d && decide (a < b + n) && decide (b < a + m)
  | .win p c a, .win q d b => p == q && c == d && decide (a < b + n) && decide (b < a + m)
  | .vspad p t v a, .vspad q u w b => p == q && t == u && v == w && decide (a < b + n) && decide (b < a + m)
  | .vwin p t v a, .vwin q u w b => p == q && t == u && v == w && decide (a < b + n) && decide (b < a + m)
  | _, _ => false

/-- A number from bytes, as a word. -/
def wordLE (bs : List Byte) : W64 := BitVec.ofNat 64 (leNat bs)

end Sys2Proof.Machine
end

