-- ==== Sys2Proof/Machine/Front.lean ====
section
/-! DEFINITION. The common behaviour of front-end words (09 R154-R156, R165; 05 R86): the guard, the wait for registers that a
load has not filled, and the program counter. -/

namespace Sys2Proof.Machine

/-- The outcome type of the meanings. -/
abbrev Out' := Host.Outcome State Fault Refusal

/-- A front-end word of n bytes that names the scalar registers `rs`: with a false guard it only moves on (05 R86); while a
register it names waits for a load's data it waits too (09 R165); otherwise `body` is its effect, program counter included. -/
def frontWord (n : Nat) (g : Guard) (rs : List Reg) (body : Seq → State → State) (s : State) : Out' :=
  if !s.has s.who then .fault .noSequencer
  else
    let q := s.seq s.who
    if !q.guard g then .next (s.modSeq s.who fun q => q.adv n)
    else if !q.clear rs then .next s
    else .next (body q s)

/-- A front-end word whose effect is on the sequencer's own registers alone, and that moves on by n bytes. -/
def regWord (n : Nat) (g : Guard) (rs : List Reg) (f : Seq → Seq) (s : State) : Out' :=
  frontWord n g rs (fun _ s => s.modSeq s.who fun q => (f q).adv n) s

end Sys2Proof.Machine
end

