-- ==== Sys2Proof/Machine/Flags.lean ====
section
/-! DEFINITION. The flags of FPS (07 R127), saturation (07 R122) and the exact integer results of the scalar and vector
integer instructions (09 R158, 11 R205). -/

namespace Sys2Proof.Machine

/-- The flags of FPS (07 R127). -/
def flagNX : Nat := 1
/-- Underflow (07 R127). -/
def flagUF : Nat := 2
/-- Overflow (07 R127). -/
def flagOF : Nat := 4
/-- Division by zero (07 R127). -/
def flagDZ : Nat := 8
/-- Invalid operation (07 R127). -/
def flagIV : Nat := 16
/-- Integer saturation (07 R127). -/
def flagSF : Nat := 32

/-- Flags as a word to OR into FPS. -/
def flagWord (f : Nat) : W64 := BitVec.ofNat 64 f

/-- The value of a bit pattern of width w, signed or unsigned (07 R120). -/
def intOf (w : Nat) (signed : Bool) (x : Nat) : Int :=
  let y := x % 2 ^ w
  if signed && y ≥ 2 ^ (w - 1) then (y : Int) - (2 ^ w : Nat) else y

/-- The smallest value of an integer type (07 R120). -/
def intMin (w : Nat) (signed : Bool) : Int := if signed then -(2 ^ (w - 1) : Nat) else 0

/-- The largest value of an integer type (07 R120). -/
def intMax (w : Nat) (signed : Bool) : Int := if signed then (2 ^ (w - 1) : Nat) - 1 else (2 ^ w : Nat) - 1

/-- Sat(x, T): the exact value clamped to the range of the type (00 R10, 07 R122). -/
def satInt (w : Nat) (signed : Bool) (x : Int) : Int := max (intMin w signed) (min (intMax w signed) x)

/-- The w-bit pattern of an integer (07 R122). -/
def wrapInt (w : Nat) (x : Int) : Nat := (x % (2 ^ w : Nat)).toNat

/-- An integer result (07 R122): its pattern, saturated or wrapped, and SF where saturating changed it. -/
def intResult (w : Nat) (signed sat : Bool) (x : Int) : Nat × Nat :=
  if sat then (wrapInt w (satInt w signed x), if satInt w signed x ≠ x then flagSF else 0) else (wrapInt w x, 0)

/-- Division truncated toward zero; the caller handles a divisor of 0. -/
def truncDiv (a b : Int) : Int := Int.tdiv a b

/-- The scalar integer types are signed for I64 (05 R94). -/
def itySigned : ITy → Bool
  | .i64 => true
  | .n64 => false

/-- A register as an operand of a scalar integer instruction (09 R158). -/
def ityVal (t : ITy) (x : W64) : Int := intOf 64 (itySigned t) x.toNat

/-- The count of leading zeros of a 64-bit word (09 R158). -/
def clz64 (x : W64) : Nat := if x = 0 then 64 else 63 - Nat.log2 x.toNat

/-- The index of the lowest one bit of a word, looked for from bit i up with n bits to go. -/
def lowestBit (x : W64) : Nat → Nat → Nat
  | 0, i => i
  | n + 1, i => if x.getLsbD i then i else lowestBit x n (i + 1)

/-- The count of trailing zeros of a 64-bit word; 64 for 0 (09 R158). -/
def ctz64 (x : W64) : Nat := lowestBit x 64 0

/-- The count of one bits (09 R158). -/
def popBits {w : Nat} (x : BitVec w) : Nat := (List.range w).foldl (fun n i => if x.getLsbD i then n + 1 else n) 0

/-- A comparison of exact integers (05 R97). -/
def condInt (c : Cond) (a b : Int) : Bool :=
  match c with
  | .eq => a == b
  | .ne => a != b
  | .lt => decide (a < b)
  | .le => decide (a ≤ b)
  | .gt => decide (b < a)
  | .ge => decide (b ≤ a)
  | .uo => false
  | .ord => true

end Sys2Proof.Machine
end

