-- ==== Sys2Proof/Machine/Float.lean ====
section
/-! DEFINITION. Floating point (07 R123-R138): exact values, the formats, one rounding with its flags, the arithmetic of
07 R132, minimum, maximum and compares of 07 R133, and the conversions of 07 R134-R138. -/

namespace Sys2Proof.Machine

/-- An exact value: (-1)^neg * m * 2^e, with a sign for zero, an infinity, or NaN. -/
inductive Val where
  | nan
  | inf (neg : Bool)
  | fin (neg : Bool) (m : Nat) (e : Int)
  deriving DecidableEq, Repr

/-- A format (07 R123): width, exponent and significand widths, bias, the bits of its largest finite value and of its
canonical NaN, and whether it has infinities, NaNs and flushing. -/
structure FFmt where
  w : Nat
  eb : Nat
  mb : Nat
  bias : Int
  maxBits : Nat
  nanBits : Nat
  hasInf : Bool
  hasNan : Bool
  flush : Bool
  deriving DecidableEq, Repr

/-- The formats of 07 R123. -/
def tyFmt : Ty → FFmt
  | .e2m1 => ⟨4, 2, 1, 1, 0x7, 0, false, false, false⟩
  | .e4m3 => ⟨8, 4, 3, 7, 0x7E, 0x7F, false, true, false⟩
  | .e5m2 => ⟨8, 5, 2, 15, 0x7B, 0x7E, true, true, false⟩
  | .fp16 => ⟨16, 5, 10, 15, 0x7BFF, 0x7E00, true, true, true⟩
  | .bf16 => ⟨16, 8, 7, 127, 0x7F7F, 0x7FC0, true, true, true⟩
  | .fp64 => ⟨64, 11, 52, 1023, 0x7FEFFFFFFFFFFFFF, 0x7FF8000000000000, true, true, true⟩
  | _ => ⟨32, 8, 23, 127, 0x7F7FFFFF, 0x7FC00000, true, true, true⟩

/-- The rounding modes (07 R126, R128). -/
inductive Mode where
  | rne | rtz | rup | rdn
  deriving DecidableEq, Repr

/-- The mode and flushes under which an operation runs (07 R126, R128). -/
structure FEnv where
  rm : Mode := .rne
  daz : Bool := false
  fz : Bool := false
  deriving DecidableEq, Repr

/-- The mode of the two bits of FPC.RM (07 R126). -/
def Mode.ofBits (b : BitVec 2) : Mode :=
  match b with
  | 0 => .rne
  | 1 => .rtz
  | 2 => .rup
  | _ => .rdn

/-- The environment of FPC bits [3:0] with the word's RND (07 R128). -/
def FEnv.of (fpc : BitVec 4) (r : Rnd) : FEnv :=
  { rm := match r with
      | .dyn => Mode.ofBits (fpc.extractLsb' 0 2)
      | .rne => .rne
      | .rtz => .rtz
      | .rup => .rup
      | .rdn => .rdn
    daz := fpc.getLsbD 2, fz := fpc.getLsbD 3 }

/-- The value of a format's bits (07 R123). -/
def FFmt.val (f : FFmt) (x : Nat) : Val :=
  let x := x % 2 ^ f.w
  let neg := x.testBit (f.w - 1)
  let e := x / 2 ^ f.mb % 2 ^ f.eb
  let m := x % 2 ^ f.mb
  if e = 2 ^ f.eb - 1 ∧ f.hasInf then (if m = 0 then .inf neg else .nan)
  else if e = 2 ^ f.eb - 1 ∧ f.hasNan ∧ m = 2 ^ f.mb - 1 then .nan
  else if e = 0 then .fin neg m (1 - f.bias - f.mb)
  else .fin neg (2 ^ f.mb + m) ((e : Int) - f.bias - f.mb)

/-- The value of an element's bits; E8M0 has its own form (07 R124). -/
def tyVal (t : Ty) (x : Nat) : Val :=
  if t = .e8m0 then (if x % 256 = 255 then .nan else .fin false 1 ((x % 256 : Nat) - 127 : Int)) else (tyFmt t).val x

/-- A subnormal operand read as a zero of its sign under DAZ (07 R126, R129). -/
def FFmt.daz (f : FFmt) (env : FEnv) (v : Val) : Val :=
  match v with
  | .fin neg m e => if env.daz && f.flush && decide (m < 2 ^ f.mb) then .fin neg 0 e else v
  | v => v

/-- An operand of a float operation: its value after DAZ. -/
def FFmt.opd (f : FFmt) (env : FEnv) (x : Nat) : Val := f.daz env (f.val x)

/-- m * 2^e compared with n * 2^d. -/
def dyCmp (m : Nat) (e : Int) (n : Nat) (d : Int) : Ordering :=
  let k := min e d
  compare (m * 2 ^ (e - k).toNat) (n * 2 ^ (d - k).toNat)

/-- m * 2^e rounded to a multiple of 2^q: the multiple and whether it is exact. -/
def roundAt (rm : Mode) (neg : Bool) (m : Nat) (e q : Int) : Nat × Bool :=
  if q ≤ e then (m * 2 ^ (e - q).toNat, true)
  else
    let k := (q - e).toNat
    let n := m / 2 ^ k
    let r := m % 2 ^ k
    if r = 0 then (n, true)
    else
      let up := match rm with
        | .rtz => false
        | .rup => !neg
        | .rdn => neg
        | .rne => decide (2 * r > 2 ^ k) || (2 * r == 2 ^ k && n % 2 == 1)
      (if up then n + 1 else n, false)

/-- The bits of n * 2^q, a magnitude that the format holds. -/
def FFmt.pack (f : FFmt) (neg : Bool) (n : Nat) (q : Int) : Nat :=
  let (n, q) := if n ≥ 2 ^ (f.mb + 1) then (n / 2, q + 1) else (n, q)
  let body := if n < 2 ^ f.mb then n else ((q + f.mb + f.bias).toNat) * 2 ^ f.mb + (n - 2 ^ f.mb)
  body + (if neg then 2 ^ (f.w - 1) else 0)

/-- A sign put on a pattern. -/
def FFmt.signed (f : FFmt) (neg : Bool) (x : Nat) : Nat := x + (if neg then 2 ^ (f.w - 1) else 0)

/-- What an overflow delivers (07 R135). -/
def FFmt.overflow (f : FFmt) (rm : Mode) (sat neg : Bool) : Nat :=
  let omega := if sat || (!f.hasInf && !f.hasNan) then f.signed neg f.maxBits
    else if f.hasInf then f.signed neg (f.maxBits + 1) else f.nanBits
  match rm with
  | .rne => omega
  | .rtz => f.signed neg f.maxBits
  | .rup => if neg then f.signed neg f.maxBits else omega
  | .rdn => if neg then omega else f.signed neg f.maxBits

/-- A finite exact value rounded once into a format, with its flags (07 R127, R129, R135). -/
def FFmt.round (f : FFmt) (env : FEnv) (sat neg : Bool) (m : Nat) (e : Int) : Nat × Nat :=
  if m = 0 then (f.signed neg 0, 0)
  else
    let top : Int := e + Nat.log2 m
    let emin : Int := 1 - f.bias
    let qU := top - f.mb
    let q := max qU (emin - f.mb)
    let (nU, _) := roundAt env.rm neg m e qU
    let tooBig := match (f.val f.maxBits) with
      | .fin _ mm me => dyCmp nU qU mm me == Ordering.gt
      | _ => false
    if tooBig then (f.overflow env.rm sat neg, flagOF + flagNX)
    else
      let (n, exact) := roundAt env.rm neg m e q
      let tiny := dyCmp nU qU 1 emin == Ordering.lt
      let sub := decide (n < 2 ^ f.mb) && decide (0 < n)
      if sub && env.fz && f.flush then (f.signed neg 0, flagUF + flagNX)
      else (f.pack neg n q, (if exact then 0 else flagNX) + (if tiny && !exact then flagUF else 0))

/-- An exact value rounded into a format that has infinities and NaNs (07 R132). SAT acts on the overflow of a finite value
alone (R135), so an infinity stays. -/
def FFmt.ofVal (f : FFmt) (env : FEnv) (sat : Bool) (v : Val) : Nat × Nat :=
  match v with
  | .nan => (f.nanBits, 0)
  | .inf neg => (if f.hasInf then f.signed neg (f.maxBits + 1) else f.signed neg f.maxBits, 0)
  | .fin neg m e => f.round env sat neg m e

/-- The sign changed. -/
def Val.neg : Val → Val
  | .nan => .nan
  | .inf n => .inf (!n)
  | .fin n m e => .fin (!n) m e

/-- The magnitude. -/
def Val.abs : Val → Val
  | .nan => .nan
  | .inf _ => .inf false
  | .fin _ m e => .fin false m e

/-- The value is zero. -/
def Val.isZero : Val → Bool
  | .fin _ m _ => m == 0
  | _ => false

/-- The value is NaN. -/
def Val.isNan : Val → Bool
  | .nan => true
  | _ => false

/-- A signed integer times 2^e as a value, with the sign of a zero given. -/
def Val.ofInt (zneg : Bool) (x : Int) (e : Int) : Val := if x = 0 then .fin zneg 0 e else .fin (decide (x < 0)) x.natAbs e

/-- The signed significand of a finite value. -/
def sgn (neg : Bool) (m : Nat) : Int := if neg then -(m : Int) else m

/-- The exact sum, its invalid flag, and the sign of a zero sum (07 R132). -/
def Val.add (rm : Mode) (a b : Val) : Val × Nat :=
  match a, b with
  | .nan, _ => (.nan, 0)
  | _, .nan => (.nan, 0)
  | .inf x, .inf y => if x = y then (.inf x, 0) else (.nan, flagIV)
  | .inf x, _ => (.inf x, 0)
  | _, .inf y => (.inf y, 0)
  | .fin x m e, .fin y n d =>
    let k := min e d
    let t := sgn x (m * 2 ^ (e - k).toNat) + sgn y (n * 2 ^ (d - k).toNat)
    let zneg := if m = 0 ∧ n = 0 ∧ x = y then x else rm == .rdn
    (Val.ofInt zneg t k, 0)

/-- The exact product and its invalid flag (07 R132). -/
def Val.mul (a b : Val) : Val × Nat :=
  match a, b with
  | .nan, _ => (.nan, 0)
  | _, .nan => (.nan, 0)
  | .inf x, .inf y => (.inf (x != y), 0)
  | .inf x, .fin y n _ => if n = 0 then (.nan, flagIV) else (.inf (x != y), 0)
  | .fin x m _, .inf y => if m = 0 then (.nan, flagIV) else (.inf (x != y), 0)
  | .fin x m e, .fin y n d => (.fin (x != y) (m * n) (e + d), 0)

/-- The quotient to `bits` significant bits with a sticky bit below them, and its flags (07 R132). -/
def Val.div (bits : Nat) (a b : Val) : Val × Nat :=
  match a, b with
  | .nan, _ => (.nan, 0)
  | _, .nan => (.nan, 0)
  | .inf _, .inf _ => (.nan, flagIV)
  | .inf x, .fin y _ _ => (.inf (x != y), 0)
  | .fin x _ _, .inf y => (.fin (x != y) 0 0, 0)
  | .fin x m e, .fin y n d =>
    if n = 0 then (if m = 0 then (.nan, flagIV) else (.inf (x != y), flagDZ))
    else if m = 0 then (.fin (x != y) 0 0, 0)
    else
      let k := bits + Nat.log2 n + 1
      let t := m * 2 ^ k
      (.fin (x != y) (2 * (t / n) + (if t % n = 0 then 0 else 1)) (e - d - k - 1), 0)

/-- The integer square root of n, bit by bit from bit k - 1 down, above the root r found so far. -/
def isqrtFrom (n : Nat) : Nat → Nat → Nat
  | 0, r => r
  | k + 1, r => if (r + 2 ^ k) * (r + 2 ^ k) ≤ n then isqrtFrom n k (r + 2 ^ k) else isqrtFrom n k r

/-- The integer square root. -/
def isqrt (n : Nat) : Nat := isqrtFrom n (Nat.log2 n / 2 + 1) 0

/-- The square root to at least `bits` significant bits with a sticky bit below them, and its flags (07 R132). -/
def Val.sqrt (bits : Nat) (a : Val) : Val × Nat :=
  match a with
  | .nan => (.nan, 0)
  | .inf neg => if neg then (.nan, flagIV) else (.inf false, 0)
  | .fin neg m e =>
    if m = 0 then (.fin neg 0 0, 0)
    else if neg then (.nan, flagIV)
    else
      let k := 2 * bits + (if (e % 2 = 0) then 0 else 1)
      let t := m * 2 ^ k
      let r := isqrt t
      (.fin false (2 * r + (if r * r = t then 0 else 1)) ((e - k) / 2 - 1), 0)

/-- Extra significant bits that quotients and roots carry before the one rounding. -/
def FFmt.guardBits (f : FFmt) : Nat := 2 * f.mb + 8

/-- A float result: bits and flags, rounded once (07 R128, R132). -/
def FFmt.finish (f : FFmt) (env : FEnv) (sat : Bool) (r : Val × Nat) : Nat × Nat :=
  let (x, fl) := f.ofVal env sat r.1
  (x, fl ||| r.2)

/-- Addition (07 R132). -/
def FFmt.add (f : FFmt) (env : FEnv) (sat : Bool) (a b : Nat) : Nat × Nat :=
  f.finish env sat ((f.opd env a).add env.rm (f.opd env b))

/-- Subtraction (07 R132). -/
def FFmt.sub (f : FFmt) (env : FEnv) (sat : Bool) (a b : Nat) : Nat × Nat :=
  f.finish env sat ((f.opd env a).add env.rm (f.opd env b).neg)

/-- Multiplication (07 R132). -/
def FFmt.mul (f : FFmt) (env : FEnv) (sat : Bool) (a b : Nat) : Nat × Nat :=
  f.finish env sat ((f.opd env a).mul (f.opd env b))

/-- Division (07 R132). -/
def FFmt.div (f : FFmt) (env : FEnv) (sat : Bool) (a b : Nat) : Nat × Nat :=
  f.finish env sat ((f.opd env a).div f.guardBits (f.opd env b))

/-- Square root (07 R132). -/
def FFmt.sqrt (f : FFmt) (env : FEnv) (sat : Bool) (a : Nat) : Nat × Nat :=
  f.finish env sat ((f.opd env a).sqrt f.guardBits)

/-- Fused multiply-add, rounded once: the product negated where `np`, the addend where `nc` (07 R132, 11 R205). -/
def FFmt.fma (f : FFmt) (env : FEnv) (sat np nc : Bool) (a b c : Nat) : Nat × Nat :=
  let (p, fp) := (f.opd env a).mul (f.opd env b)
  let c := f.opd env c
  if c.isNan then f.finish env sat (.nan, 0)
  else
    let (t, ft) := (if np then p.neg else p).add env.rm (if nc then c.neg else c)
    f.finish env sat (t, fp ||| ft)

/-- The order of two values that are not NaN, zeros equal (07 R133). -/
def Val.cmp (a b : Val) : Ordering :=
  match a, b with
  | .inf x, .inf y => if x = y then .eq else if x then .lt else .gt
  | .inf x, _ => if x then .lt else .gt
  | _, .inf y => if y then .gt else .lt
  | .fin x m e, .fin y n d =>
    let k := min e d
    compare (sgn x (m * 2 ^ (e - k).toNat)) (sgn y (n * 2 ^ (d - k).toNat))
  | _, _ => .eq

/-- The sign bit of a value. -/
def Val.sign : Val → Bool
  | .nan => false
  | .inf n => n
  | .fin n _ _ => n

/-- a is less than b with -0 less than +0 (07 R133). -/
def Val.less (a b : Val) : Bool :=
  match a.cmp b with
  | .lt => true
  | .gt => false
  | .eq => a.sign && !b.sign

/-- The smaller or larger of two values (07 R133). -/
def Val.pick (larger : Bool) (a b : Val) : Val :=
  if a.isNan || b.isNan then .nan else if (if larger then a.less b else b.less a) then b else a

/-- A value selected, not computed, as the result of a vector word: FZ acts on it (07 R129), NaN is canonical (07 R125), and no flag is set
(11 R205). -/
def FFmt.keep (f : FFmt) (env : FEnv) (v : Val) : Nat × Nat := ((f.ofVal env false v).1, 0)

/-- Minimum or maximum (07 R133): the selected operand, after DAZ; a result that FZ replaces sets UF and NX (R127). -/
def FFmt.pick (f : FFmt) (larger : Bool) (env : FEnv) (a b : Nat) : Nat × Nat :=
  f.ofVal env false ((f.opd env a).pick larger (f.opd env b))

/-- Minimum or maximum as a vector word gives it (11 R205). -/
def FFmt.vpick (f : FFmt) (larger : Bool) (env : FEnv) (a b : Nat) : Nat × Nat :=
  f.keep env ((f.opd env a).pick larger (f.opd env b))

/-- A float compare (05 R97, 07 R133). -/
def FFmt.cond (f : FFmt) (env : FEnv) (c : Cond) (a b : Nat) : Bool :=
  let x := f.opd env a
  let y := f.opd env b
  if x.isNan || y.isNan then c == .ne || c == .uo
  else
    let o := x.cmp y
    match c with
    | .eq => o == .eq
    | .ne => o != .eq
    | .lt => o == .lt
    | .le => o != .gt
    | .gt => o == .gt
    | .ge => o != .lt
    | .uo => false
    | .ord => true

/-- A value rounded to an integer under a mode, and whether it is exact. -/
def Val.toInt (rm : Mode) (neg : Bool) (m : Nat) (e : Int) : Int × Bool :=
  let (n, exact) := roundAt rm neg m e 0
  (sgn neg n, exact)

/-- Float to integer (07 R136). -/
def floatToInt (env : FEnv) (w : Nat) (signed : Bool) (v : Val) : Nat × Nat :=
  match v with
  | .nan => (0, flagIV)
  | .inf neg => (wrapInt w (if neg then intMin w signed else intMax w signed), flagIV)
  | .fin neg m e =>
    let (x, exact) := Val.toInt env.rm neg m e
    if satInt w signed x ≠ x then (wrapInt w (satInt w signed x), flagIV)
    else (wrapInt w x, if exact then 0 else flagNX)

/-- Float to float (07 R134, R138): the special sources, then one rounding. -/
def floatToFloat (env : FEnv) (sat : Bool) (f : FFmt) (v : Val) : Nat × Nat :=
  match v with
  | .nan => if f.hasNan then (f.nanBits, 0) else (0, flagIV)
  | .inf neg =>
    if f.hasInf then (if sat then f.signed neg f.maxBits else f.signed neg (f.maxBits + 1), 0)
    else if f.hasNan then (if sat then (f.signed neg f.maxBits, 0) else (f.nanBits, flagIV))
    else (f.signed neg f.maxBits, if sat then 0 else flagIV)
  | .fin neg m e => f.round env sat neg m e

/-- Conversion between any two element types (07 R134-R138): the result's bits and its flags. -/
def convert (env : FEnv) (sat : Bool) (dst src : Ty) (x : Nat) : Nat × Nat :=
  let srcFloat := src.isFloat || src == .e8m0
  if srcFloat then
    let v := if src == .e8m0 then tyVal src x else (tyFmt src).opd env x
    if dst.isFloat then floatToFloat env sat (tyFmt dst) v
    else floatToInt env dst.width dst.isSigned v
  else
    let a := intOf src.width src.isSigned x
    if dst.isFloat then (tyFmt dst).round env sat (decide (a < 0)) a.natAbs 0
    else if dst.width > src.width then (wrapInt dst.width a, 0)
    else intResult dst.width dst.isSigned sat a

end Sys2Proof.Machine
end

