-- ==== Sys2Proof/Machine/Pattern.lean ====
section
/-! DEFINITION. Copy pattern records and the pieces of a copy (15 R271-R276): what a record says, the runs in their order, and
the pieces that each run is cut into. -/

namespace Sys2Proof.Machine

/-- The fields of a pattern record (15 R271), from its 256 bytes. -/
def patSrc (r : List Byte) : Nat := bitsOf (fieldAt r 0 8) 56 0
@[inherit_doc patSrc] def patDst (r : List Byte) : Nat := bitsOf (fieldAt r 8 8) 56 0
@[inherit_doc patSrc] def patCnt (r : List Byte) : Nat := bitsOf (fieldAt r 16 8) 56 0
@[inherit_doc patSrc] def patNdim (r : List Byte) : Nat := bitsOf (fieldAt r 24 8) 3 0
@[inherit_doc patSrc] def patIxs (r : List Byte) : Nat := bitsOf (fieldAt r 24 8) 7 4
@[inherit_doc patSrc] def patGidx (r : List Byte) : Nat := bitsOf (fieldAt r 32 8) 22 0
@[inherit_doc patSrc] def patGcnt (r : List Byte) : Nat := bitsOf (fieldAt r 40 8) 31 0
@[inherit_doc patSrc] def patCount (r : List Byte) (d : Nat) : Nat := fieldAt r (64 + 16 * d) 4
@[inherit_doc patSrc] def patSstr (r : List Byte) (d : Nat) : Int := intOf48 (fieldAt r (68 + 16 * d) 6)
where
  /-- A 48-bit stride, signed. -/
  intOf48 (x : Nat) : Int := if x ≥ 2 ^ 47 then (x : Int) - 2 ^ 48 else x
@[inherit_doc patSrc] def patDstr (r : List Byte) (d : Nat) : Int := patSstr.intOf48 (fieldAt r (74 + 16 * d) 6)

/-- The product of the counts along dimensions lo to hi - 1. -/
def patProd (r : List Byte) (lo hi : Nat) : Nat := (List.range hi).foldl (fun n d => if lo ≤ d then n * patCount r d else n) 1

/-- A record that R271 and R278 call out of range, for `cgat` or for another command. -/
def patternBad (gather : Bool) (r : List Byte) : Bool :=
  let n := patNdim r
  bitsOf (fieldAt r 0 8) 63 57 ≠ 0 || bitsOf (fieldAt r 8 8) 63 57 ≠ 0 || bitsOf (fieldAt r 16 8) 63 57 ≠ 0 ||
    bitsOf (fieldAt r 24 8) 63 8 ≠ 0 || bitsOf (fieldAt r 32 8) 63 23 ≠ 0 || bitsOf (fieldAt r 40 8) 63 32 ≠ 0 ||
    fieldAt r 48 16 ≠ 0 || n < 1 || n > 12 ||
    (List.range 12).any (fun d => decide (n ≤ d) && fieldAt r (64 + 16 * d) 16 ≠ 0) ||
    (List.range n).any (fun d => patCount r d == 0) || patProd r 0 n > 2 ^ 36 ||
    (if gather then n ≠ 1 || patIxs r ≥ 2 || patGcnt r == 0 || patCount r 0 > 4096
     else patIxs r ≠ 0 || patGidx r ≠ 0 || patGcnt r ≠ 0)

/-- The size of one index of a `cgat` list (15 R271). -/
def ixSize (r : List Byte) : Nat := if patIxs r = 1 then 8 else 4

/-- An address sum, mod 2^64 (15 R272). -/
def addrAdd (base : W64) (x : Int) : W64 := base + BitVec.ofInt 64 x

/-- The index along dimension d of run number k, dimension 1 fastest (15 R272). -/
def runIndex (r : List Byte) (k d : Nat) : Nat := k / patProd r 1 d % patCount r d

/-- The source and destination of run number k from S and D (15 R272). -/
def runAddr (r : List Byte) (s d : W64) (k : Nat) : W64 × W64 :=
  let ds := (List.range (patNdim r)).drop 1
  (addrAdd s (ds.foldl (fun x j => x + runIndex r k j * patSstr r j) 0),
   addrAdd d (ds.foldl (fun x j => x + runIndex r k j * patDstr r j) 0))

/-- A piece: its source, its destination, and its length in bytes. -/
structure Piece where
  src : W64
  dst : W64
  len : Nat
  deriving DecidableEq, Repr

/-- The length of the piece that starts at offset b of a run: to the next 64 B boundary of the destination, the next 4 KiB
boundary of the source, or the end of the run (15 R272). -/
def pieceLen (s d : W64) (b len : Nat) : Nat :=
  min (len - b) (min (64 - (d.toNat + b) % 64) (4096 - (s.toNat + b) % 4096))

/-- Piece n of a run, or how many pieces remain to skip after it; `fuel` bounds the pieces of a run. -/
def runPiece (s d : W64) (len : Nat) : Nat → Nat → Nat → Piece ⊕ Nat
  | 0, _, n => .inr n
  | fuel + 1, b, n =>
    if b ≥ len then .inr n
    else
      let l := pieceLen s d b len
      match n with
      | 0 => .inl ⟨s + BitVec.ofNat 64 b, d + BitVec.ofNat 64 b, l⟩
      | n + 1 => runPiece s d len fuel (b + l) n

/-- Piece n of the runs numbered from k on, with `m` runs to go (15 R272). `run` gives a run's source and destination. -/
def piecesFrom (run : Nat → Option (W64 × W64)) (len : Nat) : Nat → Nat → Nat → Option Piece
  | 0, _, _ => none
  | m + 1, k, n =>
    match run k with
    | none => none
    | some (s, d) =>
      match runPiece s d len len 0 n with
      | .inl p => some p
      | .inr n => piecesFrom run len m (k + 1) n

/-- The copy commands (15 R273, 17 R297). -/
inductive CopyKind where
  | cpy | cgat | cmc | cpyo | cget | cput
  deriving DecidableEq, Repr

/-- The command of a copy's word (05 R99, R101). -/
def copyKind (w : W64) : CopyKind :=
  let r := Raw.ofWord w
  if r.q = 1 then (if r.op = 2 then .cgat else if r.op = 3 then .cmc else if r.op = 4 then .cget else .cpy)
  else if r.op = 2 then .cput else .cpyo

/-- OPX[0] of a copy's word: `.na` or `.fr` (15 R273). -/
def copyOpt (w : W64) : Bool := (CXW.ofB (CXB.ofBits (Raw.ofWord w).body)).opx.getLsbD 0

/-- An operand of a copy captured at dispatch: field 0 P, 1 A, 2 B, 3 C. -/
def Copy.opd (c : Copy) (n : Nat) : W64 := c.ops.getD n 0

/-- S and D of a copy (15 R272). -/
def Copy.srcBase (c : Copy) : W64 := BitVec.ofNat 64 (patSrc c.pat) + c.opd 1
@[inherit_doc Copy.srcBase] def Copy.dstBase (c : Copy) : W64 := BitVec.ofNat 64 (patDst c.pat) + c.opd 2

/-- Index j of a `cgat` list, read in the own scratchpad (15 R274). -/
def gatherIndex (s : State) (i : Sid) (r : List Byte) (j : Nat) : Nat :=
  leNat ((s.core i.pkg i.core).spadBytes (patGidx r + j * ixSize r) (ixSize r))

/-- Piece n of a copy, or none beyond its last, or beyond the elements whose index has been read (15 R272, R274). -/
def copyPiece (c : Copy) (n : Nat) : Option Piece :=
  let r := c.pat
  match copyKind c.word with
  | .cgat =>
    piecesFrom (fun j => (c.idx[j]?).map fun x => (addrAdd c.srcBase (x * patSstr r 0), addrAdd c.dstBase (j * patDstr r 0)))
      (patCount r 0) (patGcnt r) 0 n
  | _ => piecesFrom (fun k => some (runAddr r c.srcBase c.dstBase k)) (patCount r 0) (patProd r 1 (patNdim r)) 0 n

/-- Every index of a `cgat` has been read (15 R274). -/
def Copy.allRead (c : Copy) : Bool := copyKind c.word ≠ .cgat || c.idx.length == patGcnt c.pat

/-- Field C of a copy's word is not s0. -/
def copyHasC (w : W64) : Bool := (CXB.ofBits (Raw.ofWord w).body).c ≠ 0

/-- The arrival counter of a copy (15 R276): sC, or ACNT where field C is s0 or the command is `cmc`; 0 for none. -/
def Copy.counter (c : Copy) : W64 :=
  if copyHasC c.word && copyKind c.word ≠ .cmc then c.opd 3 else BitVec.ofNat 64 (patCnt c.pat)

/-- Piece n of the copy has been performed. -/
def Copy.isDone (c : Copy) (n : Nat) : Bool := decide (n < c.low) || c.done.contains n

/-- `low` moved past the performed pieces at it; `fuel` bounds their number. -/
def lowFrom (done : List Nat) : Nat → Nat → Nat
  | 0, l => l
  | f + 1, l => if done.contains l then lowFrom done f (l + 1) else l

/-- Piece n is performed: it leaves the flights and `low` moves on. -/
def Copy.perform (c : Copy) (n : Nat) : Copy :=
  let done := n :: c.done
  let low := lowFrom done done.length c.low
  { c with done := done.filter (fun x => decide (low ≤ x)), low := low, flight := c.flight.filter fun f => f.n ≠ n }

/-- The copy of a handle changed by f. -/
def Seq.modCopy (q : Seq) (id : Nat) (f : Copy → Copy) : Seq :=
  { q with copies := q.copies.map fun c => if c.id = id then f c else c }

/-- A copy whose every piece has been performed and whose every addition is applied completes (15 R277): its entry completes,
or, for a copy resumed from a re-issue list, the copy leaves and its tag is set. -/
def finishCopy (i : Sid) (id : Nat) (s : State) : State :=
  match (s.seq i).copies.find? fun c => c.id == id with
  | none => s
  | some c =>
    if c.stop.isNone && c.flight.isEmpty && c.adds == 0 && c.allRead && (copyPiece c c.low).isNone then
      s.modSeq i fun q =>
        let q := { q with copies := q.copies.filter fun x => x.id ≠ id }
        if c.listed then
          match c.tag? with
          | none => q
          | some n => if q.namesTag n then q else { q with tags := q.tags ||| (1#64 <<< n) }
        else q.complete c.q id
    else s

/-- A `cput` with a counter: a piece that has been sent keeps its place in the outstanding table (17 R299). -/
def Copy.counted (c : Copy) : Bool := copyKind c.word == .cput && c.counter ≠ 0

/-- A copy's fault names a lower piece than it did (17 R299), as long as it is the sequencer's own pending fault or its record. -/
def Seq.lowerFault (q : Seq) (c : Copy) (m : Nat) (f : FaultRec) : Seq :=
  let fix := fun (x : FaultRec) =>
    if x.deferred ∧ x.caddr = c.caddr ∧ x.queue = eqNum c.q ∧ x.aux = BitVec.ofNat 64 m then
      { f with deferred := true, cyc := x.cyc, resumable := faultResumable f.code true }
    else x
  { q with deferred := q.deferred.map fix, frec := q.frec.map fix }

/-- A fault at piece n of a copy (15 R279, 17 R299): the copy stops, and a deferred fault names its code address and the lowest faulting
piece. The pieces above it are dropped, except those that a `cput` with a counter has sent. -/
def stopCopy (i : Sid) (id n : Nat) (f : FaultRec) (s : State) : State :=
  let q := s.seq i
  match q.copies.find? fun c => c.id == id with
  | none => s
  | some c =>
    let f := { f with caddr := c.caddr, aux := BitVec.ofNat 64 n, queue := eqNum c.q }
    let drop := fun (low : Nat) (s : State) => s.modSeq i fun q => q.modCopy id fun c =>
      { c with stop := some low, flight := c.flight.filter fun x => decide (x.n < low) || (c.counted && x.n ≠ n) }
    match c.stop with
    | none => deferFault q.ident f (drop n s)
    | some m =>
      if n < m then (drop n s).modSeq i fun q => q.lowerFault c m f
      else drop m s

end Sys2Proof.Machine
end

