-- ==== Sys2Proof/Machine/Seeds.lean ====
section
/-! DEFINITION. Seed records, queue control words and seed queues (03 R50-R62), join completion (03 R55). -/

namespace Sys2Proof.Machine

/-- A seed record has a non-zero reserved field (03 R50); CONT as written is ignored. -/
def seedReserved (w0 w1 w2 : W64) : Bool :=
  (w0 &&& 0x3EFFFFFF00000000) ≠ 0 || (w1 &&& 0xFE00000000000000) ≠ 0 || (w2 &&& 0xFE00000000000000) ≠ 0

/-- The CONT bit of word 0 (03 R50). -/
def seedCont : W64 := 0x0100000000000000

/-- PRIO of a record (03 R50). -/
def seedPrio (w0 : W64) : Nat := bitsOf w0.toNat 63 62

/-- JOIN names a 64 B-aligned join block in an atomic window, as the core that holds the record names it (03 R50, R51). -/
def joinOk (s : State) (p c : Nat) (join : W64) : Bool :=
  let off := bitsOf join.toNat 22 0
  isWindow join && join.getLsbD 23 && off % 64 == 0 && decide (off + 64 ≤ Config.winBytes) &&
    (match resolveWindow ⟨p, c, 0⟩ join 64 .counter s with
     | .ok _ => true
     | _ => false)

/-- A record that R50 refuses at a push to the core; a CODE that names a second word is refused too (05 R105). -/
def recordBad (s : State) (p c : Nat) (ws : List W64) : Bool :=
  match ws with
  | [w0, w1, w2, _] =>
    let code := bitsOf w0.toNat 31 0
    let t := vget {} (s.pkg p).slots ((s.core p c).seq 0).slotN.toNat
    seedReserved w0 w1 w2 || !t.fetchOk (BitVec.ofNat 64 code) || (w2 ≠ 0 && !joinOk s p c w2)
  | _ => true

/-- The queue control word of entry n of the core's queue table (03 R59). -/
def Core.queueCtl (c : Core) (n : Nat) : Nat := leNat (c.spadBytes (queueBase c.carve + 16 * n) 8)

/-- HEAD and TAIL of entry n (03 R60). -/
def Core.queueHead (c : Core) (n : Nat) : Nat := leNat (c.spadBytes (queueBase c.carve + 16 * n + 10) 2)
@[inherit_doc Core.queueHead] def Core.queueTail (c : Core) (n : Nat) : Nat :=
  leNat (c.spadBytes (queueBase c.carve + 16 * n + 8) 2)

/-- The status word of entry n written. -/
def Core.setStatus (c : Core) (n head tail : Nat) : Core :=
  c.setSpad (queueBase c.carve + 16 * n + 8) (leBytes 2 tail ++ leBytes 2 head)

/-- VALID of a queue control word (03 R60). -/
def qcwValid (w : Nat) : Bool := w.testBit 52

/-- The depth, element size and base that a queue control word gives (03 R60). -/
def qcwDepth (w : Nat) : Nat := 2 ^ bitsOf w 51 48
@[inherit_doc qcwDepth] def qcwElem (w : Nat) : Nat := 2 ^ bitsOf w 47 44
@[inherit_doc qcwDepth] def qcwBase (w : Nat) : Nat := bitsOf w 22 0

/-- A queue control word that R60 refuses, VALID apart: for a seed queue where `seed`. -/
def qcwBad (carve : W64) (seed : Bool) (w : Nat) : Bool :=
  bitsOf w 63 62 ≥ 2 || bitsOf w 57 53 ≠ 0 || bitsOf w 43 23 ≠ 0 || bitsOf w 51 48 < 4 || bitsOf w 47 44 < 3 ||
    bitsOf w 47 44 > 8 || (seed && bitsOf w 47 44 ≠ 5) || qcwBase w % 64 ≠ 0 ||
    !inQueue carve (qcwBase w) (qcwDepth w * qcwElem w)

/-- A push to seed queue n of the core is refused (03 R60). -/
def Core.queueBad (c : Core) (n : Nat) : Bool := !qcwValid (c.queueCtl n) || qcwBad c.carve true (c.queueCtl n)

/-- The occupancy of queue n (03 R60). -/
def Core.occupancy (c : Core) (n : Nat) : Nat := (c.queueTail n + 65536 - c.queueHead n) % 65536

/-- The queue has no room for a push (03 R61): 4 elements are kept for the pushes that are never refused. -/
def Core.queueFull (c : Core) (n : Nat) (reserve : Bool) : Bool :=
  decide (c.occupancy n + (if reserve then 0 else 4) ≥ qcwDepth (c.queueCtl n))

/-- The back-off of a refused push in ck (03 R60, R62). -/
def Core.backoff (c : Core) (n : Nat) : Nat := bitsOf (c.queueCtl n) 61 58

/-- The policy of queue n is NACK (03 R60). -/
def Core.policyNack (c : Core) (n : Nat) : Bool := bitsOf (c.queueCtl n) 63 62 == 1

/-- A record pushed to the tail of seed queue n at ck `now`; the head timer starts where the queue was empty (03 R58), and pops see
the record from the next ck on (03 R52). -/
def Core.push (c : Core) (n now : Nat) (ws : List W64) : Core :=
  let w := c.queueCtl n
  let t := c.queueTail n
  let empty := c.occupancy n == 0
  let c := c.setSpad (qcwBase w + 32 * (t % qcwDepth w)) (ws.flatMap fun x => leBytes 8 x.toNat)
  let c := c.setStatus n (c.queueHead n) ((t + 1) % 65536)
  let c := { c with pushed := vmod c.pushed n fun x => (now, if x.1 = now then x.2 + 1 else 1) }
  if empty then { c with headCk := vput c.headCk n (some now) } else c

/-- The records of queue n that a pop in ck `now` sees (03 R52). -/
def Core.visible (c : Core) (n now : Nat) : Nat :=
  let x := vget (0, 0) c.pushed n
  c.occupancy n - if x.1 = now then x.2 else 0

/-- The record at the head of seed queue n. -/
def Core.headRecord (c : Core) (n : Nat) : List W64 :=
  let w := c.queueCtl n
  let a := qcwBase w + 32 * (c.queueHead n % qcwDepth w)
  (List.range 4).map fun i => wordLE (c.spadBytes (a + 8 * i) 8)

/-- The head record removed; the head timer restarts, or stops with the queue empty (03 R58). -/
def Core.dropHead (c : Core) (n now : Nat) : Core :=
  let c := c.setStatus n ((c.queueHead n + 1) % 65536) (c.queueTail n)
  { c with headCk := vput c.headCk n (if c.occupancy n = 0 then none else some now) }

/-- A record's words with CONT set or cleared (03 R50). -/
def withCont (b : Bool) (ws : List W64) : List W64 :=
  match ws with
  | w :: r => ((w &&& ~~~seedCont) ||| (if b then seedCont else 0)) :: r
  | [] => []

/-- The outcome of offering a record to a core (03 R50, R60, R62). -/
inductive Push where
  | done (s : State)
  | fault (code : Nat)
  | full (nack : Bool) (backoff : Nat)

/-- A push to the seed queue that the record's PRIO names, at a core (03 R50, R60, R61): the record's checks, the queue's, then
the room. -/
def offerSeed (p c : Nat) (reserve cont : Bool) (ws : List W64) (s : State) : Push :=
  let k := s.core p c
  let n := seedPrio (ws.headD 0)
  if recordBad s p c ws then .fault fcSeedRecord
  else if k.queueBad n then .fault fcQueueControl
  else if k.queueFull n reserve then .full (k.policyNack n) (k.backoff n)
  else .done (s.modCore p c fun k => k.push n s.ck (withCont cont ws))

/-- A join decrement at its owner's write port (03 R55): the root join block of an invocation pushes no seed (25 R400). `none` while the continuation's queue has no room at all. `by_` made the
decrement with the word at `caddr`, naming the block as `addr`. -/
def joinDecrement (p c off : Nat) (by_ : Ident) (addr caddr : W64) (s : State) : Option State :=
  let old := (s.core p c).winWord off
  let new := old - 1
  let t := s.modCore p c fun k => k.setWin off (leBytes 8 new.toNat)
  let flt := fun code => deferFault by_ { code := code, addr := addr, caddr := caddr } t
  match (if old = 1 then s.rootJoin? p c off else none) with
  | some v => some (t.modPkg v.1 fun k => k.joined v.2)
  | none =>
  if old = 1 then
    let ws := (List.range 4).map fun i => (s.core p c).winWord (off + 32 + 8 * i)
    match offerSeed p c true true ws t with
    | .done u => some u
    | .fault code => some (flt code)
    | .full _ _ => none
  else if new.getLsbD 63 then some (flt fcJoinUnderflow)
  else some t

end Sys2Proof.Machine
end

