-- ==== Sys2Proof/Machine/Requests.lean ====
section
/-! DEFINITION. Requests to other cores and packages (17 R288-R309): serials and the outstanding table, flows, what an owner
does with a request, what an answer does at its requester, and resending. -/

namespace Sys2Proof.Machine

/-! ## Serials (17 R303) -/

/-- SerLE (17 R303). -/
def serLE (x y : Nat) : Bool := decide ((y + 2 ^ 24 - x % 2 ^ 24) % 2 ^ 24 < 2 ^ 23)

/-- The unanswered serials, oldest first. -/
def Seq.serials (q : Seq) : List Nat := q.out.filterMap (·.req.serial)

/-- A new non-idempotent operation need not wait (17 R303). -/
def Seq.canIssue (q : Seq) : Bool :=
  decide (q.serials.length < Config.maxOutstanding) &&
    (match q.serials with
     | [] => true
     | u :: _ => decide ((q.sern.toNat + 2 ^ 24 - u) % 2 ^ 24 < 2 ^ 23))

/-- SERA.ACK as the outstanding table gives it (17 R303). -/
def Seq.ackPoint (q : Seq) : BitVec 24 :=
  match q.serials with
  | [] => q.sern - 1
  | u :: _ => BitVec.ofNat 24 u - 1

/-! ## Packets and flows (17 R293-R296) -/

/-- A packet put on the fabric at its source router. -/
def addPacket (src dst vc : Nat) (resp : Bool) (b : Body) (s : State) : State :=
  { s with
    net := s.net ++ [{ id := s.nextPkt, src := src, dst := dst, at_ := src, vc := vc, response := resp, since := s.ck,
                       sent := s.ck, body := b }]
    nextPkt := s.nextPkt + 1 }

/-- A request on its way: into the mesh of the own package, or onto the fabric. -/
def launch (r : Req) (s : State) : State :=
  if r.dpkg = r.who.pkg then s.modPkg r.dpkg fun p => { p with mesh := p.mesh ++ [⟨r, r.who.pkg, s.ck⟩] }
  else addPacket r.who.pkg r.dpkg 0 false (.req r) s

/-- The next FSEQ of a flow's ordered stream, and the state that counts it; none while 1,024 packets are unanswered
(17 R294). -/
def takeFseq (p dctx dst : Nat) (s : State) : Option (Nat × State) :=
  let fs := (s.pkg p).flowsTx
  let f := (fs.find? fun f => f.dctx == dctx && f.dst == dst).getD { dctx := dctx, dst := dst }
  if f.open_.length ≥ 1024 then none
  else
    let g := { f with next := (f.next + 1) % 65536, open_ := f.open_ ++ [f.next] }
    some (f.next, s.modPkg p fun k =>
      { k with flowsTx := g :: k.flowsTx.filter fun f => !(f.dctx == dctx && f.dst == dst) })

/-- The answer leaves the operation to be sent again (17 R305, R307). -/
def Ans.isNack : Ans → Bool
  | .nackFull | .nackAbsent | .nackSeed _ => true
  | _ => false

/-- An answer to a packet of an ordered stream (17 R294, R307): the router die drops its copy, and the FSEQ is no longer unanswered,
unless it is to be sent again after a NACK. -/
def closeFseq (p dctx dst : Nat) (f : Option Nat) (a : Ans) (s : State) : State :=
  match f with
  | none => s
  | some n => s.modPkg p fun k =>
    { k with
      flowsTx := if a.isNack && (k.ctx? dctx).isSome then k.flowsTx
        else k.flowsTx.map fun f => if f.dctx = dctx ∧ f.dst = dst then { f with open_ := f.open_.filter (· ≠ n) } else f
      routerCopies := k.routerCopies.filter fun o => !(o.req.id.dctx == dctx && o.req.dpkg == dst && o.req.fseq == some n) }

/-- The INC that the context's remap table holds for a package (17 R309). -/
def incOf (s : State) (p dctx dst : Nat) : Nat :=
  match (s.pkg p).ctx? dctx with
  | none => 0
  | some c => ((c.vps.find? fun v => v.1 == dst).map (·.2)).getD 0

/-- The package of a place. -/
def placePkg (s : State) (p dctx : Nat) : Place → Nat
  | .mem k _ | .spad k _ _ | .win k _ _ => k
  | .vspad vp _ _ _ | .vwin vp _ _ _ => (((s.pkg p).ctx? dctx).bind fun c => (c.vps[vp]?).map (·.1)).getD p

/-- The window or scratchpad of a team member named virtually, so that the name survives a move of the team (17 R302). -/
def virtualPlace (s : State) (i : Sid) (pl : Place) : Place :=
  let q := s.seq i
  match pl with
  | .win p c off => .vwin q.vpV.toNat q.vteam.toNat ((s.core p c).seq 0).vcore.toNat off
  | .spad p c off => .vspad q.vpV.toNat q.vteam.toNat ((s.core p c).seq 0).vcore.toNat off
  | pl => pl

/-- A request issued by a sequencer (17 R293, R302, R303): it takes the next serial where it is non-idempotent and the next
FSEQ where it goes to another package on the ordered stream, and stands in the outstanding table. None while it must wait. -/
def issueReq (i : Sid) (op : Op) (pl : Place) (addr caddr : W64) (o : Origin) (ordered nonIdem : Bool) (reg : Reg)
    (s : State) : Option State :=
  let q := s.seq i
  let pl := virtualPlace s i pl
  let d := placePkg s i.pkg q.dctx.toNat pl
  if nonIdem && !q.canIssue then none
  else
    let fs := if ordered && d ≠ i.pkg then (takeFseq i.pkg q.dctx.toNat d s).map fun x => (some x.1, x.2) else some (none, s)
    match fs with
    | none => none
    | some (f, s) =>
      let r : Req :=
        { who := i, id := q.ident, serial := if nonIdem then some q.sern.toNat else none, ordered := ordered, fseq := f,
          dpkg := d, inc := incOf s i.pkg q.dctx.toNat d, ack := q.ack.toNat, op := op, place := pl, addr := addr,
          caddr := caddr, origin := o }
      let s := s.modSeq i fun q =>
        { q with sern := if nonIdem then q.sern + 1 else q.sern, out := q.out ++ [{ req := r, lastSend := s.ck, reg := reg }] }
      some (launch r s)

/-- A message of a package's barrier unit to another unit (03 R73), with the unit's next serial. -/
def sendUnit (p dst : Nat) (id : Ident) (op : Op) (s : State) : State :=
  let r : Req := { who := ⟨p, 0, 0⟩, id := id, serial := some (s.pkg p).unitNext, dpkg := dst, inc := incOf s p id.dctx dst,
                   op := op, place := .mem dst 0, origin := .unit }
  let s := s.modPkg p fun k => { k with unitNext := k.unitNext + 1, unitOut := k.unitOut ++ [{ req := r, lastSend := s.ck }] }
  launch r s

/-! ## The owner (17 R305) -/

/-- The new value that an atomic leaves (09 R185). -/
def atomNew (k : Atom) (old b c : W64) : W64 :=
  match k with
  | .add => old + b
  | .fadd => BitVec.ofNat 64 ((tyFmt .fp32).add {} false old.toNat b.toNat).1
  | .minS => if b.toInt < old.toInt then b else old
  | .minU => if b.toNat < old.toNat then b else old
  | .maxS => if old.toInt < b.toInt then b else old
  | .maxU => if old.toNat < b.toNat then b else old
  | .and => old &&& b
  | .or => old ||| b
  | .xor => old ^^^ b
  | .swap => b
  | .cas => if old = b then c else old

/-- The bytes of an atomic's word (09 R184). -/
def atomSize : Atom → Nat
  | .fadd => 4
  | _ => 8

/-- An atomic performed at a window word: the old value and the state after (09 R185). -/
def doAtom (p c off : Nat) (k : Atom) (b x : W64) (s : State) : W64 × State :=
  let old := wordLE ((s.core p c).winBytes off (atomSize k))
  (old, s.modCore p c fun k' => k'.setWin off (leBytes (atomSize k) (atomNew k old b x).toNat))

/-- A byte count added to a window word (15 R276). -/
def addCount (p c off n : Nat) (s : State) : State := (doAtom p c off .add (BitVec.ofNat 64 n) 0 s).2

/-- Whether a request's target team can be served on the package (17 R307; 23 R373, R380): a team that is stopping serves its own
members' requests and those that its mesh had accepted. -/
def teamServes (s : State) (p : Nat) (m : MeshReq) : Place → Bool
  | .vspad _ vt _ _ | .vwin _ vt _ _ =>
    match (s.pkg p).team? m.req.id.dctx vt with
    | none => false
    | some t => t.st == .running || (t.st == .closing && ((m.req.id.vt == vt && m.src == p) || decide (m.at_ ≤ t.stopAt)))
  | _ => true

/-- The place on the package that a request names, its team holding its cores. -/
def hereOf (s : State) (p : Nat) (r : Req) (pl : Place) : Option Place := physical s p r.id.dctx pl

/-- The bytes that a request reaches at its place. -/
def Op.size : Op → Nat
  | .load n | .store n _ | .get n => n
  | .atomic k _ _ => atomSize k
  | .put bs _ _ => bs.length
  | .push _ => 32
  | _ => 8

/-- The core's window or scratchpad that a request names, as the place of its first byte. -/
def Place.base : Place → Place
  | .spad p c _ => .spad p c 0
  | .win p c _ => .win p c 0
  | .vspad vp vt vc _ => .vspad vp vt vc 0
  | .vwin vp vt vc _ => .vwin vp vt vc 0
  | .mem p _ => .mem p 0

/-- Two requests must be performed in the order in which they were issued: those of one ordered stream to one location
(17 R294), and the atomics of one sequencer to one window (09 R187). -/
def sameLocation (a b : MeshReq) : Bool :=
  (a.req.ordered && b.req.ordered && a.src == b.src && a.req.id.dctx == b.req.id.dctx &&
    overlap a.req.op.size b.req.op.size a.req.place b.req.place) ||
  (a.req.id == b.req.id && a.req.place.base == b.req.place.base &&
    (match a.req.op, b.req.op with | .atomic _ _ _, .atomic _ _ _ => true | _, _ => false))

/-- The checks of a memory place at its destination (17 R291): the frame is populated, a write meets no granary frame, and the
frame is not blighted. -/
def frameFault (s : State) (p pa : Nat) (wr : Bool) : Option FaultRec :=
  let k := s.pkg p
  if !k.populated pa then some { code := fcTranslation, reason := 4 }
  else if wr && k.granary pa then some { code := fcProtection, reason := 2 }
  else if k.blighted pa then some { code := fcBlight }
  else none

/-- The checks that fall to the owner (17 R289, R290, R305) on a physical place. -/
def ownerFault (s : State) (p : Nat) (op : Op) (pl : Place) : Option FaultRec :=
  let acc : Acc := match op with
    | .load _ => .load
    | .store _ _ => .store
    | .put _ _ _ => .copyDst
    | .get _ => .copySrc
    | .sig _ _ => .sig
    | .count _ => .counter
    | _ => .atomic
  let wr := match op with
    | .store _ _ | .put _ _ _ => true
    | _ => false
  match pl with
  | .mem _ pa => frameFault s p pa wr
  | pl => (placeFault s acc true op.size pl).map fun code => { code := code }

/-- A `pchg` of the core holds dispatch of entries that touch the scratchpad (09 R193). -/
def Core.pchgHolds (c : Core) : Bool :=
  c.seqs.toList.any fun q => match q.wait with | some (.pchg _) => true | _ => false

/-- A front-end access to a scratchpad waits for the `pchg` of another sequencer of its core (09 R193). -/
def carveMoves (s : State) (i : Sid) : Place → Bool
  | .spad p c _ => (List.range 4).any fun k => ⟨p, c, k⟩ ≠ i && (match ((s.core p c).seq k).wait with
      | some (.pchg _) => true
      | _ => false)
  | _ => false

/-- The request is a front-end load or store. -/
def Req.isAccess (r : Req) : Bool :=
  match r.origin with
  | .pend _ => true
  | _ => false

/-- The reply-cache entry of an identity and serial (17 R305). -/
def Core.reply? (c : Core) (id : Ident) (n : Nat) : Option Reply := c.replies.find? fun r => r.id == id && r.serial == n

/-- The entries that an acknowledgement point covers leave the reply cache (17 R305). -/
def Core.ackReplies (c : Core) (id : Ident) (a : Nat) : Core :=
  { c with replies := c.replies.filter fun r => !(r.id == id && serLE r.serial a) }

/-- What the owner makes of a request: an answer with the state after, or nothing yet. -/
inductive Owned where
  | answer (a : Ans) (s : State)
  | wait (s : State)

/-- A result, and its reply-cache entry, as the one step of R305. -/
def cached (p c : Nat) (r : Req) (v : W64) (s : State) : Owned :=
  .answer (.result v) (s.modCore p c fun k =>
    { k with replies := { id := r.id, serial := r.serial.getD 0, result := v } :: k.replies })

/-- A non-idempotent request performed at its owner's write port (17 R305; 09 R185; 03 R55, R62; 15 R276). -/
def perform (p c : Nat) (r : Req) (pl : Place) (s : State) : Owned :=
  match r.op, pl with
  | .atomic k b x, .win _ _ off => let o := doAtom p c off k b x s; cached p c r o.1 o.2
  | .count n, .win _ _ off => cached p c r 0 (addCount p c off n s)
  | .sig set v, .win _ _ off => let o := doAtom p c off (if set then .swap else .add) v 0 s; cached p c r o.1 o.2
  | .joinDec, .win _ _ off =>
    match joinDecrement p c off r.id r.addr r.caddr s with
    | none => .wait s
    | some t => cached p c r 0 t
  | .push ws, _ =>
    match offerSeed p c false false ws s with
    | .done t => cached p c r 0 t
    | .fault code => .answer (.fault { code := code }) s
    | .full _ b => .answer (.nackSeed b) s
  | _, _ => .wait s

/-- A counted piece of `cput` (17 R298): the write at its home, then the addition at the counter's core. -/
def performPut (p c off : Nat) (r : Req) (bs : List Byte) (s : State) : Owned :=
  match hereOf s p r r.place with
  | none => .answer .nackAbsent s
  | some pl =>
    match ownerFault s p r.op pl with
    | some f => .answer (.fault f) s
    | none =>
      if placeWaking s bs.length pl then .wait s
      else if (s.core p c).replies.length ≥ Config.replyEntries then .answer .nackFull s
      else cached p c r 0 (addCount p c off bs.length (writePlace bs pl s))

/-- The place whose core owns a request (17 R305): the window's core, the destination core of a push, or the counter's. -/
def ownerPlace (r : Req) : Place :=
  match r.op with
  | .put _ (some ctr) _ => ctr
  | _ => r.place

/-- The refusal checks of a seed push come before the test for a free entry (17 R305). -/
def pushFault (s : State) (p c : Nat) (r : Req) : Option FaultRec :=
  match r.op with
  | .push ws =>
    if recordBad s p c ws then some { code := fcSeedRecord }
    else if (s.core p c).queueBad (seedPrio (ws.headD 0)) then some { code := fcQueueControl } else none
  | _ => none

/-- What an owner does with a request (17 R305): one of a context that has ended here is answered ORPHANED (25 R412);
acknowledged entries leave; a hit is answered from the entry, whose hold timer restarts; then the incarnation, the owner's checks, a free entry, a full seed queue; and it is performed. -/
def own (p : Nat) (m : MeshReq) (s : State) : Owned :=
  let r := m.req
  let opl := ownerPlace r
  if ((s.pkg p).ctx? r.id.dctx).isNone then .answer .orphaned s
  else if !teamServes s p m opl || !teamServes s p m r.place then .answer .nackAbsent s
  else
    match hereOf s p r opl with
    | none => .answer .nackAbsent s
    | some pl =>
      match r.serial with
      | none =>
        if r.inc ≠ (s.pkg p).inc then .answer .orphaned s
        else
          match ownerFault s p r.op pl with
          | some f => .answer (.fault f) s
          | none =>
            if placeWaking s r.op.size pl || (r.isAccess && carveMoves s r.who pl) then .wait s
            else
              match r.op with
              | .load n | .get n => .answer (.data (readPlace s n pl)) s
              | .store n v => .answer (.result 0) (writePlace (leBytes n v.toNat) pl s)
              | .put bs _ _ => .answer (.result 0) (writePlace bs pl s)
              | _ => .wait s
      | some n =>
        match pl with
        | .win _ c off | .spad _ c off =>
          let s := s.modCore p c fun k => k.ackReplies r.id r.ack
          match (s.core p c).reply? r.id n with
          | some e =>
            .answer (.result e.result) (s.modCore p c fun k =>
              { k with replies := k.replies.map fun x => if x.id = r.id ∧ x.serial = n then { x with hold := 0 } else x })
          | none =>
            if r.inc ≠ (s.pkg p).inc then .answer .orphaned s
            else
              match r.op with
              | .put bs (some _) _ =>
                if off + 8 > Config.winBytes then .answer (.fault { code := fcWindow }) s
                else performPut p c off r bs s
              | _ =>
                match (match r.op with | .push _ => pushFault s p c r | _ => ownerFault s p r.op pl) with
                | some f => .answer (.fault f) s
                | none =>
                  if (s.core p c).replies.length ≥ Config.replyEntries then .answer .nackFull s
                  else perform p c r pl s
        | _ => .wait s

/-! ## Answers on their way (17 R294, R295) -/

/-- An answer handed to its requester's package. -/
def sendAnswer (p src : Nat) (r : Req) (a : Ans) (s : State) : State :=
  if src = p then s.modPkg p fun k => { k with answers := k.answers ++ [(r, a)] }
  else addPacket p src 0 true (.ans r a) s

/-- The answers of an ordered stream that stand next in FSEQ order are released; `fuel` bounds their number. -/
def releaseAnswers (p : Nat) (f : FlowRx) : Nat → State → FlowRx × State
  | 0, s => (f, s)
  | n + 1, s =>
    match f.ans.find? fun a => a.1 == f.ansNext with
    | none => (f, s)
    | some (_, r, a) =>
      releaseAnswers p { f with ansNext := (f.ansNext + 1) % 65536, ans := f.ans.filter fun x => x.1 ≠ f.ansNext } n
        (sendAnswer p f.src r a s)

/-- FSEQ x lies before y on a stream (mod 2^16). -/
def fseqBefore (x y : Nat) : Bool := x ≠ y && decide ((y + 65536 - x) % 65536 < 32768)

/-- An owner's answer: released in FSEQ order for a packet of an ordered stream, and at once otherwise (17 R294, R295), as for
one whose incarnation is stale and which was therefore issued outside the order (R309). -/
def answerReq (p : Nat) (m : MeshReq) (a : Ans) (s : State) : State :=
  match (if m.req.inc = (s.pkg p).inc then m.req.fseq else none) with
  | none => sendAnswer p m.src m.req a s
  | some n =>
    match (s.pkg p).flowsRx.find? fun f => f.dctx == m.req.id.dctx && f.src == m.src with
    | none => sendAnswer p m.src m.req a s
    | some f =>
      if fseqBefore n f.ansNext then sendAnswer p m.src m.req a s
      else
        let f := { f with ans := (n, m.req, a) :: f.ans.filter fun x => x.1 ≠ n }
        let (f, s) := releaseAnswers p f f.ans.length s
        s.modPkg p fun k =>
          { k with flowsRx := f :: k.flowsRx.filter fun g => !(g.dctx == f.dctx && g.src == f.src) }

/-! ## The requester (17 R303, R307, R309) -/

/-- The answer is to this outstanding entry. -/
def Out.matches (o : Out) (r : Req) : Bool :=
  o.req.serial == r.serial && (r.serial.isSome || (o.req.fseq == r.fseq && o.req.origin == r.origin && o.req.dpkg == r.dpkg))

/-- The wait after a NACK(FULL) or NACK(ABSENT): 1 µs, doubling up to 32 µs (17 R307). -/
def nackWait (n : Nat) : Nat := Config.ckPerUs * min (2 ^ n) 32

/-- The fault that an answer raises: the answered one, or "remote outcome unknown" (17 R305, R309). -/
def answerFault (r : Req) : Ans → Option FaultRec
  | .fault f => some { f with addr := r.addr, caddr := r.caddr }
  | .orphaned => some { code := fcOutcomeUnknown, addr := r.addr, caddr := r.caddr, aux := BitVec.ofNat 64 (r.serial.getD 0) }
  | _ => none

/-- The value that an answer carries. -/
def Ans.value : Ans → W64
  | .result v => v
  | .data bs => wordLE bs
  | _ => 0

/-- The bytes that an answer carries. -/
def Ans.bytes : Ans → List Byte
  | .data bs => bs
  | _ => []

/-- An answer that ends its request is delivered to what issued it (17 R298, R299, R303, R309; 09 R187). A fault that the owner of a
`ksig` answers is precise at its queue, where the entry keeps its place (17 R301, R305). -/
def deliver (j : Sid) (o : Out) (a : Ans) (s : State) : State :=
  let r := o.req
  let q := s.seq j
  match answerFault r a, r.origin with
  | some f, .front =>
    match q.wait with
    | some (.reply _ _ none) =>
      takeFault j f (s.modSeq j fun q => { q with pc := r.caddr, wait := none })
    | _ => deferFault q.ident f s
  | some f, .piece cid n => stopCopy j cid n f s
  | some f, .counter cid n => stopCopy j cid n f s
  | some f, .entry e id =>
    if a = .orphaned then deferFault q.ident { f with queue := eqNum e } s
    else takeFault j { f with queue := eqNum e } (s.modSeq j fun q => q.unissue e id)
  | some f, _ =>
    deferFault q.ident { f with aux := match r.op with | .push _ => BitVec.ofNat 64 (r.serial.getD 0) | _ => f.aux } s
  | none, .front =>
    match q.wait with
    | some (.reply d n none) => s.modSeq j fun q => { q with wait := some (.reply d n (some a.value)) }
    | _ => s.modSeq j fun q => q.setS o.reg a.value
  | none, .pend id =>
    s.modSeq j fun q =>
      { q with fe := (q.fe.filter (fun e => !(e.id == id && e.store))).map fun e =>
          if e.id = id then { e with ready := true, data := a.value } else e }
  | none, .piece cid n =>
    if copyKind (((q.copies.find? fun c => c.id == cid).map (·.word)).getD 0) = .cget then
      s.modSeq j fun q => q.modCopy cid fun c =>
        { c with flight := c.flight.map fun x => if x.n = n then { x with ready := true, bytes := a.bytes } else x }
    else finishCopy j cid (s.modSeq j fun q => q.modCopy cid fun c => c.perform n)
  | none, .counter cid _ => finishCopy j cid (s.modSeq j fun q => q.modCopy cid fun c => { c with adds := c.adds - 1 })
  | none, .entry e id => s.modSeq j fun q => q.complete e id
  | none, _ => s

/-- An answer reaches the package of its requester (17 R303, R307): a NACK sets the time of the next send; any other answer ends
the request and moves SERA.ACK on. An answer that no outstanding entry waits for is discarded. -/
def receiveAnswer (p : Nat) (r : Req) (a : Ans) (s : State) : State :=
  let s := closeFseq p r.id.dctx r.dpkg r.fseq a s
  if r.origin == .unit then
    let s := match a, r.op with
      | .orphaned, .arrive _ _ who => who.foldl (fun s (w : Arrival) => deferFault w.id { code := fcOutcomeUnknown, caddr := w.caddr } s) s
      | _, _ => s
    s.modPkg p fun k =>
      { k with unitOut := if a.isNack then k.unitOut else k.unitOut.filter fun o => o.req.serial ≠ r.serial }
  else
    match s.findSeq r.id with
    | none => s
    | some j =>
      if j.pkg ≠ p then s
      else
        match (s.seq j).out.find? fun o => o.matches r with
        | none => s
        | some o =>
          let upd := fun (f : Out → Out) => s.modSeq j fun q => { q with out := q.out.map fun x => if x.matches r then f x else x }
          match a with
          | .nackFull | .nackAbsent =>
            upd fun o => { o with nacks := o.nacks + 1, lastSend := s.ck, resendAt := some (s.ck + nackWait o.nacks) }
          | .nackSeed b => upd fun o => { o with refused := true, lastSend := s.ck, resendAt := some (s.ck + 64 * 2 ^ b) }
          | _ =>
            let s := s.modSeq j fun q =>
              let q := { q with out := q.out.filter fun x => !x.matches r }
              { q with ack := q.ackPoint }
            deliver j o a s

/-- An outstanding request sent again under its serial and FSEQ (17 R307), with the current acknowledgement point. -/
def resend (i : Sid) (o : Out) (count : Bool) (s : State) : State :=
  let q := s.seq i
  let r := { o.req with who := i, ack := q.ack.toNat }
  let s := s.modSeq i fun q =>
    { q with out := q.out.map fun x =>
        if x.matches r then { x with req := r, lastSend := s.ck, resendAt := none, refused := false,
                                     attempts := if count then x.attempts + 1 else x.attempts } else x }
  launch r s

end Sys2Proof.Machine
end

