-- ==== Sys2Proof/Machine/FrontMem.lean ====
section
/-! DEFINITION. Front-end loads and stores (09 R162-R165; 03 R42): the words, the return of a load's data, and the performing of
a store. -/

namespace Sys2Proof.Machine

/-- The place lies on another package. -/
def farPlace (s : State) (i : Sid) (pl : Place) : Bool := placePkg s i.pkg (s.seq i).dctx.toNat pl ≠ i.pkg

/-- A place in the own core's scratchpad, however it is named. -/
def ownSpad (s : State) (i : Sid) (pl : Place) : Bool :=
  let q := s.seq i
  match virtualPlace s i pl with
  | .vspad vp vt vc _ => vp == q.vpV.toNat && vt == q.vteam.toNat && vc == q.vcore.toNat
  | _ => false

/-- Two accesses of a sequencer share a byte, whether a window address names its core by CLASS 00 or by CLASS 10 (15 R255,
17 R289). -/
def sameBytes (s : State) (i : Sid) (m n : Nat) (a b : Place) : Bool := overlap m n (virtualPlace s i a) (virtualPlace s i b)

/-- Access `a` must wait for the earlier access `b` (09 R165): they share a byte, or both are to the own scratchpad. -/
def mustFollow (s : State) (i : Sid) (b a : Pend) : Bool :=
  sameBytes s i b.size a.size b.place a.place || (ownSpad s i b.place && ownSpad s i a.place)

/-- The loads and stores of the pending list that stand before the one of a handle. -/
def Seq.feBefore (q : Seq) (id : Nat) : List Pend := q.fe.takeWhile fun e => e.id ≠ id

/-- An access of the pending list changed by f. -/
def Seq.modPend (q : Seq) (id : Nat) (f : Pend → Pend) : Seq := { q with fe := q.fe.map fun e => if e.id = id then f e else e }

/-- An access leaves the pending list. -/
def Seq.dropPend (q : Seq) (id : Nat) : Seq := { q with fe := q.fe.filter fun e => e.id ≠ id }

/-- A remote access of the pending list sent to its package, if it can go (17 R293, R294). -/
def sendPend (i : Sid) (e : Pend) (s : State) : State :=
  let op : Op := if e.store then .store e.size e.data else .load e.size
  match issueReq i op e.place e.va e.caddr (.pend e.id) true false 0 s with
  | none => s
  | some s => s.modSeq i fun q => q.modPend e.id fun e => { e with sent := true, compared := true }

/-- The remote loads that nothing holds back are sent (09 R165). -/
def sendLoads (i : Sid) (s : State) : State :=
  (s.seq i).fe.foldl (fun s e =>
    if !e.store && !e.sent && farPlace s i e.place &&
        ((s.seq i).feBefore e.id).all (fun b => b.sent || !mustFollow s i b e) then sendPend i e s
    else s) s

/-- A load word of n bytes (09 R163). -/
def loadWord (n : Nat) (sext : Bool) (g : Guard) (d a : Reg) (imm : BitVec 36) (s : State) : Out' :=
  frontWord 8 g [d, a] (fun q s =>
    let i := s.who
    let va := q.sr a + imm.signExtend 64
    if q.fe.length ≥ Config.maxPending then s
    else
      match resolve i va n .load s with
      | (.fault f, s) => takeFault i { f with caddr := q.pc } s
      | (.stall, s) => s
      | (.ok pl, s) =>
        sendLoads i (s.modSeq i fun q =>
          { q.adv 8 with
            fe := q.fe ++ [{ id := q.next, store := false, size := n, sext := sext, reg := d, va := va, place := pl, caddr := q.pc }]
            next := q.next + 1 })) s

/-- A store word of n bytes (09 R163): it executes now and is performed after the harrow compare (03 R42). -/
def storeWord (n : Nat) (g : Guard) (d a : Reg) (imm : BitVec 36) (s : State) : Out' :=
  frontWord 8 g [d, a] (fun q s =>
    let i := s.who
    let va := q.sr a + imm.signExtend 64
    if q.fe.length ≥ Config.maxPending then s
    else
      match resolve i va n .store s with
      | (.fault f, s) => takeFault i { f with caddr := q.pc } s
      | (.stall, s) => s
      | (.ok pl, s) =>
        s.modSeq i fun q =>
          { q.adv 8 with
            fe := q.fe ++ [{ id := q.next, store := true, size := n, va := va, place := pl, data := q.sr d, caddr := q.pc }]
            harrow := q.harrow ++ [.store q.next s.ck]
            next := q.next + 1 }) s

/-- A load's value from its bytes, extended as its word states (09 R163). -/
def loadValue (n : Nat) (sext : Bool) (x : W64) : W64 :=
  let m := 8 * n
  if sext && x.getLsbD (m - 1) then x ||| ~~~(BitVec.ofNat 64 (2 ^ m - 1)) else x &&& BitVec.ofNat 64 (2 ^ m - 1)

/-- The physical place of a pending access that this package serves, and the region check of the addressed core (15 R256,
17 R290): a CLASS 10 address is checked as a remote one. -/
def nearPlace (s : State) (i : Sid) (e : Pend) : Option (Place × Option Nat) :=
  let remote := match e.place with
    | .vspad _ _ _ _ | .vwin _ _ _ _ => true
    | _ => false
  (physical s i.pkg (s.seq i).dctx.toNat e.place).map fun pl =>
    (pl, placeFault s (if e.store then .store else .load) remote e.size pl)

/-- A region check that an addressed core made fails (15 R256): the fault is deferred, and the access stays pending. -/
def pendFault (i : Sid) (e : Pend) (code : Nat) (s : State) : State :=
  deferFault (s.seq i).ident { code := code, addr := e.va, caddr := e.caddr }
    (s.modSeq i fun q => q.modPend e.id fun e => { e with sent := true })

/-- An atomic of the sequencer to the same bytes has not been answered: a later access follows it (09 R165). -/
def atomAhead (s : State) (i : Sid) (e : Pend) : Bool :=
  let pl := virtualPlace s i e.place
  (s.seq i).out.any fun o => match o.req.op with
    | .atomic k _ _ => overlap (atomSize k) e.size o.req.place pl
    | _ => false

/-- An access to a scratchpad byte stalls: its granule is waking (15 R261), or another sequencer's `pchg` of that core is under
way (09 R193). -/
def spadStalls (s : State) (i : Sid) (n : Nat) (pl : Place) : Bool :=
  placeWaking s n pl || carveMoves s i pl

/-- LOAD_DATA_RETURN (09 R165): the data of the k-th pending access, a load, returns and is written to its register. The read is
performed after every earlier access that it must follow. -/
def execLoadDataReturn (i : Sid) (k : Nat) (s : State) : Out' :=
  if !s.has i then .next s
  else
    let q := s.seq i
    match q.fe[k]? with
    | none => .next s
    | some e =>
      if e.store then .next s
      else if e.ready then
        .next (s.modSeq i fun q => (q.dropPend e.id).setS e.reg (loadValue e.size e.sext e.data))
      else if e.sent || e.bad || farPlace s i e.place || (q.fe.take k).any (fun b => mustFollow s i b e) || atomAhead s i e then .next s
      else
        match nearPlace s i e with
        | none => .next s
        | some (_, some code) => .next (pendFault i e code s)
        | some (pl, none) =>
          if spadStalls s i e.size pl then .next s
          else
            let v := loadValue e.size e.sext (wordLE (readPlace s e.size pl))
            .next (s.modSeq i fun q => (q.dropPend e.id).setS e.reg v)

/-- A store that has passed the compare is performed (03 R42), after every earlier access that it must follow (09 R165); none
while it cannot be. -/
def performStore (i : Sid) (e : Pend) (s : State) : Option State :=
  let q := s.seq i
  if farPlace s i e.place then
    if (q.feBefore e.id).any (fun b => !b.sent && mustFollow s i b e) then none
    else
      let t := sendPend i e s
      if (t.seq i).fe.any (fun x => x.id == e.id && x.sent) then some (sendLoads i t) else none
  else if (q.feBefore e.id).any (fun b => mustFollow s i b e) || atomAhead s i e then none
  else
    match nearPlace s i e with
    | none => none
    | some (_, some code) => some (pendFault i e code s)
    | some (pl, none) =>
      if spadStalls s i e.size pl then none
      else some ((writePlace (leBytes e.size e.data.toNat) pl s).modSeq i fun q => q.dropPend e.id)

/-- `ld8` (09 R163). -/
def execLd8 (g : Guard) (d a : Reg) (imm : BitVec 36) (s : State) : Out' := loadWord 1 false g d a imm s

/-- `ld16` (09 R163). -/
def execLd16 (g : Guard) (d a : Reg) (imm : BitVec 36) (s : State) : Out' := loadWord 2 false g d a imm s

/-- `ld32` (09 R163). -/
def execLd32 (g : Guard) (d a : Reg) (imm : BitVec 36) (s : State) : Out' := loadWord 4 false g d a imm s

/-- `ld64` (09 R163). -/
def execLd64 (g : Guard) (d a : Reg) (imm : BitVec 36) (s : State) : Out' := loadWord 8 false g d a imm s

/-- `ld8s` (09 R163). -/
def execLd8s (g : Guard) (d a : Reg) (imm : BitVec 36) (s : State) : Out' := loadWord 1 true g d a imm s

/-- `ld16s` (09 R163). -/
def execLd16s (g : Guard) (d a : Reg) (imm : BitVec 36) (s : State) : Out' := loadWord 2 true g d a imm s

/-- `ld32s` (09 R163). -/
def execLd32s (g : Guard) (d a : Reg) (imm : BitVec 36) (s : State) : Out' := loadWord 4 true g d a imm s

/-- `st8` (09 R163). -/
def execSt8 (g : Guard) (d a : Reg) (imm : BitVec 36) (s : State) : Out' := storeWord 1 g d a imm s

/-- `st16` (09 R163). -/
def execSt16 (g : Guard) (d a : Reg) (imm : BitVec 36) (s : State) : Out' := storeWord 2 g d a imm s

/-- `st32` (09 R163). -/
def execSt32 (g : Guard) (d a : Reg) (imm : BitVec 36) (s : State) : Out' := storeWord 4 g d a imm s

/-- `st64` (09 R163). -/
def execSt64 (g : Guard) (d a : Reg) (imm : BitVec 36) (s : State) : Out' := storeWord 8 g d a imm s

end Sys2Proof.Machine
end

