-- ==== Sys2Proof/Machine/Atomics.lean ====
section
/-! DEFINITION. Accumulator atomics (09 R184-R187). -/

namespace Sys2Proof.Machine

/-- An atomic word (09 R185-R187). On the own core's window it is performed at once, after the earlier accesses to the same bytes;
on another core it is a request with a serial, for whose old value the front end waits unless D is s0. -/
def atomicWord (k : Atom) (g : Guard) (d a b c : Reg) (s : State) : Out' :=
  frontWord 8 g [d, a, b, c] (fun q s =>
    let i := s.who
    let va := q.sr a
    match resolve i va (atomSize k) .atomic s with
    | (.fault f, s) => takeFault i { f with caddr := q.pc } s
    | (.stall, s) => s
    | (.ok pl, s) =>
      match pl with
      | .win p core off =>
        if p = i.pkg ∧ core = i.core then
          if q.fe.any fun e => sameBytes s i e.size (atomSize k) e.place pl then s
          else
            let o := doAtom p core off k (q.sr b) (q.sr c) s
            o.2.modSeq i fun q => (q.setS d o.1).adv 8
        else far q va pl s
      | pl => far q va pl s) s
where
  /-- The request of an atomic on another core. -/
  far (q : Seq) (va : W64) (pl : Place) (s : State) : State :=
    let i := s.who
    if q.fe.any fun e => !e.sent && sameBytes s i e.size (atomSize k) e.place pl then s
    else
      match issueReq i (.atomic k (q.sr b) (q.sr c)) pl va q.pc (if d = 0 then .posted else .front) true true d s with
      | none => s
      | some s => s.modSeq i fun q =>
        { q.adv 8 with wait := if d = 0 then none else some (.reply d (some (q.sern - 1).toNat) none) }

/-- `aadd` (09 R185). -/
def execAadd (g : Guard) (d a b : Reg) (s : State) : Out' := atomicWord .add g d a b 0 s

/-- `afadd` (09 R185). -/
def execAfadd (g : Guard) (d a b : Reg) (s : State) : Out' := atomicWord .fadd g d a b 0 s

/-- `amin` (09 R185). -/
def execAmin (g : Guard) (ty : ITy) (d a b : Reg) (s : State) : Out' :=
  atomicWord (if ty = .i64 then .minS else .minU) g d a b 0 s

/-- `amax` (09 R185). -/
def execAmax (g : Guard) (ty : ITy) (d a b : Reg) (s : State) : Out' :=
  atomicWord (if ty = .i64 then .maxS else .maxU) g d a b 0 s

/-- `aand` (09 R185). -/
def execAand (g : Guard) (d a b : Reg) (s : State) : Out' := atomicWord .and g d a b 0 s

/-- `aor` (09 R185). -/
def execAor (g : Guard) (d a b : Reg) (s : State) : Out' := atomicWord .or g d a b 0 s

/-- `axor` (09 R185). -/
def execAxor (g : Guard) (d a b : Reg) (s : State) : Out' := atomicWord .xor g d a b 0 s

/-- `aswap` (09 R185). -/
def execAswap (g : Guard) (d a b : Reg) (s : State) : Out' := atomicWord .swap g d a b 0 s

/-- `acas` (09 R185). -/
def execAcas (g : Guard) (d a b c : Reg) (s : State) : Out' := atomicWord .cas g d a b c s

/-- ATOMIC_REPLY (09 R187): the old value returns to the waiting front end. -/
def execAtomicReply (i : Sid) (s : State) : Out' :=
  if !s.has i then .next s
  else
    match (s.seq i).wait with
    | some (.reply d _ (some v)) => .next (s.modSeq i fun q => { q.setS d v with wait := none })
    | _ => .next s

end Sys2Proof.Machine
end

