-- ==== Sys2Proof/Machine/Barriers.lean ====
section
/-! DEFINITION. Barriers (03 R69-R75, 09 R176): the arrival and the flip, the four barrier units, the messages between units,
and the barrier words. Also what a release and an acquire hold for (09 R182). -/

namespace Sys2Proof.Machine

/-- The bound of EXPECT, ARRIVED and PEND (03 R71). -/
def barMax : Nat := 262143

/-- An arrival at an instance: the instance afterwards and the arrivals that it releases, or none where a count would leave its
range (03 R71). -/
def Barrier.arrive (b : Barrier) (a : Arrival) : Option (Barrier × List Arrival) :=
  let b := match a.kind with
    | .plain => { b with arrived := b.arrived + 1, waiting := b.waiting ++ [a] }
    | .drop => { b with arrived := b.arrived + 1, pend := b.pend - 1 }
    | .join => { b with pend := b.pend + 1, waiting := b.waiting ++ [a] }
  if b.pend.natAbs > barMax || b.arrived > barMax then none
  else if b.arrived = b.expect then
    let e := (b.expect : Int) + b.pend
    if e < 0 || e > barMax then none else some ({ expect := e.toNat, phase := !b.phase }, b.waiting)
  else some (b, [])

/-- An arrival is released (03 R71, R75): its front end may go on, or, while it is saved or has left its wait, the flip is
recorded, in the save image too. -/
def releaseArrival (p : Nat) (sc : Scope) (a : Arrival) (s : State) : State :=
  match s.findSeq a.id with
  | some j => s.modSeq j fun q =>
    match q.wait with
    | some (.bar x _) => { q with wait := some (.bar x true), atBar := none }
    | _ => { q with flip := q.flip ||| (1#4 <<< scopeBit sc), atBar := none }
  | none =>
    match (s.pkg p).team? a.id.dctx a.id.vt with
    | none => s
    | some t =>
      let v := a.id.vs / 4
      let n := a.id.vs % 4
      let h := t.save + saveHeader v n + 6
      s.modPkg p fun k =>
        let k := k.setBytes h [k.byte h ||| (0x10#8 <<< scopeBit sc)]
        k.modTeam a.id.dctx a.id.vt fun t =>
          { t with saved := t.saved.modify v fun c => c.modSeq n fun q =>
              { q with flip := q.flip ||| (1#4 <<< scopeBit sc), atBar := none } }

/-- A list of arrivals released. -/
def releaseAll (p : Nat) (sc : Scope) (as : List Arrival) (s : State) : State :=
  as.foldl (fun s a => releaseArrival p sc a s) s

/-- "barrier count" against the sequencer whose arrival was not applied (03 R71, 23 R363). -/
def barrierCount (a : Arrival) (s : State) : State := deferFault a.id { code := fcBarrierCount, caddr := a.caddr } s

/-- An arrival applied to an instance that `get` and `put` reach (03 R71): the flip's waiters are released. -/
def applyArrival (p : Nat) (sc : Scope) (b : Barrier) (put : Barrier → State → State) (a : Arrival) (s : State) : State :=
  match b.arrive a with
  | none => barrierCount a s
  | some (b, rel) => releaseAll p sc rel (put b s)

/-- The instance that MEMB selects (03 R70). -/
def membInst (memb : W64) : Scope → Nat
  | .core => bitsOf memb.toNat 5 4
  | .team => bitsOf memb.toNat 11 8
  | .pkg => bitsOf memb.toNat 17 12
  | .dom => bitsOf memb.toNat 23 18
  | .seq => 0

/-- The context's root package (03 R69; 25 R396): VP 0. -/
def rootPkg (s : State) (p dctx : Nat) : Nat := (((s.pkg p).ctx? dctx).bind fun c => (c.vps[0]?).map (·.1)).getD p

/-- An arrival goes to its barrier unit (03 R69, R71, R73). -/
def arriveAt (i : Sid) (sc : Scope) (inst : Nat) (a : Arrival) (s : State) : State :=
  let d := a.id.dctx
  match sc with
  | .seq => s
  | .core =>
    applyArrival i.pkg sc (vget {} (s.core i.pkg i.core).bars inst)
      (fun b s => s.modCore i.pkg i.core fun c => { c with bars := vput c.bars inst b }) a s
  | .team =>
    match (s.pkg i.pkg).team? d a.id.vt with
    | none => s
    | some t =>
      applyArrival i.pkg sc (vget {} t.bars inst)
        (fun b s => s.modPkg i.pkg fun k => k.modTeam d a.id.vt fun t => { t with bars := vput t.bars inst b }) a s
  | .pkg =>
    match (s.pkg i.pkg).ctx? d with
    | none => s
    | some c =>
      applyArrival i.pkg sc (cellGet {} c.pkgBars inst)
        (fun b s => s.modPkg i.pkg fun k => k.modCtx d fun c => { c with pkgBars := cellPut {} c.pkgBars inst b }) a s
  | .dom => sendUnit i.pkg (rootPkg s i.pkg d) a.id (.arrive d inst [a]) s

/-! ## Release and acquire (09 R182; 15 R282) -/

/-- An outstanding request is an access that a release covers: every one but a seed push. -/
def Out.isAccess (o : Out) : Bool :=
  match o.req.op with
  | .push _ => false
  | _ => true

/-- Every earlier front-end store and atomic has been performed (09 R181). -/
def Seq.frontDone (q : Seq) : Bool :=
  q.fe.all (fun e => !e.store) && q.out.all fun o => !(o.isAccess && (o.req.origin == .front || o.req.origin == .posted))

/-- Every earlier access has been performed, at every scope (09 R182, 15 R282). -/
def Seq.releaseDone (q : Seq) : Bool :=
  q.frontDone && q.allDone .l && q.allDone .c && q.allDone .s && q.copies.isEmpty && q.out.all fun o => !o.isAccess

/-- Every earlier front-end load and atomic has completed (09 R182). -/
def Seq.acquireDone (q : Seq) : Bool :=
  q.fe.all (·.store) && q.out.all fun o => !(o.isAccess && (o.req.origin == .front || o.req.origin == .posted))

/-- An acquire's effect: at core scope or wider the gather cache is discarded (15 R285). -/
def acquireAt (i : Sid) (sc : Scope) (s : State) : State :=
  if sc = .seq then s else s.modCore i.pkg i.core fun c => { c with gather := [] }

/-- A released barrier wait completes (03 R73): it acquires at its scope and the front end goes on. -/
def finishBar (i : Sid) (s : State) : State :=
  match (s.seq i).wait with
  | some (.bar sc true) =>
    acquireAt i sc (s.modSeq i fun q => { q.adv 8 with wait := none, atBar := none })
  | _ => s

/-- A barrier word (03 R71-R75, 09 R176, R183). At `.seq` it waits for no other member: it is a release followed by an acquire
(assumption 13). A plain or join arrival that stood at its
instance when the sequencer was stopped goes on if a flip was recorded and otherwise waits again. -/
def barrierWord (kind : Arrive) (g : Guard) (sc : Scope) (s : State) : Out' :=
  frontWord 8 g [] (fun q s =>
    let i := s.who
    let inst := membInst q.memb sc
    if sc = .seq then (if q.releaseDone && q.acquireDone then acquireAt i sc (s.modSeq i fun q => q.adv 8) else s)
    else if kind ≠ .drop && q.flip.getLsbD (scopeBit sc) then
      acquireAt i sc (s.modSeq i fun q => { q.adv 8 with flip := q.flip &&& ~~~(1#4 <<< scopeBit sc) })
    else if kind ≠ .drop && q.atBar == some (sc, inst) then s.modSeq i fun q => { q with wait := some (.bar sc false) }
    else if !q.releaseDone then s
    else
      let a : Arrival := ⟨q.ident, kind, q.pc⟩
      if kind = .drop then arriveAt i sc inst a (s.modSeq i fun q => q.adv 8)
      else
        let s := s.modSeq i fun q => { q with wait := some (.bar sc false), atBar := some (sc, inst) }
        finishBar i (arriveAt i sc inst a s)) s

/-- `bar` (09 R176; 03 R71). -/
def execBar (g : Guard) (sc : Scope) (s : State) : Out' := barrierWord .plain g sc s

/-- `bard` (09 R176; 03 R71). -/
def execBard (g : Guard) (sc : Scope) (s : State) : Out' := barrierWord .drop g sc s

/-- `barj` (09 R176; 03 R71). -/
def execBarj (g : Guard) (sc : Scope) (s : State) : Out' := barrierWord .join g sc s

/-- The position of the first message of the given kind in a package's mesh. -/
def findUnit (p : Package) (f : Op → Bool) : Option Nat := p.mesh.findIdx? fun m => f m.req.op

/-- A unit's message is taken from the mesh of its package and answered; `act` is applied unless the message was performed
before (03 R73). One for a context that has ended here, or for an earlier incarnation, is answered ORPHANED (25 R412, 17 R309). -/
def takeUnit (p k : Nat) (m : MeshReq) (act : State → State) (s : State) : State :=
  let n := m.req.serial.getD 0
  let s := s.modPkg p fun x => { x with mesh := x.mesh.eraseIdx k }
  if (s.pkg p).unitSeen.contains (m.src, n) then answerReq p m (.result 0) s
  else if ((s.pkg p).ctx? m.req.id.dctx).isNone || m.req.inc ≠ (s.pkg p).inc then answerReq p m .orphaned s
  else answerReq p m (.result 0) (act (s.modPkg p fun x => { x with unitSeen := (m.src, n) :: x.unitSeen }))

/-- The packages that hold an arrival of the list, by VP. -/
def releasePkgs (as : List Arrival) : List Nat := (as.map (·.id.vp)).eraseDups

/-- One arrival of a message applied at the root (03 R73): a flip sends one release message to each package that waits. -/
def rootArrive (p dctx inst : Nat) (s : State) (a : Arrival) : State :=
  match (s.pkg p).ctx? dctx with
  | none => s
  | some c =>
    match (cellGet {} c.domBars inst).arrive a with
    | none => barrierCount a s
    | some (b, rel) =>
      let s := s.modPkg p fun k => k.modCtx dctx fun c => { c with domBars := cellPut {} c.domBars inst b }
      (releasePkgs rel).foldl (fun s vp =>
        match c.vps[vp]? with
        | none => s
        | some d => sendUnit p d.1 a.id (.release dctx inst (rel.filter fun x => x.id.vp == vp)) s) s

/-- A message is an arrival for an instance of a context's domain-scope barriers. -/
def arriveFor (dctx inst : Nat) : Op → Bool
  | .arrive d n _ => d == dctx && n == inst
  | _ => false

/-- BARRIER_ARRIVAL_MESSAGE (03 R73): the oldest message for an instance reaches the root, which applies its arrivals one at a
time, in order. -/
def execBarrierArrivalMessage (p dctx inst : Nat) (s : State) : Out' :=
  match findUnit (s.pkg p) (arriveFor dctx inst) with
  | none => .next s
  | some k =>
    match (s.pkg p).mesh[k]? with
    | none => .next s
    | some m =>
      match m.req.op with
      | .arrive _ _ who => .next (takeUnit p k m (fun s => who.foldl (rootArrive p dctx inst) s) s)
      | _ => .next s

/-- BARRIER_RELEASE_MESSAGE (03 R73): a flip's release message reaches a package, which hands it to each of its waiting
arrivals. -/
def execBarrierReleaseMessage (p k : Nat) (s : State) : Out' :=
  match (s.pkg p).mesh[k]? with
  | none => .next s
  | some m =>
    match m.req.op with
    | .release _ _ who => .next (takeUnit p k m (releaseAll p .dom who) s)
    | _ => .next s

end Sys2Proof.Machine
end

