-- ==== Sys2Proof/Machine/Fetch.lean ====
section
/-! DEFINITION. What a turn runs: the word that a front end fetches and decodes (01 R20, 05 R105, R106), the entry that an
engine queue issues (03 R42, R44), and the step that a work entry starts (21 R348). -/

namespace Sys2Proof.Machine

/-- What a turn finds to do: nothing, an instruction to execute, a word that the page scanner would have rejected, or a state
already reached (a fault taken at the fetch). -/
inductive Found where
  | idle
  | run (i : Instr)
  | illegal (w : W64)
  | taken (s : State)

/-- The bytes of an instruction-cache line of a slot, where it is present (01 R20). -/
def Core.line? (c : Core) (slot line : Nat) : Option (List Byte) :=
  (c.icache.find? fun x => x.1 == slot && x.2.1 == line).map (·.2.2)

/-- The code word at a slot offset, from the instruction cache. -/
def Core.codeWord? (c : Core) (slot off : Nat) : Option W64 :=
  (c.line? slot (off / Config.icacheLine)).map fun bs => wordOfBytes (bs.drop (off % Config.icacheLine))

/-- A decoded front-end word: an F word runs itself, and a word of another route is dispatched (03 R40). -/
def frontInstr (w ext : W64) : Found :=
  match decodeWord w ext with
  | .error _ => .illegal w
  | .ok i => if (Raw.ofWord w).q == 0 then .run i else .run (.dispatch w)

/-- The sequencer's team is stopping: its front ends run no further word, and its queues issue nothing (23 R373). -/
def teamStops (s : State) (i : Sid) : Bool :=
  let q := s.seq i
  ((s.pkg i.pkg).team? q.dctx.toNat q.vteam.toNat).any fun t => t.st ≠ .running

/-- What a front end does next (03 R40; 05 R105, R106; 23 R363): deliver a deferred fault, wait, take a fetch fault, wait for
a cache line, or run the word at its program counter. -/
def fetchFront (i : Sid) (s : State) : Found :=
  if !s.has i then .idle
  else
    let q := s.seq i
    let c := s.core i.pkg i.core
    let t := vget {} (s.pkg i.pkg).slots q.slotN.toNat
    if q.st ≠ .run || teamStops s i then .idle
    else if !q.deferred.isEmpty then .run (.deferredFaultDelivery i)
    else
      let may := match q.wait with
        | none | some (.dispatch _) | some (.sow _) | some .fmt => true
        | some _ => false
      if !may then .idle
      else if !t.fetchOk q.pc then .taken (wordFault i fcFetchRange q.pc s)
      else if (s.pkg i.pkg).blighted (t.base + q.pc.toNat) then .taken (wordFault i fcBlight q.pc s)
      else
        match c.codeWord? q.slotN.toNat q.pc.toNat with
        | none => .idle
        | some w =>
          if twoWord w then
            match c.codeWord? q.slotN.toNat (q.pc.toNat + 8) with
            | none => .idle
            | some ext => frontInstr w ext
          else frontInstr w 0

/-- The lines that the next fetch needs and the instruction cache does not hold (01 R20). -/
def missingLines (i : Sid) (s : State) : List Nat :=
  let q := s.seq i
  let c := s.core i.pkg i.core
  let l := q.pc.toNat / Config.icacheLine
  let l2 := (q.pc.toNat + 8) / Config.icacheLine
  (if (c.line? q.slotN.toNat l).isNone then [l] else []) ++
    (if l2 ≠ l && (c.line? q.slotN.toNat l2).isNone then [l2] else [])

/-- What an engine queue does next (03 R42, R44): issue its oldest unissued entry, once that has passed the compare. -/
def fetchIssue (i : Sid) (e : EQ) (s : State) : Found :=
  if !s.has i then .idle
  else
    let q := s.seq i
    if q.st == .unbound || q.st == .saved || q.st == .halt || teamStops s i then .idle
    else
      match q.headOf e with
      | none => .idle
      | some x =>
        if !x.compared then .idle
        else match decodeWord x.word 0 with
          | .error _ => .illegal x.word
          | .ok j => .run j

/-- A step that is a WAIT (21 R345). -/
def isWaitStep (w : BitVec 32) : Bool := w.extractLsb' 28 4 == 5

/-- What a work entry does next (21 R348, R349): start the step at its position, while fewer than four are in progress. -/
def fetchWork (p e : Nat) (s : State) : Found :=
  if !s.hasPkg p then .idle
  else
    let k := s.work p e
    if k.st ≠ .run || k.holding || k.runs.length ≥ 4 then .idle
    else
      match k.steps[k.pc]? with
      | none => .idle
      | some w =>
        match decodeStep w with
        | none => .idle
        | some j => .run j

/-- The scalar registers that an engine word's entry resolves at dispatch, in field order (03 R41, 11 R200): the register
fields of an MX, CX or RRI word, and those RRR fields that name a scalar for the instruction. -/
def scalarFields : Instr → List Reg
  | .vadd _ _ _ _ sb _ _ _ b | .vsub _ _ _ _ sb _ _ _ b | .vmul _ _ _ _ sb _ _ _ b | .vabd _ _ _ _ sb _ _ _ b
  | .vdiv _ _ _ _ sb _ _ _ b => if sb then [b] else []
  | .vmulh _ _ sb _ _ _ b | .vmin _ _ sb _ _ _ b | .vmax _ _ sb _ _ _ b | .vand _ _ sb _ _ _ b | .vor _ _ sb _ _ _ b
  | .vxor _ _ sb _ _ _ b | .vshr _ _ sb _ _ _ b | .vsra _ _ sb _ _ _ b | .vrot _ _ sb _ _ _ b => if sb then [b] else []
  | .vshl _ _ _ sb _ _ _ b => if sb then [b] else []
  | .vcmp _ _ _ sb _ _ _ b => if sb then [b] else []
  | .vfma _ _ _ _ sb sc _ _ _ b c | .vfms _ _ _ _ sb sc _ _ _ b c | .vfnma _ _ _ _ sb sc _ _ _ b c =>
    (if sb then [b] else []) ++ (if sc then [c] else [])
  | .vclamp _ _ sb sc _ _ _ b c => (if sb then [b] else []) ++ (if sc then [c] else [])
  | .kmovS _ _ a _ => [a]
  | .vslide _ _ _ _ _ _ c => [c]
  | .vbcast _ _ _ _ a => [a]
  | .vbcastEl _ _ _ _ _ b => [b]
  | .vext _ _ _ _ b => [b]
  | .vins _ _ _ a b => [a, b]
  | .vunpk _ _ _ _ _ _ b c => [b, c]
  | .vrand _ _ _ _ a b => [a, b]
  | .vld _ _ a _ | .vst _ _ a _ | .vldb _ _ a _ => [a]
  | .vlds _ _ _ _ a b | .vsts _ _ _ _ a b => [a, b]
  | .vldx _ _ _ _ a _ | .vstx _ _ _ _ a _ => [a]
  | .mmul _ _ ab ap bb bp _ _ _ _ => [ab, ap, bb, bp]
  | .mslice _ _ ab ap bb bp _ _ _ => [ab, ap, bb, bp]
  | .mld _ _ ab ap _ | .mst _ _ ab ap | .msow _ ab ap _ _ => [ab, ap]
  | .cpy _ f _ | .cgat _ f _ | .cmc _ f _ | .cpyo _ f _ | .cget _ f _ | .cput _ f _ => [f.p, f.a, f.b, f.c]
  | .ksig _ f _ => [f.p, f.a, f.c]
  | .asub _ _ _ r | .aunsub _ _ _ r | .afin _ _ _ r | .await _ _ _ r => [r]
  | .amerge _ _ _ r a b => [r, a, b]
  | _ => []

/-- The queue of an engine word's route (05 R84). -/
def routeQueue (w : W64) : EQ :=
  match (Raw.ofWord w).q with
  | 1 => .l
  | 2 => .c
  | _ => .s

/-- The entry that dispatching a word makes (03 R41): the guard's value, the scalar operands and FPC's modes as they stand. -/
def makeEntry (q : Seq) (w : W64) : Entry :=
  let ops := match decodeWord w 0 with
    | .ok i => (scalarFields i).map q.sr
    | .error _ => []
  { id := q.next, word := w, caddr := q.pc, guard := q.guard (Raw.ofWord w).guard, mode := q.fpc.extractLsb' 0 4, ops := ops }

end Sys2Proof.Machine
end

