-- ==== Sys2Proof/Machine/Queues.lean ====
section
/-! DEFINITION. Dispatch, the harrow, retirement, token deadlock (03 R40-R48), the instruction cache (01 R20), seeds popped and
aged (03 R52, R53, R58), and the matrix lease (03 R76-R80). -/

namespace Sys2Proof.Machine

/-- The instruction of an entry. -/
def Entry.instr? (e : Entry) : Option Instr := (decodeWord e.word 0).toOption

/-- An entry that touches the scratchpad, in the sense of `pchg` (09 R193). -/
def touchesSpad : Instr → Bool
  | .vld _ _ _ _ | .vst _ _ _ _ | .vldb _ _ _ _ | .vlds _ _ _ _ _ _ | .vsts _ _ _ _ _ _ | .vldx _ _ _ _ _ _
  | .vstx _ _ _ _ _ _ => true
  | .mmul _ _ _ _ _ _ _ _ _ _ | .mslice _ _ _ _ _ _ _ _ _ | .mld _ _ _ _ _ | .mst _ _ _ _ | .msow _ _ _ _ _ => true
  | .cpy _ _ _ | .cgat _ _ _ | .cmc _ _ _ | .cpyo _ _ _ | .cget _ _ _ | .cput _ _ _ => true
  | .amerge _ _ _ _ _ _ => true
  | _ => false

/-- The scope of a CX word (05 R92). -/
def copyScope (w : W64) : Scope := Scope.ofCode (CXB.ofBits (Raw.ofWord w).body).scope

/-- DISPATCH (03 R40, R41; 09 R178): once the queue has room, the word's entry takes the guard's value, the scalar operands and
FPC's modes, and the harrow has it to compare. A copy command with a true guard clears its tag. -/
def execDispatch (w : BitVec 64) (s : State) : Out' :=
  let i := s.who
  if !s.has i then .fault .noSequencer
  else
    match decodeWord w 0 with
    | .error _ => .refused (.illegalWord w)
    | .ok j =>
      let q := s.seq i
      let e := routeQueue w
      if !q.clear (scalarFields j) then .next s
      else if (s.core i.pkg i.core).pchgHolds && touchesSpad j then .next s
      else if (q.queue e).length ≥ Config.queueDepth then .next (s.modSeq i fun q => { q with wait := some (.dispatch e) })
      else
        let x := makeEntry q w
        .next (s.modSeq i fun q =>
          let q := (q.setQueue e (q.queue e ++ [x])).adv 8
          { q with
            harrow := q.harrow ++ [.entry e x.id s.ck], next := q.next + 1, wait := none
            tags := match x.tag? with
              | none => q.tags
              | some n => q.tags &&& ~~~(1#64 <<< n)
            tagAcq := match x.tag? with
              | none => q.tagAcq
              | some n => (if (s.seq i).namesTag n then q.tagAcq else q.tagAcq &&& ~~~(1#64 <<< n)) |||
                  (if copyScope w = .seq then 0 else 1#64 <<< n) })

/-- A harrow item is an engine entry or an `mfmt`: it is compared in order. -/
def HItem.isEntry : HItem → Bool
  | .entry _ _ _ | .fmt _ _ => true
  | .store _ _ => false

/-- The ck in which an item executed. -/
def HItem.ck : HItem → Nat
  | .entry _ _ c | .store _ c | .fmt _ c => c

/-- HARROW_COMPARE (03 R42): 6 ck or more after it executed, the k-th item not yet compared is compared. A matching entry may
issue; a matching store is performed, and a matching `mfmt` pushes its format word (13 R231). Items are taken in order, except past front-end stores that wait to be performed, whose
order R165 leaves open. A mismatch (`ok` false) abandons the seed and raises "harrow mismatch". -/
def execHarrowCompare (i : Sid) (k : Nat) (ok : Bool) (s : State) : Out' :=
  if !s.has i then .next s
  else
    let q := s.seq i
    match q.harrow[k]? with
    | none => .next s
    | some h =>
      if s.ck < h.ck + Config.harrowLag || (q.harrow.take k).any HItem.isEntry then .next s
      else if !ok then (if k = 0 then .next (machineCheck i fcHarrow (checkAux i fcHarrow) s) else .next s)
      else
        let drop := fun (s : State) => s.modSeq i fun q => { q with harrow := q.harrow.eraseIdx k }
        match h with
        | .entry e id _ => .next (drop (s.modSeq i fun q => q.modEntry e id fun x => { x with compared := true }))
        | .fmt f _ => .next (drop (s.modSeq i fun q => { q with fq := q.fq ++ [f] }))
        | .store id _ =>
          match q.fe.find? fun e => e.id == id with
          | none => .next (drop s)
          | some e =>
            match performStore i e s with
            | none => .next s
            | some t => .next (drop t)

/-- ENTRY_RETIRE (03 R44, R47): the oldest entry of a queue, completed, puts its tokens once each FIFO it names holds at most 7,
and leaves the queue. -/
def execEntryRetire (i : Sid) (e : EQ) (s : State) : Out' :=
  if !s.has i then .next s
  else
    let q := s.seq i
    match q.queue e with
    | [] => .next s
    | x :: rest =>
      if x.done && q.canPut e x.head then .next (s.modSeq i fun q => (q.setQueue e rest).put e x.head) else .next s

/-- A queue that cannot move in the sense of R48: empty, its head waits to take from an empty FIFO, or its oldest entry waits to
put into a full one. -/
def Seq.stuckQueue (q : Seq) (e : EQ) : Bool :=
  (q.queue e).isEmpty || (match q.headOf e with | some x => x.compared && !q.canTake e x.head | none => false) ||
    (match q.queue e with | x :: _ => x.done && !q.canPut e x.head | [] => false)

/-- No entry of the queue is executing or awaiting completion (03 R48). -/
def Seq.quietQueue (q : Seq) (e : EQ) : Bool := (q.queue e).all fun x => !x.issued || x.done

/-- The front end is stalled on dispatch into a full queue, on `reap`, or in a wait that is not met and that only an entry of L, C
or S can end (03 R48, 09 R183). -/
def Seq.stalledOnQueues (q : Seq) : Bool :=
  match q.wait with
  | some (.dispatch e) => decide (Config.queueDepth ≤ (q.queue e).length)
  | some .reap | some (.tokset _) => !q.drained
  | some .tfence => !q.allDone .c
  | some (.qfence f l c s) => (!f || q.frontDone) && ((l && !q.allDone .l) || (c && !q.allDone .c) || (s && !q.allDone .s))
  | some (.rel _) =>
    q.frontDone && q.copies.isEmpty && q.out.all (fun o => !o.isAccess) &&
      !(q.allDone .l && q.allDone .c && q.allDone .s)
  | _ => false

/-- The sequencer is in token deadlock (03 R48). -/
def Seq.deadlocked (q : Seq) : Bool :=
  [EQ.l, EQ.c, EQ.s].all (fun e => q.stuckQueue e && q.quietQueue e) && q.stalledOnQueues

/-- TOKEN_DEADLOCK (03 R48, 23 R368): the running seed is abandoned and "token deadlock" is raised at the front end's program
counter. -/
def execTokenDeadlock (i : Sid) (s : State) : Out' :=
  let q := s.seq i
  if !s.has i || !q.deadlocked || q.st == .halt || q.st == .saved || teamStops s i then .next s
  else .next (wordFault i fcTokenDeadlock q.pc (s.modSeq i (Seq.abandon false)))

/-- INSTRUCTION_FETCH_MISS_FILL (01 R20, 05 R106): the lines that the next fetch needs are filled from the granary slot; the
oldest lines leave where the cache is full. -/
def execInstructionFetchMissFill (i : Sid) (s : State) : Out' :=
  if !s.has i || (s.seq i).st ≠ .run then .next s
  else
    let n := (s.seq i).slotN.toNat
    let p := s.pkg i.pkg
    let t := vget {} p.slots n
    if !t.loaded then .next s
    else
      let new := (missingLines i s).map fun l => (n, l, p.bytes (t.base + l * Config.icacheLine) Config.icacheLine)
      .next (s.modCore i.pkg i.core fun c => { c with icache := (new ++ c.icache).take Config.icacheLines })

/-! ## Seeds -/

/-- The highest-priority seed queue of a core that holds a record which a pop in ck `now` sees (03 R52). -/
def Core.popQueue (c : Core) (now : Nat) : Option Nat := [3, 2, 1, 0].find? fun n => c.visible n now ≠ 0

/-- A sequencer may pop: it is IDLE in a running team, and no lower-numbered sequencer of its core is (03 R52, R67). -/
def mayPop (s : State) (i : Sid) : Bool :=
  let c := s.core i.pkg i.core
  let idle := fun n => let q := c.seq n; q.st == .idle && q.deferred.isEmpty && q.frec.isNone
  idle i.seq && !(List.range i.seq).any idle &&
    (match (s.pkg i.pkg).team? (s.seq i).dctx.toNat (s.seq i).vteam.toNat with
     | some t => t.st == .running
     | none => false)

/-- The state of R53 at seed start, from the record. Loads of the seed before that have not returned write no register, and its
format words that the harrow has not compared are not pushed: the format queue is empty at seed start (13 R230). -/
def startSeed (ws : List W64) (q : Seq) : Seq :=
  let s := Vector.replicate 32 (0 : W64)
  let s := ((s.set 1 (ws.getD 1 0)).set 2 (ws.getD 3 0)).set 3 (ws.getD 2 0)
  { q with
    st := .run, pc := BitVec.ofNat 64 (bitsOf (ws.getD 0 0).toNat 31 0), s := s, p := 1, lc0 := 0, lc1 := 0
    prio := BitVec.ofNat 2 (seedPrio (ws.getD 0 0)), lc := 0, cl := 0, cs := 0, sc := 0, fq := [], aband := false
    harrow := q.harrow.filter fun h => match h with | .fmt _ _ => false | _ => true
    fe := q.fe.map fun e => { e with reg := 0 }, wait := none, sysDone := none, atBar := none, flip := 0 }

/-- SEED_POP (03 R52, R53): the head of the highest-priority queue that is not empty starts on the sequencer; the start acquires
(15 R285). -/
def execSeedPop (i : Sid) (s : State) : Out' :=
  if !s.has i || !mayPop s i then .next s
  else
    let c := s.core i.pkg i.core
    match c.popQueue s.ck with
    | none => .next s
    | some n =>
      let ws := c.headRecord n
      let s := s.modCore i.pkg i.core fun c => { c.dropHead n s.ck with gather := [] }
      .next (s.modSeq i (startSeed ws))

/-- SEED_AGING (03 R58): the head record of queue q, 65,536 ck at the head, moves to the tail of the queue one priority higher,
with its PRIO raised; it waits only where all of that queue's elements are occupied. -/
def execSeedAging (p c q : Nat) (s : State) : Out' :=
  let k := s.core p c
  match vget none k.headCk q with
  | none => .next s
  | some t =>
    if q ≥ 3 || k.occupancy q == 0 || s.ck < t + Config.agingCk || k.queueFull (q + 1) true then .next s
    else
      let ws := match k.headRecord q with
        | w :: r => ((w &&& 0x3FFFFFFFFFFFFFFF) ||| BitVec.ofNat 64 ((seedPrio w + 1) * 2 ^ 62)) :: r
        | [] => []
      .next (s.modCore p c fun k => (k.dropHead q s.ck).push (q + 1) s.ck ws)

/-! ## The matrix lease -/

/-- A matrix command that needs the lease (03 R76). -/
def needsLease : Instr → Bool
  | .mmul _ _ _ _ _ _ _ _ _ _ | .mslice _ _ _ _ _ _ _ _ _ | .mzero _ _ | .mld _ _ _ _ _ | .mst _ _ _ _
  | .msow _ _ _ _ _ => true
  | _ => false

/-- The sequencer's C head asks for the lease (03 R76): an `mlease`, or a matrix command without the lease, past the compare. -/
def Seq.asksLease (q : Seq) : Bool :=
  match q.headOf .c with
  | none => false
  | some x => x.compared && x.guard && (match x.instr? with
    | some (.mlease _) => true
    | some j => needsLease j
    | none => false)

/-- A sequencer begins to wait for the lease, where it does not wait already (03 R78). -/
def Core.askLease (c : Core) (n : Nat) : Core :=
  if c.leaseWait.any fun w => w.1 == n then c else { c with leaseWait := c.leaseWait ++ [(n, [])] }

/-- The waiting sequencers whose C head still asks for the lease. -/
def Core.leaseAskers (c : Core) : List (Nat × List Nat) := c.leaseWait.filter fun w => (c.seq w.1).asksLease && c.holder ≠ some w.1

/-- The sequencer whose `mslice` a checkpoint cut (13 R247): in array order its command comes before every other of the core
(13 R227), so the lease goes to it first. -/
def Core.cutSlice (c : Core) : Option Nat := (List.range 4).find? fun n => (c.seq n).msrec.isSome

/-- The sequencer the arbiter grants the lease to (03 R78): among the eligible, the highest PRIO, and among equals the next in
round-robin from the last holder. -/
def Core.leaseChoice (c : Core) : Option Nat :=
  let ws := c.leaseAskers.filter fun w => c.cutSlice.all (· == w.1)
  let ok := ws.filter fun w => !ws.any fun y => y.1 ≠ w.1 && y.2.contains w.1
  let best := ok.foldl (fun m w => max m (c.seq w.1).prio.toNat) 0
  let order := (List.range 4).map fun d => (c.lastHolder + 1 + d) % 4
  order.find? fun n => ok.any fun w => w.1 == n && (c.seq n).prio.toNat == best

/-- LEASE_GRANT (03 R78, R79): the array has no holder. While the team stops nothing is granted (03 R80). -/
def execLeaseGrant (p c : Nat) (s : State) : Out' :=
  let k := s.core p c
  match k.holder, (if teamStops s ⟨p, c, 0⟩ then none else k.leaseChoice) with
  | none, some n =>
    .next (s.modCore p c fun k =>
      { k with
        holder := some n, lastHolder := n, grantCk := s.ck, leaseIssued := 0, leaseMax := (k.seq n).lmax.toNat + 1
        leaseWait := (k.leaseAskers.filter fun w => w.1 ≠ n).map fun w => (w.1, n :: w.2) })
  | _, _ => .next s

/-- LEASE_TIME_LIMIT (03 R77): held for LEASE_MAX × T_max while another sequencer waits. -/
def execLeaseTimeLimit (p c : Nat) (s : State) : Out' :=
  let k := s.core p c
  match k.holder with
  | none => .next s
  | some n =>
    if s.ck ≥ k.grantCk + k.leaseMax * Config.tMax && k.leaseAskers.any fun w => w.1 ≠ n then
      .next (s.modCore p c Core.endLease)
    else .next s

/-- A matrix command issued under the lease is counted, and the lease ends with LEASE_MAX of them (03 R77). -/
def Core.countLease (c : Core) : Core :=
  let c := { c with leaseIssued := c.leaseIssued + 1 }
  if c.leaseIssued ≥ c.leaseMax then c.endLease else c

end Sys2Proof.Machine
end

