-- ==== Sys2Proof/Machine/Waits.lean ====
section
/-! DEFINITION. Seeds sown and reaped (09 R173-R175, 03 R54-R57, 17 R292), tokens, tag and counter waits, fences, release and
acquire, `tfence` (09 R177-R183, R191), and how a front end's wait ends. -/

namespace Sys2Proof.Machine

/-! ## `sow` -/

/-- The destination of a `sow` (09 R173, 17 R292): a fault, the own core, or a core named virtually. -/
inductive SowDest where
  | fault (code : Nat)
  | own
  | far (vp vt vc : Nat) (domain : Bool)
  deriving DecidableEq, Repr

/-- A destination word decoded (09 R173, R174; 17 R292, R289). -/
def sowDest (s : State) (i : Sid) (w : W64) : SowDest :=
  let x := w.toNat
  let q := s.seq i
  let vc := bitsOf x 5 0
  match bitsOf x 63 62 with
  | 0 => if bitsOf x 61 0 ≠ 0 then .fault fcSowTarget else .own
  | 1 =>
    if bitsOf x 61 6 ≠ 0 then .fault fcSowTarget
    else
      match (s.pkg i.pkg).team? q.dctx.toNat q.vteam.toNat with
      | none => .fault fcTeamRange
      | some t =>
        if vc ≥ t.size then .fault fcTeamRange
        else if vc = q.vcore.toNat then .own
        else .far q.vpV.toNat q.vteam.toNat vc false
  | 2 =>
    let vp := bitsOf x 25 16
    let vt := bitsOf x 13 8
    if bitsOf x 61 26 ≠ 0 || bitsOf x 15 14 ≠ 0 || bitsOf x 7 6 ≠ 0 then .fault fcSowTarget
    else
      match ((s.pkg i.pkg).ctx? q.dctx.toNat).bind fun c => c.vps[vp]? with
      | none => .fault fcTeamRange
      | some d =>
        match (s.pkg d.1).membersOf? q.dctx.toNat vt with
        | none => .fault fcTeamRange
        | some n => if vc ≥ n then .fault fcTeamRange else .far vp vt vc true
  | _ => .fault fcSowTarget

/-- Earlier front-end loads, stores and atomics have all been performed: the release of `sow` (09 R174). -/
def Seq.sowReady (q : Seq) : Bool := q.fe.isEmpty && q.frontDone

/-- The replay window holds 16 unacknowledged pushes (03 R62). -/
def Seq.windowFull (q : Seq) : Bool :=
  decide ((q.out.filter fun o => match o.req.op with | .push _ => true | _ => false).length ≥ Config.replayWindow)

/-- `sow` (09 R174): the destination's checks, the release, then a local push or a remote seed push. A local push waits at a full
queue, and after the back-off where its policy is NACK (03 R62). -/
def execSow (g : Guard) (d a : Reg) (s : State) : Out' :=
  frontWord 8 g [d, a, a + 1, a + 2, a + 3] (fun q s =>
    let i := s.who
    let ws := withCont false [q.sr a, q.sr (a + 1), q.sr (a + 2), q.sr (a + 3)]
    let early := match q.wait with
      | some (.sow t) => decide (s.ck < t)
      | _ => false
    match sowDest s i (q.sr d) with
    | .fault code => wordFault i code 0 s
    | .own =>
      if early || !q.sowReady then s
      else
        match offerSeed i.pkg i.core false false ws s with
        | .done s => s.modSeq i fun q => { q.adv 8 with wait := none }
        | .fault code => wordFault i code 0 s
        | .full nack b => s.modSeq i fun q => { q with wait := some (.sow (if nack then s.ck + 64 * 2 ^ b else s.ck)) }
    | .far vp vt vc domain =>
      if !q.sowReady || q.windowFull then s
      else
        match issueReq i (.push ws) (.vspad vp vt vc 0) 0 q.pc .posted domain true 0 s with
        | none => s
        | some s => s.modSeq i fun q => q.adv 8) s

/-! ## How waits end -/

/-- The end of a seed (03 R54): once the queues have drained and no copy is outstanding, the lease is released and the token
counts are discarded; with a join address, a release and the decrement follow; the sequencer is IDLE. -/
def finishReap (i : Sid) (s : State) : State :=
  let q := s.seq i
  if !q.drained || !q.copies.isEmpty then s
  else
    let s := s.modCore i.pkg i.core fun c => c.dropLease i.seq
    let s := s.modSeq i fun q => { q with lc := 0, cl := 0, cs := 0, sc := 0 }
    let idle := fun (s : State) => s.modSeq i fun q => { q.adv 8 with st := .idle, wait := none }
    if q.sr 3 = 0 then idle s
    else if !q.releaseDone then s
    else
      match resolve i (q.sr 3) 64 .atomic s with
      | (.fault f, s) => takeFault i { f with caddr := q.pc } s
      | (.stall, s) => s
      | (.ok pl, s) =>
        match pl with
        | .win p c off =>
          if p = i.pkg ∧ c = i.core then
            match joinDecrement p c off q.ident (q.sr 3) q.pc s with
            | none => s
            | some s => idle s
          else
            match issueReq i .joinDec pl (q.sr 3) q.pc .posted true true 0 s with
            | none => s
            | some s => idle s
        | pl =>
          match issueReq i .joinDec pl (q.sr 3) q.pc .posted true true 0 s with
          | none => s
          | some s => idle s

/-- What a tag wait writes (09 R179): `sel` 0 any, 1 all, 2 the lowest index. -/
def tagResult (sel : Nat) (x : W64) : W64 := if sel = 2 then BitVec.ofNat 64 (ctz64 x) else x

/-- The condition of a tag wait (09 R179). -/
def tagMet (sel : Nat) (tags m : W64) : Bool := m == 0 || (if sel = 1 then tags &&& m == m else tags &&& m != 0)

/-- The condition of `qfence` (09 R181). -/
def Seq.fenceMet (q : Seq) (f l c s : Bool) : Bool :=
  (!f || q.frontDone) && (!l || q.allDone .l) && (!c || q.allDone .c) && (!s || q.allDone .s)

/-- An access of the list is still under way (09 R194). -/
def tlbBusy (s : State) (under : List (Sid × Nat)) : Bool :=
  under.any fun u =>
    let q := s.seq u.1
    q.fe.any (fun e => e.id == u.2) || q.copies.any (fun c => c.id == u.2 && !c.flight.isEmpty)

/-- "arithmetic" where an enabled flag is set (07 R131). -/
def fenceTrap (q : Seq) : Bool := (q.fps &&& (q.fpc >>> 8) &&& 0x1F) != 0

/-- A front end's wait whose condition holds ends (09 R183): the word has its effect and the front end goes on. -/
def finishWait (i : Sid) (s : State) : State :=
  let q := s.seq i
  let go := fun (f : Seq → Seq) (s : State) => s.modSeq i fun q => { (f q).adv 8 with wait := none }
  match q.wait with
  | none | some (.dispatch _) | some (.sow _) | some .fmt | some (.reply _ _ _) | some (.pchg _) => s
  | some (.bar _ _) => finishBar i s
  | some (.tags sel d m) =>
    let x := q.tags &&& m
    if tagMet sel q.tags m then
      go (fun q => q.setS d (tagResult sel x)) (acquireAt i (if x &&& q.tagAcq = 0 then .seq else .core) s)
    else s
  | some (.wcnt sc d off b) =>
    let v := (s.core i.pkg i.core).winWord off
    if b.toNat ≤ v.toNat then go (fun q => q.setS d v) (acquireAt i sc s) else s
  | some (.qfence f l c x) => if q.fenceMet f l c x then go id s else s
  | some (.rel _) => if q.releaseDone then go id s else s
  | some (.acq sc) => if q.acquireDone then go id (acquireAt i sc s) else s
  | some (.tokset v) =>
    if !q.drained then s
    else
      let x := v.toNat
      let n := fun k => bitsOf x (4 * k + 3) (4 * k)
      if x ≥ 2 ^ 16 || n 0 > 8 || n 1 > 8 || n 2 > 8 || n 3 > 8 then wordFault i fcTokenCount 0 s
      else go (fun q => { q with lc := n 0, cl := n 1, cs := n 2, sc := n 3 }) s
  | some .tfence =>
    if !q.allDone .c then s
    else if fenceTrap q then wordFault i fcArithmetic 0 s
    else go id s
  | some .reap => finishReap i s
  | some (.service d v) => go (fun q => { q.setS d v with sysDone := none }) s
  | some (.tlb under) => if tlbBusy s under then s else go id s

/-- A word that waits (09 R183): it takes up its wait, which ends at once where its condition already holds. -/
def waitOn (i : Sid) (w : Wait) (s : State) : State := finishWait i (s.modSeq i fun q => { q with wait := some w })

/-- FRONT_END_WAIT_END (09 R183). -/
def execFrontEndWaitEnd (i : Sid) (s : State) : Out' :=
  if !s.has i || !((s.seq i).st == .run || (s.seq i).st == .drain) || teamStops s i then .next s else .next (finishWait i s)

/-- `reap` (09 R175, 03 R54), which reads s3. -/
def execReap (g : Guard) (s : State) : Out' :=
  frontWord 8 g [3] (fun _ s => waitOn s.who .reap (s.modSeq s.who fun q => { q with st := .drain })) s

/-- `tokget` (09 R177). -/
def execTokget (g : Guard) (d : Reg) (s : State) : Out' := regWord 8 g [d] (fun q => q.setS d q.tokens) s

/-- `tokset` (09 R177). -/
def execTokset (g : Guard) (a : Reg) (s : State) : Out' :=
  frontWord 8 g [a] (fun q s => waitOn s.who (.tokset (q.sr a)) s) s

/-- `wtany` (09 R179). -/
def execWtany (g : Guard) (d a : Reg) (s : State) : Out' :=
  frontWord 8 g [d, a] (fun q s => waitOn s.who (.tags 0 d (q.sr a)) s) s

/-- `wtall` (09 R179). -/
def execWtall (g : Guard) (d a : Reg) (s : State) : Out' :=
  frontWord 8 g [d, a] (fun q s => waitOn s.who (.tags 1 d (q.sr a)) s) s

/-- `wtff` (09 R179). -/
def execWtff (g : Guard) (d a : Reg) (s : State) : Out' :=
  frontWord 8 g [d, a] (fun q s => waitOn s.who (.tags 2 d (q.sr a)) s) s

/-- The offset of a counter in the own window, where the address names one (09 R180). -/
def ownCounter (s : State) (i : Sid) (va : W64) : Option Nat :=
  if va.toNat ≥ 2 ^ 57 || !isWindow va || !va.getLsbD 23 then none
  else
    match resolveWindow i va 1 .counter s with
    | .ok (.win p c off) => if p = i.pkg ∧ c = i.core then some off else none
    | _ => none

/-- `wcnt` (09 R180). -/
def execWcnt (g : Guard) (sc : Scope) (d a b : Reg) (s : State) : Out' :=
  frontWord 8 g [d, a, b] (fun q s =>
    match ownCounter s s.who (q.sr a) with
    | none => wordFault s.who fcAtomicTarget (q.sr a) s
    | some off =>
      if off % 8 ≠ 0 then wordFault s.who fcAlignment (q.sr a) s
      else waitOn s.who (.wcnt sc d off (q.sr b)) s) s

/-- `qfence` (09 R181). -/
def execQfence (g : Guard) (f l c x : Bool) (s : State) : Out' :=
  frontWord 8 g [] (fun _ s => waitOn s.who (.qfence f l c x) s) s

/-- `rel` (09 R182). -/
def execRel (g : Guard) (sc : Scope) (s : State) : Out' := frontWord 8 g [] (fun _ s => waitOn s.who (.rel sc) s) s

/-- `acq` (09 R182, 15 R285). -/
def execAcq (g : Guard) (sc : Scope) (s : State) : Out' := frontWord 8 g [] (fun _ s => waitOn s.who (.acq sc) s) s

/-- `tfence` (09 R191, 07 R131). -/
def execTfence (g : Guard) (s : State) : Out' := frontWord 8 g [] (fun _ s => waitOn s.who .tfence s) s

end Sys2Proof.Machine
end

