-- ==== Sys2Proof/Machine/Carve.lean ====
section
/-! DEFINITION. The scratchpad carve (09 R193, 15 R258-R261), translation maintenance (09 R194) and blight maintenance
(09 R195, R196). -/

namespace Sys2Proof.Machine

/-- The space of the VALID queues of a queue table (03 R64). -/
def Core.queueSpace (c : Core) : Nat :=
  (List.range 16).foldl (fun n k =>
    let w := c.queueCtl k
    if qcwValid w then n + (qcwDepth w * qcwElem w + 63) / 64 * 64 else n) 256

/-- The faults of a new carve word (15 R259, 09 R193): "carve", then "queue control". -/
def carveFault (c : Core) (w : W64) : Option Nat :=
  let x := w.toNat
  let qg := bitsOf x 23 16
  if bitsOf x 63 24 ≠ 0 || bitsOf x 15 10 ≠ 0 || bitsOf x 7 0 > 128 || qg ≠ bitsOf c.carve.toNat 23 16 ||
      directEnd w + gatherSize w + qg * 65536 > Config.spadBytes || c.queueSpace > qg * 65536 then some fcCarve
  else if (List.range 16).any (fun n => qcwValid (c.queueCtl n) && qcwBad w (n < 4) (c.queueCtl n)) ||
      (List.range 4).any (fun n => !qcwValid (c.queueCtl n)) then some fcQueueControl
  else none

/-- `pchg` (09 R193, 15 R259): the checks, then the wait for PCHG_APPLY; until it ends, dispatch of the core's entries that touch
the scratchpad is held. -/
def execPchg (g : Guard) (a : Reg) (s : State) : Out' :=
  frontWord 8 g [a] (fun q s =>
    match carveFault (s.core s.who.pkg s.who.core) (q.sr a) with
    | some code => wordFault s.who code 0 s
    | none => s.modSeq s.who fun q => { q with wait := some (.pchg (q.sr a)) }) s

/-- The sequencer holds nothing that R193's second step waits for. -/
def Seq.spadQuiet (q : Seq) : Bool :=
  (q.ql ++ q.qc ++ q.qs).all (fun e => !(e.instr?.any touchesSpad)) && q.copies.isEmpty

/-- A `cmc` of another core that may reach this one is in progress (15 R275). -/
def cmcReaches (s : State) (p c : Nat) : Bool :=
  (sidsOf p).any fun i => i.core ≠ c && (s.seq i).copies.any fun k =>
    copyKind k.word == .cmc &&
      (match (s.pkg p).team? (s.seq i).dctx.toNat (s.seq i).vteam.toNat with
       | none => false
       | some t => (List.range t.size).any fun v => (k.opd 3).getLsbD v && t.coreOf v == c)

/-- The carve applied (15 R260): the gather cache is discarded; every granule that leaves the direct region loses its contents;
every granule that enters it is waking, and reads as zeros. -/
def Core.applyCarve (c : Core) (w : W64) (now : Nat) : Core :=
  let old := bitsOf c.carve.toNat 7 0
  let new := bitsOf w.toNat 7 0
  let stays := fun g => decide (g < old) && decide (g < new)
  let region := fun g => decide (g * 65536 < queueBase w)
  { c with
    carve := w, gather := []
    spad := c.spad.filter fun e => !region (e.1 / 65536) || stays (e.1 / 65536)
    waking := (c.waking.filter fun g => decide (g.1 < new)) ++ ((List.range new).filter fun g => decide (old ≤ g)).map fun g => (g, now + 2048)
    headCk := Vector.ofFn fun n => if c.occupancy n = 0 then none else some ((vget none c.headCk n).getD now) }

/-- PCHG_APPLY (09 R193, 15 R260): the lowest-numbered sequencer of the core that waits in `pchg` completes, once the queues of
all four hold no entry that touches the scratchpad and no copy to or from it is held. -/
def execPchgApply (p c : Nat) (s : State) : Out' :=
  let k := s.core p c
  let ready := (List.range 4).all (fun n => (k.seq n).spadQuiet) && !cmcReaches s p c
  match (List.range 4).find? fun n => match (k.seq n).wait with | some (.pchg _) => true | _ => false with
  | none => .next s
  | some n =>
    match (k.seq n).wait with
    | some (.pchg w) =>
      if !ready then .next s
      else
        .next (s.modCore p c fun k => (k.applyCarve w s.ck).modSeq n fun q => { q.adv 8 with wait := none })
    | _ => .next s

/-- GRANULE_FILL_END (15 R261). -/
def execGranuleFillEnd (p c k : Nat) (s : State) : Out' :=
  .next (s.modCore p c fun x => { x with waking := x.waking.eraseIdx k })

/-! ## Translation maintenance -/

/-- The accesses under way on a package that a context's translations serve (09 R194): front-end accesses to global memory and
copies with pieces in flight. -/
def accessesUnder (s : State) (p dctx : Nat) : List (Sid × Nat) :=
  (sidsOf p).flatMap fun i =>
    let q := s.seq i
    if q.st == .unbound || q.dctx.toNat ≠ dctx then []
    else
      ((q.fe.filter fun e => match e.place with | .mem _ _ => true | _ => false).map fun e => (i, e.id)) ++
        ((q.copies.filter fun c => !c.flight.isEmpty).map fun c => (i, c.id))

/-- The context's translations that a test picks leave the TLBs and the walk cache of the package (09 R194). Its walks of CRIT
leaves that are under way were found through them, and begin anew. -/
def dropTranslations (p dctx : Nat) (tlb walk : Cached → Bool) (s : State) : State :=
  match (s.pkg p).ctx? dctx with
  | none => s
  | some cx => s.modPkg p fun k =>
    { k with
      tlb := k.tlb.filter fun c => !(c.lctx == cx.lctx && tlb c)
      walk := k.walk.filter fun c => !(c.lctx == cx.lctx && walk c)
      crit := k.crit.filter fun c => c.lctx ≠ cx.lctx }

/-- `tlbi` (09 R194). -/
def execTlbi (g : Guard) (a : Reg) (s : State) : Out' :=
  frontWord 8 g [a] (fun q s =>
    let i := s.who
    let v := (q.sr a).toNat % 2 ^ 57
    let s := dropTranslations i.pkg q.dctx.toNat (fun c => c.covers c.lctx v) (fun c => c.tag == v / leafSpan c.level) s
    waitOn i (.tlb (accessesUnder s i.pkg q.dctx.toNat)) s) s

/-- `tlbia` (09 R194). -/
def execTlbia (g : Guard) (s : State) : Out' :=
  frontWord 8 g [] (fun q s =>
    let i := s.who
    let s := dropTranslations i.pkg q.dctx.toNat (fun _ => true) (fun _ => true) s
    waitOn i (.tlb (accessesUnder s i.pkg q.dctx.toNat)) s) s

/-! ## Blight maintenance -/

/-- The frame mapped at an address for `blclr` and `blq` (09 R195, R196; 23 R384): a window address and a frame of another
package give a translation fault (assumption 20). -/
def frameOf (i : Sid) (va : W64) (wr : Bool) (s : State) : Res × State :=
  let flt := fun r l => Res.fault { code := fcTranslation, addr := va, reason := r, level := l }
  if va.toNat ≥ 2 ^ 57 then (flt 3 0, s)
  else if wr && va.toNat % 4096 ≠ 0 then (badAt fcAlignment va, s)
  else if isWindow va then (flt 1 5, s)
  else
    match translate i.pkg (s.seq i).dctx.toNat i va wr false s with
    | (.ok p pa, s) => if p = i.pkg then (.ok (.mem p pa), s) else (flt 6 1, s)
    | (.fault c r l, s) => (.fault { code := c, addr := va, reason := r, level := l }, s)
    | (.stall, s) => (.stall, s)

/-- `blclr` (09 R195). It zeroes the frame at once, before its own sequencer's earlier loads and stores that are not performed yet: the
model's choice, for R165 orders only loads, stores and atomics and R195 is silent (assumption 57). -/
def execBlclr (g : Guard) (a : Reg) (s : State) : Out' :=
  frontWord 8 g [a] (fun q s =>
    match frameOf s.who (q.sr a) true s with
    | (.fault f, s) => takeFault s.who { f with caddr := q.pc } s
    | (.ok (.mem p pa), s) =>
      let f := pa / 4096 * 4096
      (s.modPkg p fun k => (k.write f (List.replicate 4096 0)).setBlight f false).modSeq s.who fun q => q.adv 8
    | (_, s) => s) s

/-- `blq` (09 R196). -/
def execBlq (g : Guard) (d a : Reg) (s : State) : Out' :=
  frontWord 8 g [d, a] (fun q s =>
    match frameOf s.who (q.sr a) false s with
    | (.fault f, s) => takeFault s.who { f with caddr := q.pc } s
    | (.ok (.mem p pa), s) =>
      let b := (s.pkg p).blighted pa
      s.modSeq s.who fun q => (q.setS d (if b then 1 else 0)).adv 8
    | (_, s) => s) s

end Sys2Proof.Machine
end

