-- ==== Sys2Proof/Machine/Vector.lean ====
section
/-! DEFINITION. Issuing an engine entry (03 R42-R47, 11 R201), elements, masks and groups of vector registers (11 R197, R198),
and the vector instructions of 11 R204-R210: element arithmetic, logic and shifts, compares, selects, masks, permutes,
broadcasts and moves. -/

namespace Sys2Proof.Machine

/-! ## Issue -/

/-- What the checks before issue find (11 R201, 15 R278): the entry may issue, with what the checks found for it, must wait, or
takes a fault. -/
inductive Check (α : Type) where
  | go (a : α)
  | wait
  | fault (f : FaultRec)

/-- The checks of an entry that hands nothing on: it may issue, must wait, or faults with a code and address. -/
inductive Gate where
  | go
  | wait
  | fault (code : Nat) (addr : W64)
  deriving DecidableEq, Repr

/-- The head of a queue issues (03 R42-R46). An entry with a false guard takes its tokens and completes without its effect
(05 R86). Otherwise the checks come first (11 R201), then its tokens are taken, and `body` is its effect. -/
def issueWith {α : Type} (e : EQ) (h : EHead) (check : Entry → State → Check α × State) (body : α → Entry → State → State)
    (s : State) : Out' :=
  let i := s.who
  if !s.has i then .fault .noSequencer
  else
    match (s.seq i).headOf e with
    | none => .next s
    | some x =>
      if !x.compared then .next s
      else
        let start := fun (s : State) => s.modSeq i fun q => (q.take e h).modEntry e x.id fun y => { y with issued := true }
        if !x.guard then
          if (s.seq i).canTake e h then
            .next ((start s).modSeq i fun q => q.modEntry e x.id fun y => { y with done := true })
          else .next s
        else
          match check x s with
          | (.wait, s) => .next s
          | (.fault f, s) => .next (takeFault i { f with queue := eqNum e, caddr := x.caddr } s)
          | (.go a, s) => if (s.seq i).canTake e h then .next (body a x (start s)) else .next s

/-- The head of a queue issues, its checks handing nothing on. -/
def issueEntry (e : EQ) (h : EHead) (gate : Entry → State → Gate × State) (body : Entry → State → State) (s : State) :
    Out' :=
  issueWith e h (fun x s => match gate x s with
    | (.go, s) => (.go (), s)
    | (.wait, s) => (.wait, s)
    | (.fault code a, s) => (.fault { code := code, addr := a }, s)) (fun _ x s => body x s) s

/-- No check before issue. -/
def noGate (_ : Entry) (s : State) : Gate × State := (.go, s)

/-- A C entry whose effect is on the sequencer's vector and mask registers and FPS alone: it is performed whole at its issue,
sets its flags and completes (11 R199, R201). -/
def vecWord (h : EHead) (f : Entry → Seq → Seq × Nat) (s : State) : Out' :=
  issueEntry .c h noGate (fun x s => s.modSeq s.who fun q =>
    let r := f x q
    (r.1.orFps (flagWord r.2)).complete .c x.id) s

/-- The environment of an entry: the FPC bits captured at dispatch, with RND (07 R128). -/
def Entry.env (x : Entry) (r : Rnd) : FEnv := FEnv.of x.mode r

/-- Scalar operand n of an entry, captured at dispatch (11 R200). -/
def Entry.opd (x : Entry) (n : Nat) : W64 := x.ops.getD n 0

/-! ## Elements, masks and groups (11 R197, R198) -/

/-- The number of elements of width w. -/
def elems (w : Nat) : Nat := 4096 / w

/-- Element i of width w. -/
def velem (w : Nat) (v : Vec) (i : Nat) : Nat := v.toNat / 2 ^ (w * i) % 2 ^ w

/-- The register whose elements, from 0 on, are given. -/
def vpack (w : Nat) (xs : List Nat) : Vec := BitVec.ofNat 4096 (xs.foldr (fun x acc => x % 2 ^ w + 2 ^ w * acc) 0)

/-- The register whose element i is f i. -/
def vbuild (w : Nat) (f : Nat → Nat) : Vec := vpack w ((List.range (elems w)).map f)

/-- The flags of a list of results. -/
def flagsOf (rs : List (Nat × Nat)) : Nat := rs.foldl (fun a r => a ||| r.2) 0

/-- A destination whose active elements take f's results and whose others keep their values; flags come from active elements
alone. -/
def governed (w : Nat) (m : Msk) (old : Vec) (f : Nat → Nat × Nat) : Vec × Nat :=
  let rs := (List.range (elems w)).map fun i => if m.getLsbD i then f i else (velem w old i, 0)
  (vpack w (rs.map (·.1)), flagsOf rs)

/-- The mask whose bit i is f i for i below n, and 0 above. -/
def mskBuild (n : Nat) (f : Nat → Bool) : Msk :=
  BitVec.ofNat 1024 (((List.range n).map f).foldr (fun b acc => (if b then 1 else 0) + 2 * acc) 0)

/-- Register number r places after d. -/
def regPlus (d : Reg) (r : Nat) : Reg := d + BitVec.ofNat 5 r

/-- Flat element n of a group of g registers from d on. -/
def Seq.flat (q : Seq) (w g : Nat) (d : Reg) (n : Nat) : Nat := velem w (q.vr (regPlus d (n % g))) (n / g)

/-- The active flat elements of a group take f's results. -/
def Seq.setFlat (q : Seq) (w g : Nat) (m : Msk) (d : Reg) (f : Nat → Nat × Nat) : Seq × Nat :=
  (List.range g).foldl (fun acc r =>
    let rs := (List.range (elems w)).map fun e =>
      let n := e * g + r
      if m.getLsbD n then f n else (velem w (q.vr (regPlus d r)) e, 0)
    (acc.1.setV (regPlus d r) (vpack w (rs.map (·.1))), acc.2 ||| flagsOf rs)) (q, 0)

/-- An operand that is a vector register, or with `.sb` or `.sc` scalar operand n of the entry as every element (11 R204). -/
def vecOpd (w : Nat) (scalar : Bool) (x : Entry) (n : Nat) (q : Seq) (r : Reg) (i : Nat) : Nat :=
  if scalar then (x.opd n).toNat % 2 ^ w else velem w (q.vr r) i

/-- A C entry that writes the active elements of vD. -/
def vecElems (h : EHead) (w : Nat) (km : KReg) (d : Reg) (f : Entry → Seq → Nat → Nat × Nat) (s : State) : Out' :=
  vecWord h (fun x q =>
    let r := governed w (q.kr km) (q.vr d) (f x q)
    (q.setV d r.1, r.2)) s

/-! ## Element arithmetic (11 R204, R205) -/

/-- An element as an integer of its type. -/
def tyInt (t : Ty) (x : Nat) : Int := intOf t.width t.isSigned x

/-- A result in a float or in an integer type. -/
def arith (t : Ty) (sat : Bool) (fl : FFmt → Nat × Nat) (int : Int) : Nat × Nat :=
  if t.isFloat then fl (tyFmt t) else intResult t.width t.isSigned sat int

/-- The form of R204 with two operands. -/
def vec2 (h : EHead) (t : Ty) (sb : Bool) (km : KReg) (d a b : Reg) (f : Entry → Nat → Nat → Nat × Nat) (s : State) : Out' :=
  vecElems h t.width km d (fun x q i => f x (velem t.width (q.vr a) i) (vecOpd t.width sb x 0 q b i)) s

/-- The form of R204 with three operands. -/
def vec3 (h : EHead) (t : Ty) (sb sc : Bool) (km : KReg) (d a b c : Reg) (f : Entry → Nat → Nat → Nat → Nat × Nat)
    (s : State) : Out' :=
  vecElems h t.width km d (fun x q i =>
    f x (velem t.width (q.vr a) i) (vecOpd t.width sb x 0 q b i) (vecOpd t.width sc x (if sb then 1 else 0) q c i)) s

/-- The form of R204 with one operand. -/
def vec1 (h : EHead) (t : Ty) (km : KReg) (d a : Reg) (f : Entry → Nat → Nat × Nat) (s : State) : Out' :=
  vecElems h t.width km d (fun x q i => f x (velem t.width (q.vr a) i)) s

/-- `vadd` (11 R205). -/
def execVadd (h : EHead) (ty : Ty) (rnd : Rnd) (sat sb : Bool) (km : KReg) (d a b : Reg) (s : State) : Out' :=
  vec2 h ty sb km d a b (fun x a b => arith ty sat (fun f => f.add (x.env rnd) sat a b) (tyInt ty a + tyInt ty b)) s

/-- `vsub` (11 R205). -/
def execVsub (h : EHead) (ty : Ty) (rnd : Rnd) (sat sb : Bool) (km : KReg) (d a b : Reg) (s : State) : Out' :=
  vec2 h ty sb km d a b (fun x a b => arith ty sat (fun f => f.sub (x.env rnd) sat a b) (tyInt ty a - tyInt ty b)) s

/-- `vmul` (11 R205). -/
def execVmul (h : EHead) (ty : Ty) (rnd : Rnd) (sat sb : Bool) (km : KReg) (d a b : Reg) (s : State) : Out' :=
  vec2 h ty sb km d a b (fun x a b => arith ty sat (fun f => f.mul (x.env rnd) sat a b) (tyInt ty a * tyInt ty b)) s

/-- `vmulh` (11 R205). -/
def execVmulh (h : EHead) (ty : Ty) (sb : Bool) (km : KReg) (d a b : Reg) (s : State) : Out' :=
  vec2 h ty sb km d a b (fun _ a b =>
    intResult ty.width ty.isSigned false (Int.fdiv (tyInt ty a * tyInt ty b) (2 ^ ty.width : Nat))) s

/-- `vfma` (11 R205). -/
def execVfma (h : EHead) (ty : Ty) (rnd : Rnd) (sat sb sc : Bool) (km : KReg) (d a b c : Reg) (s : State) : Out' :=
  vec3 h ty sb sc km d a b c (fun x a b c =>
    arith ty sat (fun f => f.fma (x.env rnd) sat false false a b c) (tyInt ty a * tyInt ty b + tyInt ty c)) s

/-- `vfms` (11 R205). -/
def execVfms (h : EHead) (ty : Ty) (rnd : Rnd) (sat sb sc : Bool) (km : KReg) (d a b c : Reg) (s : State) : Out' :=
  vec3 h ty sb sc km d a b c (fun x a b c =>
    arith ty sat (fun f => f.fma (x.env rnd) sat false true a b c) (tyInt ty a * tyInt ty b - tyInt ty c)) s

/-- `vfnma` (11 R205). -/
def execVfnma (h : EHead) (ty : Ty) (rnd : Rnd) (sat sb sc : Bool) (km : KReg) (d a b c : Reg) (s : State) : Out' :=
  vec3 h ty sb sc km d a b c (fun x a b c =>
    arith ty sat (fun f => f.fma (x.env rnd) sat true false a b c) (-(tyInt ty a * tyInt ty b) + tyInt ty c)) s

/-- `vabs` (11 R205). -/
def execVabs (h : EHead) (ty : Ty) (sat : Bool) (km : KReg) (d a : Reg) (s : State) : Out' :=
  vec1 h ty km d a (fun x a =>
    arith ty sat (fun f => f.keep (x.env .dyn) (f.opd (x.env .dyn) a).abs) ((tyInt ty a).natAbs : Int)) s

/-- `vneg` (11 R205). -/
def execVneg (h : EHead) (ty : Ty) (sat : Bool) (km : KReg) (d a : Reg) (s : State) : Out' :=
  vec1 h ty km d a (fun x a =>
    arith ty sat (fun f => f.keep (x.env .dyn) (f.opd (x.env .dyn) a).neg) (-(tyInt ty a))) s

/-- `vmin` (11 R205, 07 R133). -/
def execVmin (h : EHead) (ty : Ty) (sb : Bool) (km : KReg) (d a b : Reg) (s : State) : Out' :=
  vec2 h ty sb km d a b (fun x a b => arith ty false (fun f => f.vpick false (x.env .dyn) a b) (min (tyInt ty a) (tyInt ty b))) s

/-- `vmax` (11 R205, 07 R133). -/
def execVmax (h : EHead) (ty : Ty) (sb : Bool) (km : KReg) (d a b : Reg) (s : State) : Out' :=
  vec2 h ty sb km d a b (fun x a b => arith ty false (fun f => f.vpick true (x.env .dyn) a b) (max (tyInt ty a) (tyInt ty b))) s

/-- A float difference rounded once, then its magnitude (11 R205). -/
def FFmt.absDiff (f : FFmt) (env : FEnv) (sat : Bool) (a b : Nat) : Nat × Nat :=
  let r := f.sub env sat a b
  (r.1 % 2 ^ (f.w - 1), r.2)

/-- `vabd` (11 R205). -/
def execVabd (h : EHead) (ty : Ty) (rnd : Rnd) (sat sb : Bool) (km : KReg) (d a b : Reg) (s : State) : Out' :=
  vec2 h ty sb km d a b (fun x a b =>
    arith ty sat (fun f => f.absDiff (x.env rnd) sat a b) ((tyInt ty a - tyInt ty b).natAbs : Int)) s

/-- `vclamp` (11 R205): min(max(a, b), c). -/
def execVclamp (h : EHead) (ty : Ty) (sb sc : Bool) (km : KReg) (d a b c : Reg) (s : State) : Out' :=
  vec3 h ty sb sc km d a b c (fun x a b c =>
    arith ty false (fun f =>
      let env := x.env .dyn
      f.keep env (((f.opd env a).pick true (f.opd env b)).pick false (f.opd env c)))
      (min (max (tyInt ty a) (tyInt ty b)) (tyInt ty c))) s

/-- `vdiv` (11 R205): an integer division by 0 gives all ones, without a flag. -/
def execVdiv (h : EHead) (ty : Ty) (rnd : Rnd) (sat sb : Bool) (km : KReg) (d a b : Reg) (s : State) : Out' :=
  vec2 h ty sb km d a b (fun x a b =>
    if ty.isInt && b == 0 then (2 ^ ty.width - 1, 0)
    else arith ty sat (fun f => f.div (x.env rnd) sat a b) (truncDiv (tyInt ty a) (tyInt ty b))) s

/-! ## Logic and shifts (11 R206) -/

/-- `vand` (11 R206). -/
def execVand (h : EHead) (ty : Ty) (sb : Bool) (km : KReg) (d a b : Reg) (s : State) : Out' :=
  vec2 h ty sb km d a b (fun _ a b => (a &&& b, 0)) s

/-- `vor` (11 R206). -/
def execVor (h : EHead) (ty : Ty) (sb : Bool) (km : KReg) (d a b : Reg) (s : State) : Out' :=
  vec2 h ty sb km d a b (fun _ a b => (a ||| b, 0)) s

/-- `vxor` (11 R206). -/
def execVxor (h : EHead) (ty : Ty) (sb : Bool) (km : KReg) (d a b : Reg) (s : State) : Out' :=
  vec2 h ty sb km d a b (fun _ a b => (a ^^^ b, 0)) s

/-- `vnot` (11 R206). -/
def execVnot (h : EHead) (ty : Ty) (km : KReg) (d a : Reg) (s : State) : Out' :=
  vec1 h ty km d a (fun _ a => (2 ^ ty.width - 1 - a, 0)) s

/-- `vshl` (11 R206), by b mod w. -/
def execVshl (h : EHead) (ty : Ty) (sat sb : Bool) (km : KReg) (d a b : Reg) (s : State) : Out' :=
  vec2 h ty sb km d a b (fun _ a b => intResult ty.width ty.isSigned sat (tyInt ty a * (2 ^ (b % ty.width) : Nat))) s

/-- `vshr` (11 R206). -/
def execVshr (h : EHead) (ty : Ty) (sb : Bool) (km : KReg) (d a b : Reg) (s : State) : Out' :=
  vec2 h ty sb km d a b (fun _ a b => (a / 2 ^ (b % ty.width), 0)) s

/-- `vsra` (11 R206): the top bit fills, whatever the type's sign. -/
def execVsra (h : EHead) (ty : Ty) (sb : Bool) (km : KReg) (d a b : Reg) (s : State) : Out' :=
  vec2 h ty sb km d a b (fun _ a b => (wrapInt ty.width (Int.fdiv (intOf ty.width true a) (2 ^ (b % ty.width) : Nat)), 0)) s

/-- A pattern of width w rotated left by n. -/
def rotLeft (w a n : Nat) : Nat := (a * 2 ^ n + a / 2 ^ (w - n)) % 2 ^ w

/-- `vrot` (11 R206). -/
def execVrot (h : EHead) (ty : Ty) (sb : Bool) (km : KReg) (d a b : Reg) (s : State) : Out' :=
  vec2 h ty sb km d a b (fun _ a b => (rotLeft ty.width a (b % ty.width), 0)) s

/-! ## Compares, selects and masks (11 R207-R209) -/

/-- `vcmp` (11 R207): the whole mask is written, and inactive elements write 0. -/
def execVcmp (h : EHead) (ty : Ty) (cond : Cond) (sb : Bool) (km d : KReg) (a b : Reg) (s : State) : Out' :=
  vecWord h (fun x q =>
    (q.setK d (mskBuild (elems ty.width) fun i =>
      let u := velem ty.width (q.vr a) i
      let v := vecOpd ty.width sb x 0 q b i
      (q.kr km).getLsbD i &&
        (if ty.isFloat then (tyFmt ty).cond (x.env .dyn) cond u v else condInt cond (tyInt ty u) (tyInt ty v))), 0)) s

/-- `vsel` (11 R208). -/
def execVsel (h : EHead) (ty : Ty) (km : KReg) (d a b : Reg) (c : KReg) (s : State) : Out' :=
  vecElems h ty.width km d (fun _ q i => (velem ty.width (q.vr (if (q.kr c).getLsbD i then a else b)) i, 0)) s

/-- `kand` (11 R209). -/
def execKand (h : EHead) (d a b : KReg) (s : State) : Out' := vecWord h (fun _ q => (q.setK d (q.kr a &&& q.kr b), 0)) s

/-- `kor` (11 R209). -/
def execKor (h : EHead) (d a b : KReg) (s : State) : Out' := vecWord h (fun _ q => (q.setK d (q.kr a ||| q.kr b), 0)) s

/-- `kxor` (11 R209). -/
def execKxor (h : EHead) (d a b : KReg) (s : State) : Out' := vecWord h (fun _ q => (q.setK d (q.kr a ^^^ q.kr b), 0)) s

/-- `knot` (11 R209). -/
def execKnot (h : EHead) (d a : KReg) (s : State) : Out' := vecWord h (fun _ q => (q.setK d (~~~(q.kr a)), 0)) s

/-- `kmov` (11 R209). -/
def execKmov (h : EHead) (d a : KReg) (s : State) : Out' := vecWord h (fun _ q => (q.setK d (q.kr a), 0)) s

/-- Chunk c of 64 bits of a mask replaced. -/
def mskChunk (m : Msk) (c : Nat) (v : W64) : Msk :=
  (m &&& ~~~((BitVec.allOnes 64).setWidth 1024 <<< (64 * c))) ||| (v.setWidth 1024 <<< (64 * c))

/-- `kmov.s` (11 R209): bits [64c + 63 : 64c] from a scalar. -/
def execKmovS (h : EHead) (d : KReg) (_a : Reg) (c : BitVec 4) (s : State) : Out' :=
  vecWord h (fun x q => (q.setK d (mskChunk (q.kr d) c.toNat (x.opd 0)), 0)) s

/-- `kpop` (11 R209): the count in element 0, and 0 in the others, whatever KM holds. -/
def execKpop (h : EHead) (km : KReg) (d : Reg) (a : KReg) (s : State) : Out' :=
  vecWord h (fun _ q => (q.setV d (BitVec.ofNat 4096 (popBits (q.kr a &&& q.kr km))), 0)) s

/-! ## Permutes, broadcasts and moves (11 R210) -/

/-- `vperm` (11 R210). -/
def execVperm (h : EHead) (ty : Ty) (km : KReg) (d a b : Reg) (s : State) : Out' :=
  vecElems h ty.width km d (fun _ q i =>
    (velem ty.width (q.vr a) (velem ty.width (q.vr b) i % elems ty.width), 0)) s

/-- `vrev` (11 R210). -/
def execVrev (h : EHead) (ty : Ty) (km : KReg) (d a : Reg) (s : State) : Out' :=
  vecElems h ty.width km d (fun _ q i => (velem ty.width (q.vr a) (elems ty.width - 1 - i), 0)) s

/-- Element i of the interleaving of two registers (11 R210). -/
def zipElem (w : Nat) (a b : Vec) (i : Nat) : Nat := velem w (if i % 2 = 0 then a else b) (i / 2)

/-- `vzip` (11 R210). -/
def execVzip (h : EHead) (ty : Ty) (d a b : Reg) (s : State) : Out' :=
  vecWord h (fun _ q =>
    let z := zipElem ty.width (q.vr a) (q.vr b)
    ((q.setV d (vbuild ty.width z)).setV (regPlus d 1) (vbuild ty.width fun i => z (elems ty.width + i)), 0)) s

/-- Element i of two registers one after the other (11 R210). -/
def catElem (w : Nat) (a b : Vec) (i : Nat) : Nat := if i < elems w then velem w a i else velem w b (i - elems w)

/-- `vunzip` (11 R210). -/
def execVunzip (h : EHead) (ty : Ty) (d a b : Reg) (s : State) : Out' :=
  vecWord h (fun _ q =>
    let z := catElem ty.width (q.vr a) (q.vr b)
    ((q.setV d (vbuild ty.width fun i => z (2 * i))).setV (regPlus d 1) (vbuild ty.width fun i => z (2 * i + 1)), 0)) s

/-- `vslide` (11 R210), by min(sC, n). -/
def execVslide (h : EHead) (ty : Ty) (km : KReg) (d a b _c : Reg) (s : State) : Out' :=
  vecElems h ty.width km d (fun x q i =>
    (catElem ty.width (q.vr a) (q.vr b) (i + min (x.opd 0).toNat (elems ty.width)), 0)) s

/-- `vbcast` of a scalar (11 R210). -/
def execVbcast (h : EHead) (ty : Ty) (km : KReg) (d _a : Reg) (s : State) : Out' :=
  vecElems h ty.width km d (fun x _ _ => ((x.opd 0).toNat % 2 ^ ty.width, 0)) s

/-- `vbcast.el` (11 R210). -/
def execVbcastEl (h : EHead) (ty : Ty) (km : KReg) (d a _b : Reg) (s : State) : Out' :=
  vecElems h ty.width km d (fun x q _ => (velem ty.width (q.vr a) ((x.opd 0).toNat % elems ty.width), 0)) s

/-- `vext` (11 R210): one element in element 0, and 0 in the others. -/
def execVext (h : EHead) (ty : Ty) (d a _b : Reg) (s : State) : Out' :=
  vecWord h (fun x q =>
    (q.setV d (BitVec.ofNat 4096 (velem ty.width (q.vr a) ((x.opd 0).toNat % elems ty.width))), 0)) s

/-- `vins` (11 R210): one element from a scalar; the others unchanged. -/
def execVins (h : EHead) (ty : Ty) (d _a _b : Reg) (s : State) : Out' :=
  vecWord h (fun x q =>
    let k := (x.opd 1).toNat % elems ty.width
    (q.setV d (vbuild ty.width fun i => if i = k then (x.opd 0).toNat % 2 ^ ty.width else velem ty.width (q.vr d) i), 0)) s

/-- `vmov` (11 R210). -/
def execVmov (h : EHead) (ty : Ty) (km : KReg) (d a : Reg) (s : State) : Out' :=
  vecElems h ty.width km d (fun _ q i => (velem ty.width (q.vr a) i, 0)) s

/-- `vcmpr` (11 R210): the active elements packed together, and 0 after them. -/
def execVcmpr (h : EHead) (ty : Ty) (km : KReg) (d a : Reg) (s : State) : Out' :=
  vecWord h (fun _ q =>
    (q.setV d (vpack ty.width (((List.range (elems ty.width)).filter fun i => (q.kr km).getLsbD i).map
      fun i => velem ty.width (q.vr a) i)), 0)) s

/-- The number of active elements below i. -/
def activeBelow (m : Msk) (i : Nat) : Nat := ((List.range i).filter fun j => m.getLsbD j).length

/-- `vexpd` (11 R210): element j of vA goes to the j-th active element. -/
def execVexpd (h : EHead) (ty : Ty) (km : KReg) (d a : Reg) (s : State) : Out' :=
  vecElems h ty.width km d (fun _ q i => (velem ty.width (q.vr a) (activeBelow (q.kr km) i), 0)) s

end Sys2Proof.Machine
end

