-- ==== Sys2Proof/Machine/Copies.lean ====
section
/-! DEFINITION. The copy commands and signal stores as words (15 R271-R278, 17 R297-R301): their checks at the head of the
queue, and their issue. The copy engine performs the pieces. -/

namespace Sys2Proof.Machine

/-! ## The checks at the head (15 R278, 17 R299) -/

/-- The first run, of m from number k on, for which f finds a fault. -/
def firstBadRun (f : Nat → Option FaultRec) : Nat → Nat → Option FaultRec
  | 0, _ => none
  | m + 1, k =>
    match f k with
    | some x => some x
    | none => firstBadRun f m (k + 1)

/-- The kinds of place that one side of a copy may name (15 R273, 17 R297): the own scratchpad; this package's memory; a team
scratchpad; another package's memory or CLASS 10 scratchpad. -/
structure SideKind where
  own : Bool := false
  mem : Bool := false
  team : Bool := false
  remote : Bool := false
  deriving DecidableEq, Repr

/-- The source of a command. -/
def srcKind : CopyKind → SideKind
  | .cpy => { mem := true, team := true }
  | .cgat | .cmc => { mem := true }
  | .cpyo | .cput => { own := true }
  | .cget => { remote := true }

/-- The destination of a command. -/
def dstKind : CopyKind → SideKind
  | .cpyo => { mem := true, team := true }
  | .cput => { remote := true }
  | _ => { own := true }

/-- The class of a window address (15 R255). -/
def winClass (va : W64) : Nat := bitsOf va.toNat 47 46

/-- A window address of the own core: VC is 63 or the own VCORE. -/
def ownWindow (q : Seq) (va : W64) : Bool :=
  isWindow va && winClass va == 0 && (bitsOf va.toNat 45 40 == 63 || bitsOf va.toNat 45 40 == q.vcore.toNat)

/-- The fault of one side of a run of n bytes at an address, as far as the head of the queue checks it (15 R278, 17 R299): the
kind of place, and a window address's form, region and team. -/
def runFault (i : Sid) (k : SideKind) (acc : Acc) (va : W64) (n : Nat) (s : State) : Option FaultRec :=
  let q := s.seq i
  let bad : FaultRec := { code := fcCopySpace, addr := va }
  if isWindow va && decide (va.toNat < 2 ^ 57) then
    if winClass va == 2 then
      if !k.remote then some bad
      else
        match resolveWindow i va n acc s with
        | .fault f => some f
        | .ok (.vwin _ _ _ _) => some bad
        | _ => none
    else if winClass va == 0 && !(if k.own then ownWindow q va else k.team) then some bad
    else
      match resolveWindow i va n acc s with
      | .fault f => some f
      | _ => none
  else if k.mem || k.remote then none else some bad

/-- The destination of a `cmc` (15 R275): an own-scratchpad window address, checked against the carve of every receiver. -/
def receiversFault (i : Sid) (mask : W64) (va : W64) (n : Nat) (s : State) : Option FaultRec :=
  if va.toNat ≥ 2 ^ 57 || !ownWindow (s.seq i) va then some { code := fcCopySpace, addr := va }
  else if bitsOf va.toNat 39 24 ≠ 0 then some { code := fcWindow, addr := va }
  else if va.getLsbD 23 then some { code := if bitsOf va.toNat 22 0 ≥ Config.winBytes then fcWindow else fcCopySpace, addr := va }
  else match (s.pkg i.pkg).team? (s.seq i).dctx.toNat (s.seq i).vteam.toNat with
  | none => some { code := fcTeamRange }
  | some t =>
    if ((List.range t.size).filter fun v => mask.getLsbD v).any fun v =>
        !inDirect (s.core i.pkg (t.coreOf v)).carve (bitsOf va.toNat 22 0) n then some { code := fcSpadRange, addr := va }
    else none

/-- The fault of a run of a copy. -/
def copyRunFault (i : Sid) (c : Copy) (sd : W64 × W64) (n : Nat) (s : State) : Option FaultRec :=
  let kind := copyKind c.word
  match runFault i (srcKind kind) .copySrc sd.1 n s with
  | some f => some f
  | none => if kind == .cmc then receiversFault i (c.opd 3) sd.2 n s else runFault i (dstKind kind) .copyDst sd.2 n s

/-- The virtual core of the own team that a CLASS 00 window address names (15 R255). -/
def windowCore (q : Seq) (va : W64) : Nat :=
  let vc := bitsOf va.toNat 45 40
  if vc = 63 then q.vcore.toNat else vc

/-- An arrival counter's place is one that the command allows (15 R276; 17 R290, R297): for `cpyo` to a team scratchpad the window of
the core that each run reaches; for `cput` a window of the package of each run's destination, as far as the head of the queue knows
it, which is never the own one. -/
def counterPlaced (i : Sid) (c : Copy) (s : State) : Bool :=
  let q := s.seq i
  let va := c.counter
  let cls := winClass va
  let runs := fun (ok : W64 → Bool) =>
    (firstBadRun (fun j => if ok (runAddr c.pat c.srcBase c.dstBase j).2 then none else some {}) (patProd c.pat 1 (patNdim c.pat)) 0).isNone
  match copyKind c.word with
  | .cput =>
    cls == 2 && bitsOf va.toNat 33 24 ≠ q.vpV.toNat &&
      runs fun d => !(isWindow d && winClass d == 2) || bitsOf d.toNat 33 24 == bitsOf va.toNat 33 24
  | .cpyo => cls == 0 && runs fun d => !isWindow d || windowCore q d == windowCore q va
  | _ => ownWindow q va

/-- The check of an arrival counter (15 R256, R276, R278; 17 R290): a window word, whose form comes first, at a place that the command
allows, 8 B aligned. -/
def counterFault (i : Sid) (c : Copy) (s : State) : Option FaultRec :=
  let va := c.counter
  let bad : FaultRec := { code := fcAtomicTarget, addr := va }
  if va = 0 then none
  else if va.toNat ≥ 2 ^ 57 || !isWindow va then some bad
  else
    match resolveWindow i va 1 .counter s with
    | .fault f => some f
    | _ =>
      if !va.getLsbD 23 || !counterPlaced i c s then some bad
      else if va.toNat % 8 ≠ 0 then some { code := fcAlignment, addr := va }
      else none

/-- The mask of a `cmc` (15 R275): at least one bit, and none outside the team. -/
def maskFault (i : Sid) (mask : W64) (s : State) : Option FaultRec :=
  let n := match (s.pkg i.pkg).team? (s.seq i).dctx.toNat (s.seq i).vteam.toNat with
    | some t => t.size
    | none => 0
  if mask = 0 || mask.toNat ≥ 2 ^ n then some { code := fcTeamRange } else none

/-- The index list of a `cgat` lies in the own direct region (15 R278). -/
def listFault (i : Sid) (c : Copy) (s : State) : Option FaultRec :=
  if copyKind c.word == .cgat && !inDirect (s.core i.pkg i.core).carve (patGidx c.pat) (patGcnt c.pat * ixSize c.pat) then
    some { code := fcSpadRange, addr := BitVec.ofNat 64 (patGidx c.pat) }
  else none

/-- The checks that follow the reading of the record, in the order of the table of R278. -/
def patternFault (i : Sid) (c : Copy) (s : State) : Option FaultRec :=
  let kind := copyKind c.word
  match listFault i c s with
  | some f => some f
  | none =>
    if patternBad (kind == .cgat) c.pat then some { code := fcPattern, addr := c.opd 0 }
    else
      match (if kind == .cmc then maskFault i (c.opd 3) s else none) with
      | some f => some f
      | none =>
        match (if kind == .cgat then
            (runFault i (srcKind kind) .copySrc c.srcBase (patCount c.pat 0) s).or <| firstBadRun (fun j => runFault i (dstKind kind) .copyDst (addrAdd c.dstBase (j * patDstr c.pat 0)) (patCount c.pat 0) s)
              (patGcnt c.pat) 0
          else firstBadRun (fun j => copyRunFault i c (runAddr c.pat c.srcBase c.dstBase j) (patCount c.pat 0) s)
              (patProd c.pat 1 (patNdim c.pat)) 0) with
        | some f => some f
        | none => counterFault i c s

/-- A record of n bytes, aligned to n, in this package's memory, read by an entry at the head of its queue (15 R278, 19 R326):
its bytes, a fault, or a wait. Translation, protection and blight come before alignment, in the order of those rules. -/
def readRecord (i : Sid) (va : W64) (n : Nat) (s : State) : Check (List Byte) × State :=
  let bad := fun code => Check.fault { code := code, addr := va }
  if va.toNat ≥ 2 ^ 57 then (.fault { code := fcTranslation, addr := va, reason := 3 }, s)
  else if isWindow va then (bad fcCopySpace, s)
  else
    match translate i.pkg (s.seq i).dctx.toNat i va false true s with
    | (.stall, s) => (.wait, s)
    | (.fault code r l, s) => (.fault { code := code, addr := va, reason := r, level := l }, s)
    | (.ok p pa, s) =>
      if va.toNat % n ≠ 0 then (bad fcAlignment, s)
      else if p ≠ i.pkg then (bad fcCopySpace, s)
      else (.go ((s.pkg p).bytes pa n), s)

/-- The copy that an entry starts, with its record. -/
def newCopy (e : EQ) (x : Entry) (pat : List Byte) : Copy :=
  { id := x.id, q := e, word := x.word, caddr := x.caddr, ops := x.ops, pat := pat }

/-- The checks of a copy command; it waits, too, while the sequencer has 64 copies in progress (23 R374). -/
def copyCheck (e : EQ) (x : Entry) (s : State) : Check (List Byte) × State :=
  let i := s.who
  if (s.seq i).copies.length ≥ Config.maxCopies then (.wait, s)
  else
    match readRecord i (x.opd 0) 256 s with
    | (.go pat, s) =>
      match patternFault i (newCopy e x pat) s with
      | some f => (.fault f, s)
      | none => (.go pat, s)
    | r => r

/-- A copy command issues (15 R277, R278): the copy is in progress, and its entry completes with it. -/
def copyWord (e : EQ) (h : EHead) (s : State) : Out' :=
  issueWith e h (copyCheck e) (fun pat x s => s.modSeq s.who fun q => { q with copies := q.copies ++ [newCopy e x pat] }) s

/-- `cpy` (15 R272, R273). -/
def execCpy (h : EHead) (_f : CX) (_na : Bool) (s : State) : Out' := copyWord .l h s

/-- `cgat` (15 R274). -/
def execCgat (h : EHead) (_f : CX) (_fr : Bool) (s : State) : Out' := copyWord .l h s

/-- `cmc` (15 R275). -/
def execCmc (h : EHead) (_f : CX) (_na : Bool) (s : State) : Out' := copyWord .l h s

/-- `cpyo` (15 R272, R273). -/
def execCpyo (h : EHead) (_f : CX) (_na : Bool) (s : State) : Out' := copyWord .s h s

/-- `cget` (17 R297, R298). -/
def execCget (h : EHead) (_f : CX) (_na : Bool) (s : State) : Out' := copyWord .l h s

/-- `cput` (17 R297, R298). -/
def execCput (h : EHead) (_f : CX) (_na : Bool) (s : State) : Out' := copyWord .s h s

/-! ## Signal stores (17 R301) -/

/-- Every entry dispatched earlier to the S queue has completed (17 R301, 03 R44). -/
def Seq.earlierDone (q : Seq) (id : Nat) : Bool := (q.qs.takeWhile fun e => e.id ≠ id).all (·.done)

/-- The address of a `ksig` and its place, checked at the head (17 R301). -/
def ksigCheck (x : Entry) (s : State) : Check (W64 × Place) × State :=
  let i := s.who
  let va := x.opd 0 + x.opd 1
  if !(s.seq i).earlierDone x.id then (.wait, s)
  else if va.toNat ≥ 2 ^ 57 then (.fault { code := fcAtomicTarget, addr := va }, s)
  else
    match resolve i va 8 .sig s with
    | (.fault f, s) => (.fault f, s)
    | (.stall, s) => (.wait, s)
    | (.ok pl, s) => if (s.seq i).canIssue then (.go (va, pl), s) else (.wait, s)

/-- `ksig` (17 R301): a request with the next serial, on the ordered stream; the answer completes the entry. -/
def execKsig (h : EHead) (_f : CX) (set : Bool) (s : State) : Out' :=
  issueWith .s h ksigCheck (fun a x s =>
    match issueReq s.who (.sig set (x.opd 2)) a.2 a.1 x.caddr (.entry .s x.id) true true 0 s with
    | some t => t
    | none => s.modSeq s.who fun q => q.unissue .s x.id) s

end Sys2Proof.Machine
end

