-- ==== Sys2Proof/Machine/Ring.lean ====
section
/-! DEFINITION. The slice ring of a die (01 R21; 15 R266-R268; 25 R401): its stations, the planes a message travels on, the owner stamps of
its slots, and when a station may inject. -/

namespace Sys2Proof.Machine

/-! ## Stations and planes (01 R21, 15 R266) -/

/-- The station of a core of the die. -/
def coreStation (c : Nat) : Nat := 3 * (c % 48 / 2) + c % 2

/-- The station of slice k. -/
def sliceStation (k : Nat) : Nat := 3 * k + 2

/-- The stations that a slot passes from one station to another. -/
def ringDist (a b : Nat) : Nat := (b + 72 - a) % 72

/-- The plane of a request about an address, and of a delivery or an acknowledgement. -/
def requestPlane (pa : Nat) : Nat := sliceIndex pa % 6
@[inherit_doc requestPlane] def deliveryPlane (pa : Nat) : Nat := 6 + sliceIndex pa % 6

/-- The position, of the 72 of a plane, of the slot that stands at a station in a ck: each plane advances one position per ck. -/
def slotAt (st ck : Nat) : Nat := (st + 72 - ck % 72) % 72

/-! ## Owner stamps (15 R267, 25 R401) -/

/-- Entry n of plane p's time-division table: that of a slot whose NTDM names the plane, and otherwise n mod 72. -/
def tdmEntry (k : Package) (slot : Option Nat) (p n : Nat) : Nat :=
  match slot.map (vget {} k.slots) with
  | none => n % 72
  | some t =>
    if !t.ntdm.testBit p then n % 72
    else
      let before := ((List.range p).filter fun j => t.ntdm.testBit j).length
      (k.byte (t.base + t.codePages + t.tdmoff + 1024 * before + n)).toNat

/-- The stamp of the slot that passed station 0 in a ck: one slot of a plane passes in each ck, and t counts them (15 R267), so that a frame
is 1,024 slots, at the next of which a change of tables takes effect (25 R401). -/
def Die.stamp (k : Package) (d : Die) (p t : Nat) : Nat :=
  let slot := if t < (d.tdmAt / 1024 + 1) * 1024 then d.tdmOld else d.tdm
  tdmEntry k slot p (t % 1024)

/-- The ck from which a slot position is empty. -/
def Die.freeFrom (d : Die) (p pos : Nat) : Nat := ((d.ring.find? fun x => x.plane == p && x.pos == pos).map (·.free)).getD 0

/-- An empty slot may be filled by the station it passes in a ck (15 R267): the station owns it, nobody does, or it has passed its
owner empty on this lap. -/
def Die.mayFill (k : Package) (d : Die) (p pos st ck : Nat) : Bool :=
  let w := d.stamp k p (ck - st)
  let free := d.freeFrom p pos
  decide (free ≤ ck) && (w == st || decide (72 ≤ w) || (decide (w < st) && decide (free + (st - w) ≤ ck)))

/-! ## Travel -/

/-- The ck in which a message that waits at station a since a ck was injected on a plane so that it had reached station b by now, with
its slot position; `also` are further stations of a delivery. A station injects, and latches, one slot in a ck (01 R21). The last 1,096 ck
are looked at, within which a station of the table injects (15 R268): a later arrival is no different. -/
def Die.travel (k : Package) (d : Die) (p a b since now : Nat) (also : List Nat) : Option (Nat × Nat) :=
  (List.range 1097).findSome? fun late =>
    if now < since + ringDist a b + late then none
    else
      let ck := now - late - ringDist a b
      let pos := slotAt a ck
      if d.mayFill k p pos a ck && !d.injected.contains (a, ck) &&
          (b :: also).all (fun st => !d.latched.contains (st, ck + ringDist a st)) then some (ck, pos)
      else none

/-- A slot has been filled at station a in a ck and is emptied at station z; it is latched at the stations given. -/
def Die.occupy (d : Die) (p a ck pos z now : Nat) (latches : List Nat) : Die :=
  let recent := fun (x : Nat × Nat) => decide (now < x.2 + 300)
  { d with
    ring := { plane := p, pos := pos, free := ck + ringDist a z } :: d.ring.filter fun x => !(x.plane == p && x.pos == pos)
    injected := (a, ck) :: d.injected.filter recent
    latched := latches.map (fun st => (st, ck + ringDist a st)) ++ d.latched.filter recent }

end Sys2Proof.Machine
end

