-- ==== Sys2Proof/Machine/CopyEngine.lean ====
section
/-! DEFINITION. The copy engine (15 R272-R280, R284; 17 R298-R300): pieces requested, served by the slices and the ring
(15 R263-R270; 01 R21, R28), and performed; and the slices retired (15 R265). -/

namespace Sys2Proof.Machine

/-! ## Requests to slices (15 R264, R265, R269; 01 R28) -/

/-- The 256 B blocks that n bytes from an address on touch. -/
def ringBlocks (pa n : Nat) : List Nat := (List.range ((pa + n - 1) / 256 - pa / 256 + 1)).map fun k => (pa / 256 + k) * 256

/-- The part of n bytes from an address on that lies in a block: its offset in the block, its length, and its offset in the bytes. -/
def blockPart (pa n b : Nat) : Nat × Nat × Nat := (max pa b - b, min (pa + n) (b + 256) - max pa b, max pa b - pa)

/-- The block reads of a piece. -/
def blockReads (i : Sid) (cid n pa len : Nat) : List BlockRead :=
  (ringBlocks pa len).map fun b =>
    let x := blockPart pa len b
    { seq := i.seq, cid := cid, piece := n, block := b, off := x.1, len := x.2.1, at_ := x.2.2 }

/-- A request of a copy's piece to the own die's slices, by that die's map; the reads stand in the station's list, except those of
a `cmc`, which its receivers wait for. -/
def sliceReq (i : Sid) (c : Copy) (n pa len : Nat) (write : Option (List Byte)) (mask : List Nat) (s : State) : State :=
  let s := s.modDie i.pkg (dieOf i.core) fun d =>
    { d with reqs := d.reqs ++ [{ who := i, cid := c.id, piece := n, slices := (ringBlocks pa len).map d.sliceOf, gen := d.gen, pa := pa,
                                  bytes := len, write := write, mask := mask, na := copyOpt c.word, since := s.ck }] }
  if write.isSome || !mask.isEmpty then s
  else s.modCore i.pkg i.core fun k => { k with reads := k.reads ++ blockReads i c.id n pa len }

/-! ## Requesting a piece (15 R279, R280; 17 R298, R299) -/

/-- The outcome of requesting a piece: not yet, a fault at the piece, or requested. -/
inductive Asked where
  | later (s : State)
  | fault (f : FaultRec) (s : State)
  | done (s : State)

/-- The line that writes to a place are ordered by (15 R284): 128 B in memory, 64 B in a scratchpad and 8 B in an atomic window. -/
def Place.line : Place → Place
  | .mem p a => .mem p (a / 128)
  | .spad p c off => .spad p c (off / 64)
  | .win p c off => .win p c (off / 8)
  | .vspad vp vt vc off => .vspad vp vt vc (off / 64)
  | .vwin vp vt vc off => .vwin vp vt vc (off / 8)

/-- A piece requested and not yet performed, before piece n of the copy in the order of its queue, writes the line of a place
(15 R284, 17 R300). -/
def earlierSameLine (q : Seq) (c : Copy) (n : Nat) (dst : Option Place) : Bool :=
  let hits := fun (f : Flight) => f.dst.isSome && f.dst.map Place.line == dst.map Place.line
  (q.copies.takeWhile fun d => d.id ≠ c.id).any (fun d => d.q == c.q && d.flight.any hits) ||
    c.flight.any fun f => decide (f.n < n) && hits f

/-- The next index of a `cgat` is read where the next piece needs it (15 R274), unless its granule is waking (R261). -/
def readIndex (i : Sid) (c : Copy) (s : State) : Copy :=
  if (copyPiece c c.next).isNone && !c.allRead &&
      !(s.core i.pkg i.core).wakingAt (patGidx c.pat + c.idx.length * ixSize c.pat) (ixSize c.pat) then { c with idx := c.idx ++ [gatherIndex s i c.pat c.idx.length] } else c

/-- One side of a piece found (15 R279; 17 R289-R291, R299): its place, whose package is the own one for a local command and
another one for a remote command. -/
def pieceSide (i : Sid) (k : SideKind) (acc : Acc) (va : W64) (n : Nat) (s : State) : Check Place × State :=
  let d := (s.seq i).dctx.toNat
  let bad : FaultRec := { code := fcCopySpace, addr := va }
  if va.toNat ≥ 2 ^ 57 then (.fault { code := fcTranslation, addr := va, reason := 3 }, s)
  else if isWindow va then
    match runFault i k acc va n s, resolveWindow i va n acc s with
    | some f, _ | none, .fault f => (.fault f, s)
    | none, .stall => (.wait, s)
    | none, .ok pl =>
      if k.remote && placePkg s i.pkg d pl = i.pkg then (.fault bad, s)
      else
        match (if k.remote then none else placeFault s acc false n pl) with
        | some code => (.fault { code := code, addr := va }, s)
        | none => if placeWaking s n pl then (.wait, s) else (.go pl, s)
  else
    match translate i.pkg d i va (acc == .copyDst) true s with
    | (.stall, s) => (.wait, s)
    | (.fault code r l, s) => (.fault { code := code, addr := va, reason := r, level := l }, s)
    | (.ok p pa, s) => if (p == i.pkg) == k.remote then (.fault bad, s) else (.go (.mem p pa), s)

/-- A piece in flight to a place, with the bytes it carries where they are already there. -/
def fly (i : Sid) (c : Copy) (n : Nat) (dst : Place) (bytes : Option (List Byte)) (s : State) : State :=
  s.modSeq i fun q => q.modCopy c.id fun d =>
    { d with
      flight := d.flight ++ [{ n := n, ready := bytes.isSome, bytes := bytes.getD [], dst := some dst }]
      next := n + 1, idx := c.idx, far := c.far }

/-- The piece's bytes from the gather cache, where it holds every line (15 R274, R285). -/
def Core.gathered (c : Core) (pa len : Nat) : Option (List Byte) :=
  ((linesOf pa len).foldr (fun l acc =>
    match acc, c.gather.find? fun g => g.1 == l with
    | some bs, some g => some (g.2 ++ bs)
    | _, _ => none) (some [])).map fun bs => (bs.drop (pa % 128)).take len

/-- A `cgat` reads through the gather cache (15 R274). -/
def usesGather (c : Copy) (carve : W64) : Bool := copyKind c.word == .cgat && !copyOpt c.word && gatherSize carve ≠ 0

/-- The physical cores that a `cmc` mask names. -/
def maskCores (s : State) (i : Sid) (mask : W64) : List Nat :=
  match (s.pkg i.pkg).team? (s.seq i).dctx.toNat (s.seq i).vteam.toNat with
  | none => []
  | some t => ((List.range t.size).filter fun v => mask.getLsbD v).map t.coreOf

/-- A remote piece to or from a package goes out as a request (17 R293, R298): with a counter on the unordered stream and, for `cput`,
under a serial; without one on the ordered stream. Every piece of the copy, and its counter, must be on one package (assumption 46). -/
def askRemote (i : Sid) (c : Copy) (n : Nat) (op : Op) (serial : Bool) (far dst : Place) (va : W64) (s : State) : Asked :=
  let d := placePkg s i.pkg (s.seq i).dctx.toNat far
  if c.far.any (· ≠ d) then .fault { code := fcCopySpace, addr := va } s
  else
    match issueReq i op far va c.caddr (.piece c.id n) (c.counter = 0) serial 0 s with
    | none => .later s
    | some t => .done (fly i { c with far := some d } n dst none t)

/-- The place of a counter of another package (17 R290). -/
def counterPlace (i : Sid) (c : Copy) (s : State) : Option Place :=
  if c.counter = 0 then none
  else match resolveWindow i c.counter 8 .counter s with
    | .ok pl => some pl
    | _ => none

/-- The destination of a piece: that of a `cmc` lies at one offset in every receiver, whose carves were checked at the head
(15 R275). -/
def pieceDst (i : Sid) (kind : CopyKind) (pc : Piece) (s : State) : Check Place × State :=
  if kind == .cmc then (.go (.spad i.pkg i.core (bitsOf pc.dst.toNat 22 0)), s) else pieceSide i (dstKind kind) .copyDst pc.dst pc.len s

/-- Piece n of a copy is requested (15 R272-R276, R279; 17 R298, R299). -/
def askPiece (i : Sid) (c : Copy) (n : Nat) (pc : Piece) (s : State) : Asked :=
  let kind := copyKind c.word
  match pieceSide i (srcKind kind) .copySrc pc.src pc.len s with
  | (.wait, s) => .later s
  | (.fault f, s) => .fault f s
  | (.go src, s) =>
    match pieceDst i kind pc s with
    | (.wait, s) => .later s
    | (.fault f, s) => .fault f s
    | (.go dst, s) =>
      match kind with
      | .cget => askRemote i c n (.get pc.len) false src dst pc.src s
      | .cput =>
        let q := s.seq i
        let ctr := counterPlace i c s
        if (c.counter = 0 && !c.flight.isEmpty) || earlierSameLine q c n (some dst) then .later s
        else if c.counter ≠ 0 && ctr.map (placePkg s i.pkg q.dctx.toNat) ≠ some (placePkg s i.pkg q.dctx.toNat dst) then
          .fault { code := fcCopySpace, addr := pc.dst } s
        else askRemote i c n (.put (readPlace s pc.len src) ctr (copyOpt c.word)) (c.counter ≠ 0) dst dst pc.dst s
      | .cpyo =>
        let bs := readPlace s pc.len src
        match dst with
        | .mem _ pa => .done (fly i c n dst none (sliceReq i c n pa pc.len (some bs) [] s))
        | _ => .done (fly i c n dst (some bs) s)
      | .cmc =>
        match src with
        | .mem _ pa => .done (fly i c n dst none (sliceReq i c n pa pc.len none (maskCores s i (c.opd 3)) s))
        | _ => .later s
      | _ =>
        match src with
        | .mem _ pa =>
          let core := s.core i.pkg i.core
          match (if usesGather c core.carve then core.gathered pa pc.len else none) with
          | some bs => .done (fly i c n dst (some bs) s)
          | none => .done (fly i c n dst none (sliceReq i c n pa pc.len none [] s))
        | pl => .done (fly i c n dst (some (readPlace s pc.len pl)) s)

/-- The next piece number of a copy to request: past the pieces performed before it was resumed (23 R374, R381). -/
def nextPiece (c : Copy) : Nat → Nat → Nat
  | 0, n => n
  | f + 1, n => if c.isDone n || c.flight.any (fun x => x.n == n) then nextPiece c f (n + 1) else n

/-- The next piece number to request. -/
def Copy.nextUp (c : Copy) : Nat := nextPiece c (c.done.length + c.flight.length) c.next

/-- A copy has a piece that has not been requested, within 63 of its lowest one not performed, and is not listed for re-issue
(23 R374). -/
def Copy.wants (c : Copy) : Bool :=
  c.stop.isNone && !c.listed && decide (c.nextUp ≤ c.low + 63) && (!c.allRead || (copyPiece c (c.nextUp)).isSome)

/-- A sequencer's next piece is requested: of its oldest copy that has one (15 R280). None where it has none that is ready. -/
def askNext (i : Sid) (s : State) : Option State :=
  match (s.seq i).copies.find? Copy.wants with
  | none => none
  | some c =>
    let c := readIndex i { c with next := c.nextUp } s
    match copyPiece c c.next with
    | none => none
    | some pc =>
      match askPiece i c c.next pc s with
      | .later _ => none
      | .fault f s => some (stopCopy i c.id c.next f s)
      | .done s => some s

/-- The wait of a CRIT leaf's second read (23 R384) is the one thing a piece that is not yet requested leaves behind. -/
def askLater (i : Sid) (s : State) : State :=
  match (s.seq i).copies.find? Copy.wants with
  | none => s
  | some c =>
    let c := readIndex i { c with next := c.nextUp } s
    match copyPiece c c.next with
    | none => s
    | some pc =>
      match askPiece i c c.next pc s with
      | .later s => s
      | _ => s

/-- COPY_PIECE_REQUEST (15 R280): the copy engine of a core takes the next piece round-robin among the sequencers, past one whose
piece is not ready. -/
def execCopyPieceRequest (p c : Nat) (s : State) : Out' :=
  let order := (List.range 4).map fun d => ((s.core p c).rr + 1 + d) % 4
  match order.findSome? fun n => (askNext ⟨p, c, n⟩ s).map fun t => (n, t) with
  | some (n, t) => .next (t.modCore p c fun k => { k with rr := n })
  | none => .next (order.foldl (fun t n => askLater ⟨p, c, n⟩ t) s)

/-! ## The slices serve (15 R263, R266, R270, R281; 01 R28) -/

/-- A request waits behind another one of its core about the same block: an earlier one (15 R266), or one that met REHOME and is not
answered yet (R265). -/
def reqWaits (k : Package) (die : Die) (j : Nat) (r : SliceReq) : Bool :=
  let bs := ringBlocks r.pa r.bytes
  (die.reqs.take j).any (fun x => x.who.core == r.who.core && (ringBlocks x.pa x.bytes).any bs.contains) ||
    (!r.again && bs.any (k.core r.who.core).rehomed.contains)

/-- The slots in which the request's messages, one for each block, have come over the ring: plane, station, ck and position. None
while one is still on its way; a request that came over the bridge has none. -/
def reqSlots (k : Package) (die : Die) (now : Nat) (r : SliceReq) : Option (List (Nat × Nat × Nat × Nat × Nat)) :=
  if r.fwd.isSome then some []
  else
    let a := coreStation r.who.core
    ((ringBlocks r.pa r.bytes).zip r.slices).foldr (fun x acc =>
      match acc with
      | none => none
      | some ys =>
        let p := requestPlane x.1
        let die := ys.foldl (fun d y => d.occupy y.1 a y.2.1 y.2.2.1 y.2.2.2.1 now []) die
        (die.travel k p a (sliceStation x.2) r.since now []).map fun t => (p, t.1, t.2, sliceStation x.2, x.1) :: ys) (some [])

/-- Their slots are empty again. -/
def Die.tookReq (d : Die) (r : SliceReq) (now : Nat) (ys : List (Nat × Nat × Nat × Nat × Nat)) : Die :=
  ys.foldl (fun d y => d.occupy y.1 (coreStation r.who.core) y.2.1 y.2.2.1 y.2.2.2.1 now []) d

/-- The lines of a block that a request asks for. -/
def reqLines (r : SliceReq) (b : Nat) : List Nat :=
  let x := blockPart r.pa r.bytes b
  linesOf (b + x.1) x.2.1

/-- The cores that a read's delivery goes to, and its mask of die-local cores (01 R21, 15 R269). -/
def SliceReq.cores (r : SliceReq) : List Nat := if r.mask.isEmpty then [r.who.core] else r.mask
@[inherit_doc SliceReq.cores] def SliceReq.bits (r : SliceReq) : BitVec 48 :=
  r.cores.foldl (fun m c => m ||| (1#48 <<< (c % 48))) 0

/-- The sideband of a read's delivery of a block: that of a `cmc` (15 R275). -/
def SliceReq.side (r : SliceReq) (b : Nat) : List Band :=
  let x := blockPart r.pa r.bytes b
  if r.mask.isEmpty then [] else [.cmc r.who r.cid r.piece x.1 x.2.1 x.2.2 r.mask]

/-- The number of stations in a mask. -/
def maskCount (m : BitVec 48) : Nat := ((List.range 48).filter fun n => m.getLsbD n).length

/-- A delivery into which a slice merges the read of a block (15 R270): formed there and not yet injected, with every line asked for,
no write to the block since, and fewer than 48 stations. -/
def mergeable (r : SliceReq) (slice b : Nat) (v : Delivery) : Bool :=
  v.sent.isNone && v.ack.isNone && v.slice == slice && v.pa == b && v.fresh && (reqLines r b).all v.lines.contains &&
    decide (maskCount v.mask < 48)

/-- The read of a block merged into a delivery, or in one of its own, at a slice of the asking die. -/
def Die.deliver (d : Die) (k : Package) (r : SliceReq) (slice b : Nat) : Die :=
  match d.deliv.findIdx? (mergeable r slice b) with
  | some j => { d with deliv := d.deliv.modify j fun v => { v with mask := v.mask ||| r.bits, side := v.side ++ r.side b } }
  | none => { d with deliv := d.deliv ++
      [{ slice := slice, pa := b, bytes := k.bytes b 256, lines := reqLines r b, mask := r.bits, side := r.side b }] }

/-- A request served at its home (15 R281): a write is performed and its acknowledgement formed; a read takes its blocks at once, which
makes its piece indivisible (R283). The slices of the home die hold the lines, unless `.na` forbids it (R263, R273). -/
def serveReq (p home : Nat) (r : SliceReq) (s : State) : State :=
  let ask := dieOf r.who.core
  let slices := r.fwd.getD r.slices
  match r.write with
  | some bs =>
    (s.modPkg p fun k => k.writeAt (!r.na) r.pa bs).modDie p ask fun d =>
      { d with deliv := d.deliv ++ [{ slice := slices.getD 0 0, pa := r.pa / 256 * 256, mask := r.bits, ack := some (r.who, r.cid, r.piece) }] }
  | none =>
    let s := if r.na then s
      else s.modDie p home fun d => (linesOf r.pa r.bytes).foldl (fun d l => d.allocate l false) d
    s.modDie p ask fun d => ((ringBlocks r.pa r.bytes).zip slices).foldl (fun d x => d.deliver (s.pkg p) r x.2 x.1) d

/-- The slice forwards a request across the bridge to the slice that the home die's map selects (01 R28), unless it is a read that it can
merge (15 R270). -/
def forwardReq (p home : Nat) (r : SliceReq) (s : State) : State :=
  let blocks := (ringBlocks r.pa r.bytes).zip r.slices
  let die := (s.pkg p).die (dieOf r.who.core)
  if r.write.isNone && blocks.all (fun x => die.deliv.any (mergeable r x.2 x.1)) then
    s.modDie p (dieOf r.who.core) fun d => blocks.foldl (fun d x => d.deliver (s.pkg p) r x.2 x.1) d
  else
    s.modDie p home fun d =>
      { d with reqs := d.reqs ++ [{ r with slices := (ringBlocks r.pa r.bytes).map d.sliceOf, gen := d.gen, fwd := some r.slices }] }

/-- SLICE_REQUEST (15 R263, R265, R266, R270; 01 R28): a request reaches its slices, which serve it, or forward it to its home die. A
slice that answers with REHOME serves nothing. -/
def execSliceRequest (p d k : Nat) (s : State) : Out' :=
  let die := (s.pkg p).die d
  match die.reqs[k]? with
  | none => .next s
  | some r =>
    if reqWaits (s.pkg p) die k r ||
        r.slices.any (fun n => match die.slices.getD n .off with | .serving | .retiring => false | _ => true) then .next s
    else
      match reqSlots (s.pkg p) die s.ck r with
      | none => .next s
      | some ys =>
        let s := s.modDie p d fun x => { x.tookReq r s.ck ys with reqs := x.reqs.eraseIdx k }
        let home := (s.pkg p).homeDie r.pa
        .next (if home = d then serveReq p home r s else forwardReq p home r s)

/-! ## Deliveries (15 R269, R275, R277; 01 R21) -/

/-- Gather-cache lines filled from a delivery of a piece's block, where no write to the block has been performed since its data was read:
the newest lines stay (15 R274, R285; assumption 47). -/
def fillGather (p core : Nat) (c : Copy) (r : BlockRead) (v : Delivery) (s : State) : State :=
  if !usesGather c (s.core p core).carve || !v.fresh then s
  else
    let new := (linesOf (v.pa + r.off) r.len).map fun l => (l, (v.bytes.drop (l * 128 - v.pa)).take 128)
    s.modCore p core fun k =>
      { k with gather := (new ++ k.gather.filter fun g => !new.any fun n => n.1 == g.1).take (gatherSize k.carve / 128) }

/-- The bytes of a piece that have come to a station, in order. -/
def Flight.at (f : Flight) (st : Nat) : List Byte :=
  ((f.parts.filter fun x => x.1 == st).foldl (fun m x => cellIns x.2.1 x.2.2 m) []).flatMap (·.2)

/-- A part of a piece has come to a station. -/
def landPart (who : Sid) (cid n st at_ : Nat) (bytes : List Byte) (s : State) : State :=
  s.modSeq who fun q => q.modCopy cid fun c =>
    { c with flight := c.flight.map fun f => if f.n = n then { f with parts := f.parts ++ [(st, at_, bytes)] } else f }

/-- A piece is there, with its bytes, and is performed next. -/
def landPiece (who : Sid) (cid n : Nat) (bytes : List Byte) (s : State) : State :=
  s.modSeq who fun q => q.modCopy cid fun c =>
    { c with flight := c.flight.map fun f => if f.n = n then { f with ready := true, bytes := bytes } else f }

/-- The flight of a copy's piece. -/
def flightOf (s : State) (who : Sid) (cid n : Nat) : Option (Copy × Flight × Piece) := do
  let c ← (s.seq who).copies.find? fun c => c.id == cid
  let f ← c.flight.find? fun f => f.n == n
  let pc ← copyPiece c n
  return (c, f, pc)

/-- A read of a station takes its part of a delivery (15 R269); with its last part the piece is there. -/
def takeRead (p st : Nat) (v : Delivery) (r : BlockRead) (s : State) : State :=
  let who : Sid := ⟨p, st, r.seq⟩
  match flightOf s who r.cid r.piece with
  | none => s
  | some (c, _, pc) =>
    let s := landPart who r.cid r.piece st r.at_ ((v.bytes.drop r.off).take r.len) (fillGather p st c r v s)
    match flightOf s who r.cid r.piece with
    | none => s
    | some (_, f, _) => if (f.at st).length < pc.len then s else landPiece who r.cid r.piece (f.at st) s

/-- A receiver takes its part of a `cmc` piece (15 R275): with its last part it writes the piece at the destination offset and adds to
its own counter, and the last receiver's makes the piece performed. -/
def takeCmc (p st : Nat) (who : Sid) (cid n at_ : Nat) (bytes : List Byte) (dsts : List Nat) (s : State) : State :=
  match flightOf (landPart who cid n st at_ bytes s) who cid n with
  | none => s
  | some (c, f, pc) =>
    let s := landPart who cid n st at_ bytes s
    if (f.at st).length < pc.len then s
    else
      let s := s.modCore p st fun k => k.setSpad (bitsOf pc.dst.toNat 22 0) (f.at st)
      let s := if c.counter = 0 then s else addCount p st (bitsOf c.counter.toNat 22 0) pc.len s
      if dsts.all fun x => decide (pc.len ≤ (f.at x).length) then landPiece who cid n [] s else s

/-- A station takes the sideband that is there for it. -/
def takeSide (p st : Nat) (v : Delivery) (k : Band) (s : State) : State :=
  match k with
  | .page off dsts => if dsts.contains st then s.modCore p st fun c => c.setSpad off v.bytes else s
  | .cmc who cid n off len at_ dsts => if dsts.contains st then takeCmc p st who cid n at_ ((v.bytes.drop off).take len) dsts s else s

/-- A delivery to a station must wait: it holds a `cmc` piece with an earlier one to the same line outstanding (15 R284), or bytes for
a waking granule (15 R261). -/
def sideWaits (s : State) (p st : Nat) (v : Delivery) (k : Band) : Bool :=
  match k with
  | .page off dsts => dsts.contains st && (s.core p st).wakingAt off v.bytes.length
  | .cmc who cid n _ _ _ dsts =>
    dsts.contains st && (match flightOf s who cid n with
      | none => false
      | some (c, f, pc) => earlierSameLine (s.seq who) c n f.dst || (s.core p st).wakingAt (bitsOf pc.dst.toNat 22 0) pc.len)

/-- The outstanding reads of a station that a delivery satisfies (15 R269): those of its block and of lines it holds. -/
def Core.satisfied (c : Core) (v : Delivery) : List BlockRead :=
  c.reads.filter fun r => r.block == v.pa && (linesOf (r.block + r.off) r.len).all v.lines.contains

/-- The stations of a delivery's mask, as cores of die d, in the order in which its slot passes them. -/
def Delivery.stations (d : Nat) (v : Delivery) : List Nat :=
  let a := sliceStation v.slice
  (List.range 72).filterMap fun n =>
    ((List.range 48).find? fun c => v.mask.getLsbD c && (coreStation c + 72 - a) % 72 == n).map (48 * d + ·)

/-- The deliveries of a die with the next station of each. -/
def nextStations (d : Nat) (x : Die) : List (Nat × Nat) :=
  (x.deliv.mapIdx fun j v => ((v.stations d).head?).map fun st => (j, st)).filterMap id

/-- The ring brings a delivery to its next station: the die with its slot filled, and the ck and position of its injection. None while
it cannot be there yet. -/
def Die.arrive (k : Package) (x : Die) (d now : Nat) (v : Delivery) (st : Nat) : Option (Die × Nat × Nat) :=
  let a := sliceStation v.slice
  let p := deliveryPlane v.pa
  match v.sent with
  | some t => if t.1 + ringDist a (coreStation st) ≤ now then some (x, t) else none
  | none =>
    let sts := (v.stations d).map coreStation
    (x.travel k p a (coreStation st) 0 now sts).map fun t => (x.occupy p a t.1 t.2 (sts.getLastD a) now sts, t)

/-- RING_DELIVERY (15 R266, R269): a delivery or an acknowledgement reaches the next station of its mask, in order behind the others about
its block; the station takes what is there for it, and every read of its own that the delivery satisfies. The last station empties
the slot. -/
def execRingDelivery (p d k : Nat) (s : State) : Out' :=
  let die := (s.pkg p).die d
  match (nextStations d die)[k]? with
  | none => .next s
  | some (j, st) =>
    match die.deliv[j]? with
    | none => .next s
    | some v =>
      if (die.deliv.take j).any (fun w => w.pa == v.pa && (w.stations d).contains st) || v.side.any (sideWaits s p st v) then .next s
      else
        match die.arrive (s.pkg p) d s.ck v st with
        | none => .next s
        | some (die, t) =>
          let w := { v with mask := v.mask &&& ~~~(1#48 <<< (st % 48)), sent := some t }
          let reads := if v.ack.isSome then [] else (s.core p st).satisfied v
          let s := s.modDie p d fun _ => { die with deliv := if w.mask = 0 then die.deliv.eraseIdx j else die.deliv.set j w }
          let s := s.modCore p st fun c =>
            { c with reads := c.reads.filter (fun r => !reads.contains r), rehomed := c.rehomed.filter (· ≠ v.pa) }
          let s := match v.ack with
            | some a => landPiece a.1 a.2.1 a.2.2 [] s
            | none => s
          .next (v.side.foldl (fun t x => takeSide p st v x t) (reads.foldl (fun t r => takeRead p st v r t) s))

/-! ## Performing a piece (15 R276, R277, R283) -/

/-- The addition of a performed piece to its counter (15 R276): at the own core, or as a request with a serial to a team member.
None while that must wait. -/
def countPiece (i : Sid) (c : Copy) (n len : Nat) (s : State) : Option State :=
  if c.counter = 0 then some s
  else
    match resolveWindow i c.counter 8 .counter s with
    | .ok (.win p k off) =>
      if k = i.core then some (addCount p k off len s)
      else
        (issueReq i (.count len) (.win p k off) c.counter c.caddr (.counter c.id n) true true 0 s).map fun t =>
          t.modSeq i fun q => q.modCopy c.id fun c => { c with adds := c.adds + 1 }
    | _ => some s

/-- PIECE_PERFORMED (15 R256, R276, R277, R284): a piece whose bytes are there is written at its destination, which the addressed core
checks against its carve of now; its bytes are counted, and a copy with nothing left completes. -/
def execPiecePerformed (i : Sid) (cid piece : Nat) (s : State) : Out' :=
  if !s.has i then .next s
  else
    let q := s.seq i
    match q.copies.find? fun c => c.id == cid with
    | none => .next s
    | some c =>
      match c.flight.find? fun f => f.n == piece, copyPiece c piece with
      | some f, some pc =>
        let kind := copyKind c.word
        if !f.ready || earlierSameLine q c piece f.dst || c.stop.any (fun m => decide (m ≤ piece)) || kind == .cput then .next s
        else
          match (if kind == .cmc || f.bytes.isEmpty then .ok (.mem i.pkg 0) else resolveWindow i pc.dst pc.len .copyDst s) with
          | .fault x => .next (stopCopy i cid piece x s)
          | .stall => .next s
          | .ok pl =>
            if kind ≠ .cmc && placeWaking s pc.len pl then .next s
            else
              let s := if kind == .cmc || f.bytes.isEmpty then s else writePlace f.bytes pl s
              match (if kind == .cmc then some s else countPiece i c piece pc.len s) with
              | none => .next s
              | some s => .next (finishCopy i cid (s.modSeq i fun q => q.modCopy cid fun c => c.perform piece))
      | _, _ => .next s

/-! ## Slices retired (15 R265) -/

/-- REHOME (15 R265): a request that a slice answers with REHOME is re-hashed with the map of the new generation and issued again; later
requests of its core about the block wait until it is answered. -/
def execRehome (p d k : Nat) (s : State) : Out' :=
  let die := (s.pkg p).die d
  match die.reqs[k]? with
  | none => .next s
  | some r =>
    if r.slices.all fun n => match die.slices.getD n .off with | .serving | .retiring => true | _ => false then .next s
    else
      let bs := ringBlocks r.pa r.bytes
      let s := s.modDie p d fun x =>
        { x with reqs := x.reqs.modify k fun r => { r with slices := bs.map x.sliceOf, gen := x.gen, since := s.ck, again := true } }
      .next (s.modCore p r.who.core fun c => { c with rehomed := (bs ++ c.rehomed).eraseDups })

/-- A slice map that management may write (15 R264, R265): 64 entries, each a slice of the die that serves. -/
def mapOk (d : Die) (k : Nat) (map : List Nat) : Bool :=
  map.length == 64 && map.all fun n => decide (n < 24) && n ≠ k && d.slices.getD n .off == .serving

/-- Slice k holds a dirty line. -/
def Die.dirtyIn (d : Die) (k : Nat) : Bool := d.lines.any fun l => l.slice == k && l.dirty

/-- Lines written back: they are clean, and memory has their bytes already (R281). -/
def Die.writeBack (d : Die) (pick : SliceLine → Bool) : Die :=
  { d with lines := d.lines.map fun l => if pick l then { l with dirty := false } else l }

/-- SLICE_RETIRE (15 R265, 01 R38): the slice begins to retire, and a die left with fewer than 12 slices goes offline; then it writes back
its dirty lines; and once it has none, the die takes the new map with GEN + 1, whose slices keep the lines that it gives them, and the
slice answers with REHOME. -/
def execSliceRetire (p d k : Nat) (map : List Nat) (s : State) : Out' :=
  let die := (s.pkg p).die d
  match die.slices.getD k .off with
  | .serving =>
    let s := s.modDie p d fun x => { x with slices := x.slices.set k .retiring }
    if (((s.pkg p).die d).slices.filter (· == .serving)).length < 12 then .next (takeOffline p (dieCores d) s) else .next s
  | .retiring =>
    if die.dirtyIn k then .next (s.modDie p d fun x => x.writeBack fun l => l.slice == k)
    else if mapOk die k map then
      .next (s.modDie p d fun x =>
        let x := { x with map := map, gen := (x.gen + 1) % 65536, slices := x.slices.set k .rehoming }
        { x with lines := x.lines.filter fun l => x.sliceOf (128 * l.line) == l.slice })
    else .next s
  | _ => .next s

/-- SLICE_POWER_DOWN (15 R265): no request to the retired slice remains. -/
def execSlicePowerDown (p d k : Nat) (s : State) : Out' :=
  let die := (s.pkg p).die d
  if die.slices.getD k .off == .rehoming && !die.reqs.any fun r => r.slices.contains k then
    .next (s.modDie p d fun x => { x with slices := x.slices.set k .off })
  else .next s

end Sys2Proof.Machine
end

