-- ==== Sys2Proof/Machine/VecFn.lean ====
section
/-! DEFINITION. Widening, narrowing and conversion (11 R211-R215), the reductions (11 R216, R217), the special functions
(11 R218-R220) and random numbers (07 R152, R153; 11 R221). -/

namespace Sys2Proof.Machine

/-! ## Widening, narrowing and conversion (11 R211-R215) -/

/-- A widening operation on floats: the exact result of the source values, after DAZ, rounded once into T (11 R212). -/
def widenFloat (t u : Ty) (env : FEnv) (sat : Bool) (op : Val → Val → Val × Nat) (a b : Nat) : Nat × Nat :=
  (tyFmt t).finish env sat (op ((tyFmt u).opd env a) ((tyFmt u).opd env b))

/-- `vwadd` (11 R212). -/
def execVwadd (h : EHead) (ty ty2 : Ty) (rnd : Rnd) (sat : Bool) (km : KReg) (d a b : Reg) (s : State) : Out' :=
  vecWord h (fun x q => q.setFlat ty.width 2 (q.kr km) d fun i =>
    let u := velem ty2.width (q.vr a) i
    let v := velem ty2.width (q.vr b) i
    if ty.isFloat then widenFloat ty ty2 (x.env rnd) sat (Val.add (x.env rnd).rm) u v
    else (wrapInt ty.width (tyInt ty2 u + tyInt ty2 v), 0)) s

/-- `vwmul` (11 R212). -/
def execVwmul (h : EHead) (ty ty2 : Ty) (rnd : Rnd) (sat : Bool) (km : KReg) (d a b : Reg) (s : State) : Out' :=
  vecWord h (fun x q => q.setFlat ty.width 2 (q.kr km) d fun i =>
    let u := velem ty2.width (q.vr a) i
    let v := velem ty2.width (q.vr b) i
    if ty.isFloat then widenFloat ty ty2 (x.env rnd) sat Val.mul u v
    else (wrapInt ty.width (tyInt ty2 u * tyInt ty2 v), 0)) s

/-- `vwcvt` (11 R213). -/
def execVwcvt (h : EHead) (ty ty2 : Ty) (rnd : Rnd) (sat : Bool) (km : KReg) (d a : Reg) (s : State) : Out' :=
  vecWord h (fun x q => q.setFlat ty.width (ty.width / ty2.width) (q.kr km) d fun i =>
    convert (x.env rnd) sat ty ty2 (velem ty2.width (q.vr a) i)) s

/-- `vnar` (11 R213). -/
def execVnar (h : EHead) (ty ty2 : Ty) (rnd : Rnd) (sat : Bool) (km : KReg) (d a : Reg) (s : State) : Out' :=
  vecElems h ty.width km d (fun x q i =>
    convert (x.env rnd) sat ty ty2 (q.flat ty2.width (ty2.width / ty.width) a i)) s

/-- The source element of destination element i of `vcvt` with part p, or none where the part leaves i unchanged
(11 R214). -/
def cvtSource (t u : Ty) (p i : Nat) : Option Nat :=
  if t.width ≥ u.width then some (p * elems t.width + i)
  else if p * elems u.width ≤ i ∧ i < (p + 1) * elems u.width then some (i - p * elems u.width) else none

/-- `vcvt` (11 R214). -/
def execVcvt (h : EHead) (ty ty2 : Ty) (rnd : Rnd) (sat : Bool) (km : KReg) (d a : Reg) (part : BitVec 2) (s : State) :
    Out' :=
  vecElems h ty.width km d (fun x q i =>
    match cvtSource ty ty2 part.toNat i with
    | some j => convert (x.env rnd) sat ty ty2 (velem ty2.width (q.vr a) j)
    | none => (velem ty.width (q.vr d) i, 0)) s

/-- Byte c of the 16-byte table that two scalars hold (11 R215). -/
def lutByte (lo hi : W64) (c : Nat) : Nat := if c < 8 then bitsOf lo.toNat (8 * c + 7) (8 * c) else bitsOf hi.toNat (8 * (c - 8) + 7) (8 * (c - 8))

/-- `vunpk` (11 R215). -/
def execVunpk (h : EHead) (_ty _ty2 : Ty) (km : KReg) (d a _b _c : Reg) (s : State) : Out' :=
  vecWord h (fun x q => q.setFlat 8 2 (q.kr km) d fun i => (lutByte (x.opd 0) (x.opd 1) (velem 4 (q.vr a) i), 0)) s

/-! ## Reductions (11 R216, R217) -/

/-- One level of the tree: pairs combined, an EMPTY leaf taking no part, with the flags of the combining. -/
def combineLevel {α : Type} (f : α → α → α × Nat) : List (Option α) → List (Option α) × Nat
  | x :: y :: r =>
    let (t, fl) := combineLevel f r
    match x, y with
    | none, v => (v :: t, fl)
    | v, none => (v :: t, fl)
    | some u, some v => (some (f u v).1 :: t, fl ||| (f u v).2)
  | r => (r, 0)

/-- The fixed tree over 2^L leaves (11 R217): its root and its flags. -/
def combineTree {α : Type} (f : α → α → α × Nat) : Nat → List (Option α) → Option α × Nat
  | 0, xs => (xs.headD none, 0)
  | n + 1, xs =>
    let (ys, fl) := combineLevel f xs
    let (r, fl2) := combineTree f n ys
    (r, fl ||| fl2)

/-- The segments of 2^L elements of the source, each reduced to an element of vD; the elements above are 0 (11 R217). -/
def reduceWord {α : Type} (h : EHead) (wd ws : Nat) (km : KReg) (d a : Reg) (l : Nat) (leaf : FEnv → Nat → α)
    (f : FEnv → α → α → α × Nat) (final : FEnv → Option α → Nat × Nat) (r : Rnd) (s : State) : Out' :=
  vecWord h (fun x q =>
    let env := x.env r
    let rs := (List.range (elems ws / 2 ^ l)).map fun j =>
      let leaves := (List.range (2 ^ l)).map fun t =>
        let e := j * 2 ^ l + t
        if (q.kr km).getLsbD e then some (leaf env (velem ws (q.vr a) e)) else none
      let (root, fl) := combineTree (f env) l leaves
      let (v, fl2) := final env root
      (v, fl ||| fl2)
    (q.setV d (vpack wd (rs.map (·.1))), flagsOf rs)) s

/-- A float leaf as a bit pattern of the format, after DAZ. -/
def FFmt.leaf (f : FFmt) (env : FEnv) (x : Nat) : Nat := (f.ofVal {} false (f.opd env x)).1

/-- Round_T(y + z) (11 R217): DAZ acts at the leaves alone. -/
def FFmt.addLeaves (f : FFmt) (env : FEnv) (y z : Nat) : Nat × Nat := f.add { env with daz := false } false y z

/-- A float segment's result (11 R217): the canonical NaN of a NaN, and a lone subnormal leaf flushed under FZ (07 R125,
R129), which sets UF and NX (R127). -/
def FFmt.finalLeaf (f : FFmt) (env : FEnv) (x : Nat) : Nat × Nat := f.ofVal { env with daz := false } false (f.val x)

/-- `vsum` (11 R217). -/
def execVsum (h : EHead) (ty : Ty) (rnd : Rnd) (sat : Bool) (km : KReg) (d a : Reg) (l : BitVec 4) (s : State) : Out' :=
  if ty.isFloat then
    reduceWord h ty.width ty.width km d a l.toNat (fun env x => (tyFmt ty).leaf env x) (fun env => (tyFmt ty).addLeaves env)
      (fun env r => match r with | none => (0, 0) | some x => (tyFmt ty).finalLeaf env x) rnd s
  else
    reduceWord h ty.width ty.width km d a l.toNat (fun _ x => tyInt ty x) (fun _ y z => (y + z, 0))
      (fun _ r => match r with | none => (0, 0) | some x => intResult ty.width ty.isSigned sat x) rnd s

/-- `vsumw` (11 R217). -/
def execVsumw (h : EHead) (ty ty2 : Ty) (rnd : Rnd) (sat : Bool) (km : KReg) (d a : Reg) (l : BitVec 4) (s : State) : Out' :=
  if ty.isFloat then
    reduceWord h ty.width ty2.width km d a l.toNat
      (fun env x => ((tyFmt ty).ofVal {} false ((tyFmt ty2).opd env x)).1) (fun env => (tyFmt ty).addLeaves env)
      (fun env r => match r with | none => (0, 0) | some x => (tyFmt ty).finalLeaf env x) rnd s
  else
    reduceWord h ty.width ty2.width km d a l.toNat (fun _ x => tyInt ty2 x) (fun _ y z => (y + z, 0))
      (fun _ r => match r with | none => (0, 0) | some x => intResult ty.width ty.isSigned sat x) rnd s

/-- A segment's extreme (11 R217): larger or smaller by R133, with the identity of an empty segment. -/
def extremeWord (larger : Bool) (h : EHead) (ty : Ty) (km : KReg) (d a : Reg) (l : BitVec 4) (s : State) : Out' :=
  let f := tyFmt ty
  if ty.isFloat then
    reduceWord h ty.width ty.width km d a l.toNat (fun env x => f.leaf env x) (fun _ y z => f.pick larger {} y z)
      (fun env r => match r with | none => (f.signed larger (f.maxBits + 1), 0) | some x => f.finalLeaf env x) .dyn s
  else
    reduceWord h ty.width ty.width km d a l.toNat (fun _ x => tyInt ty x)
      (fun _ y z => (if larger then max y z else min y z, 0))
      (fun _ r => (wrapInt ty.width (r.getD (if larger then intMin ty.width ty.isSigned else intMax ty.width ty.isSigned)), 0))
      .dyn s

/-- `vmaxr` (11 R217). -/
def execVmaxr (h : EHead) (ty : Ty) (km : KReg) (d a : Reg) (l : BitVec 4) (s : State) : Out' :=
  extremeWord true h ty km d a l s

/-- `vminr` (11 R217). -/
def execVminr (h : EHead) (ty : Ty) (km : KReg) (d a : Reg) (l : BitVec 4) (s : State) : Out' :=
  extremeWord false h ty km d a l s

/-! ## Special functions (11 R218-R220)

Each function is worked out in fixed point with 640 fraction bits, far past any rounding boundary of FP32 near its value, and
then rounded once with a sticky bit below the last place. Its exact cases are taken apart first. -/

/-- The fraction bits of the fixed-point numbers below. -/
def fxBits : Nat := 640

/-- One in fixed point. -/
def fxOne : Nat := 2 ^ 640

/-- π/2 with 800 fraction bits, rounded down. -/
def fxHalfPi : Nat :=
  0x1921FB54442D18469898CC51701B839A252049C1114CF98E804177D4C76273644A29410F31C6809BBDF2A33679A748636605614DBE4BE286E9FC26ADADAA3848BC90B6AECC4BCFD8DE89885D34C6FDAD617FEB96DE80D6FDBDC70D7F6B5133F4B5D3E4822

/-- ln 2 in fixed point, rounded down. -/
def fxLn2 : Nat :=
  0xB17217F7D1CF79ABC9E3B39803F2F6AF40F343267298B62D8A0D175B8BAAFA2BE7B876206DEBAC98559552FB4AFA1B10ED2EAE35C138214427573B291169B8253E96CA16224AE8C51ACBDA11317C387E

/-- The sum of the terms of e^r from term k on, for r below 1. -/
def fxExpFrom (r : Nat) : Nat → Nat → Nat → Nat
  | 0, _, _ => 0
  | n + 1, k, t => t + fxExpFrom r n (k + 1) (t * r / 2 ^ 640 / k)

/-- e^r for a fixed-point r below 1. -/
def fxExp (r : Nat) : Nat := fxExpFrom r 150 1 fxOne

/-- The terms of the sine or cosine series from the term t on, whose next divisor is k (k + 1); signs alternate. -/
def fxTrigFrom (r2 : Nat) : Nat → Nat → Int → Int
  | 0, _, _ => 0
  | n + 1, k, t => t + fxTrigFrom r2 n (k + 2) (-(t * r2 / (2 : Int) ^ 640 / ((k * (k + 1) : Nat) : Int)))

/-- sin r for a fixed-point r below 2. -/
def fxSin (r : Nat) : Int := fxTrigFrom (r * r / 2 ^ 640) 90 2 r

/-- cos r for a fixed-point r below 2. -/
def fxCos (r : Nat) : Int := fxTrigFrom (r * r / 2 ^ 640) 90 1 fxOne

/-- The terms z^k / k of the inverse hyperbolic tangent for odd k, z2 being z squared. -/
def fxAtanhFrom (z2 : Nat) : Nat → Nat → Nat → Nat
  | 0, _, _ => 0
  | n + 1, k, t => t / k + fxAtanhFrom z2 n (k + 2) (t * z2 / 2 ^ 640)

/-- ln f for a fixed-point f from 1 to 2. -/
def fxLn (f : Nat) : Nat :=
  let z := (f - fxOne) * fxOne / (f + fxOne)
  2 * fxAtanhFrom (z * z / 2 ^ 640) 220 1 z

/-- A magnitude m * 2^e in fixed point, cut at the last place. -/
def fxOf (m : Nat) (e : Int) : Nat := if 0 ≤ e + fxBits then m * 2 ^ (e + fxBits).toNat else m / 2 ^ (-(e + fxBits)).toNat

/-- The value of a fixed-point integer times 2^k, with a sticky bit. -/
def fxVal (neg : Bool) (x : Nat) (k : Int) : Val := .fin neg (2 * x + 1) (k - fxBits - 1)

/-- e^x for x = ±a with a in fixed point: a fixed-point number from 1 to 2 and an exponent of two. -/
def fxExpPair (neg : Bool) (a : Nat) : Nat × Int :=
  let x : Int := if neg then -(a : Int) else a
  let k := Int.fdiv x fxLn2
  (fxExp (x - k * fxLn2).toNat, k)

/-- e^x, for a finite x. A magnitude of 1,024 or more is past the range of every format. -/
def valExp (neg : Bool) (m : Nat) (e : Int) : Val :=
  if m = 0 then .fin false 1 0
  else
    let r := fxExpPair neg (min (fxOf m e) (1024 * fxOne))
    fxVal false r.1 r.2

/-- 2^x, for a finite x. -/
def valExp2 (neg : Bool) (m : Nat) (e : Int) : Val :=
  let a := min (fxOf m e) (1024 * fxOne)
  let x : Int := if neg then -(a : Int) else a
  let k := Int.fdiv x fxOne
  let r := (x - k * fxOne).toNat
  if r = 0 then .fin false 1 k else fxVal false (fxExp (r * fxLn2 / 2 ^ 640)) k

/-- log2 x, for a finite x above 0. -/
def valLog2 (m : Nat) (e : Int) : Val :=
  let n := Nat.log2 m
  let k : Int := e + n
  if m = 2 ^ n then Val.ofInt false k 0
  else
    let l : Int := k * fxOne + ((fxLn (m * fxOne / 2 ^ n) * fxOne / fxLn2 : Nat) : Int)
    fxVal (decide (l < 0)) l.natAbs 0

/-- 1 / √x, for a finite x above 0, with 128 bits and a sticky bit. -/
def valRsqrt (m : Nat) (e : Int) : Val :=
  let (m, e) := if e % 2 = 0 then (m, e) else (2 * m, e - 1)
  let k := 2 * (128 + Nat.log2 m)
  let r := isqrt (2 ^ k / m)
  .fin false (2 * r + (if r * r * m = 2 ^ k then 0 else 1)) (-(e / 2) - k / 2 - 1)

/-- sin x or cos x, for a finite x: the quadrant and the remainder of |x| by π/2. -/
def valTrig (cosine neg : Bool) (m : Nat) (e : Int) : Val :=
  if m = 0 then (if cosine then .fin false 1 0 else .fin neg 0 0)
  else
    let x := if 0 ≤ e + 800 then m * 2 ^ (e + 800).toNat else 0
    let n := x / fxHalfPi + (if cosine then 1 else 0)
    let r := x % fxHalfPi / 2 ^ 160
    let y := if n % 2 = 0 then fxSin r else fxCos r
    fxVal ((n % 4 ≥ 2) != (!cosine && neg)) y.natAbs 0

/-- tanh x, for a finite x. -/
def valTanh (neg : Bool) (m : Nat) (e : Int) : Val :=
  if m = 0 then .fin neg 0 0
  else
    let (t, k) := fxExpPair true (2 * min (fxOf m e) (128 * fxOne))
    let u := t / 2 ^ (-k).toNat
    fxVal neg ((fxOne - u) * fxOne / (fxOne + u)) 0

/-- 1 / (1 + e^-x), for a finite x. -/
def valSigm (neg : Bool) (m : Nat) (e : Int) : Val :=
  if m = 0 then .fin false 1 (-1)
  else
    let (t, k) := fxExpPair true (min (fxOf m e) (512 * fxOne))
    let u := t / 2 ^ (-k).toNat
    fxVal false ((if neg then u else fxOne) * fxOne / (fxOne + u)) 0

/-- The special functions that R219 rounds to nearest even. -/
inductive SpecialFn where
  | exp | exp2 | log2 | rcp | rsqrt | sin | cos | tanh | sigm
  deriving DecidableEq, Repr

/-- A function's exact value, up to a sticky bit, with the special inputs and the flags of R220. -/
def SpecialFn.val (f : SpecialFn) (v : Val) : Val × Nat :=
  match f, v with
  | _, .nan => (.nan, 0)
  | .exp, .inf n | .exp2, .inf n => (if n then .fin false 0 0 else .inf false, 0)
  | .exp, .fin n m e => (valExp n m e, 0)
  | .exp2, .fin n m e => (valExp2 n m e, 0)
  | .log2, .inf n => if n then (.nan, flagIV) else (.inf false, 0)
  | .log2, .fin n m e => if m = 0 then (.inf true, flagDZ) else if n then (.nan, flagIV) else (valLog2 m e, 0)
  | .rcp, .inf n => (.fin n 0 0, 0)
  | .rcp, .fin n m e => if m = 0 then (.inf n, flagDZ) else ((Val.div 64 (.fin false 1 0) (.fin n m e)).1, 0)
  | .rsqrt, .inf n => if n then (.nan, flagIV) else (.fin false 0 0, 0)
  | .rsqrt, .fin n m e => if m = 0 then (.inf n, flagDZ) else if n then (.nan, flagIV) else (valRsqrt m e, 0)
  | .sin, .inf _ | .cos, .inf _ => (.nan, flagIV)
  | .sin, .fin n m e => (valTrig false n m e, 0)
  | .cos, .fin n m e => (valTrig true n m e, 0)
  | .tanh, .inf n => (.fin n 1 0, 0)
  | .tanh, .fin n m e => (valTanh n m e, 0)
  | .sigm, .inf n => (if n then .fin false 0 0 else .fin false 1 0, 0)
  | .sigm, .fin n m e => (valSigm n m e, 0)

/-- A special function on an element (11 R219): rounded to FP32 to nearest even, FZ acting on it, and for another format
rounded again into that. OF is set where `vexp` or `vexp2` of a finite input overflows the format (11 R220). -/
def SpecialFn.apply (f : SpecialFn) (ty : Ty) (mode : BitVec 4) (x : Nat) : Nat × Nat :=
  let t := tyFmt ty
  let env : FEnv := { rm := .rne, daz := mode.getLsbD 2, fz := mode.getLsbD 3 }
  let v := t.opd env x
  let r := f.val v
  let y := ((tyFmt .fp32).ofVal env false r.1).1
  let z := if ty = .fp32 then y else (t.ofVal env false ((tyFmt .fp32).val y)).1
  let tooBig := (f == .exp || f == .exp2) && z == t.maxBits + 1 && (match v with | .fin _ _ _ => true | _ => false)
  (z, r.2 ||| (if tooBig then flagOF else 0))

/-- A special function as a word. -/
def specialWord (f : SpecialFn) (h : EHead) (ty : Ty) (km : KReg) (d a : Reg) (s : State) : Out' :=
  vec1 h ty km d a (fun x a => f.apply ty x.mode a) s

/-- `vexp` (11 R218-R220). -/
def execVexp (h : EHead) (ty : Ty) (km : KReg) (d a : Reg) (s : State) : Out' := specialWord .exp h ty km d a s

/-- `vexp2` (11 R218-R220). -/
def execVexp2 (h : EHead) (ty : Ty) (km : KReg) (d a : Reg) (s : State) : Out' := specialWord .exp2 h ty km d a s

/-- `vlog2` (11 R218-R220). -/
def execVlog2 (h : EHead) (ty : Ty) (km : KReg) (d a : Reg) (s : State) : Out' := specialWord .log2 h ty km d a s

/-- `vrcp` (11 R218-R220). -/
def execVrcp (h : EHead) (ty : Ty) (km : KReg) (d a : Reg) (s : State) : Out' := specialWord .rcp h ty km d a s

/-- `vrsqrt` (11 R218-R220). -/
def execVrsqrt (h : EHead) (ty : Ty) (km : KReg) (d a : Reg) (s : State) : Out' := specialWord .rsqrt h ty km d a s

/-- `vsqrt` (11 R218): rounded once under R128 and R132. -/
def execVsqrt (h : EHead) (ty : Ty) (rnd : Rnd) (km : KReg) (d a : Reg) (s : State) : Out' :=
  vec1 h ty km d a (fun x a => (tyFmt ty).sqrt (x.env rnd) false a) s

/-- `vsin` (11 R218-R220). -/
def execVsin (h : EHead) (ty : Ty) (km : KReg) (d a : Reg) (s : State) : Out' := specialWord .sin h ty km d a s

/-- `vcos` (11 R218-R220). -/
def execVcos (h : EHead) (ty : Ty) (km : KReg) (d a : Reg) (s : State) : Out' := specialWord .cos h ty km d a s

/-- `vtanh` (11 R218-R220). -/
def execVtanh (h : EHead) (ty : Ty) (km : KReg) (d a : Reg) (s : State) : Out' := specialWord .tanh h ty km d a s

/-- `vsigm` (11 R218-R220). -/
def execVsigm (h : EHead) (ty : Ty) (km : KReg) (d a : Reg) (s : State) : Out' := specialWord .sigm h ty km d a s

/-! ## Random numbers (07 R152, R153) -/

/-- H(x, seed) (07 R152). -/
def randHash (x seed : W64) : W64 :=
  let h := x ^^^ (seed * 0x9E3779B97F4A7C15)
  let h := h ^^^ (h >>> 30)
  let h := h * 0xBF58476D1CE4E5B9
  let h := h ^^^ (h >>> 27)
  let h := h * 0x94D049BB133111EB
  h ^^^ (h >>> 31)

/-- The element that a hash becomes (07 R153). -/
def randElem (t : Ty) (x : W64) : Nat :=
  if t.isFloat then
    let n : Nat := if t = .fp32 then 24 else if t = .bf16 then 8 else 11
    ((tyFmt t).round {} false false (x.toNat / 2 ^ (64 - n) : Nat) (-(n : Int))).1
  else x.toNat / 2 ^ (64 - t.width)

/-- `vrand` (11 R221). -/
def execVrand (h : EHead) (ty : Ty) (km : KReg) (d _a _b : Reg) (s : State) : Out' :=
  vecElems h ty.width km d (fun x _ i => (randElem ty (randHash (x.opd 0 + BitVec.ofNat 64 i) (x.opd 1)), 0)) s

end Sys2Proof.Machine
end

