-- ==== Sys2Proof/Machine/Sheaf.lean ====
section
/-! DEFINITION. The records of page-major attention (19 R321-R324), the page lists, the sheaf buffer's merge (19 R334-R338), and
what an active layer is (19 R327). -/

namespace Sys2Proof.Machine

/-! ## The layer descriptor and the query block record (19 R321, R323) -/

/-- The fields of a layer descriptor (19 R321). -/
def lyPages (r : List Byte) : Nat := bitsOf (fieldAt r 0 8) 56 0
@[inherit_doc lyPages] def lySubl (r : List Byte) : Nat := bitsOf (fieldAt r 8 8) 56 0
@[inherit_doc lyPages] def lySubc (r : List Byte) : Nat := bitsOf (fieldAt r 16 8) 56 0
@[inherit_doc lyPages] def lyLtag (r : List Byte) : Nat := bitsOf (fieldAt r 24 8) 47 32
@[inherit_doc lyPages] def lyNp (r : List Byte) : Nat := bitsOf (fieldAt r 24 8) 31 0
@[inherit_doc lyPages] def lyPrioCode (r : List Byte) : W64 := BitVec.ofNat 64 (fieldAt r 32 8)
@[inherit_doc lyPages] def lyFrame (r : List Byte) : Nat := bitsOf (fieldAt r 40 8) 56 0
@[inherit_doc lyPages] def lyHold (r : List Byte) : Nat := bitsOf (fieldAt r 48 8) 59 48
@[inherit_doc lyPages] def lySubn (r : List Byte) : Nat := bitsOf (fieldAt r 48 8) 47 32
@[inherit_doc lyPages] def lyNslot (r : List Byte) : Nat := bitsOf (fieldAt r 48 8) 27 24
@[inherit_doc lyPages] def lyAbase (r : List Byte) : Nat := bitsOf (fieldAt r 48 8) 22 0

/-- A descriptor that fails R321. -/
def layerBad (r : List Byte) : Bool :=
  bitsOf (fieldAt r 0 8) 63 57 ≠ 0 || bitsOf (fieldAt r 8 8) 63 57 ≠ 0 || bitsOf (fieldAt r 16 8) 63 57 ≠ 0 ||
    bitsOf (fieldAt r 24 8) 63 48 ≠ 0 || bitsOf (fieldAt r 32 8) 61 32 ≠ 0 || bitsOf (fieldAt r 40 8) 63 57 ≠ 0 ||
    bitsOf (fieldAt r 48 8) 63 60 ≠ 0 || bitsOf (fieldAt r 48 8) 31 28 ≠ 0 || bitsOf (fieldAt r 48 8) 23 23 ≠ 0 ||
    (r.drop 56).any (fun b => b ≠ 0) || lySubl r % 4096 ≠ 0 || lySubc r % 4 ≠ 0 || lyNp r = 0 || lyNp r > 2 ^ 20 ||
    lySubn r = 0 || lySubn r > 3072 || lyNslot r < 2 || lyNslot r > 8 || lyAbase r % 32768 ≠ 0 ||
    bitsOf (fieldAt r 32 8) 2 0 ≠ 0

/-- The fields of a query block record (19 R323). -/
def qbLayer (r : List Byte) : Nat := bitsOf (fieldAt r 0 8) 56 0
@[inherit_doc qbLayer] def qbTable (r : List Byte) : Nat := bitsOf (fieldAt r 8 8) 56 0
@[inherit_doc qbLayer] def qbOfmt (r : List Byte) : Nat := bitsOf (fieldAt r 16 8) 57 56
@[inherit_doc qbLayer] def qbH (r : List Byte) : Nat := 8 * (bitsOf (fieldAt r 16 8) 51 48 + 1)
@[inherit_doc qbLayer] def qbQ (r : List Byte) : Nat := bitsOf (fieldAt r 16 8) 43 40 + 1
@[inherit_doc qbLayer] def qbLidx (r : List Byte) : Nat := bitsOf (fieldAt r 16 8) 37 32
@[inherit_doc qbLayer] def qbNb (r : List Byte) : Nat := bitsOf (fieldAt r 16 8) 31 0
@[inherit_doc qbLayer] def qbDest (r : List Byte) : W64 := BitVec.ofNat 64 (bitsOf (fieldAt r 24 8) 56 0)
@[inherit_doc qbLayer] def qbPitch (r : List Byte) : Nat := bitsOf (fieldAt r 32 8) 31 0
@[inherit_doc qbLayer] def qbJoin (r : List Byte) : W64 := BitVec.ofNat 64 (bitsOf (fieldAt r 40 8) 56 0)
@[inherit_doc qbLayer] def qbLsea (r : List Byte) : W64 := BitVec.ofNat 64 (bitsOf (fieldAt r 48 8) 56 0)

/-- The format of the result (19 R323). -/
def qbFmt (r : List Byte) : FFmt := tyFmt (match qbOfmt r with | 0 => .fp32 | 1 => .bf16 | _ => .fp16)

/-- The address of result element (q, c), and of row q's (M, L) (19 R338). -/
def destAt (r : List Byte) (q c : Nat) : W64 := qbDest r + BitVec.ofNat 64 (q * qbPitch r + c * ((qbFmt r).w / 8))
@[inherit_doc destAt] def lseaAt (r : List Byte) (q : Nat) : W64 := qbLsea r + BitVec.ofNat 64 (8 * q)

/-- The reserved fields of a record are 0, and OFMT is not 11 (19 R323). -/
def blockClean (r : List Byte) : Bool :=
  bitsOf (fieldAt r 0 8) 63 57 == 0 && bitsOf (fieldAt r 8 8) 63 57 == 0 && bitsOf (fieldAt r 16 8) 63 58 == 0 &&
    bitsOf (fieldAt r 16 8) 55 52 == 0 && bitsOf (fieldAt r 16 8) 47 44 == 0 && bitsOf (fieldAt r 16 8) 39 38 == 0 &&
    bitsOf (fieldAt r 24 8) 63 57 == 0 && bitsOf (fieldAt r 32 8) 63 32 == 0 && bitsOf (fieldAt r 40 8) 63 57 == 0 &&
    bitsOf (fieldAt r 48 8) 63 57 == 0 && (r.drop 56).all (fun b => b == 0) && qbOfmt r ≠ 3

/-- A window address that a completion write may not use (15 R256, 19 R338): it must lie in the direct region of a team member's
scratchpad. Every other address is judged when it is written. -/
def targetBad (i : Sid) (va : W64) (n : Nat) (s : State) : Bool :=
  isWindow va && (winClass va ≠ 0 || (match resolveWindow i va n .copyDst s with
    | .ok (.spad p c off) => !inDirect (s.core p c).carve off n
    | _ => true))

/-- JOIN is 0, or a join block in the window of a team member (19 R323, 03 R55). -/
def joinBad (i : Sid) (va : W64) (s : State) : Bool :=
  va ≠ 0 && (!isWindow va || winClass va ≠ 0 || va.toNat % 64 ≠ 0 || (match resolveWindow i va 64 .atomic s with
    | .ok (.win _ _ _) => false
    | _ => true))

/-- "attention record" for the record itself (19 R326). -/
def blockBad (i : Sid) (r : List Byte) (s : State) : Bool :=
  !blockClean r || joinBad i (qbJoin r) s ||
    (List.range (qbQ r)).any (fun q => targetBad i (destAt r q 0) (qbH r * ((qbFmt r).w / 8)) s ||
      (qbLsea r ≠ 0 && targetBad i (lseaAt r q) 8 s))

/-! ## The sower's own memory accesses -/

/-- A unit's access to this package's memory in a context: the physical address, a fault, or a wait (19 R329, R338). -/
def unitPlace (i : Sid) (dctx : Nat) (va : W64) (wr : Bool) (s : State) : Check Nat × State :=
  let bad : FaultRec := { code := fcCopySpace, addr := va }
  if va.toNat ≥ 2 ^ 57 then (.fault { code := fcTranslation, addr := va, reason := 3 }, s)
  else if isWindow va then (.fault bad, s)
  else
    match translate i.pkg dctx i va wr true s with
    | (.stall, s) => (.wait, s)
    | (.fault code r l, s) => (.fault { code := code, addr := va, reason := r, level := l }, s)
    | (.ok p pa, s) => if p ≠ i.pkg then (.fault bad, s) else (.go pa, s)

/-- The physical addresses of several accesses, or the first that fails. -/
def unitPlaces (i : Sid) (dctx : Nat) (wr : Bool) : List W64 → State → Check (List Nat) × State
  | [], s => (.go [], s)
  | va :: r, s =>
    match unitPlace i dctx va wr s with
    | (.go pa, s) =>
      match unitPlaces i dctx wr r s with
      | (.go pas, s) => (.go (pa :: pas), s)
      | x => x
    | (.fault f, s) => (.fault f, s)
    | (.wait, s) => (.wait, s)

/-! ## Page lists (19 R324) -/

/-- A page's subscriber list and counts, found in memory: the physical addresses of the list and of its counts. -/
structure PageList where
  list : Nat
  counts : Nat
  deriving DecidableEq, Repr

/-- The main and the gleaning count of a page. -/
def PageList.mains (l : PageList) (k : Package) : Nat := bitsOf (k.num' l.counts 4) 10 0
@[inherit_doc PageList.mains] def PageList.gleans (l : PageList) (k : Package) : Nat := bitsOf (k.num' l.counts 4) 26 16

/-- The main entries, upward from index 0, and the gleaning entries, downward from index 1,023. -/
def PageList.main (l : PageList) (k : Package) : List Nat := (List.range (l.mains k)).map fun j => k.num' (l.list + 4 * j) 4
@[inherit_doc PageList.main] def PageList.glean (l : PageList) (k : Package) : List Nat :=
  (List.range (l.gleans k)).map fun j => k.num' (l.list + 4 * (1023 - j)) 4

/-- The lists written, with their counts. -/
def PageList.write (l : PageList) (main glean : List Nat) (k : Package) : Package :=
  let k := k.write l.counts (leBytes 4 (main.length % 2048 + 65536 * (glean.length % 2048)))
  let k := (main.mapIdx fun j e => (j, e)).foldl (fun (k : Package) (x : Nat × Nat) => k.write (l.list + 4 * x.1) (leBytes 4 x.2)) k
  (glean.mapIdx fun j e => (j, e)).foldl (fun (k : Package) (x : Nat × Nat) => k.write (l.list + 4 * (1023 - x.1)) (leBytes 4 x.2)) k

/-- The entry of a block (19 R324): the die-local core and LIDX. -/
def entryOf (b : Block) : Nat := 256 * (b.core % 48) + qbLidx b.record

/-- The list of the page of rank n in a layer's descriptor. -/
def findList (i : Sid) (dctx : Nat) (d : List Byte) (n : Nat) (wr : Bool) (s : State) : Check PageList × State :=
  match unitPlaces i dctx wr [BitVec.ofNat 64 (lySubl d + 4096 * n), BitVec.ofNat 64 (lySubc d + 4 * n)] s with
  | (.go [a, b], s) => (.go ⟨a, b⟩, s)
  | (.fault f, s) => (.fault f, s)
  | (_, s) => (.wait, s)

/-- The lists of several pages, or the first access that fails. -/
def findLists (i : Sid) (dctx : Nat) (d : List Byte) (wr : Bool) : List Nat → State → Check (List (Nat × PageList)) × State
  | [], s => (.go [], s)
  | n :: r, s =>
    match findList i dctx d n wr s with
    | (.go l, s) =>
      match findLists i dctx d wr r s with
      | (.go ls, s) => (.go ((n, l) :: ls), s)
      | x => x
    | (.fault f, s) => (.fault f, s)
    | (.wait, s) => (.wait, s)

/-! ## Blocks and layers -/

/-- The name of a block (19 R323): context, team, VCORE and LIDX. -/
def Block.named (b : Block) (dctx vteam vcore lidx : Nat) : Bool :=
  b.dctx == dctx && b.vteam == vteam && b.vcore == vcore && qbLidx b.record == lidx

/-- The position of a rank in a block's table (19 R323). -/
def Block.pos? (b : Block) (n : Nat) : Option Nat := b.table.findIdx? (· == n)

/-- The block's layer. -/
def Block.inLayer (b : Block) (l : Layer) : Bool := b.dctx == l.dctx && qbLayer b.record == l.desc.toNat

/-- The block's team runs. -/
def Block.runs (b : Block) (k : Package) : Bool := (k.team? b.dctx b.vteam).any fun t => t.st == .running

/-- The physical core that now stands for the block's home core (19 R331, R340). -/
def Block.home (b : Block) (k : Package) : Nat :=
  match k.team? b.dctx b.vteam with
  | some t => t.coreOf b.vcore
  | none => b.core

/-- The block of a layer that a page's entry names. -/
def Die.blockOf (d : Die) (l : Layer) (n e : Nat) : Option Block :=
  d.blocks.find? fun b => b.inLayer l && entryOf b == e && (b.pos? n).isSome

/-- The pool slots taken (19 R334): each live block owns two, and each reserved or held position beyond HEAD one. -/
def Die.poolFree (d : Die) : Nat := 2016 - 2 * d.blocks.length - d.blocks.foldl (fun n b => n + b.reserved.length) 0

/-- A block changed by f, at a die. -/
def modBlock (p d k : Nat) (f : Block → Block) (s : State) : State :=
  s.modDie p d fun x => { x with blocks := x.blocks.modify k f }

/-- A layer changed by f, named by context and descriptor. -/
def modLayer (p d dctx : Nat) (desc : W64) (f : Layer → Layer) (s : State) : State :=
  s.modDie p d fun x => { x with layers := x.layers.map fun l => if l.dctx = dctx ∧ l.desc = desc then f l else l }

/-- The sequencer for whose context a unit of the die translates: the one that issued the `asub`, wherever it is now. -/
def unitSid (p : Nat) (id : Ident) (s : State) : Sid := ((s.findSeq id).filter fun i => i.pkg == p).getD ⟨p, 0, 0⟩

/-- The ranks of a layer's pages that some live block has subscribed to: every other page has no entry of a live block. -/
def Die.ranksOf (d : Die) (l : Layer) : List Nat := ((d.blocks.filter fun b => b.inLayer l).flatMap (·.table)).eraseDups

/-- Some page of a layer, of the ranks given, has a gleaning entry whose block passes the test; a walk of a CRIT leaf on the way is begun
and the answer then not yet. -/
def layerGleans (p : Nat) (l : Layer) (ok : Block → Bool) (d : Die) : List Nat → State → Bool × State
  | [], s => (false, s)
  | n :: r, s =>
    match findList (unitSid p l.by_ s) l.dctx l.bytes n false s with
    | (.go pl, s) => if (pl.glean (s.pkg p)).any (fun e => (d.blockOf l n e).any ok) then (true, s) else layerGleans p l ok d r s
    | (.wait, s) => (false, s)
    | (_, s) => layerGleans p l ok d r s

/-- The counts of pages zeroed (19 R324): the state, and the ranks whose walk waits. A count whose address does not translate is not
written. -/
def zeroCounts (p : Nat) (l : Layer) : List Nat → State → List Nat × State
  | [], s => ([], s)
  | n :: r, s =>
    match unitPlace (unitSid p l.by_ s) l.dctx (BitVec.ofNat 64 (lySubc l.bytes + 4 * n)) true s with
    | (.go pa, s) => zeroCounts p l r (s.modPkg p fun k => k.write pa (leBytes 4 0))
    | (.wait, s) => let x := zeroCounts p l r s; (n :: x.1, x.2)
    | (_, s) => zeroCounts p l r s

/-- A layer leaves the sower once its counts are zeroed (19 R324, R327). -/
def endLayer (p d : Nat) (l : Layer) (ranks : List Nat) (s : State) : State :=
  let (left, s) := zeroCounts p l ranks s
  if left.isEmpty then s.modDie p d fun x => { x with layers := x.layers.filter fun y => !(y.dctx == l.dctx && y.desc == l.desc) }
  else modLayer p d l.dctx l.desc (fun l => { l with phase := .ending, left := left }) s

/-- A layer retires: the sower zeroes the counts of all its pages (19 R324, R327). -/
def retireLayer (p d : Nat) (l : Layer) (s : State) : State :=
  if l.phase == .ending then s else endLayer p d l (List.range (lyNp l.bytes)) s

/-- The layers whose main pass has ended and of which no block is live, so that no entry of one remains, retire (19 R327). -/
def retireLayers (p d : Nat) (s : State) : State :=
  ((s.pkg p).die d).layers.foldl (fun s l =>
    if (l.phase == .rest || l.phase == .glean) && !((s.pkg p).die d).blocks.any (fun b => b.inLayer l) then retireLayer p d l s
    else s) s

/-! ## The merge (19 R335-R337) -/

/-- An FP32 word of a partial. -/
def f32At (bs : List Byte) (off : Nat) : BitVec 32 := BitVec.ofNat 32 (fieldAt bs off 4)

/-- Exp2F (19 R337, 11 R219). -/
def exp2F (x : BitVec 32) : BitVec 32 := BitVec.ofNat 32 (SpecialFn.exp2.apply .fp32 0 x.toNat).1

/-- RoundFP32(x a + y b), with one rounding (19 R337). -/
def twoTerm (x a y b : BitVec 32) : BitVec 32 :=
  let f := tyFmt .fp32
  let p := (Val.mul (f.val x.toNat) (f.val a.toNat)).1
  let q := (Val.mul (f.val y.toNat) (f.val b.toNat)).1
  BitVec.ofNat 32 (f.ofVal {} false (p.add .rne q).1).1

/-- An FP32 word is NaN, plus or minus infinity. -/
def f32Nan (x : BitVec 32) : Bool := ((tyFmt .fp32).val x.toNat).isNan
/-- Plus infinity and minus infinity in FP32. -/
def posInf : BitVec 32 := 0x7F800000
@[inherit_doc posInf] def negInf : BitVec 32 := 0xFF800000
/-- The canonical NaN of FP32. -/
def nan32 : BitVec 32 := 0x7FC00000

/-- One row merged (19 R337): M, L and O of the accumulator with m, l and o of the partial. -/
def mergeRow (m0 l0 : BitVec 32) (o0 : List (BitVec 32)) (m l : BitVec 32) (o : List (BitVec 32)) :
    BitVec 32 × BitVec 32 × List (BitVec 32) :=
  if f32Nan m || f32Nan l0 || f32Nan m0 || m == posInf then (nan32, nan32, o0.map fun _ => nan32)
  else if m == negInf then (m0, l0, o0)
  else if m0 == negInf then (m, l, o)
  else
    let f := tyFmt .fp32
    let n : BitVec 32 := BitVec.ofNat 32 (f.pick true {} m0.toNat m.toNat).1
    let a := exp2F (BitVec.ofNat 32 (f.sub {} false m0.toNat n.toNat).1)
    let b := exp2F (BitVec.ofNat 32 (f.sub {} false m.toNat n.toNat).1)
    (n, twoTerm l0 a l b, List.zipWith (fun x y => twoTerm x a y b) o0 o)

/-- The partial of position HEAD merged into the accumulator, and HEAD raised (19 R337). -/
def Block.mergePartial (b : Block) (bs : List Byte) : Block :=
  let h := qbH b.record
  let rows := (List.range (qbQ b.record)).map fun q =>
    mergeRow (b.m.getD q negInf) (b.l.getD q 0) ((List.range h).map fun c => cellGet 0 b.o (128 * q + c))
      (f32At bs (4 * q)) (f32At bs (64 + 4 * q)) ((List.range h).map fun c => f32At bs (128 + 512 * q + 4 * c))
  { b with
    m := rows.map (·.1), l := rows.map (·.2.1)
    o := ((rows.mapIdx fun q r => r.2.2.mapIdx fun c v => (128 * q + c, v)).flatten).filter fun e => e.2 ≠ 0
    held := b.held.filter fun x => x.1 ≠ b.head, head := b.head + 1
    reserved := b.reserved.filter fun x => x ≠ b.head + 1 }

/-! ## Completion (19 R338) -/

/-- The result element (q, c) (19 R338). -/
def Block.result (b : Block) (q c : Nat) : Nat :=
  let f := qbFmt b.record
  let v := fun (x : BitVec 32) => (tyFmt .fp32).val x.toNat
  if b.m.getD q negInf == negInf then 0
  else (f.ofVal {} false (Val.div 64 (v (cellGet 0 b.o (128 * q + c))) (v (b.l.getD q 0))).1).1

/-- The writes of a completed block, in order: addresses and bytes (19 R338). -/
def Block.writes (b : Block) : List (W64 × List Byte) :=
  (List.range (qbQ b.record)).flatMap fun q =>
    ((List.range (qbH b.record)).map fun c => (destAt b.record q c, leBytes ((qbFmt b.record).w / 8) (b.result q c))) ++
      (if qbLsea b.record = 0 then []
       else [(lseaAt b.record q, leBytes 4 (b.m.getD q negInf).toNat ++ leBytes 4 (b.l.getD q 0).toNat)])

/-- A write to this package's memory (19 R338), which may cross into another page: both are translated first. -/
def unitWrite (i : Sid) (dctx : Nat) (va : W64) (bs : List Byte) (s : State) : Check Unit × State :=
  let n := 4096 - va.toNat % 4096
  match unitPlaces i dctx true (if bs.length ≤ n then [va] else [va, va + BitVec.ofNat 64 n]) s with
  | (.go [a], s) => (.go (), writePlace bs (.mem i.pkg a) s)
  | (.go [a, b], s) => (.go (), writePlace (bs.drop n) (.mem i.pkg b) (writePlace (bs.take n) (.mem i.pkg a) s))
  | (.fault f, s) => (.fault f, s)
  | (_, s) => (.wait, s)

/-- One write of a completed block (19 R338): to this package's memory, or to the direct region of a team member's scratchpad. -/
def completionWrite (i : Sid) (b : Block) (va : W64) (bs : List Byte) (s : State) : Check Unit × State :=
  let bad : FaultRec := { code := fcCopySpace, addr := va }
  if isWindow va && decide (va.toNat < 2 ^ 57) then
    match resolveWindow i va bs.length .copyDst s with
    | .ok (.spad p c off) =>
      if !inDirect (s.core p c).carve off bs.length then (.fault bad, s)
      else if (s.core p c).wakingAt off bs.length then (.wait, s)
      else (.go (), writePlace bs (.spad p c off) s)
    | _ => (.fault bad, s)
  else unitWrite i b.dctx va bs s

/-- What the writes of a completed block come to: all made, a fault, or a wait with n of them made in all. -/
inductive Written where
  | all
  | fault
  | wait (n : Nat)
  deriving DecidableEq, Repr

/-- The writes of a completed block from the n-th on, one after another; a fault is raised against the context, and the writes before it
remain (19 R338, 23 R363). -/
def completionWrites (i : Sid) (b : Block) : List (W64 × List Byte) → Nat → State → Written × State
  | [], _, s => (.all, s)
  | w :: r, n, s =>
    match completionWrite i b w.1 w.2 s with
    | (.wait, s) => (.wait n, s)
    | (.fault f, s) => (.fault, deferFault b.by_ { f with queue := eqNum .s, caddr := b.caddr } s)
    | (.go _, s) => completionWrites i b r (n + 1) s

/-- The join decrement of a completed block (19 R338, 03 R55). -/
def completionJoin (i : Sid) (b : Block) (s : State) : Option State :=
  let va := qbJoin b.record
  if va = 0 then some s
  else
    match resolveWindow i va 64 .atomic s with
    | .ok (.win p c off) => joinDecrement p c off b.by_ va b.caddr s
    | _ => some s

/-- A block's slots and LIDX are free (19 R338). -/
def freeBlock (p d : Nat) (b : Block) (s : State) : State :=
  retireLayers p d (s.modDie p d fun x =>
    { x with blocks := x.blocks.filter fun y => !y.named b.dctx b.vteam b.vcore (qbLidx b.record) })

/-- A block's completion has come so far: the next attempt goes on from there. -/
def pauseBlock (p d : Nat) (b : Block) (n : Nat) (s : State) : State :=
  s.modDie p d fun x =>
    { x with blocks := x.blocks.map fun y => if y.named b.dctx b.vteam b.vcore (qbLidx b.record) then { y with written := n } else y }

/-- A block completes (19 R338): its results are written, its join decremented, and its slots and LIDX freed; or it gets as far as it
can. A fault of a write leaves the join as it is; that the block's slots and LIDX are then freed is the model's choice (assumption 48),
for the rule does not say it. -/
def completeBlock (p d : Nat) (b : Block) (s : State) : State :=
  let i := unitSid p b.by_ s
  match completionWrites i b (b.writes.drop b.written) b.written s with
  | (.wait n, s) => pauseBlock p d b n s
  | (.fault, s) => freeBlock p d b s
  | (.all, s) =>
    match completionJoin i b s with
    | none => pauseBlock p d b b.writes.length s
    | some s => freeBlock p d b s

end Sys2Proof.Machine
end

