-- ==== Sys2Proof/Machine/VecMem.lean ====
section
/-! DEFINITION. The vector loads and stores (11 R222-R225): accesses of the own core's scratchpad by offset, checked at the
head of the C queue and performed at issue. -/

namespace Sys2Proof.Machine

/-- The check of accesses by scratchpad offset, each an offset and a length: every byte lies in the direct region of the carve
in force (11 R223, 15 R256), and none in a waking granule (15 R261). The record's ADDR is where the first access out of range starts, which is
the model's choice (assumption 58). -/
def spadGate (i : Sid) (acc : List (Int × Nat)) (s : State) : Gate :=
  let c := s.core i.pkg i.core
  match acc.find? fun a => !(decide (0 ≤ a.1) && inDirect c.carve a.1.toNat a.2) with
  | some a => .fault fcSpadRange (BitVec.ofInt 64 a.1)
  | none => if acc.any fun a => c.wakingAt a.1.toNat a.2 then .wait else .go

/-- The checks of a vector access: alignment first, at the given address, then the bytes. An entry with no access raises
nothing (11 R223). -/
def vecGate (aligned : Bool) (at_ : W64) (acc : List (Int × Nat)) (s : State) : Gate × State :=
  (if acc.isEmpty then .go else if !aligned then .fault fcAlignment at_ else spadGate s.who acc s, s)

/-- A C entry's bytes are still to be read by an earlier command of the same queue that waits in the array (13 R228). -/
def Core.stillReads (c : Core) (n : Nat) (acc : List (Nat × Nat)) : Bool :=
  c.array.any fun a => a.seq == n && a.reads.any fun r => acc.any fun b => decide (r.1 < b.1 + b.2) && decide (b.1 < r.1 + r.2)

/-- The gate of a store: it waits, too, for the earlier commands of its queue that still read its bytes (13 R228). -/
def storeGate (g : Gate × State) (acc : List (Int × Nat)) : Gate × State :=
  let s := g.2
  if g.1 == .go && (s.core s.who.pkg s.who.core).stillReads s.who.seq (acc.map fun a => (a.1.toNat, a.2)) then (.wait, s) else g

/-- A C entry that accesses the scratchpad: the checks before its tokens, then its effect on the core, whole. -/
def vecMem (h : EHead) (gate : Entry → Seq → State → Gate × State) (f : Entry → Seq → Core → Core) (s : State) : Out' :=
  issueEntry .c h (fun x s => gate x (s.seq s.who) s) (fun x s =>
    s.modCore s.who.pkg s.who.core fun c =>
      (f x (c.seq s.who.seq) c).modSeq s.who.seq fun q => q.complete .c x.id) s

/-- b := sA + SExt(IMM36, 64), unbounded (11 R222, R223). -/
def Entry.base (x : Entry) (imm : BitVec 36) : Int := (x.opd 0).toNat + imm.toInt

/-- The checks of `vld`, `vst` and `vldb`: n bytes at b (11 R223). -/
def baseGate (n : Nat) (imm : BitVec 36) (x : Entry) (_ : Seq) (s : State) : Gate × State :=
  vecGate (x.base imm % 64 == 0) (BitVec.ofInt 64 (x.base imm)) [(x.base imm, n)] s

/-- A register's contents from bytes (11 R197, 00 R4). -/
def vecOfBytes (bs : List Byte) : Vec := BitVec.ofNat 4096 (leNat bs)

/-- `vld` (11 R222). -/
def execVld (h : EHead) (d _a : Reg) (imm : BitVec 36) (s : State) : Out' :=
  let i := s.who.seq
  vecMem h (baseGate 512 imm) (fun x _ c =>
    c.modSeq i fun q => q.setV d (vecOfBytes (c.spadBytes (x.base imm).toNat 512))) s

/-- `vst` (11 R222). -/
def execVst (h : EHead) (d _a : Reg) (imm : BitVec 36) (s : State) : Out' :=
  vecMem h (fun x q s => storeGate (baseGate 512 imm x q s) [(x.base imm, 512)]) (fun x q c => c.setSpad (x.base imm).toNat (leBytes 512 (q.vr d).toNat)) s

/-- `vldb` (11 R222): 64 B copied into each of the eight chunks. -/
def execVldb (h : EHead) (d _a : Reg) (imm : BitVec 36) (s : State) : Out' :=
  let i := s.who.seq
  vecMem h (baseGate 64 imm) (fun x _ c =>
    c.modSeq i fun q =>
      q.setV d (vecOfBytes ((List.range 8).flatMap fun _ => c.spadBytes (x.base imm).toNat 64))) s

/-! ## Strided accesses -/

/-- The address of chunk j: sA unsigned, sB signed (11 R222). -/
def Entry.chunk (x : Entry) (j : Nat) : Int := (x.opd 0).toNat + j * (x.opd 1).toInt

/-- Elements of width w in a chunk of 64 B. -/
def perChunk (w : Nat) : Nat := 512 / w

/-- Chunk j has an active element. -/
def chunkActive (w : Nat) (m : Msk) (j : Nat) : Bool := (List.range (perChunk w)).any fun p => m.getLsbD (j * perChunk w + p)

/-- The accesses of `vlds` and `vsts`: the chunks with an active element. -/
def strideAcc (w : Nat) (km : KReg) (x : Entry) (q : Seq) : List (Int × Nat) :=
  ((List.range 8).filter (chunkActive w (q.kr km))).map fun j => (x.chunk j, 64)

/-- The checks of `vlds` and `vsts` (11 R223). ADDR of a misaligned one is sA, also where only sB is misaligned: the model's choice, for
23 R365 says only "the faulting virtual address" (assumption 58). -/
def strideGate (w : Nat) (km : KReg) (x : Entry) (q : Seq) (s : State) : Gate × State :=
  vecGate ((x.opd 0).toNat % 64 == 0 && (x.opd 1).toNat % 64 == 0) (x.opd 0) (strideAcc w km x q) s

/-- `vlds` (11 R222, R224). -/
def execVlds (h : EHead) (ty : Ty) (km : KReg) (d _a _b : Reg) (s : State) : Out' :=
  let w := ty.width
  let i := s.who.seq
  vecMem h (strideGate w km) (fun x q c =>
    let chunks := (List.range 8).map fun j => leNat (c.spadBytes (x.chunk j).toNat 64)
    let v := governed w (q.kr km) (q.vr d) fun e =>
      (chunks.getD (e / perChunk w) 0 / 2 ^ (w * (e % perChunk w)) % 2 ^ w, 0)
    c.modSeq i fun q => q.setV d v.1) s

/-- The bytes of chunk j as `vsts` leaves them, over the bytes found: active elements alone change (11 R224). -/
def mergeChunk (w : Nat) (m : Msk) (v : Vec) (j old : Nat) : Nat :=
  ((List.range (perChunk w)).map fun p =>
    let e := j * perChunk w + p
    if m.getLsbD e then velem w v e else old / 2 ^ (w * p) % 2 ^ w).foldr (fun x acc => x + 2 ^ w * acc) 0

/-- `vsts` (11 R222, R224): chunks in ascending order. -/
def execVsts (h : EHead) (ty : Ty) (km : KReg) (d _a _b : Reg) (s : State) : Out' :=
  let w := ty.width
  vecMem h (fun x q s => storeGate (strideGate w km x q s) (strideAcc w km x q)) (fun x q c =>
    ((List.range 8).filter (chunkActive w (q.kr km))).foldl (fun c j =>
      let o := (x.chunk j).toNat
      c.setSpad o (leBytes 64 (mergeChunk w (q.kr km) (q.vr d) j (leNat (c.spadBytes o 64))))) c) s

/-! ## Indexed accesses -/

/-- The address of element i: sA + V[B][i] x (w/8), the index unsigned (11 R222). -/
def Entry.element (x : Entry) (w : Nat) (q : Seq) (b : Reg) (i : Nat) : Nat := (x.opd 0).toNat + velem w (q.vr b) i * (w / 8)

/-- The active elements. -/
def activeOf (w : Nat) (m : Msk) : List Nat := (List.range (elems w)).filter fun i => m.getLsbD i

/-- The accesses of `vldx` and `vstx`: the active elements. -/
def indexAcc (w : Nat) (km : KReg) (b : Reg) (x : Entry) (q : Seq) : List (Int × Nat) :=
  (activeOf w (q.kr km)).map fun i => ((x.element w q b i : Int), w / 8)

/-- The checks of `vldx` and `vstx` (11 R223). -/
def indexGate (w : Nat) (km : KReg) (b : Reg) (x : Entry) (q : Seq) (s : State) : Gate × State :=
  vecGate ((x.opd 0).toNat % (w / 8) == 0) (x.opd 0) (indexAcc w km b x q) s

/-- `vldx` (11 R222, R224). -/
def execVldx (h : EHead) (ty : Ty) (km : KReg) (d _a b : Reg) (s : State) : Out' :=
  let w := ty.width
  let i := s.who.seq
  vecMem h (indexGate w km b) (fun x q c =>
    let v := governed w (q.kr km) (q.vr d) fun e => (leNat (c.spadBytes (x.element w q b e) (w / 8)), 0)
    c.modSeq i fun q => q.setV d v.1) s

/-- `vstx` (11 R222, R224): elements in ascending order. -/
def execVstx (h : EHead) (ty : Ty) (km : KReg) (d _a b : Reg) (s : State) : Out' :=
  let w := ty.width
  vecMem h (fun x q s => storeGate (indexGate w km b x q s) (indexAcc w km b x q)) (fun x q c =>
    (activeOf w (q.kr km)).foldl (fun c e => c.setSpad (x.element w q b e) (leBytes (w / 8) (velem w (q.vr d) e))) c) s

end Sys2Proof.Machine
end

