-- ==== Sys2Proof/Machine/Attention.lean ====
section
/-! DEFINITION. Page-major attention (19 R320-R342): the words `asub`, `aunsub`, `amerge`, `afin` and `await`, the sower's walk,
the gleaning passes and the merge units. -/

namespace Sys2Proof.Machine

/-! ## Subscribing and withdrawing (19 R326-R328) -/

/-- The live block that LIDX names on a sequencer's core (19 R323). -/
def liveBlock (i : Sid) (lidx : Nat) (s : State) : Option (Nat × Block) :=
  let q := s.seq i
  let bs := ((s.pkg i.pkg).die (dieOf i.core)).blocks
  (bs.findIdx? fun b => b.named q.dctx.toNat q.vteam.toNat q.vcore.toNat lidx).bind fun k => (bs[k]?).map fun b => (k, b)

/-- The active layer of a descriptor address in a context. -/
def Die.layer? (d : Die) (dctx desc : Nat) : Option Layer := d.layers.find? fun l => l.dctx == dctx && l.desc.toNat == desc

/-- The checks that `asub` and `aunsub` share (19 R326): the record, then "attention record". They hand on the record and the
descriptor. -/
def recordCheck (x : Entry) (s : State) : Check (List Byte × List Byte) × State :=
  let i := s.who
  let bad : FaultRec := { code := fcAttnRecord, addr := x.opd 0 }
  match readRecord i (x.opd 0) 128 s with
  | (.wait, s) => (.wait, s)
  | (.fault f, s) => (.fault f, s)
  | (.go r, s) =>
    if blockBad i r s then (.fault bad, s)
    else
      match unitPlace i (s.seq i).dctx.toNat (BitVec.ofNat 64 (qbLayer r)) false s with
      | (.wait, s) => (.wait, s)
      | (.fault _, s) => (.fault bad, s)
      | (.go pa, s) =>
        let d := (s.pkg i.pkg).bytes pa 128
        if qbLayer r % 256 ≠ 0 || layerBad d then (.fault bad, s) else (.go (r, d), s)

/-- The ranks rise strictly from a lower bound on, each below NP (19 R323). -/
def ranksOk (np : Nat) : Nat → List Nat → Bool
  | _, [] => true
  | lo, r :: rs => decide (lo ≤ r) && decide (r < np) && ranksOk np (r + 1) rs

/-- What the sower finds of a block table (19 R326): a fault against the context, or each rank with its page's lists. -/
inductive TableRead where
  | bad (f : FaultRec)
  | ok (pages : List (Nat × PageList))

/-- The block table read and checked whole (19 R326). -/
def readTable (i : Sid) (r d : List Byte) (rec_ : W64) (s : State) : Check TableRead × State :=
  let dctx := (s.seq i).dctx.toNat
  let bad : FaultRec := { code := fcBlockTable, addr := rec_ }
  if qbNb r > lyNp d then (.go (.bad bad), s)
  else
    match unitPlaces i dctx false ((List.range (qbNb r)).map fun j => BitVec.ofNat 64 (qbTable r + 4 * j)) s with
    | (.wait, s) => (.wait, s)
    | (.fault f, s) => (.go (.bad f), s)
    | (.go pas, s) =>
      let ranks := pas.map fun pa => (s.pkg i.pkg).num' pa 4
      if !ranksOk (lyNp d) 0 ranks then (.go (.bad bad), s)
      else
        match findLists i dctx d true ranks s with
        | (.wait, s) => (.wait, s)
        | (.fault f, s) => (.go (.bad f), s)
        | (.go ls, s) =>
          if ls.any fun (x : Nat × PageList) => decide (x.2.mains (s.pkg i.pkg) + x.2.gleans (s.pkg i.pkg) ≥ 1024) then
            (.go (.bad bad), s)
          else (.go (.ok ls), s)

/-- The checks and waits of an `asub` (19 R326, R329): a free LIDX, a free block of 512, and room for the layer among 16, which a retired
one whose counts are not all zeroed still holds. -/
def asubCheck (x : Entry) (s : State) : Check (List Byte × List Byte × TableRead) × State :=
  let i := s.who
  match recordCheck x s with
  | (.wait, s) => (.wait, s)
  | (.fault f, s) => (.fault f, s)
  | (.go (r, d), s) =>
    let die := (s.pkg i.pkg).die (dieOf i.core)
    if (liveBlock i (qbLidx r) s).isSome then (.fault { code := fcAttnIndex, addr := x.opd 0 }, s)
    else if die.blocks.length ≥ 512 then (.wait, s)
    else
      match die.layer? (s.seq i).dctx.toNat (qbLayer r) with
      | none =>
        match readTable i r d (x.opd 0) s with
        | (.go (.ok t), s) => if die.layers.length ≥ 16 then (.wait, s) else (.go (r, d, .ok t), s)
        | (.go t, s) => (.go (r, d, t), s)
        | (_, s) => (.wait, s)
      | some l =>
        if l.phase == .ending then (.wait, s)
        else match readTable i r l.bytes (x.opd 0) s with
        | (.go t, s) => (.go (r, l.bytes, t), s)
        | (_, s) => (.wait, s)

/-- The main pass of a layer begins (19 R327). -/
def Layer.begin (l : Layer) (now : Nat) : Layer := { l with phase := .main, started := now }

/-- A page's lists with a block's entry appended (19 R324, R326). -/
def appendEntry (late : Bool) (e : Nat) (l : PageList) (k : Package) : Package :=
  if late then l.write (l.main k) (l.glean k ++ [e]) k else l.write (l.main k ++ [e]) (l.glean k) k

/-- The one step of an `asub` at the sower (19 R326, R327): LIDX is live, the layer is active, and the entries are appended. -/
def subscribe (x : Entry) (r d : List Byte) (ls : List (Nat × PageList)) (s : State) : State :=
  let i := s.who
  let q := s.seq i
  let dn := dieOf i.core
  let old := ((s.pkg i.pkg).die dn).layer? q.dctx.toNat (qbLayer r)
  let l : Layer := old.getD { desc := BitVec.ofNat 64 (qbLayer r), bytes := d, dctx := q.dctx.toNat, by_ := q.ident,
                              caddr := x.caddr, since := s.ck }
  let b : Block := { dctx := q.dctx.toNat, vteam := q.vteam.toNat, vcore := q.vcore.toNat, core := i.core, record := r,
                     table := ls.map (·.1), m := List.replicate (qbQ r) negInf, l := List.replicate (qbQ r) 0,
                     late := l.phase == .glean, by_ := q.ident, caddr := x.caddr, addr := x.opd 0 }
  let l' := { l with subs := l.subs + 1 }
  let l' := if l'.phase == .hold && decide (l'.subs ≥ lySubn d) then l'.begin s.ck else l'
  let s := s.modPkg i.pkg fun k =>
    ls.foldl (fun (k : Package) (y : Nat × PageList) => appendEntry (l.phase != .hold) (entryOf b) y.2 k) k
  let s := s.modDie i.pkg dn fun k =>
    { k with
      blocks := k.blocks ++ [b]
      layers := if old.isSome then k.layers.map fun y => if y == l then l' else y else k.layers ++ [l'] }
  let s := s.modSeq i fun q => q.complete .s x.id
  if qbNb r = 0 then completeBlock i.pkg dn b s else s

/-- `asub` (19 R326): "block table" and a fault of its step at the sower are raised against the context, and stop it. -/
def execAsub (h : EHead) (_tag : BitVec 6) (_notag : Bool) (_r : Reg) (s : State) : Out' :=
  issueWith .s h asubCheck (fun a x s =>
    match a.2.2 with
    | .bad f => deferFault (s.seq s.who).ident { f with queue := eqNum .s, caddr := x.caddr } s
    | .ok ls => subscribe x a.1 a.2.1 ls s) s

/-- The checks of an `aunsub` (19 R328), and the lists of its block's pages. -/
def aunsubCheck (x : Entry) (s : State) : Check (Nat × Block × List (Nat × PageList)) × State :=
  let i := s.who
  match recordCheck x s with
  | (.wait, s) => (.wait, s)
  | (.fault f, s) => (.fault f, s)
  | (.go (r, _), s) =>
    match liveBlock i (qbLidx r) s with
    | none => (.fault { code := fcAttnIndex, addr := x.opd 0 }, s)
    | some (k, b) =>
      match ((s.pkg i.pkg).die (dieOf i.core)).layers.find? b.inLayer with
      | none => (.go (k, b, []), s)
      | some l =>
        match findLists i b.dctx l.bytes true b.table s with
        | (.go ls, s) => (.go (k, b, ls), s)
        | (.wait, s) => (.wait, s)
        | (.fault _, s) => (.go (k, b, []), s)

/-- The entries of a block that the sower has not served leave a page's lists (19 R328). -/
def removeEntry (l : Option Layer) (e n : Nat) (pl : PageList) (k : Package) : Package :=
  let unserved := l.any fun l => l.phase == .hold || (l.phase == .main && decide (l.rank ≤ n))
  let f := fun (es : List Nat) => es.filter fun y => y ≠ e
  pl.write (if unserved then f (pl.main k) else pl.main k) (f (pl.glean k)) k

/-- `aunsub` (19 R328). -/
def execAunsub (h : EHead) (_tag : BitVec 6) (_notag : Bool) (_r : Reg) (s : State) : Out' :=
  issueWith .s h aunsubCheck (fun a x s =>
    let i := s.who
    let dn := dieOf i.core
    let b := a.2.1
    let l := ((s.pkg i.pkg).die dn).layers.find? b.inLayer
    let s := s.modPkg i.pkg fun k =>
      a.2.2.foldl (fun (k : Package) (y : Nat × PageList) => removeEntry l (entryOf b) y.1 y.2 k) k
    let s := s.modDie i.pkg dn fun k => { k with blocks := k.blocks.eraseIdx a.1 }
    (retireLayers i.pkg dn s).modSeq i fun q => q.complete .s x.id) s

/-! ## `amerge` (19 R336) -/

/-- The size of a partial (19 R335). -/
def partialBytes : Nat := 8320

/-- What an `amerge` does: its partial is discarded, or goes to a position of a block. -/
inductive MergeTo where
  | discard
  | at_ (k p : Nat)

/-- The checks and the wait of an `amerge` (19 R336). -/
def amergeCheck (x : Entry) (s : State) : Check MergeTo × State :=
  let i := s.who
  let off := x.opd 0
  let c := s.core i.pkg i.core
  if off.toNat % 64 ≠ 0 then (.fault { code := fcAlignment, addr := off }, s)
  else if !inDirect c.carve off.toNat partialBytes then (.fault { code := fcSpadRange, addr := off }, s)
  else if (x.opd 1).toNat ≥ 64 then (.fault { code := fcAttnIndex }, s)
  else
    match liveBlock i (x.opd 1).toNat s with
    | none => (.go .discard, s)
    | some (k, b) =>
      match b.pos? (x.opd 2).toNat with
      | none => (.go .discard, s)
      | some p =>
        if p < b.head then (.go .discard, s)
        else if p < b.head + 8 && (p == b.head || b.reserved.contains p ||
            decide (0 < ((s.pkg i.pkg).die (dieOf i.core)).poolFree)) then
          if c.wakingAt off.toNat partialBytes then (.wait, s) else (.go (.at_ k p), s)
        else (.wait, s)

/-- A partial put at a position of a block: it replaces one that is there. -/
def Block.hold (b : Block) (p : Nat) (bs : List Byte) : Block :=
  { b with held := (p, bs) :: b.held.filter (fun x => x.1 ≠ p),
           reserved := if p = b.head || b.reserved.contains p then b.reserved else p :: b.reserved }

/-- `amerge` (19 R336): the partial is copied as it stands at issue. -/
def execAmerge (h : EHead) (_tag : BitVec 6) (_notag : Bool) (_r _a _b : Reg) (s : State) : Out' :=
  issueWith .s h amergeCheck (fun a x s =>
    let i := s.who
    let s := match a with
      | .discard => s
      | .at_ k p =>
        let bs := (s.core i.pkg i.core).spadBytes (x.opd 0).toNat partialBytes
        modBlock i.pkg (dieOf i.core) k (fun b => b.hold p bs) s
    s.modSeq i fun q => q.complete .s x.id) s

/-! ## Page slots (19 R331-R333) -/

/-- The slot that a page seed's ARG names, where its header holds the ARG's RANK and LTAG (19 R332). -/
def Core.argSlot (c : Core) (arg : W64) : Option PageSlot :=
  (c.pages.find? fun p => p.slot == bitsOf arg.toNat 31 28).filter fun p =>
    leNat (c.spadBytes (p.header + 8) 4) == bitsOf arg.toNat 63 32 && leNat (c.spadBytes (p.header + 12) 2) == bitsOf arg.toNat 15 0

/-- Bytes of the slot's page are still on their way to the core. -/
def Die.landing (d : Die) (core : Nat) (p : PageSlot) : Bool :=
  d.deliv.any fun v => v.mask.getLsbD (core % 48) && v.side.any fun k => match k with
    | .page off dsts => dsts.contains core && decide (p.page ≤ off) && decide (off < p.page + 32768)
    | _ => false

/-- The check of `await` and `afin` (19 R332, R333). -/
def slotCheck (wait : Entry → PageSlot → State → Bool) (x : Entry) (s : State) : Check PageSlot × State :=
  match (s.core s.who.pkg s.who.core).argSlot (x.opd 0) with
  | none => (.fault { code := fcPageSlot }, s)
  | some p => if wait x p s then (.wait, s) else (.go p, s)

/-- `await` (19 R332): it completes once every byte of the page has been written to its slot. -/
def execAwait (h : EHead) (_tag : BitVec 6) (_notag : Bool) (_r : Reg) (s : State) : Out' :=
  issueWith .l h (slotCheck fun _ p s => ((s.pkg s.who.pkg).die (dieOf s.who.core)).landing s.who.core p)
    (fun _ x s => s.modSeq s.who fun q => q.complete .l x.id) s

/-- `afin` (19 R333): once every entry dispatched earlier to the S queue has completed, the slot is free. -/
def execAfin (h : EHead) (_tag : BitVec 6) (_notag : Bool) (_r : Reg) (s : State) : Out' :=
  issueWith .s h (slotCheck fun x _ s => !(s.seq s.who).earlierDone x.id)
    (fun p x s => s.modCore s.who.pkg s.who.core fun c =>
      { c.modSeq s.who.seq fun q => q.complete .s x.id with
        pages := c.pages.map fun y => if y.slot = p.slot then { y with held := false } else y }) s

/-! ## The sower's walk (19 R329-R331, R339) -/

/-- MAIN_PASS_HOLD_EXPIRY (19 R327): HOLD × 1,024 ck after activation the main pass of a layer begins. -/
def execMainPassHoldExpiry (p d k : Nat) (s : State) : Out' :=
  match ((s.pkg p).die d).layers[k]? with
  | none => .next s
  | some l =>
    if l.phase == .hold && decide (s.ck ≥ l.since + 1024 * lyHold l.bytes) then
      .next (modLayer p d l.dctx l.desc (fun l => l.begin s.ck) s)
    else .next s

/-- A fault of the sower raised against the context, and the layer retires at once (19 R329, R363). -/
def sowerFault (p d : Nat) (l : Layer) (f : FaultRec) (s : State) : State :=
  retireLayer p d l (deferFault l.by_ { f with queue := eqNum .s, caddr := l.caddr } s)

/-- The entries of a page that the current pass may serve (19 R329, R339). -/
def passEntries (p d : Nat) (l : Layer) (n : Nat) (pl : PageList) (s : State) : List Block :=
  let k := s.pkg p
  let bs := fun (es : List Nat) => es.filterMap ((k.die d).blockOf l n)
  if l.phase == .main then bs (pl.main k) else (bs (pl.glean k)).filter fun b => b.runs k && !b.late

/-- What the sower finds of its next page: a fault, a wait, the end of the pass, or the page and its lists. -/
inductive NextPage where
  | fault (f : FaultRec)
  | wait
  | done
  | page (n : Nat) (pl : PageList)

/-- The next page of the pass from rank n on, over `fuel` ranks (19 R329, R339): a page that no live block has subscribed to has no entry
to serve, and its lists are not looked at. -/
def findPage (p d : Nat) (l : Layer) : Nat → Nat → State → NextPage × State
  | 0, _, s => (.done, s)
  | f + 1, n, s =>
    if !(((s.pkg p).die d).ranksOf l).contains n then findPage p d l f (n + 1) s
    else match findList (unitSid p l.by_ s) l.dctx l.bytes n true s with
    | (.fault x, s) => (.fault x, s)
    | (.wait, s) => (.wait, s)
    | (.go pl, s) => if (passEntries p d l n pl s).isEmpty then findPage p d l f (n + 1) s else (.page n pl, s)

/-- The entries of a page whose teams do not run move to its gleaning list (19 R329). -/
def moveAside (p d : Nat) (l : Layer) (n : Nat) (pl : PageList) (s : State) : State :=
  let k := s.pkg p
  let stays := fun (e : Nat) => ((k.die d).blockOf l n e).all fun b => b.runs k
  let out := (pl.main k).filter fun e => !stays e
  if out.isEmpty then s else s.modPkg p fun k => pl.write ((pl.main k).filter stays) (pl.glean k ++ out) k

/-- The end of a layer's attention region (19 R321). -/
def regionEnd (l : Layer) : Nat := lyAbase l.bytes + lyNslot l.bytes * (32768 + 64)

/-- The slot's page and header on every core (19 R321). -/
def slotOf (l : Layer) (k : Nat) : PageSlot :=
  { slot := k, page := lyAbase l.bytes + 32768 * k, header := lyAbase l.bytes + 32768 * lyNslot l.bytes + 64 * k }

/-- A slot header (19 R322). -/
def slotHeader (l : Layer) (n : Nat) (bs : List Block) : List Byte :=
  let mask := bs.foldl (fun (m : Nat) (b : Block) => m ||| 2 ^ qbLidx b.record) 0
  leBytes 8 mask ++ leBytes 4 n ++ leBytes 2 (lyLtag l.bytes) ++ List.replicate 50 0

/-- A page seed (19 R330). -/
def pageSeed (l : Layer) (n k : Nat) : List W64 :=
  [lyPrioCode l.bytes, BitVec.ofNat 64 (lyFrame l.bytes), 0, BitVec.ofNat 64 (n * 2 ^ 32 + k * 2 ^ 28 + lyLtag l.bytes)]

/-- The outcome of serving a page: not now, with the state that the attempt leaves, or done, a fault included. -/
inductive Served where
  | later (s : State)
  | done (s : State)

/-- The page seeds pushed, one to each core (19 R330): not now, and the state as it was, where a queue has no room. -/
def pushSeeds (p d : Nat) (l : Layer) (ws : List W64) (was : State) : List Nat → State → Served
  | [], s => .done s
  | c :: cs, s =>
    match offerSeed p c false false ws s with
    | .full _ _ => .later was
    | .fault code => .done (sowerFault p d l { code := code, addr := l.desc } s)
    | .done s => pushSeeds p d l ws was cs s

/-- The 4 KiB frames of the page of rank n: the word of the page array, then the page (19 R321, R329). -/
def pageFrames (p : Nat) (l : Layer) (n : Nat) (s : State) : Check (List Nat) × State :=
  let i := unitSid p l.by_ s
  match unitPlace i l.dctx (BitVec.ofNat 64 (lyPages l.bytes + 8 * n)) false s with
  | (.fault f, s) => (.fault f, s)
  | (.wait, s) => (.wait, s)
  | (.go pa, s) =>
    let va := (s.pkg p).num' pa 8 % 2 ^ 57 / 4096 * 4096
    unitPlaces i l.dctx false ((List.range 8).map fun j => BitVec.ofNat 64 (va + 4096 * j)) s

/-- The ring deliveries of a page to a slot of cores of die d (19 R329, 15 R269): its blocks, each by the slice of that die which has it
(01 R28). -/
def pageDeliveries (k : Package) (d : Nat) (frames cores : List Nat) (off : Nat) : List Delivery :=
  let mask := cores.foldl (fun m c => m ||| (1#48 <<< (c % 48))) 0
  (frames.mapIdx fun j f => (List.range 16).map fun b =>
    let a := f + 256 * b
    ({ slice := (k.die d).sliceOf a, pa := a, bytes := k.bytes a 256, lines := [a / 128, a / 128 + 1], mask := mask,
       side := [.page (off + 4096 * j + 256 * b) cores] } : Delivery)).flatten

/-- A block whose window is shut for a position (19 R329). -/
def Block.shut (b : Block) (n : Nat) : Bool := (b.pos? n).any fun x => decide (x ≥ b.head + 8)

/-- The position of a rank beyond the block's head, for which a pool slot is reserved (19 R329). -/
def Block.beyond (b : Block) (n : Nat) : Option Nat := (b.pos? n).filter fun x => decide (x > b.head) && !b.reserved.contains x

/-- A page served (19 R329-R331), or not now. -/
def servePage (p d : Nat) (l : Layer) (n : Nat) (pl : PageList) (s : State) : Served :=
  let bs := passEntries p d l n pl s
  let k0 := s.pkg p
  let homes := fun (b : Block) => b.home k0
  let cores := (bs.map homes).eraseDups
  let k := l.served % lyNslot l.bytes
  if bs.any (fun b => b.shut n) || cores.any (fun c => (s.core p c).pages.any fun y => y.slot == k && y.held) ||
      cores.any (fun c => (s.core p c).wakingAt (slotOf l k).header 64) ||
      decide ((bs.filterMap fun b => b.beyond n).length > (k0.die d).poolFree) then .later s
  else if cores.any fun c => !l.checked.contains c && !inDirect (s.core p c).carve 0 (regionEnd l) then
    .done (sowerFault p d l { code := fcAttnRegion, addr := l.desc } s)
  else
    match pageFrames p l n s with
    | (.wait, s) => .later s
    | (.fault f, s) => .done (sowerFault p d l f s)
    | (.go frames, s) =>
      let was := s
      let sl := slotOf l k
      let s := s.modDie p d fun x =>
        { x with
          deliv := x.deliv ++ pageDeliveries k0 d frames cores sl.page
          blocks := x.blocks.map fun b =>
            if bs.contains b then { b with reserved := (b.beyond n).toList ++ b.reserved } else b }
      let s := cores.foldl (fun s c => s.modCore p c fun x =>
        { x.setSpad sl.header (slotHeader l n (bs.filter fun b => homes b == c)) with
          pages := sl :: x.pages.filter fun y => y.slot ≠ k }) s
      let s := if l.phase == .main then s
        else s.modPkg p fun x =>
          pl.write (pl.main x) ((pl.glean x).filter fun e => !bs.any fun b => entryOf b == e) x
      let s := modLayer p d l.dctx l.desc
        (fun l => { l with rank := n + 1, served := l.served + 1, checked := (l.checked ++ cores).eraseDups }) s
      pushSeeds p d l (pageSeed l n k) was cores s

/-- One step of a layer's pass: its next page served, or the pass ended (19 R327, R329, R339). -/
def passStep (p d : Nat) (l : Layer) (s : State) : Served :=
  match findPage p d l (lyNp l.bytes - l.rank) l.rank s with
  | (.wait, s) => .later s
  | (.fault f, s) => .done (sowerFault p d l f s)
  | (.done, s) => .done (retireLayers p d (modLayer p d l.dctx l.desc (fun l => { l with phase := .rest }) s))
  | (.page n pl, s) =>
    if l.phase == .main then
      let t := moveAside p d l n pl s
      if (passEntries p d l n pl t).isEmpty then .done t else servePage p d l n pl t
    else servePage p d l n pl s

/-- The layers in a pass, oldest start of the main pass first (19 R329). -/
def Die.walking (d : Die) : List Layer :=
  let ls := d.layers.filter fun l => l.phase == .main || l.phase == .glean
  ls.mergeSort fun a b => decide (a.started ≤ b.started)

/-- The first layer of a list that has a page the sower may serve now is served; what the others' attempts leave, a first read of a CRIT
leaf among it (23 R384), stays. -/
def firstServed (p d : Nat) : List Layer → State → State
  | [], s => s
  | l :: ls, s =>
    match passStep p d l s with
    | .done t => t
    | .later t => firstServed p d ls t

/-- SOWER_SERVE_PAGE (19 R324, R329): a retired layer's counts that are not zeroed yet are; and the sower of a die serves the oldest layer
that has a page it may serve now. -/
def execSowerServePage (p d : Nat) (s : State) : Out' :=
  let s := (((s.pkg p).die d).layers.filter fun l => l.phase == .ending).foldl (fun s l => endLayer p d l l.left s) s
  .next (firstServed p d ((s.pkg p).die d).walking s)

/-- GLEANING_PASS_START (19 R339): between passes, with a gleaning entry of a running team. -/
def execGleaningPassStart (p d k : Nat) (s : State) : Out' :=
  match ((s.pkg p).die d).layers[k]? with
  | none => .next s
  | some l =>
    let x := (s.pkg p).die d
    if l.phase ≠ .rest then .next s
    else
      let (yes, s) := layerGleans p l (fun b => b.runs (s.pkg p)) x (x.ranksOf l) s
      if !yes then .next s
      else .next ((modLayer p d l.dctx l.desc (fun l => { l with phase := .glean, rank := 0 }) s).modDie p d fun x =>
        { x with blocks := x.blocks.map fun b => if b.inLayer l then { b with late := false } else b })

/-! ## The merge units (19 R337, R338) -/

/-- A block whose last position has merged completes where it can (19 R338). -/
def settleBlock (p d k : Nat) (s : State) : State :=
  match ((s.pkg p).die d).blocks[k]? with
  | none => s
  | some b => if b.head ≥ b.table.length && b.runs (s.pkg p) then completeBlock p d b s else s

/-- SHEAF_MERGE (19 R337, R338): the head partial of a block is merged, and after the last position the block completes. While
the block's team does not run, HEAD does not move (19 R340). -/
def execSheafMerge (p d k : Nat) (s : State) : Out' :=
  match ((s.pkg p).die d).blocks[k]? with
  | none => .next s
  | some b =>
    if !b.runs (s.pkg p) then .next s
    else
    match b.held.find? fun x => x.1 == b.head with
    | some x => .next (settleBlock p d k (modBlock p d k (fun b => b.mergePartial x.2) s))
    | none => .next (settleBlock p d k s)

end Sys2Proof.Machine
end

