-- ==== Sys2Proof/Machine/Dot.lean ====
section
/-! DEFINITION. Matrix dot products (07 R139-R145) and slice products (07 R146-R151), on lines of operand elements. -/

namespace Sys2Proof.Machine

/-! ## Scaled lines (07 R139, R140) -/

/-- A line of an operand: the exact values of its elements, block scales applied, and whether an element or a scale of it is
NaN. -/
structure Line where
  vals : List Val
  nan : Bool
  deriving DecidableEq, Repr

/-- The length of a scale block of a type, for a block-scaled operand (07 R139). -/
def blockLen (t : Ty) : Nat := if t = .e2m1 then 16 else 32

/-- A line from the bits of its elements and, for a block-scaled operand, of its scales (07 R139, R140). -/
def scaledLine (t : Ty) (xs : List Nat) (scales : Option (List Nat)) : Line :=
  match scales with
  | none =>
    let vs := xs.map (tyVal t)
    ⟨vs, vs.any Val.isNan⟩
  | some bs =>
    let betas := bs.map (tyVal .e4m3)
    let vs := xs.map (tyVal t)
    ⟨(List.range vs.length).map fun j => (Val.mul (vs.getD j .nan) (betas.getD (j / blockLen t) .nan)).1,
     vs.any Val.isNan || betas.any Val.isNan⟩

/-! ## The group sum (07 R143, R144) -/

/-- floor(log2 |t|) of a non-zero finite term. -/
def Val.top : Val → Option Int
  | .fin _ m e => if m = 0 then none else some (e + Nat.log2 m)
  | _ => none

/-- The larger of two tops. -/
def maxTop (a b : Option Int) : Option Int :=
  match a, b with
  | none, y => y
  | x, none => x
  | some x, some y => some (max x y)

/-- A finite term in units of 2^q, truncated toward minus infinity. -/
def Val.floorAt (q : Int) : Val → Int
  | .fin neg m e => if q ≤ e then sgn neg (m * 2 ^ (e - q).toNat) else Int.fdiv (sgn neg m) (2 ^ (q - e).toNat : Nat)
  | _ => 0

/-- A term is plus or minus infinity. -/
def Val.isInf (neg : Bool) : Val → Bool
  | .inf n => n == neg
  | _ => false

/-- RoundFP32 of the truncated sum of a group's terms, with OF where it overflows (07 R143, R144). -/
def groupSum (terms : List Val) : Nat × Nat :=
  let f := tyFmt .fp32
  if terms.any Val.isNan || (terms.any (Val.isInf false) && terms.any (Val.isInf true)) then (f.nanBits, 0)
  else if terms.any (Val.isInf false) then (f.maxBits + 1, 0)
  else if terms.any (Val.isInf true) then (f.signed true (f.maxBits + 1), 0)
  else
    match (terms.map Val.top).foldl maxTop none with
    | none => (f.signed (terms.all Val.sign) 0, 0)
    | some e =>
      let sum := terms.foldl (fun x t => x + t.floorAt (e - 48)) 0
      let r := f.ofVal {} false (Val.ofInt false sum (e - 48))
      (r.1, if r.2.testBit 2 then flagOF else 0)

/-- The groups of a line's products, one after another, from the incoming sum on; `fuel` bounds their number. -/
def groupChain (g : Nat) : Nat → List Val → Nat → Nat × Nat
  | 0, _, s => (s, 0)
  | n + 1, ts, s =>
    match ts with
    | [] => (s, 0)
    | _ =>
      let (r, fl) := groupSum ((tyFmt .fp32).val s :: ts.take g)
      let (v, fl2) := groupChain g n (ts.drop g) r
      (v, fl ||| fl2)

/-- GroupDot (07 R143, R144), with the flags of 07 R130: IV where the result is NaN and no operand is. -/
def groupDot (g : Nat) (a b : Line) (s0 : Nat) : Nat × Nat :=
  let ts := List.zipWith (fun x y => (Val.mul x y).1) a.vals b.vals
  let (r, fl) := groupChain g ts.length ts s0
  let nan := ((tyFmt .fp32).val r).isNan
  (r, fl ||| (if nan && !a.nan && !b.nan && !((tyFmt .fp32).val s0).isNan then flagIV else 0))

/-- IntDot (07 R145): the exact sum added modulo 2^32. -/
def intDot (ta tb : Ty) (a b : List Nat) (s0 : Nat) : Nat :=
  let t := (List.zipWith (fun x y => intOf ta.width ta.isSigned x * intOf tb.width tb.isSigned y) a b).foldl (· + ·) (0 : Int)
  wrapInt 32 ((s0 : Int) + t)

/-! ## Slice products (07 R146-R150) -/

/-- A value is NaN or infinite, and so cannot be split. -/
def Val.unsplit : Val → Bool
  | .fin _ _ _ => false
  | _ => true

/-- e + 1 of a line's scale (07 R146); 0 for a line with no finite non-zero element. -/
def lineScale (vs : List Val) : Int :=
  match (vs.map Val.top).foldl maxTop none with
  | some e => e + 1
  | none => 0

/-- Digit i of an element of a line of scale 2^e (07 R146); 0 for an element that cannot be split. -/
def sliceDigit (e : Int) (i : Nat) (v : Val) : Int :=
  match v with
  | .fin neg m x =>
    let k := x - e + 7 * i
    sgn neg ((if 0 ≤ k then m * 2 ^ k.toNat else m / 2 ^ (-k).toNat) % 128)
  | _ => 0

/-- The pass (i, i') for one element: the sum of digit products (07 R147). -/
def slicePass (ea eb : Int) (i j : Nat) (a b : List Val) : Int :=
  (List.zipWith (fun x y => sliceDigit ea i x * sliceDigit eb j y) a b).foldl (· + ·) 0

/-- One fold of a diagonal sum into a pair, with OF where the fold overflows (07 R148, R150). -/
def sliceFold (f : FFmt) (e : Int) (m : Nat) (d : Int) (hi lo : Nat) : Nat × Nat × Nat :=
  let t := Val.ofInt false d (e - 7 * m)
  match f.val hi with
  | .fin n x k =>
    let u := ((Val.add .rne (.fin n x k) (f.val lo)).1.add .rne t).1
    let h := (f.ofVal {} false u).1
    match f.val h with
    | .fin n x k => (h, (f.ofVal {} false (u.add .rne (Val.neg (.fin n x k))).1).1, 0)
    | _ => (h, 0, flagOF)
  | v => ((f.ofVal {} false v).1, 0, 0)

end Sys2Proof.Machine
end

