-- ==== Sys2Proof/Machine/Matrix.lean ====
section
/-! DEFINITION. The matrix instructions (13 R226-R251): format words, operands, tiles and groups, the checks of R242, the
commands, and ARRAY_ENTRY_CHECK. A command that waits for no bus stream is performed whole at its issue, in array order
(R227); an `msow` and a receiver wait in the array for their stream. -/

namespace Sys2Proof.Machine

/-! ## Format words (13 R229, R230) -/

/-- ATYPE, BTYPE and OTYPE of a format word. -/
def Fmtw.at_ (f : Fmtw) : Nat := bitsOf f.word.toNat 63 59
@[inherit_doc Fmtw.at_] def Fmtw.bt (f : Fmtw) : Nat := bitsOf f.word.toNat 58 54
@[inherit_doc Fmtw.at_] def Fmtw.ot (f : Fmtw) : Nat := bitsOf f.word.toNat 53 49
/-- ABS, BBS and SAT of a format word. -/
def Fmtw.abs (f : Fmtw) : Bool := f.word.getLsbD 48
@[inherit_doc Fmtw.abs] def Fmtw.bbs (f : Fmtw) : Bool := f.word.getLsbD 47
@[inherit_doc Fmtw.abs] def Fmtw.sat (f : Fmtw) : Bool := f.word.getLsbD 46
/-- RND of a format word. -/
def Fmtw.rnd (f : Fmtw) : Nat := bitsOf f.word.toNat 45 43
/-- The scale areas, as scratchpad offsets (13 R234). -/
def Fmtw.asca (f : Fmtw) : Nat := bitsOf f.word.toNat 29 15 * 256
@[inherit_doc Fmtw.asca] def Fmtw.bsca (f : Fmtw) : Nat := bitsOf f.word.toNat 14 0 * 256
/-- The reserved bits are 0 (13 R229). -/
def Fmtw.clean (f : Fmtw) : Bool := bitsOf f.word.toNat 32 30 == 0

/-- The type of a TYPE code (05 R94). -/
def tyOf (code : Nat) : Ty := Ty.ofCode (BitVec.ofNat 5 code)

/-- A code of an 8-bit float type, of an 8-bit integer type. -/
def isF8 (c : Nat) : Bool := c == 17 || c == 18
@[inherit_doc isF8] def isI8 (c : Nat) : Bool := c == 3 || c == 4

/-- K = 8 (KF + 1) (13 R244). -/
def kOf (kf : BitVec 12) : Nat := 8 * (kf.toNat + 1)

/-- A type and its block scaling form an operand of R235 with K. -/
def operandOk (c : Nat) (scaled : Bool) (k : Nat) : Bool :=
  if c == 16 then scaled && k % 16 == 0
  else if isF8 c then k % (if scaled then 32 else 8) == 0
  else !scaled && (isI8 c || ((c == 19 || c == 20) && decide (k ≤ 16384)))

/-- The type pairs of R235. -/
def pairOk (a b : Nat) : Bool :=
  ((a == 16 || isF8 a) && (b == 16 || isF8 b)) || (isI8 a && isI8 b) || (a == 19 && b == 19) || (a == 20 && b == 20)

/-- The group length of a type pair (13 R235). -/
def groupLen (a b : Nat) : Nat := if a == 16 && b == 16 then 32 else if a == 19 || a == 20 then 8 else 16

/-- Blocks of a line (13 R234). -/
def blocksOf (c k : Nat) : Nat := if c == 16 then k / 16 else k / 32

/-- FP32 1.0, the scale of a field of 0 and of a reset tile (13 R230, R239). -/
def oneScale : BitVec 32 := 0x3F800000

/-- A tile command that has not issued stands in the C queue (13 R231). -/
def Seq.tileCommandWaits (q : Seq) : Bool :=
  q.qc.any fun e => !e.issued && (match e.instr? with
    | some (.mmul _ _ _ _ _ _ _ _ _ _) | some (.mslice _ _ _ _ _ _ _ _ _) | some (.mld _ _ _ _ _) | some (.mst _ _ _ _)
    | some (.msow _ _ _ _ _) => true
    | _ => false)

/-- The format words pushed and those whose push waits for the harrow (13 R231). -/
def Seq.fmtCount (q : Seq) : Nat :=
  q.fq.length + (q.harrow.filter fun h => match h with | .fmt _ _ => true | _ => false).length

/-- A tensor scale: bits [31:0] of the register that a field names, or 1.0 for a field of 0 (13 R230). -/
def Seq.scaleOf (q : Seq) (field : Nat) : BitVec 32 :=
  if field = 0 then oneScale else (q.sr (BitVec.ofNat 5 field)).setWidth 32

/-- `mfmt` (13 R231): the format word and its scales go to the format queue once the harrow has compared them; with a full queue
it waits, or faults where no tile command could empty it. -/
def execMfmt (g : Guard) (a : Reg) (s : State) : Out' :=
  let w := (s.seq s.who).sr a
  let ta := bitsOf w.toNat 42 38
  let tb := bitsOf w.toNat 37 33
  frontWord 8 g [a, BitVec.ofNat 5 ta, BitVec.ofNat 5 tb] (fun q s =>
    if q.fmtCount ≥ 8 then
      if q.tileCommandWaits then s.modSeq s.who fun q => { q with wait := some .fmt }
      else wordFault s.who fcFmtOverflow 0 s
    else
      s.modSeq s.who fun q =>
        { q.adv 8 with wait := none, harrow := q.harrow ++ [.fmt ⟨w, q.scaleOf ta, q.scaleOf tb⟩ s.ck] }) s

/-! ## Operands (13 R232-R234) -/

/-- A base and pitch that break the constraints of R232. -/
def operandBad (base pitch : W64) : Bool :=
  bitsOf base.toNat 63 28 ≠ 0 || base.getLsbD 23 || bitsOf base.toNat 5 0 ≠ 0 || bitsOf pitch.toNat 63 55 ≠ 0 ||
    bitsOf pitch.toNat 31 23 ≠ 0 || bitsOf pitch.toNat 37 32 ≠ 0 || bitsOf pitch.toNat 5 0 ≠ 0

/-- The offset of chunk b of line i (13 R233). -/
def chunkAt (base pitch : W64) (i b : Nat) : Nat :=
  let a := bitsOf base.toNat 22 0 + i * bitsOf pitch.toNat 22 0 + b * bitsOf pitch.toNat 54 32
  let m := (bitsOf a 11 6 + bitsOf base.toNat 27 24 * (i % 64)) % 64
  a - bitsOf a 11 6 * 64 + m * 64

/-- The chunks of a line of n elements of width w (13 R233). -/
def lineChunks (n w : Nat) : Nat := (n * w + 511) / 512

/-- The chunks of an operand of `lines` lines, in ascending (i, b) order, as offsets and lengths. -/
def operandChunks (base pitch : W64) (lines n w : Nat) : List (Nat × Nat) :=
  (List.range lines).flatMap fun i => (List.range (lineChunks n w)).map fun b => (chunkAt base pitch i b, 64)

/-- The bits of the n elements of line i (13 R233). -/
def Core.lineBits (c : Core) (base pitch : W64) (n w i : Nat) : List Nat :=
  let x := leNat ((List.range (lineChunks n w)).flatMap fun b => c.spadBytes (chunkAt base pitch i b) 64)
  (List.range n).map fun j => x / 2 ^ (w * j) % 2 ^ w

/-- The scales of line i in a scale area (13 R234). -/
def Core.lineScales (c : Core) (area nb i : Nat) : List Nat := (c.spadBytes (area + i * nb) nb).map (·.toNat)

/-- The lines of an operand of k elements of a type, with their block scales. -/
def Core.operandLines (c : Core) (base pitch : W64) (lines k code : Nat) (scaled : Bool) (area : Nat) : List Line :=
  (List.range lines).map fun i =>
    scaledLine (tyOf code) (c.lineBits base pitch k (tyOf code).width i)
      (if scaled then some (c.lineScales area (blocksOf code k) i) else none)

/-- The element bits of the lines of an operand. -/
def Core.operandBits (c : Core) (base pitch : W64) (lines k code : Nat) : List (List Nat) :=
  (List.range lines).map fun i => c.lineBits base pitch k (tyOf code).width i

/-! ## Tiles and groups (13 R239) -/

/-- A tile of a core. -/
def Core.tile (c : Core) (t : Nat) : Tile := vget {} c.tiles t

/-- A tile's element (x, y), by its index 128x + y. -/
def Tile.el (t : Tile) (i : Nat) : BitVec 32 := cellGet 0 t.data i

/-- Tile contents from all 32,768 elements in order. -/
def tileData (xs : List (BitVec 32)) : Cells (BitVec 32) := (xs.mapIdx fun i x => (i, x)).filter fun e => e.2 ≠ 0

/-- The tiles of the group that tile t belongs to; t alone outside a group. -/
def groupOf (ts : Vector Tile 30) (t : Nat) : List Nat :=
  let kind := fun n => (vget {} ts n).kind
  match kind t with
  | .p32 => [t, t + 1]
  | .p64 => [t, t + 1, t + 2, t + 3]
  | .member =>
    if t % 2 = 1 && kind (t - 1) == .p32 then [t - 1, t]
    else if kind (t / 4 * 4) == .p64 then [t / 4 * 4, t / 4 * 4 + 1, t / 4 * 4 + 2, t / 4 * 4 + 3] else [t]
  | _ => [t]

/-- A command that writes the tiles `ws` leaves every other tile of a group it breaks as F32 with scales 1.0 (13 R239). -/
def breakGroups (ws : List Nat) (ts : Vector Tile 30) : Vector Tile 30 :=
  ((ws.flatMap (groupOf ts)).filter fun n => !ws.contains n).foldl (fun v n =>
    vmod v n fun t => { t with kind := .f32, ta := oneScale, tb := oneScale }) ts

/-- Kind and τ of tile t as a command that is no `mslice` leaves them; scales none keeps τ (13 R239, R241). -/
def markTile (t : Nat) (kind : TileKind) (scales : Option (BitVec 32 × BitVec 32)) (ts : Vector Tile 30) : Vector Tile 30 :=
  vmod (breakGroups [t] ts) t fun x =>
    { x with kind := kind, ta := (scales.map (·.1)).getD x.ta, tb := (scales.map (·.2)).getD x.tb }

/-- The scales that a command takes over: those of its format entry with ACC = 0 or on a ZERO tile (13 R241). -/
def adoptScales (acc : Bool) (x : Tile) (f : Fmtw) : Option (BitVec 32 × BitVec 32) :=
  if !acc || x.kind == .zero then some (f.ta, f.tb) else none

/-- The result kind of an `mmul` (13 R235). -/
def mmulKind (f : Fmtw) : TileKind := if isI8 f.at_ then .i32 else .f32

/-- The group that an `mslice` on tile t writes (13 R239). -/
def sliceGroup (f : Fmtw) (t : Nat) : List Nat := if f.at_ == 21 then [t, t + 1] else [t, t + 1, t + 2, t + 3]

/-- The kind that an `mslice` gives the head of its group. -/
def sliceKind (f : Fmtw) : TileKind := if f.at_ == 21 then .p32 else .p64

/-- Kinds and τ as an `mslice` leaves them; with ACC = 0 its pair starts as zeros (13 R239, R241, R246). -/
def markSlice (t : Nat) (acc : Bool) (f : Fmtw) (ts : Vector Tile 30) : Vector Tile 30 :=
  let g := sliceGroup f t
  let sc := adoptScales acc (vget {} ts t) f
  let ts := g.foldl (fun v n => vmod v n fun x =>
    { x with kind := if n = t then sliceKind f else .member, data := if acc then x.data else [] }) (breakGroups g ts)
  vmod ts t fun x => { x with ta := (sc.map (·.1)).getD x.ta, tb := (sc.map (·.2)).getD x.tb }

/-- The tiles as the commands already in the array will leave their kinds and τ (13 R242). -/
def Core.tilesAhead (c : Core) : Vector Tile 30 :=
  c.array.foldl (fun ts a =>
    match ((c.seq a.seq).qc.find? fun e => e.id == a.entry).bind Entry.instr? with
    | some (.mmul _ t _ _ _ _ _ _ acc _) => markTile t.toNat (mmulKind a.fmt) (adoptScales acc (vget {} ts t.toNat) a.fmt) ts
    | _ => ts) c.tiles

/-! ## The checks (13 R242) -/

/-- The OTYPE codes that a readout of a kind accepts (13 R250). -/
def readoutTypes : TileKind → List Nat
  | .zero | .f32 => [21, 19, 20, 17, 18]
  | .i32 => [21, 19, 20, 7, 5, 6, 3, 4]
  | .p32 => [21]
  | .p64 => [22, 21]
  | .member => []

/-- An integer code. -/
def isIntCode (c : Nat) : Bool := decide (1 ≤ c) && decide (c ≤ 8)

/-- τa x τb is exactly 1 (13 R250). -/
def unitScale (t : Tile) : Bool :=
  match (Val.mul ((tyFmt .fp32).val t.ta.toNat) ((tyFmt .fp32).val t.tb.toNat)).1 with
  | .fin neg m e => !neg && m ≠ 0 && dyCmp m e 1 0 == .eq
  | _ => false

/-- The first check of a list that fails. -/
def firstFault : List (Bool × Nat) → Option Nat
  | [] => none
  | (bad, code) :: r => if bad then some code else firstFault r

/-- Checks 6 and 7 (13 R232-R234, R242): base and pitch pairs, then the chunks and scale areas. -/
def operandGate (pairs : List (W64 × W64)) (acc : List (Nat × Nat)) (s : State) : Gate :=
  if pairs.any fun p => operandBad p.1 p.2 then .fault fcMatrixOperand 0
  else spadGate s.who (acc.map fun a => ((a.1 : Int), a.2)) s

/-- The gate of a matrix command after its checks of format, tiles and scales: then the operand checks, the lease (03 R76), and
the array, which a waiting receiver holds (13 R242, R253). -/
def matrixGate (bad : Option Nat) (pairs : List (W64 × W64)) (reads writes : List (Nat × Nat)) (s : State) : Gate × State :=
  let i := s.who
  let c := s.core i.pkg i.core
  match bad with
  | some code => (.fault code 0, s)
  | none =>
    match operandGate pairs (reads ++ writes) s with
    | .fault code a => (.fault code a, s)
    | g =>
      if c.holder ≠ some i.seq then (.wait, s.modCore i.pkg i.core fun c => c.askLease i.seq)
      else if g == .wait || c.array.any (fun a => a.fromRow || a.fromCol) || c.stillReads i.seq writes then (.wait, s)
      else (.go, s)

/-- The format entry a tile command would pop: that of its record, for a resumed `mslice` (13 R247). -/
def Seq.headFmt (q : Seq) : Option Fmtw := q.fq.head?

/-- The format word popped (13 R226). -/
def Seq.popFmt (q : Seq) : Seq := { q with fq := q.fq.drop 1 }

/-- The checks 1 to 5 of `mmul` (13 R235, R240-R242). -/
def mmulFault (f? : Option Fmtw) (t : Nat) (acc : Bool) (k : Nat) (ts : Vector Tile 30) : Option Nat :=
  match f? with
  | none => some fcFmtEmpty
  | some f =>
    let x := vget {} ts t
    firstFault
      [(!f.clean || !pairOk f.at_ f.bt || !operandOk f.at_ f.abs k || !operandOk f.bt f.bbs k, fcMatrixFormat),
       (acc && x.kind ≠ .zero && x.kind ≠ mmulKind f, fcTileKind),
       (acc && x.kind ≠ .zero && (x.ta ≠ f.ta || x.tb ≠ f.tb), fcTensorScale)]

/-- The checks 1 to 5 of `mslice` (13 R235, R239-R242); those of its tiles are not repeated for one whose pre-pass has ended. -/
def msliceFault (f? : Option Fmtw) (t : Nat) (acc : Bool) (k : Nat) (resumed : Bool) (ts : Vector Tile 30) : Option Nat :=
  match f? with
  | none => some fcFmtEmpty
  | some f =>
    let x := vget {} ts t
    let w := if f.at_ == 21 then 2 else 4
    firstFault
      [(!f.clean || f.at_ ≠ f.bt || (f.at_ ≠ 21 && f.at_ ≠ 22) || f.abs || f.bbs || decide (8192 < k), fcMatrixFormat),
       (t % w ≠ 0 || decide (t + w > 30), fcTileRange),
       (!resumed && acc && x.kind ≠ sliceKind f && (sliceGroup f t).any (fun n => (vget {} ts n).kind ≠ .zero), fcTileKind),
       (!resumed && acc && x.kind ≠ .zero && (x.ta ≠ f.ta || x.tb ≠ f.tb), fcTensorScale)]

/-- The kind that an `mld` gives its tile (13 R239). -/
def mldKind (f : Fmtw) : TileKind := if f.ot == 7 then .i32 else .f32

/-- The checks 1 to 5 of `mld` (13 R240, R242, R249). -/
def mldFault (f? : Option Fmtw) (t : Nat) (acc : Bool) (ts : Vector Tile 30) : Option Nat :=
  match f? with
  | none => some fcFmtEmpty
  | some f =>
    let x := vget {} ts t
    firstFault
      [(!f.clean || !([21, 19, 20, 7].contains f.ot), fcMatrixFormat),
       (acc && x.kind ≠ .zero && x.kind ≠ mldKind f, fcTileKind)]

/-- The checks 1 to 5 of `mst` (13 R242, R250). -/
def mstFault (f? : Option Fmtw) (t : Nat) (ts : Vector Tile 30) : Option Nat :=
  match f? with
  | none => some fcFmtEmpty
  | some f =>
    let x := vget {} ts t
    firstFault
      [(!f.clean || decide (4 < f.rnd) || (x.kind ≠ .member && !(readoutTypes x.kind).contains f.ot), fcMatrixFormat),
       (x.kind == .member, fcTileKind),
       (isIntCode f.ot && !unitScale x, fcTensorScale)]

/-- The checks 1 and 2 of `msow` (13 R242, R251). -/
def msowFault (f? : Option Fmtw) (k : Nat) : Option Nat :=
  match f? with
  | none => some fcFmtEmpty
  | some f => if !f.clean || !operandOk f.ot f.abs k then some fcMatrixFormat else none

/-! ## Entering the array -/

/-- A command enters the array (13 R226, R230; 03 R77): it is counted under the lease, and a tile command has popped its format
word. -/
def enterArray (pop : Bool) (s : State) : State :=
  s.modCore s.who.pkg s.who.core fun c =>
    (c.countLease).modSeq s.who.seq fun q => if pop then q.popFmt else q

/-- A matrix command's effect on its core, performed whole at issue: it enters the array, acts, sets its flags and completes
(13 R227, R228). -/
def matrixWord (h : EHead) (gate : Entry → State → Gate × State) (pop : Bool) (f : Entry → Seq → Core → Core × Nat)
    (s : State) : Out' :=
  issueEntry .c h gate (fun x s =>
    let q := s.seq s.who
    let s := enterArray pop s
    s.modCore s.who.pkg s.who.core fun c =>
      let r := f x q c
      r.1.modSeq s.who.seq fun q => (q.orFps (flagWord r.2)).complete .c x.id) s

/-- `mlease` (13 R243): it completes once the sequencer holds the lease. -/
def execMlease (h : EHead) (s : State) : Out' :=
  issueEntry .c h (fun _ s =>
    let i := s.who
    if (s.core i.pkg i.core).holder = some i.seq then (.go, s)
    else (.wait, s.modCore i.pkg i.core fun c => c.askLease i.seq))
    (fun x s => s.modSeq s.who fun q => q.complete .c x.id) s

/-- `mrel` (13 R243, 03 R77): the lease ends as it reaches the head of C, whether or not its tokens are there. -/
def execMrel (h : EHead) (s : State) : Out' :=
  issueEntry .c h (fun _ s => (.go, s.modCore s.who.pkg s.who.core fun c => c.dropLease s.who.seq))
    (fun x s => s.modSeq s.who fun q => q.complete .c x.id) s

/-- `mzero` (13 R248). -/
def execMzero (h : EHead) (t : Reg) (s : State) : Out' :=
  matrixWord h (fun _ s => matrixGate none [] [] [] s) false (fun _ _ c =>
    ({ c with tiles := vmod (markTile t.toNat .zero (some (oneScale, oneScale)) c.tiles) t.toNat fun x => { x with data := [] } }, 0)) s

/-! ## `mmul` (13 R244, R245) -/

/-- The A operand of an `mmul` from the own scratchpad, or from a panel: where its lines lie and its scale area. -/
structure Side where
  core : Core
  base : W64
  pitch : W64
  scaled : Bool
  area : Nat
  deriving DecidableEq, Repr

/-- The product into tile t (13 R245), from the two operands wherever they lie. -/
def mmulTile (f : Fmtw) (t : Nat) (acc : Bool) (k : Nat) (a b : Side) (c : Core) : Core × Nat :=
  let x := c.tile t
  let s0 := fun i => if acc && x.kind ≠ .zero then (x.el i).toNat else 0
  let rs :=
    if isI8 f.at_ then
      let la := a.core.operandBits a.base a.pitch 256 k f.at_
      let lb := b.core.operandBits b.base b.pitch 128 k f.bt
      (la.mapIdx fun i u => lb.mapIdx fun j v => (intDot (tyOf f.at_) (tyOf f.bt) u v (s0 (128 * i + j)), 0)).flatten
    else
      let la := a.core.operandLines a.base a.pitch 256 k f.at_ a.scaled a.area
      let lb := b.core.operandLines b.base b.pitch 128 k f.bt b.scaled b.area
      (la.mapIdx fun i u => lb.mapIdx fun j v => groupDot (groupLen f.at_ f.bt) u v (s0 (128 * i + j))).flatten
  let ts := markTile t (mmulKind f) (adoptScales acc x f) c.tiles
  ({ c with tiles := vmod ts t fun y => { y with data := tileData (rs.map fun r => BitVec.ofNat 32 r.1) } }, flagsOf rs)

/-- The scratchpad bytes that an `mmul` reads: its operands that come from no bus, with their scale areas. -/
def mmulReads (f : Fmtw) (x : Entry) (asrc bsrc : Bool) (k : Nat) : List (Nat × Nat) :=
  (if asrc then [] else operandChunks (x.opd 0) (x.opd 1) 256 k (tyOf f.at_).width ++
    (if f.abs then [(f.asca, 256 * blocksOf f.at_ k)] else [])) ++
  (if bsrc then [] else operandChunks (x.opd 2) (x.opd 3) 128 k (tyOf f.bt).width ++
    (if f.bbs then [(f.bsca, 128 * blocksOf f.bt k)] else []))

/-- The own-scratchpad operands of an `mmul`'s entry. -/
def sideA (f : Fmtw) (x : Entry) (c : Core) : Side := ⟨c, x.opd 0, x.opd 1, f.abs, f.asca⟩
@[inherit_doc sideA] def sideB (f : Fmtw) (x : Entry) (c : Core) : Side := ⟨c, x.opd 2, x.opd 3, f.bbs, f.bsca⟩

/-- The gate of `mmul`. -/
def mmulGate (t : Nat) (asrc bsrc acc : Bool) (k : Nat) (x : Entry) (s : State) : Gate × State :=
  let c := s.core s.who.pkg s.who.core
  let f? := (c.seq s.who.seq).headFmt
  matrixGate (mmulFault f? t acc k c.tilesAhead)
    ((if asrc then [] else [(x.opd 0, x.opd 1)]) ++ (if bsrc then [] else [(x.opd 2, x.opd 3)]))
    (match f? with | some f => mmulReads f x asrc bsrc k | none => []) [] s

/-- `mmul` (13 R244, R245). A receiver enters the array and waits there for its streams (R236, R237). -/
def execMmul (h : EHead) (t _ab _ap _bb _bp : Reg) (asrc bsrc acc : Bool) (kf : BitVec 12) (s : State) : Out' :=
  let k := kOf kf
  if asrc || bsrc then
    issueEntry .c h (mmulGate t.toNat asrc bsrc acc k) (fun x s =>
      let f := ((s.seq s.who).headFmt).getD ⟨0, oneScale, oneScale⟩
      let s := enterArray true s
      s.modCore s.who.pkg s.who.core fun c =>
        { c with array := c.array ++ [{ seq := s.who.seq, entry := x.id, fmt := f, fromRow := asrc, fromCol := bsrc
                                        reads := mmulReads f x asrc bsrc k }] }) s
  else
    matrixWord h (mmulGate t.toNat asrc bsrc acc k) true (fun x q c =>
      let f := q.headFmt.getD ⟨0, oneScale, oneScale⟩
      mmulTile f t.toNat acc k (sideA f x c) (sideB f x c) c) s

/-! ## `mld` and `mst` (13 R249, R250) -/

/-- Element (x, y) that `mld` writes, from the source element and the tile element (13 R249; 07 R130). -/
def mldElement (code : Nat) (acc : Bool) (old v : Nat) : Nat × Nat :=
  if code == 7 then ((if acc then (old + v) % 2 ^ 32 else v), 0)
  else
    let f := tyFmt .fp32
    let v := if code == 21 then v else (f.ofVal {} false ((tyFmt (tyOf code)).val v)).1
    if acc then
      let r := f.add {} false old v
      (r.1, r.2 &&& (flagIV + flagOF))
    else (v, 0)

/-- `mld` (13 R249). -/
def execMld (h : EHead) (t _ab _ap : Reg) (acc : Bool) (s : State) : Out' :=
  matrixWord h (fun x s =>
    let c := s.core s.who.pkg s.who.core
    let f? := (c.seq s.who.seq).headFmt
    matrixGate (mldFault f? t.toNat acc c.tilesAhead) [(x.opd 0, x.opd 1)]
      (match f? with | some f => operandChunks (x.opd 0) (x.opd 1) 256 128 (tyOf f.ot).width | none => []) [] s) true
    (fun x q c =>
      let f := q.headFmt.getD ⟨0, oneScale, oneScale⟩
      let y := c.tile t.toNat
      let old := fun i => if y.kind == .zero then 0 else (y.el i).toNat
      let rs := ((c.operandBits (x.opd 0) (x.opd 1) 256 128 f.ot).mapIdx fun i l =>
        l.mapIdx fun j v => mldElement f.ot acc (old (128 * i + j)) v).flatten
      let ts := markTile t.toNat (mldKind f) (if acc then none else some (oneScale, oneScale)) c.tiles
      ({ c with tiles := vmod ts t.toNat fun y => { y with data := tileData (rs.map fun r => BitVec.ofNat 32 r.1) } }, flagsOf rs)) s

/-- The exact accumulator value of element i of the tile t, by its kind, after DAZ (13 R250, 07 R129, R148). -/
def accVal (env : FEnv) (ts : Vector Tile 30) (t i : Nat) : Val :=
  let el := fun n => ((vget {} ts n).el i).toNat
  let f32 := tyFmt .fp32
  let f64 := tyFmt .fp64
  match (vget {} ts t).kind with
  | .i32 => Val.ofInt false (intOf 32 true (el t)) 0
  | .p32 => (Val.add .rne (f32.opd env (el t)) (f32.opd env (el (t + 1)))).1
  | .p64 => (Val.add .rne (f64.opd env (el t + 2 ^ 32 * el (t + 1))) (f64.opd env (el (t + 2) + 2 ^ 32 * el (t + 3)))).1
  | _ => f32.opd env (el t)

/-- The element that `mst` writes (13 R250; 07 R141): the accumulator value times τa x τb, rounded once, or an integer tile's
element converted to an integer type. Under DAZ, a subnormal accumulator element reads as zero, of a pair hi and lo each for itself, and
the two tensor scales never do: the model's choice, for R129 says only that DAZ acts on the readout conversion (assumption 56). -/
def mstElement (f : Fmtw) (env : FEnv) (ts : Vector Tile 30) (t i : Nat) : Nat × Nat :=
  let y := vget {} ts t
  if isIntCode f.ot then convert env f.sat (tyOf f.ot) .i32 (y.el i).toNat
  else
    let v := (Val.mul (Val.mul (accVal env ts t i) ((tyFmt .fp32).val y.ta.toNat)).1 ((tyFmt .fp32).val y.tb.toNat)).1
    floatToFloat env f.sat (tyFmt (tyOf f.ot)) v

/-- The lines of a readout written in ascending (i, b) order; bytes past a line's elements are left (13 R233). -/
def writeLines (base pitch : W64) (w : Nat) (lines : List (List Nat)) (c : Core) : Core :=
  (lines.mapIdx fun i l => (i, leBytes (128 * w / 8) (l.foldr (fun x acc => x % 2 ^ w + 2 ^ w * acc) 0))).foldl (fun c p =>
    (List.range (lineChunks 128 w)).foldl (fun c b =>
      c.setSpad (chunkAt base pitch p.1 b) ((p.2.drop (64 * b)).take 64)) c) c

/-- The readout of tile t: its lines stored, and the flags of its elements (13 R250). -/
def readout (f : Fmtw) (env : FEnv) (t : Nat) (base pitch : W64) (c : Core) : Core × Nat :=
  let rs := (List.range 256).map fun i => (List.range 128).map fun j => mstElement f env c.tiles t (128 * i + j)
  (writeLines base pitch (tyOf f.ot).width (rs.map fun l => l.map (·.1)) c, flagsOf rs.flatten)

/-- `mst` (13 R250): 256 lines of 128 elements; the tile is unchanged. -/
def execMst (h : EHead) (t _ab _ap : Reg) (s : State) : Out' :=
  matrixWord h (fun x s =>
    let c := s.core s.who.pkg s.who.core
    let f? := (c.seq s.who.seq).headFmt
    matrixGate (mstFault f? t.toNat c.tilesAhead) [(x.opd 0, x.opd 1)] []
      (match f? with | some f => operandChunks (x.opd 0) (x.opd 1) 256 128 (tyOf f.ot).width | none => []) s) true
    (fun x q c =>
      let f := q.headFmt.getD ⟨0, oneScale, oneScale⟩
      readout f (x.env (Rnd.ofCode (BitVec.ofNat 3 f.rnd))) t.toNat (x.opd 0) (x.opd 1) c) s

/-! ## `mslice` (13 R246, R247) -/

/-- The operands of an `mslice` as values: 256 rows and 128 columns. -/
def sliceLines (f : Fmtw) (x : Entry) (k : Nat) (c : Core) : List (List Val) × List (List Val) :=
  let v := fun base pitch n => (c.operandBits base pitch n k f.at_).map fun l => l.map (tyVal (tyOf f.at_))
  (v (x.opd 0) (x.opd 1) 256, v (x.opd 2) (x.opd 3) 128)

/-- The pre-pass (13 R246): the scales, the first pass to come, and IV for an element that cannot be split (07 R130). -/
def slicePre (la lb : List (List Val)) (sl : Nat) (r : MsRec) : MsRec :=
  { r with
    scales := la.map lineScale ++ lb.map lineScale, nextM := sl + 1, nextI := 1, acc := []
    flags := if (la ++ lb).any (fun l => l.any Val.unsplit) then r.flags ||| flagIV else r.flags }

/-- The pair that the group of tile t holds for element i (13 R239). -/
def pairAt (f : Fmtw) (ts : Vector Tile 30) (t i : Nat) : Nat × Nat :=
  let el := fun n => ((vget {} ts n).el i).toNat
  if f.at_ == 21 then (el t, el (t + 1)) else (el t + 2 ^ 32 * el (t + 1), el (t + 2) + 2 ^ 32 * el (t + 3))

/-- The group's tiles filled with pairs (13 R239). -/
def putPairs (f : Fmtw) (t : Nat) (ps : List (Nat × Nat)) (ts : Vector Tile 30) : Vector Tile 30 :=
  let put := fun (n : Nat) (g : Nat × Nat → Nat) (ts : Vector Tile 30) =>
    vmod ts n fun x => { x with data := tileData (ps.map fun p => BitVec.ofNat 32 (g p)) }
  if f.at_ == 21 then put (t + 1) (·.2) (put t (·.1) ts)
  else put (t + 3) (fun p => p.2 / 2 ^ 32) (put (t + 2) (fun p => p.2 % 2 ^ 32)
    (put (t + 1) (fun p => p.1 / 2 ^ 32) (put t (fun p => p.1 % 2 ^ 32) ts)))

/-- The scale of an element's products: σa(x) σb(y) as a power of two. -/
def MsRec.scale (r : MsRec) (i : Nat) : Int := r.scales.getD (i / 128) 0 + r.scales.getD (256 + i % 128) 0

/-- One pass of the record's diagonal, and the fold of the diagonal where the pass ends it (13 R246, 07 R147, R148, R150). -/
def slicePassStep (t : Nat) (la lb : List (List Val)) (p : MsRec × Vector Tile 30) : MsRec × Vector Tile 30 :=
  let r := p.1
  let j := r.nextM - r.nextI
  let acc := (la.mapIdx fun x u => lb.mapIdx fun y v =>
    r.acc.getD (128 * x + y) 0 + slicePass (r.scales.getD x 0) (r.scales.getD (256 + y) 0) r.nextI j u v).flatten
  if r.nextI + 1 < r.nextM then ({ r with acc := acc, nextI := r.nextI + 1 }, p.2)
  else
    let fm := tyFmt (tyOf r.fmt.at_)
    let badA := la.map fun l => l.any Val.unsplit
    let badB := lb.map fun l => l.any Val.unsplit
    let out := acc.mapIdx fun i d =>
      let pr := pairAt r.fmt p.2 t i
      if badA.getD (i / 128) false || badB.getD (i % 128) false then (fm.nanBits, 0, 0)
      else sliceFold fm (r.scale i) r.nextM d pr.1 pr.2
    let fl := out.foldl (fun a x => a ||| x.2.2) 0
    ({ r with acc := [], nextM := r.nextM - 1, nextI := 1, flags := r.flags ||| fl },
     putPairs r.fmt t (out.map fun x => (x.1, x.2.1)) p.2)

/-- n passes, or those up to the diagonal `last`; diagonal 1 ends the command, and pass (1, 1) of diagonal 2 is its last. -/
def slicePasses (t last : Nat) (la lb : List (List Val)) : Nat → MsRec × Vector Tile 30 → MsRec × Vector Tile 30
  | 0, p => p
  | n + 1, p => if p.1.nextM ≤ last then p else slicePasses t last la lb n (slicePassStep t la lb p)

/-- The record of the entry, where it was interrupted. -/
def Seq.sliceRec (q : Seq) (id : Nat) : Option MsRec := q.msrec.filter fun r => r.entry == id

/-- The gate of `mslice`. -/
def msliceGate (t : Nat) (acc : Bool) (k : Nat) (x : Entry) (s : State) : Gate × State :=
  let c := s.core s.who.pkg s.who.core
  let q := c.seq s.who.seq
  let r := q.sliceRec x.id
  let f? := match r with | some r => some r.fmt | none => q.headFmt
  matrixGate (msliceFault f? t acc k r.isSome c.tilesAhead) [(x.opd 0, x.opd 1), (x.opd 2, x.opd 3)]
    (match f? with
     | some f => operandChunks (x.opd 0) (x.opd 1) 256 k (tyOf f.at_).width ++
         operandChunks (x.opd 2) (x.opd 3) 128 k (tyOf f.at_).width
     | none => []) [] s

/-- The record with which an `mslice` goes on, and the tiles: those it was interrupted with, or a new one on its entry into the
array (13 R246, R247). -/
def sliceStart (t : Nat) (acc : Bool) (x : Entry) (q : Seq) (c : Core) : MsRec × Vector Tile 30 :=
  match q.sliceRec x.id with
  | some r => (r, c.tiles)
  | none =>
    let f := q.headFmt.getD ⟨0, oneScale, oneScale⟩
    ({ entry := x.id, fmt := f }, markSlice t acc f c.tiles)

/-- The passes of an `mslice` with s slices (07 R147). -/
def slicePassCount (s : Nat) : Nat := s * (s + 1) / 2

/-- `mslice` (13 R246). One that was interrupted takes no token and pops no format word again (R247). -/
def execMslice (h : EHead) (t _ab _ap _bb _bp : Reg) (acc : Bool) (sl : BitVec 4) (kf : BitVec 12) (s : State) : Out' :=
  let again := match (s.seq s.who).headOf .c with
    | some x => ((s.seq s.who).sliceRec x.id).isSome
    | none => false
  let h := if again then { h with gl := false, gr := false } else h
  matrixWord h (msliceGate t.toNat acc (kOf kf)) (!again) (fun x q c =>
    let (la, lb) := sliceLines ((sliceStart t.toNat acc x q c).1.fmt) x (kOf kf) c
    let (r, ts) := sliceStart t.toNat acc x q c
    let r := if r.nextM = 0 then slicePre la lb sl.toNat r else r
    let (r, ts) := slicePasses t.toNat 1 la lb (slicePassCount sl.toNat) (r, ts)
    ({ (c.modSeq s.who.seq fun q => { q with msrec := none }) with tiles := ts }, r.flags)) s

/-! ## `msow` (13 R251) -/

/-- A panel takes its place among those armed: by the ck, then by lower VCORE, then by lower sequencer number (13 R237). -/
def armPanel (p : Panel) : List Panel → List Panel
  | [] => [p]
  | x :: r =>
    if p.ck < x.ck || (p.ck == x.ck && (p.vcore < x.vcore || (p.vcore == x.vcore && p.who.seq < x.who.seq))) then p :: x :: r
    else x :: armPanel p r

/-- Lines of a panel (13 R236). -/
def panelLines (col : Bool) : Nat := if col then 128 else 256

/-- The bus of a core within its die: its row, or its column (01 R24, R34). -/
def busLine (col : Bool) (core : Nat) : Nat := if col then core % 8 else core % 48 / 8

/-- The scratchpad bytes that a panel's stream reads. -/
def panelReads (f : Fmtw) (x : Entry) (col : Bool) (k : Nat) : List (Nat × Nat) :=
  operandChunks (x.opd 0) (x.opd 1) (panelLines col) k (tyOf f.ot).width ++
    (if f.abs then [(f.asca, panelLines col * blocksOf f.ot k)] else [])

/-- `msow` (13 R237, R251): the panel is armed, and the entry completes when its stream ends. -/
def execMsow (h : EHead) (_ab _ap : Reg) (col : Bool) (kf : BitVec 12) (s : State) : Out' :=
  let k := kOf kf
  issueEntry .c h (fun x s =>
    let q := s.seq s.who
    matrixGate (msowFault q.headFmt k) [(x.opd 0, x.opd 1)]
      (match q.headFmt with | some f => panelReads f x col k | none => []) [] s)
    (fun x s =>
      let i := s.who
      let q := s.seq i
      let f := q.headFmt.getD ⟨0, oneScale, oneScale⟩
      let s := enterArray true s
      let s := s.modCore i.pkg i.core fun c =>
        { c with array := c.array ++ [{ seq := i.seq, entry := x.id, fmt := f, reads := panelReads f x col k }] }
      let p : Panel :=
        { who := i, entry := x.id, caddr := x.caddr, dctx := q.dctx.toNat, vteam := q.vteam.toNat, vcore := q.vcore.toNat,
          ck := s.ck, col := col, line := busLine col i.core, otype := f.ot, kext := k, abs := f.abs,
          base := x.opd 0, pitch := x.opd 1, area := f.asca }
      s.modDie i.pkg (dieOf i.core) fun d => { d with panels := armPanel p d.panels }) s

/-! ## The check at the array's entry (13 R242) -/

/-- The checks 2, 4 and 5 of a command, by the kind and τ it will observe. -/
def entryCheckFault (j : Instr) (x : Entry) (q : Seq) (ts : Vector Tile 30) : Option Nat :=
  match j with
  | .mmul _ t _ _ _ _ _ _ acc kf => mmulFault q.headFmt t.toNat acc (kOf kf) ts
  | .mslice _ t _ _ _ _ acc _ kf =>
    let r := q.sliceRec x.id
    msliceFault (match r with | some r => some r.fmt | none => q.headFmt) t.toNat acc (kOf kf) r.isSome ts
  | .mld _ t _ _ acc => mldFault q.headFmt t.toNat acc ts
  | .mst _ t _ _ => mstFault q.headFmt t.toNat ts
  | .msow _ _ _ _ kf => msowFault q.headFmt (kOf kf)
  | _ => none

/-- ARRAY_ENTRY_CHECK (13 R242): with the lease granted, and before any token or format word is taken, the head command is
checked again against the kind and τ it will observe; one that fails faults precisely at the C queue. -/
def execArrayEntryCheck (i : Sid) (s : State) : Out' :=
  let c := s.core i.pkg i.core
  let q := c.seq i.seq
  if !s.has i || c.holder ≠ some i.seq || q.st == .halt then .next s
  else
    match q.headOf .c with
    | none => .next s
    | some x =>
      if !x.compared || !x.guard then .next s
      else
        match x.instr?.bind fun j => entryCheckFault j x q c.tilesAhead with
        | some code => .next (entryFault i .c x code 0 s)
        | none => .next s

end Sys2Proof.Machine
end

