-- ==== Sys2Proof/Machine/Bus.lean ====
section
/-! DEFINITION. Bus streams (13 R236-R238): STREAM_BEGIN; the withdrawal of what waits for one (13 R254), and the passes of an
`mslice` that a checkpoint finds in the array (13 R247). -/

namespace Sys2Proof.Machine

/-- The members of a panel's stream: the team's cores on the sender's row, or column (13 R236). -/
def panelMembers (s : State) (p : Nat) (x : Panel) : List Nat :=
  match (s.pkg p).team? x.dctx x.vteam with
  | none => []
  | some t => t.cores.filter fun c => busLine x.col c == x.line

/-- The receiver at a core's array input (13 R237). -/
def Core.receiver? (c : Core) : Option ArrCmd := c.array.find? fun a => a.fromRow || a.fromCol

/-- The receiver takes its operand from that kind of bus. -/
def ArrCmd.from (a : ArrCmd) (col : Bool) : Bool := if col then a.fromCol else a.fromRow

/-- The oldest armed panel of a team on a bus (13 R237). -/
def Die.oldestPanel (d : Die) (dctx vteam : Nat) (col : Bool) (line : Nat) : Option Panel :=
  d.panels.find? fun x => x.dctx == dctx && x.vteam == vteam && x.col == col && x.line == line

/-- The panels that must begin with those given, because a receiver of theirs receives on the other bus too (13 R237); none where
such a panel is not armed. -/
def alsoPanels (s : State) (p d : Nat) (xs : List Panel) : Option (List Panel) :=
  (xs.flatMap fun x => (panelMembers s p x).map fun c => (x, c)).foldl (fun acc xc =>
    acc.bind fun ys =>
      match (s.core p xc.2).receiver? with
      | none => some ys
      | some r =>
        if r.from (!xc.1.col) then
          match ((s.pkg p).die d).oldestPanel xc.1.dctx xc.1.vteam (!xc.1.col) (busLine (!xc.1.col) xc.2) with
          | none => none
          | some y => some (if ys.contains y then ys else ys ++ [y])
        else some ys) (some xs)

/-- The set of panels closed under that need; `fuel` bounds the buses of a die. -/
def jointPanels (s : State) (p d : Nat) : Nat → List Panel → Option (List Panel)
  | 0, xs => some xs
  | n + 1, xs => (alsoPanels s p d xs).bind (jointPanels s p d n)

/-- Every member of every panel of the set presents a receiver for it (13 R237). -/
def panelsReady (s : State) (p : Nat) (xs : List Panel) : Bool :=
  xs.all fun x => !x.bad && (panelMembers s p x).all fun c =>
    match (s.core p c).receiver? with
    | some r => r.from x.col
    | none => false

/-- The `mmul` of a receiver: its tile, its ACC and K. -/
def Core.receiverOp (c : Core) (r : ArrCmd) : Option (Entry × Nat × Bool × Nat) :=
  ((c.seq r.seq).qc.find? fun e => e.id == r.entry).bind fun e =>
    match e.instr? with
    | some (.mmul _ t _ _ _ _ _ _ acc kf) => some (e, t.toNat, acc, kOf kf)
    | _ => none

/-- A receiver does not match a panel (13 R238). -/
def mismatch (s : State) (p : Nat) (x : Panel) (c : Nat) : Bool :=
  match (s.core p c).receiver? with
  | none => false
  | some r =>
    (if x.col then r.fmt.bt ≠ x.otype || r.fmt.bbs != x.abs else r.fmt.at_ ≠ x.otype || r.fmt.abs != x.abs) ||
      (match (s.core p c).receiverOp r with | some o => o.2.2.2 ≠ x.kext | none => false)

/-- The operand of a receiver from a panel: the sender's lines and scales (13 R237). -/
def panelSide (s : State) (p : Nat) (x : Panel) : Side := ⟨s.core p x.who.core, x.base, x.pitch, x.abs, x.area⟩

/-- A receiver's product, with its operands from the panels of its buses or from its own scratchpad (13 R236, R245); it
completes. -/
def receive (s0 : State) (p : Nat) (xs : List Panel) (core : Nat) (s : State) : State :=
  let c0 := s0.core p core
  match c0.receiver? with
  | none => s
  | some r =>
    match c0.receiverOp r with
    | none => s
    | some (e, t, acc, k) =>
      let from_ := fun col => xs.find? fun x => x.col == col && x.line == busLine col core
      let a := match (if r.fromRow then from_ false else none) with | some x => panelSide s0 p x | none => sideA r.fmt e c0
      let b := match (if r.fromCol then from_ true else none) with | some x => panelSide s0 p x | none => sideB r.fmt e c0
      s.modCore p core fun c =>
        let o := mmulTile r.fmt t acc k a b c
        { o.1.modSeq r.seq fun q => (q.orFps (flagWord o.2)).complete .c r.entry with
          array := o.1.array.filter fun y => !(y.seq == r.seq && y.entry == r.entry) }

/-- A panel whose stream has ended: its `msow` completes (13 R228, R251). -/
def endPanel (p : Nat) (x : Panel) (s : State) : State :=
  let s := s.modCore p x.who.core fun c =>
    { c.modSeq x.who.seq fun q => q.complete .c x.entry with
      array := c.array.filter fun y => !(y.seq == x.who.seq && y.entry == x.entry) }
  s.modDie p (dieOf x.who.core) fun d => { d with panels := d.panels.filter fun y => !(y == x) }

/-- STREAM_BEGIN (13 R236-R238): the oldest panel of a bus begins, with the panels that must begin with it, once every member
presents a receiver; it reaches every member at once. A receiver that does not match raises "bus extent" against the context,
and the stream does not begin. -/
def execStreamBegin (p d : Nat) (col : Bool) (line : Nat) (s : State) : Out' :=
  let firsts := ((s.pkg p).die d).panels.filter fun x => x.col == col && x.line == line &&
    ((s.pkg p).die d).oldestPanel x.dctx x.vteam col line == some x
  let sets := firsts.filterMap fun x => (jointPanels s p d 14 [x]).filter (panelsReady s p)
  match sets with
  | [] => .next s
  | xs :: _ =>
    match xs.find? fun x => (panelMembers s p x).any (mismatch s p x) with
    | some x =>
      let id := (s.seq x.who).ident
      let s := s.modDie p d fun k => { k with panels := k.panels.map fun y => if y == x then { y with bad := true } else y }
      .next (deferFault id { code := fcBusExtent, queue := eqNum .c, caddr := x.caddr } s)
    | none =>
      let cores := (xs.flatMap (panelMembers s p)).eraseDups
      let t := cores.foldl (fun t c => receive s p xs c t) s
      .next (xs.foldl (fun t x => endPanel p x t) t)

/-- Pre-emption withdraws from a core's array every command whose stream has not begun (13 R254): its entry stands unissued
again with its tokens, and its format word returns to the front of the queue. -/
def withdrawArray (p core : Nat) (s : State) : State :=
  let s := s.modDie p (dieOf core) fun d => { d with panels := d.panels.filter fun x => x.who.core ≠ core }
  s.modCore p core fun c =>
    { c.array.foldr (fun a c => c.modSeq a.seq fun q =>
        if q.qc.any fun e => e.id == a.entry then { q.unissue .c a.entry with fq := a.fmt :: q.fq } else q) c with
      array := [] }

/-- A checkpoint finds the `mslice` at the head of a C queue in the array (13 R247): it has entered, `n` counts its finished
passes plus one, or is 0 before its pre-pass has finished; its last pass it does not finish here. The record is left for its
resumption. -/
def stopSlice (i : Sid) (n : Nat) (s : State) : State :=
  let s' := { s with who := i }
  match (s.seq i).headOf .c with
  | none => s
  | some x =>
    match x.instr? with
    | some (.mslice h t _ _ _ _ acc sl kf) =>
      let again := ((s.seq i).sliceRec x.id).isSome
      if !x.compared || !x.guard || (!again && !(s.seq i).canTake .c h) then s
      else
        match msliceGate t.toNat acc (kOf kf) x s' with
        | (.go, _) =>
          let s := if again then s else s.modSeq i fun q => q.take .c h
          s.modCore i.pkg i.core fun c =>
            let q := c.seq i.seq
            let (r, ts) := sliceStart t.toNat acc x q c
            let (la, lb) := sliceLines r.fmt x (kOf kf) c
            let r := if r.nextM = 0 && n ≠ 0 then slicePre la lb sl.toNat r else r
            let (r, ts) := slicePasses t.toNat 2 la lb (n - 1) (r, ts)
            let c := if again then c else c.countLease.modSeq i.seq Seq.popFmt
            { (c.modSeq i.seq fun q => { q with msrec := some r }) with tiles := ts }
        | _ => s
    | _ => s

end Sys2Proof.Machine
end

