-- ==== Sys2Proof/Machine/Fabric.lean ====
section
/-! DEFINITION. The events of requests and answers (17 R294-R309): arrival at the destination router die, the owner's step, the
answer's arrival, resends, expiry of packets and of reply-cache entries. -/

namespace Sys2Proof.Machine

/-- A packet leaves the fabric. -/
def dropPacket (id : Nat) (s : State) : State := { s with net := s.net.filter fun k => k.id ≠ id }

/-- The receiving side of a flow's ordered stream. -/
def flowRx (s : State) (p dctx src : Nat) : FlowRx :=
  ((s.pkg p).flowsRx.find? fun f => f.dctx == dctx && f.src == src).getD { dctx := dctx, src := src }

/-- The receiving side of a flow replaced. -/
def setFlowRx (p : Nat) (f : FlowRx) (s : State) : State :=
  s.modPkg p fun k => { k with flowsRx := f :: k.flowsRx.filter fun g => !(g.dctx == f.dctx && g.src == f.src) }

/-- A request issued into the mesh of its destination package. -/
def intoMesh (p src : Nat) (r : Req) (s : State) : State := s.modPkg p fun k => { k with mesh := k.mesh ++ [⟨r, src, s.ck⟩] }

/-- The packets of a stream that wait in the reorder buffer are issued as their turn comes, but for one sent 48 µs or more ago, which is
discarded (17 R296); `fuel` bounds their number. -/
def issueHeld (p dctx src : Nat) : Nat → State → State
  | 0, s => s
  | n + 1, s =>
    let f := flowRx s p dctx src
    match s.net.find? fun k => k.held && k.dst == p && k.src == src &&
        (match k.body with | .req r => r.id.dctx == dctx && r.fseq == some f.next | _ => false) with
    | some k =>
      match k.body with
      | .req r =>
        if s.ck ≥ k.sent + Config.expiryCk then dropPacket k.id s
        else
          issueHeld p dctx src n
            (intoMesh p src r (setFlowRx p { f with next := (f.next + 1) % 65536 } (dropPacket k.id s)))
      | _ => s
    | none => s

/-- REMOTE_PACKET_ARRIVAL (17 R294, R295): a packet that stands at its destination router die. An answer goes to its requester's
package; a request of an unordered stream is issued at once; one of an ordered stream in FSEQ order, waiting in the reorder
buffer before its turn, and at once, outside the order, where its FSEQ was issued before. A copy sent 48 µs or more ago is
discarded (17 R296). -/
def execRemotePacketArrival (k : Nat) (s : State) : Out' :=
  match s.net[k]? with
  | none => .next s
  | some x =>
    if x.at_ ≠ x.dst || x.port.isSome || x.held || !s.hasPkg x.dst then .next s
    else if s.ck ≥ x.sent + Config.expiryCk then .next (dropPacket x.id s)
    else
      match x.body with
      | .ans r a => .next ((dropPacket x.id s).modPkg x.dst fun p => { p with answers := p.answers ++ [(r, a)] })
      | .req r =>
        match r.fseq with
        | none => .next (intoMesh x.dst x.src r (dropPacket x.id s))
        | some n =>
          let f := flowRx s x.dst r.id.dctx x.src
          if r.inc ≠ (s.pkg x.dst).inc || fseqBefore n f.next then .next (intoMesh x.dst x.src r (dropPacket x.id s))
          else if n = f.next then
            let s := setFlowRx x.dst { f with next := (f.next + 1) % 65536 } (dropPacket x.id s)
            .next (issueHeld x.dst r.id.dctx x.src s.net.length (intoMesh x.dst x.src r s))
          else .next { s with net := s.net.map fun y => if y.id = x.id then { y with held := true } else y }
      | _ => .next s

/-- REMOTE_OPERATION (17 R305): the owner, or the home of an idempotent access, handles a request in its package's mesh, after
every earlier one of its ordered stream to the same location (17 R294). -/
def execRemoteOperation (p k : Nat) (s : State) : Out' :=
  match (s.pkg p).mesh[k]? with
  | none => .next s
  | some m =>
    if (s.pkg p).mesh.take k |>.any fun e => sameLocation e m then .next s
    else
      match m.req.op with
      | .arrive _ _ _ | .release _ _ _ => .next s
      | _ =>
        match own p m s with
        | .wait t => .next t
        | .answer a t => .next (answerReq p m a (t.modPkg p fun x => { x with mesh := x.mesh.eraseIdx k }))

/-- ANSWER_ARRIVAL (17 R303, R307, R309). -/
def execAnswerArrival (p k : Nat) (s : State) : Out' :=
  match (s.pkg p).answers[k]? with
  | none => .next s
  | some (r, a) => .next (receiveAnswer p r a (s.modPkg p fun x => { x with answers := x.answers.eraseIdx k }))

/-- "fabric unreachable" (17 R307) for a request whose requester's front end is not there to take it: against the context. -/
def unreachable (id : Ident) (s : State) : State :=
  match s.findSeq id with
  | some j => machineCheck j fcUnreachable (checkAux j fcUnreachable) s
  | none =>
    match s.teamPkg id with
    | none => s
    | some p => recordSaved p id { code := fcUnreachable, cyc := s.cyc p, resumable := true } (s.stopCtx id.dctx 3)

/-- The k-th entry of a list of a package's own requests is sent again, or its 16th send has stayed unanswered (17 R307). -/
def resendOwn (p k : Nat) (get : Package → List Out) (put : List Out → Package → Package) (s : State) : State :=
  match (get (s.pkg p))[k]? with
  | none => s
  | some o =>
    if o.resendAt.isSome || s.ck < o.lastSend + Config.resendCk then s
    else if o.attempts ≥ Config.maxSends then
      unreachable o.req.id (s.modPkg p fun x => put ((get x).eraseIdx k) x)
    else
      launch o.req (s.modPkg p fun x =>
        put ((get x).modify k fun o => { o with attempts := o.attempts + 1, lastSend := s.ck }) x)

/-- RESEND_TIMEOUT (17 R307): an outstanding request of a sequencer that has stayed unanswered for 64 µs is sent again; after
the 16th send, "fabric unreachable". Core 96 stands for the package's barrier unit and core 97 for the copies that its router
die holds for checkpointed teams. -/
def execResendTimeout (i : Sid) (k : Nat) (s : State) : Out' :=
  if i.core = 96 then .next (resendOwn i.pkg k (·.unitOut) (fun l p => { p with unitOut := l }) s)
  else if i.core = 97 then .next (resendOwn i.pkg k (·.routerCopies) (fun l p => { p with routerCopies := l }) s)
  else
    match (s.seq i).out[k]? with
    | none => .next s
    | some o =>
      if !s.has i || o.resendAt.isSome || s.ck < o.lastSend + Config.resendCk then .next s
      else if o.attempts ≥ Config.maxSends then .next (machineCheck i fcUnreachable (checkAux i fcUnreachable) s)
      else .next (resend i o true s)

/-- NACK_BACKOFF_RESEND (17 R307): after NACK(FULL) or NACK(ABSENT), once the back-off has passed. -/
def execNackBackoffResend (i : Sid) (k : Nat) (s : State) : Out' :=
  match (s.seq i).out[k]? with
  | none => .next s
  | some o =>
    match o.resendAt with
    | none => .next s
    | some t => if !s.has i || o.refused || s.ck < t then .next s else .next (resend i o false s)

/-- NACK_RESEND (03 R62): once the back-off of a refused push has passed, the push and every later push of the replay window are
sent again, in their order and under their serials. -/
def execNackResend (i : Sid) (k : Nat) (s : State) : Out' :=
  match (s.seq i).out[k]? with
  | none => .next s
  | some o =>
    match o.resendAt with
    | none => .next s
    | some t =>
      if !s.has i || !o.refused || s.ck < t then .next s
      else
        let later := ((s.seq i).out.drop k).filter fun x => match x.req.op with | .push _ => true | _ => false
        .next (later.foldl (fun s o => resend i o false s) s)

/-- PACKET_EXPIRY (17 R296): a packet whose send lies 48 µs or more in the past is discarded wherever it is. -/
def execPacketExpiry (k : Nat) (s : State) : Out' :=
  match s.net[k]? with
  | none => .next s
  | some x => if s.ck < x.sent + Config.expiryCk then .next s else .next (dropPacket x.id s)

/-- The team of an identity is running (17 R306). -/
def identRunning (s : State) (i : Ident) : Bool :=
  s.pkgs.any fun p =>
    ((p.ctx? i.dctx).any fun c => (c.vps.map (·.1))[i.vp]? == some p.num) && (p.team? i.dctx i.vt).any fun t => t.st == .running

/-- The team that a core serves is running. -/
def coreRunning (s : State) (p c : Nat) : Bool :=
  match (s.core p c).bound with
  | none => false
  | some b => ((s.pkg p).team? b.dctx b.vteam).any fun t => t.st == .running

/-- REPLY_CACHE_EXPIRY (17 R306): an entry whose hold timer has reached 4 ms is freed. -/
def execReplyCacheExpiry (p c k : Nat) (s : State) : Out' :=
  match (s.core p c).replies[k]? with
  | none => .next s
  | some r =>
    if r.hold < Config.holdCk then .next s
    else .next (s.modCore p c fun x => { x with replies := x.replies.eraseIdx k })

/-- The hold timers of a core's reply cache move on by n ck, each only while the requester's and the owner's team run, and the entries whose
timer reaches 4 ms are freed (17 R306). -/
def holdReplies (s : State) (n p c : Nat) (k : Core) : Core :=
  if k.replies.isEmpty || !coreRunning s p c then k
  else
    { k with replies := (k.replies.map fun r => if identRunning s r.id then { r with hold := r.hold + n } else r).filter fun r =>
        decide (r.hold < Config.holdCk) }

/-- The ck at which a request is sent again (17 R307). -/
def Out.dueAt (o : Out) : Nat := o.resendAt.getD (o.lastSend + Config.resendCk)

/-- Some request would be past the time of its next send in n ck: its timer acts before the clock moves on so far (17 R306, R307). -/
def sendsDue (n : Nat) (s : State) : Bool :=
  s.pkgs.any fun k =>
    let late := fun (o : Out) => decide (o.dueAt < s.ck + n)
    k.unitOut.any late || k.routerCopies.any late || k.cores.toList.any fun c => c.seqs.toList.any fun q => q.out.any late

end Sys2Proof.Machine
end

