-- ==== Sys2Proof/Machine/Links.lean ====
section
/-! DEFINITION. Ports, lanes and links (01 R29, R30; 17 R310-R313) and routing (17 R314-R318): LANE_FALLOW to LINK_RETURN. A
packet is at a router, or in the flits of a port until the last of them has crossed the link. -/

namespace Sys2Proof.Machine

/-! ## Wiring (01 R29, R30) -/

/-- A port of a package. -/
def Package.port (p : Package) (n : Nat) : Port := vget {} p.ports n

/-- A port changed by f. -/
def State.modPort (s : State) (p n : Nat) (f : Port → Port) : State := s.modPkg p fun k => { k with ports := vmod k.ports n f }

/-- The index of a global port: its own, or the one that management assigned to it (01 R30). -/
def globalIndex (s : State) (p n : Nat) : Nat := (((s.pkg p).port n).gindex).getD (p % 24 * 8 + (n - 23))

/-- The port of a group that carries a global index: a spare to which it is assigned, or the one wired for it (01 R30). -/
def indexPort (s : State) (group g : Nat) : Nat × Nat :=
  match (List.range 8).find? fun k => ((s.pkg (group * 24 + 23)).port (23 + k)).gindex == some g with
  | some k => (group * 24 + 23, 23 + k)
  | none => (group * 24 + g / 8, 23 + g % 8)

/-- The package and port at the other end of a port (01 R30); none for a spare, the host port, or a package that is not there. -/
def peerOf (s : State) (p n : Nat) : Option (Nat × Nat) :=
  let group := p / 24
  let m := p % 24
  let q :=
    if n ≤ 22 then some (group * 24 + (m + n + 1) % 24, 22 - n)
    else if n ≤ 30 then
      let g := globalIndex s p n
      if g ≥ 184 then none
      else some (indexPort s ((group + g % 23 + 1) % 24) (23 * (g / 23) + 23 - (g % 23 + 1)))
    else none
  q.filter fun x => s.hasPkg x.1

/-- The ACTIVE lanes of a port. -/
def Port.active (t : Port) : Nat := popBits t.lanes

/-- A link runs while 2 to 8 of its lanes are ACTIVE and it is not retired (17 R311, R313). -/
def linkUp (s : State) (p n : Nat) : Bool :=
  match peerOf s p n with
  | none => false
  | some (q, m) =>
    let a := (s.pkg p).port n
    let b := (s.pkg q).port m
    !a.retired && !b.retired && decide (2 ≤ a.active) && decide (2 ≤ b.active)

/-- The packages one running link away, with the port that leads there. -/
def neighbours (s : State) (p : Nat) : List (Nat × Nat) :=
  (List.range 31).filterMap fun n => if linkUp s p n then (peerOf s p n).map fun q => (n, q.1) else none

/-- The packages within n hops of a set of them. -/
def within (s : State) : Nat → List Nat → List Nat
  | 0, ps => ps
  | n + 1, ps => within s n ((ps ++ ps.flatMap fun p => (neighbours s p).map (·.2)).eraseDups)

/-- The hops from one package to another over running links, looked for up to a bound; none beyond it. -/
def hops (s : State) (src dst bound : Nat) : Option Nat :=
  (List.range (bound + 1)).find? fun n => (within s n [src]).contains dst

/-! ## Lanes (17 R310, R311, R313) -/

/-- Both ends of a link changed. -/
def modLink (p n : Nat) (f : Port → Port) (s : State) : State :=
  let t := s.modPort p n f
  match peerOf s p n with
  | some (q, m) => t.modPort q m f
  | none => t

/-- A port whose link has trained anew: nothing is under way on it. -/
def Port.trained (t : Port) : Port :=
  { t with replay := [], toSend := [], txSeq := 0, rxSeq := 0, nak := false, change := false, stripe := t.lanes, lane := 0 }

/-- The two ends of a link. -/
def linkEnds (s : State) (p n : Nat) : List (Nat × Nat) := (p, n) :: (peerOf s p n).toList

/-- A report to management (17 R310). -/
def Package.report (k : Package) (r : Report) : Package := { k with reports := k.reports ++ [r] }

/-- A link with fewer than two ACTIVE lanes is retired: the flits in its buffers are discarded, and their packets with them
(17 R313). -/
def retireLink (p n : Nat) (s : State) : State :=
  let ends := linkEnds s p n
  let lost := ends.flatMap fun e => ((s.pkg e.1).port e.2).replay.map (·.pkt)
  let s := modLink p n (fun t => { t with retired := true, replay := [], toSend := [], nak := false }) s
  let s := ends.foldl (fun s e => s.modPkg e.1 fun k => k.report (.retired e.2)) s
  { s with net := s.net.filter fun k => !lost.contains k.id }

/-- The corrected flit errors that a lane has shown in the last 2^30 flits (17 R310). -/
def Port.errors (t : Port) (lane : Nat) : Nat := (t.errs.filter fun e => e.1 == lane).length

/-- The ACTIVE set of a link changes at both ends (17 R310, R311): each sender is to emit a stripe-change control flit, and the lane is
reported with its errors, which are then counted anew. -/
def setLane (p port lane : Nat) (on : Bool) (s : State) : State :=
  let s := (linkEnds s p port).foldl (fun s e => s.modPkg e.1 fun k => k.report (.lane e.2 lane on ((k.port e.2).errors lane))) s
  modLink p port (fun t =>
    { t with
      lanes := if on then t.lanes ||| (1#8 <<< lane) else t.lanes &&& ~~~(1#8 <<< lane)
      change := t.change || t.lanes.getLsbD lane != on
      errs := t.errs.filter fun e => e.1 ≠ lane }) s

/-- A lane becomes FALLOW, and a link left with one lane is retired (17 R310, R313). -/
def fallow (p port lane : Nat) (s : State) : State :=
  let s := setLane p port lane false s
  if ((s.pkg p).port port).active < 2 then retireLink p port s else s

/-- LANE_FALLOW (17 R310, R311, R313). -/
def execLaneFallow (p port lane : Nat) (s : State) : Out' :=
  if lane ≥ 8 || port > 30 then .next s else .next (fallow p port lane s)

/-- LANE_RETRAIN (17 R310). -/
def execLaneRetrain (p port lane : Nat) (s : State) : Out' :=
  if lane ≥ 8 || port > 30 then .next s else .next (setLane p port lane true s)

/-- SPARE_LINK_ASSIGN (01 R30, 17 R313): a spare port of a group takes the global index of a retired link of the group. -/
def execSpareLinkAssign (p port g : Nat) (s : State) : Out' :=
  let old := (p / 24 * 24 + g / 8, 23 + g % 8)
  if p % 24 == 23 && decide (23 ≤ port) && decide (port ≤ 30) && decide (g < 184) && ((s.pkg old.1).port old.2).retired then
    .next (s.modPort p port fun t => { t with gindex := some g })
  else .next s

/-- LINK_RETURN (17 R313): management returns a retired link. -/
def execLinkReturn (p port : Nat) (s : State) : Out' :=
  if port ≤ 30 && ((s.pkg p).port port).retired then
    .next (modLink p port (fun t => { t.trained with retired := false }) s)
  else .next s

/-! ## Flits (17 R312) -/

/-- The bytes that a request carries. -/
def Op.payload : Op → Nat
  | .store n _ => n
  | .put bs _ _ => bs.length
  | .push _ => 32
  | .atomic _ _ _ | .sig _ _ | .count _ => 16
  | .arrive _ _ w | .release _ _ w => w.length
  | _ => 0

/-- The flits of a packet: a header and its payload in units of 64 B, at most 5 (17 R314). -/
def packetFlits (k : Packet) : Nat :=
  let n := match k.body with
    | .req r => r.op.payload
    | .ans _ (.data bs) => bs.length
    | .coll c => (match c.kind with | .data _ _ _ _ _ bs => bs.length | _ => 0)
    | _ => 0
  min 5 (1 + (n + 63) / 64)

/-- A packet's flits put into a port's buffers under the next sequence numbers. -/
def sendFlits (k : Packet) (t : Port) : Port :=
  let n := packetFlits k
  let fs := (List.range n).map fun j => ({ seq := (t.txSeq + j) % 4096, pkt := k.id, last := decide (j + 1 = n) } : Flit)
  { t with replay := t.replay ++ fs, toSend := t.toSend ++ fs, txSeq := (t.txSeq + n) % 4096 }

/-- The lane that carries the next flit (17 R311): from the lowest on in ascending number, and around. -/
def Port.nextLane (t : Port) : Nat :=
  (((List.range 8).map fun n => (t.lane + n) % 8).find? fun n => t.stripe.getLsbD n).getD 0

/-- A flit received on a lane: it counts, and a corrected one is noted (17 R310). -/
def Port.receive (t : Port) (lane : Nat) (corrected : Bool) : Port :=
  let errs := t.errs.filter fun e => decide (t.rxCount < e.2 + 2 ^ 30)
  { t with rxCount := t.rxCount + 1, errs := if corrected then (lane, t.rxCount) :: errs else errs }

/-- A good flit in sequence is acknowledged, and the last of a packet brings the packet to the router (17 R312). -/
def takeFlit (p port q m : Nat) (f : Flit) (s : State) : State :=
  let s := s.modPort p port fun t => { t with rxSeq := (t.rxSeq + 1) % 4096 }
  let s := s.modPort q m fun t => { t with replay := t.replay.filter fun x => x.seq ≠ f.seq }
  if f.last then
    { s with net := s.net.map fun k =>
        if k.id = f.pkt then { k with at_ := p, port := none, via := port, want := none, since := s.ck } else k }
  else s

/-- FLIT_RECEIVE (17 R310-R312): the next flit on a link reaches its receiver, by the lane whose turn it is. A control flit that stands to
be sent goes first, and from it on the ACTIVE lanes carry the flits. A good flit in sequence is taken; a bad one asks for a replay from it
on, and what follows it is not taken. Whether a good flit was corrected is a free value, and a lane with more than 1,024 corrected in 2^30
becomes FALLOW. -/
def execFlitReceive (p port : Nat) (good : Bool) (s : State) : Out' :=
  match peerOf s p port with
  | none => .next s
  | some (q, m) =>
    let there := (s.pkg q).port m
    if there.change then
      .next (if good then s.modPort q m fun t => { t with change := false, stripe := t.lanes, lane := 0 } else s)
    else
      match there.toSend with
      | [] => .next s
      | f :: rest =>
        let lane := there.nextLane
        let s := s.modPort q m fun t => { t with toSend := rest, lane := lane + 1 }
        let (fixed, s) := s.drawBool
        let s := s.modPort p port fun t => t.receive lane (good && fixed)
        let s :=
          if f.seq ≠ ((s.pkg p).port port).rxSeq then s
          else if !good then s.modPort q m fun t => { t with nak := true }
          else takeFlit p port q m f s
        .next (if ((s.pkg p).port port).errors lane > 1024 then fallow p port lane s else s)

/-- FLIT_REPLAY (17 R312): the sender sends every flit that has not been acknowledged again. -/
def execFlitReplay (p port : Nat) (s : State) : Out' :=
  if ((s.pkg p).port port).nak then .next (s.modPort p port fun t => { t with nak := false, toSend := t.replay }) else .next s

/-! ## Routing (17 R314-R316) -/

/-- The cost of an output in 840ths: Q x 8 / L (17 R315). Q counts the flits that wait to be sent, not those sent and unacknowledged,
which is the model's choice (assumption 50). -/
def portCost (s : State) (p n : Nat) : Nat :=
  let t := (s.pkg p).port n
  t.toSend.length * 8 * 840 / t.active

/-- Two packages lie in one group (01 R30). -/
def sameGroup (a b : Nat) : Bool := a / 24 == b / 24

/-- A running global link leads from the package to a group. -/
def reachesGroup (s : State) (p group : Nat) : Bool :=
  (neighbours s p).any fun n => decide (23 ≤ n.1) && n.2 / 24 == group

/-- The first hops of minimal paths: local, global and local hops (17 R315). -/
def minimalPorts (s : State) (p dst : Nat) : List Nat :=
  ((neighbours s p).filter fun n =>
    if sameGroup p dst then n.2 == dst
    else sameGroup n.2 dst || (sameGroup p n.2 && reachesGroup s n.2 (dst / 24))).map (·.1)

/-- The first hops of paths through an intermediate group whose needed global links are up (17 R315). -/
def detourPorts (s : State) (p dst : Nat) : List Nat :=
  let through := fun g => g ≠ p / 24 && g ≠ dst / 24 &&
    (List.range 24).any fun m => s.hasPkg (g * 24 + m) && reachesGroup s (g * 24 + m) (dst / 24)
  ((neighbours s p).filter fun n =>
    if sameGroup p n.2 then (neighbours s n.2).any (fun k => decide (23 ≤ k.1) && through (k.2 / 24)) else through (n.2 / 24)).map (·.1)

/-- The least cost of a list of outputs. -/
def bestCost (s : State) (p : Nat) (ns : List Nat) : Option Nat := (ns.map (portCost s p)).min?

/-- The outputs that the source router may choose (17 R315): a cheapest one of a minimal path, or any first hop of a detour where
the best minimal cost exceeds twice the best detour cost plus 64, or where no minimal path is up. -/
def sourcePorts (s : State) (p dst : Nat) : List Nat :=
  let mn := minimalPorts s p dst
  let dt := detourPorts s p dst
  match bestCost s p mn, bestCost s p dt with
  | none, _ => dt
  | some a, some b => if a > 2 * b + 64 * 840 then dt else mn.filter fun n => portCost s p n == a
  | some a, none => mn.filter fun n => portCost s p n == a

/-- The outputs of a later router: the cheapest of those from which the destination lies within the hops that the channels above
allow (17 R315). -/
def laterPorts (s : State) (p dst vc : Nat) : List Nat :=
  let ok := ((neighbours s p).filter fun n => (hops s n.2 dst (4 - (vc + 1))).isSome).map (·.1)
  if vc ≥ 4 then [] else
    match bestCost s p ok with
    | none => []
    | some a => ok.filter fun n => portCost s p n == a

/-- The outputs of windrow traffic on the COLL channel (21 R352): the direct links to its destination. -/
def collPorts (s : State) (k : Packet) : List Nat := ((neighbours s k.at_).filter fun n => n.2 == k.dst).map (·.1)

/-- The packet goes by dragonfly channels: it is on one, or is windrow traffic that no direct link carries any more (21 R352). -/
def onDragon (s : State) (k : Packet) : Bool := decide (k.vc < 5) || (k.vc == 6 && (collPorts s k).isEmpty)

/-- The legal outputs of a packet on a dragonfly channel. -/
def dragonPorts (s : State) (k : Packet) : List Nat :=
  if k.fresh then sourcePorts s k.at_ k.dst else laterPorts s k.at_ k.dst k.vc

/-- The outputs of management's traffic: those that lead nearer to the destination. The spec gives it no route (assumption 51). -/
def nearPorts (s : State) (k : Packet) : List Nat :=
  match hops s k.at_ k.dst s.pkgs.length with
  | some (d + 1) => ((neighbours s k.at_).filter fun n => hops s n.2 k.dst d == some d).map (·.1)
  | _ => []

/-- The packages on the way from one to the root of the loaded tree, itself first; `fuel` bounds their number. -/
def treePath (tree : List (Nat × Nat)) : Nat → Nat → List Nat
  | 0, p => [p]
  | n + 1, p =>
    match tree.find? fun e => e.1 == p with
    | none => [p]
    | some e => p :: treePath tree n e.2

/-- The next package on the headland route: up to the lowest common ancestor, and down from it (17 R316). -/
def treeHop (s : State) (p dst : Nat) : Option Nat :=
  let path := treePath s.tree s.tree.length dst
  if path.contains p then (path.takeWhile fun x => x ≠ p).getLast? else (s.tree.find? fun e => e.1 == p).map (·.2)

/-- The outputs that a packet may wait for. -/
def legalPorts (s : State) (k : Packet) : List Nat :=
  if onDragon s k then dragonPorts s k
  else if k.vc = 6 then collPorts s k
  else if k.vc = 7 then nearPorts s k
  else
    match treeHop s k.at_ k.dst with
    | none => []
    | some b => ((neighbours s k.at_).filter fun n => n.2 == b).map (·.1)

/-- The channel that a packet takes next (17 R314, R315). -/
def nextVc (s : State) (k : Packet) : Nat := if onDragon s k then (if k.fresh then 0 else k.vc + 1) else k.vc

/-! ## Arbitration at an output (17 R314; 21 R353) -/

/-- The package of a rank. -/
def rankPkg (k : Package) (w : Work) (r : Nat) : Option Nat :=
  (k.ctx? w.dctx).bind fun c => (w.ranks[r]?).bind fun vp => (c.vps[vp]?).map (·.1)

/-- The arbitration weight of an entry: WGT + 1 (21 R344). -/
def Work.weight (w : Work) : Nat := bitsOf (fieldAt w.record 88 8) 11 8 + 1

/-- The COLL weight of a port: the largest among the entries with a step in progress to or from the package at its other end, or 1
(21 R353). -/
def collWeight (s : State) (p n : Nat) : Nat :=
  let k := s.pkg p
  let far := (peerOf s p n).map (·.1)
  let on := fun (w : Work) (r : Option Nat) => far.isSome && (r.bind (rankPkg k w)) == far
  (k.works.toList.filter fun w => w.st == .run && w.runs.any fun r => on w r.src || on w r.dst).foldl (fun m w => max m w.weight) 1

/-- The collective of a packet: context and number. -/
def Packet.coll (k : Packet) : Nat × Nat :=
  match k.body with
  | .coll c | .collAck c _ => (c.dctx, c.coll)
  | _ => (0, 0)

/-- The port has room for a packet: at most 1,024 flits stand unacknowledged (17 R312). -/
def portRoom (s : State) (p n : Nat) (k : Packet) : Bool :=
  decide (((s.pkg p).port n).replay.length + packetFlits k ≤ 1024)

/-- A packet has credit for the channel that it takes next at an output (17 R314): the input at the other end has room, counting the
packets on the link and those that stand there. -/
def hasCredit (s : State) (n : Nat) (k : Packet) : Bool :=
  let v := nextVc s k
  let there := peerOf s k.at_ n
  let held := s.net.filter fun x => x.response == k.response && x.vc == v &&
    ((x.at_ == k.at_ && x.port == some n) || (there == some (x.at_, x.via) && x.port.isNone && x.at_ ≠ x.dst))
  held.isEmpty || decide (held.length ≤ Config.vcDepth)

/-- A channel may still send in the current round at an output. -/
def Port.inRound (t : Port) (plane : Bool) (weight v : Nat) : Bool :=
  decide ((t.served.filter fun e => e == (plane, v)).length < (if v = 6 then weight else 1))

/-- The packets of a plane that wait for the same output, and could take it. -/
def rivals (s : State) (n : Nat) (k : Packet) : List Packet :=
  s.net.filter fun x => x.id ≠ k.id && x.at_ == k.at_ && x.port.isNone && !x.held && x.want == some n && x.at_ ≠ x.dst &&
    x.response == k.response && portRoom s k.at_ n x && hasCredit s n x

/-- The packet has its turn at an output (17 R314; 21 R353): it is the oldest of its channel there; MGMT goes first; the other channels
send one packet each in a round, COLL as many as its weight, and within COLL the collectives take turns. -/
def hasTurn (s : State) (n : Nat) (k : Packet) : Bool :=
  let t := (s.pkg k.at_).port n
  let w := collWeight s k.at_ n
  let v := nextVc s k
  let rs := rivals s n k
  let turn := fun (x : Packet) => t.inRound k.response w (nextVc s x)
  !rs.any (fun x => nextVc s x == v && (v ≠ 6 || x.coll == k.coll) && decide (x.since < k.since)) &&
    (v == 7 || (!rs.any (fun x => nextVc s x == 7) && (turn k || !rs.any turn) &&
      (v ≠ 6 || !t.collServed.contains k.coll || !rs.any fun x => nextVc s x == 6 && !t.collServed.contains x.coll)))

/-- A packet of a channel has been sent: the round goes on, or a new one begins. -/
def Port.serve (t : Port) (plane : Bool) (weight v : Nat) (coll : Nat × Nat) : Port :=
  if v = 7 then t
  else
    { t with
      served := (plane, v) :: (if t.inRound plane weight v then t.served else t.served.filter fun e => e.1 ≠ plane)
      collServed := if v ≠ 6 then t.collServed else if t.collServed.contains coll then [coll] else coll :: t.collServed }

/-- A packet leaves its router by a port, on a channel. -/
def takePort (k : Packet) (n vc : Nat) (s : State) : State :=
  let k' := { k with port := some n, vc := vc, fresh := false, want := none }
  let w := collWeight s k.at_ n
  let s := { s with net := s.net.map fun (x : Packet) => if x.id = k.id then k' else x }
  s.modPort k.at_ n fun t => sendFlits k' (t.serve k.response w vc k.coll)

/-- PACKET_ROUTE (17 R314-R316, R318): a packet at a router that is not its destination chooses a legal next hop, and takes it once the
output has room, credit and a turn for it. On the headland channel the hop is the next tree link, for packets of the router's epoch; one
whose link has failed is discarded while the tree drains. -/
def execPacketRoute (k port : Nat) (s : State) : Out' :=
  match s.net[k]? with
  | none => .next s
  | some x =>
    let legal := legalPorts s x
    if x.port.isSome || x.held || x.at_ = x.dst || (x.vc = 5 && x.epoch ≠ (s.pkg x.at_).epoch) then .next s
    else
      match (if x.vc = 5 then legal.head? else (x.want.toList ++ [port]).find? legal.contains) with
      | none => if x.vc = 5 && (treeHop s x.at_ x.dst).isSome && s.drainAt.isSome then .next (dropPacket x.id s) else .next s
      | some n =>
        let x' := { x with want := some n }
        if portRoom s x.at_ n x && hasCredit s n x && hasTurn s n x then .next (takePort x n (nextVc s x) s)
        else .next { s with net := s.net.map fun y => if y.id = x.id then x' else y }

/-- HEADLAND_MOVE (17 R316, R318): a packet with no legal next hop, or 4,096 ck at its router, enters the headland channel under
the current epoch, unless the tree drains. -/
def execHeadlandMove (k : Nat) (s : State) : Out' :=
  match s.net[k]? with
  | none => .next s
  | some x =>
    if x.port.isSome || x.held || x.at_ = x.dst || !onDragon s x || s.drainAt.isSome then .next s
    else if (dragonPorts s x).isEmpty || s.ck ≥ x.since + Config.headlandCk then
      .next { s with net := s.net.map fun y => if y.id = x.id then { y with vc := 5, want := none, epoch := (s.pkg x.at_).epoch } else y }
    else .next s

/-! ## Trees (17 R316, R318) -/

/-- The parents by level, from the root outward: each package of the next level takes its lowest-numbered neighbour of the level
before. -/
def treeFrom (s : State) : Nat → List Nat → List Nat → List (Nat × Nat)
  | 0, _, _ => []
  | n + 1, seen, level =>
    let next := ((level.flatMap fun p => (neighbours s p).map (·.2)).eraseDups).filter fun p => !seen.contains p
    (next.filterMap fun c => (((neighbours s c).map (·.2)).filter level.contains).min?.map fun p => (c, p)) ++
      treeFrom s n (seen ++ next) next

/-- The trees of the packages of a list that no tree has reached yet, each rooted at the first of them; `seen` are those reached. -/
def treesFrom (s : State) : List Nat → List Nat → List (Nat × Nat)
  | [], _ => []
  | p :: ps, seen =>
    if seen.contains p then treesFrom s ps seen
    else
      let t := treeFrom s s.pkgs.length [p] [p]
      t ++ treesFrom s ps (seen ++ p :: t.map (·.1))

/-- The spanning tree of the surviving links (17 R316), from the reachable package of lowest number: where the links fall apart, each part
has its own. -/
def buildTree (s : State) : List (Nat × Nat) := treesFrom s ((List.range 576).filter s.hasPkg) []

/-- TREE_DRAIN (17 R318): a drain begins, or begins anew for a failure during one. -/
def execTreeDrain (s : State) : Out' := .next { s with drainAt := some s.ck }

/-- TREE_SWITCH (17 R318): with no headland packet left, or 40 µs after the drain began, every router loads the next tree. -/
def execTreeSwitch (s : State) : Out' :=
  match s.drainAt with
  | none => .next s
  | some t =>
    if s.net.any (fun k => k.vc == 5 && k.at_ ≠ k.dst) && s.ck < t + 40 * Config.ckPerUs then .next s
    else
      let s := { s with net := s.net.filter (fun k => !(k.vc == 5 && k.at_ ≠ k.dst)), drainAt := none, tree := buildTree s }
      let e := (s.treeEpoch + 1) % 65536
      .next { s with treeEpoch := e, pkgs := s.pkgs.map fun p => { p with epoch := e } }

end Sys2Proof.Machine
end

