-- ==== Sys2Proof/Machine/Windrow.lean ====
section
/-! DEFINITION. The windrow engine's work entries (21 R343-R350, R358-R362): the record, the step-program check, signal words,
`karm`, `kstat` and `kdis`, the trigger, and an entry's fault. -/

namespace Sys2Proof.Machine

/-! ## The record (21 R344) -/

/-- The fields of a work entry's record (21 R344). -/
def wkSteps (r : List Byte) : Nat := bitsOf (fieldAt r 0 8) 56 0
@[inherit_doc wkSteps] def wkSbase (r : List Byte) : Nat := bitsOf (fieldAt r 8 8) 56 0
@[inherit_doc wkSteps] def wkDbase (r : List Byte) : Nat := bitsOf (fieldAt r 16 8) 56 0
@[inherit_doc wkSteps] def wkSstr (r : List Byte) : Int := intOf 48 true (fieldAt r 24 6)
@[inherit_doc wkSteps] def wkDstr (r : List Byte) : Int := intOf 48 true (fieldAt r 32 6)
@[inherit_doc wkSteps] def wkTsig (r : List Byte) : W64 := BitVec.ofNat 64 (fieldAt r 40 8)
@[inherit_doc wkSteps] def wkTthr (r : List Byte) : Nat := fieldAt r 48 4
@[inherit_doc wkSteps] def wkTinc (r : List Byte) : Nat := fieldAt r 52 4
@[inherit_doc wkSteps] def wkWsig (r : List Byte) : W64 := BitVec.ofNat 64 (fieldAt r 56 8)
@[inherit_doc wkSteps] def wkWinc (r : List Byte) : Nat := fieldAt r 68 4
@[inherit_doc wkSteps] def wkDsig (r : List Byte) : W64 := BitVec.ofNat 64 (fieldAt r 72 8)
@[inherit_doc wkSteps] def wkRtab (r : List Byte) : Nat := bitsOf (fieldAt r 80 8) 56 0
@[inherit_doc wkSteps] def wkColl (r : List Byte) : Nat := fieldAt r 94 2
@[inherit_doc wkSteps] def wkNr (r : List Byte) : Nat := bitsOf (fieldAt r 88 8) 41 32
@[inherit_doc wkSteps] def wkRank (r : List Byte) : Nat := bitsOf (fieldAt r 88 8) 25 16
@[inherit_doc wkSteps] def wkDtype (r : List Byte) : Nat := bitsOf (fieldAt r 88 8) 5 4
@[inherit_doc wkSteps] def wkNarm (r : List Byte) : Nat := fieldAt r 100 4
@[inherit_doc wkSteps] def wkNc (r : List Byte) : Nat := fieldAt r 96 4
@[inherit_doc wkSteps] def wkChunk (r : List Byte) : Nat := fieldAt r 104 4

/-- A reserved field of the record is not 0, or a field is out of range (21 R344, R360). -/
def workRecordBad (r : List Byte) : Bool :=
  let x := fieldAt r 88 8
  [0, 8, 16, 40, 56, 72, 80].any (fun o => bitsOf (fieldAt r o 8) 63 57 ≠ 0) || fieldAt r 30 2 ≠ 0 || fieldAt r 38 2 ≠ 0 ||
    fieldAt r 64 4 ≠ 0 || bitsOf x 47 42 ≠ 0 || bitsOf x 31 26 ≠ 0 || bitsOf x 15 12 ≠ 0 || bitsOf x 7 6 ≠ 0 ||
    bitsOf x 3 0 ≠ 0 || fieldAt r 108 4 ≠ 0 || (r.drop 112).any (fun b => b ≠ 0) || wkNr r < 2 || wkNr r > 576 ||
    wkRank r ≥ wkNr r || wkDtype r = 3 || wkNc r = 0 || wkNc r > 2 ^ 20 || wkChunk r % 64 ≠ 0 || wkChunk r < 64 ||
    wkChunk r > 2 ^ 24

/-! ## The step-program check (21 R345, R347) -/

/-- What the check knows at a step: the open counters, innermost first, and the peer slots that are set. -/
structure StepScan where
  opened : List Bool := []
  pa : Bool := false
  pb : Bool := false
  deriving DecidableEq, Repr

/-- The slot is set. -/
def StepScan.slot (k : StepScan) (ps : Bool) : Bool := if ps then k.pb else k.pa

/-- A step breaks a rule of R347. -/
def stepBad (wsig : Bool) (k : StepScan) (w : BitVec 32) : Bool :=
  let chunk := fun (m0 m1 : Coef) => (m0 ≠ .zero && !k.opened.contains false) || (m1 ≠ .zero && !k.opened.contains true)
  match decodeStep w with
  | none => true
  | some j =>
    match j with
    | .send ps _ _ m0 m1 _ => chunk m0 m1 || !k.slot ps
    | .recv ps x _ m0 m1 _ => chunk m0 m1 || !k.slot ps || (x && !k.slot (!ps))
    | .rrs ps _ _ m0 m1 _ => chunk m0 m1 || !k.slot ps || !k.slot (!ps)
    | .copy _ m0 m1 _ => chunk m0 m1
    | .wait _ => !wsig
    | .loop j x v => (!x && v == 0) || k.opened.contains j
    | .endl j => k.opened.head? ≠ some j
    | .halt => !k.opened.isEmpty
    | _ => false

/-- What the check knows after a step. -/
def StepScan.next (k : StepScan) (w : BitVec 32) : StepScan :=
  match decodeStep w with
  | some (.loop j _ _) => { k with opened := j :: k.opened }
  | some (.endl _) => { k with opened := k.opened.tail }
  | some (.peer ps _) => if ps then { k with pb := true } else { k with pa := true }
  | _ => k

/-- The index of the first bad step, or none; a program without a `halt` fails at its last step (21 R347). -/
def scanSteps (wsig : Bool) : Nat → StepScan → List (BitVec 32) → Option Nat
  | n, _, [] => some (n - 1)
  | n, k, w :: ws => if stepBad wsig k w then some n else if w = 0xF0000000 then none else scanSteps wsig (n + 1) (k.next w) ws

/-! ## Signal words (21 R344, R349) -/

/-- A signal address of the record is misplaced (21 R344, R360): it must name an atomic-window word of a core of the context on this
package. -/
def signalBad (i : Sid) (va : W64) (s : State) : Bool :=
  va.toNat ≥ 2 ^ 57 || !isWindow va || !va.getLsbD 23 || bitsOf va.toNat 22 0 ≥ 0x30000 ||
    (match resolveWindow i va 8 .sig s with
     | .ok (.win _ _ _) => false
     | .ok (.vwin vp vt _ _) => vp ≠ (s.seq i).vpV.toNat || ((s.pkg i.pkg).team? (s.seq i).dctx.toNat vt).isNone
     | _ => true)

/-- The team, member and window offset of an entry's signal word. -/
def sigPlace (k : Package) (w : Work) (va : W64) : Option (Team × Nat × Nat) :=
  let x := va.toNat
  let vt := if winClass va = 2 then bitsOf x 39 34 else w.vteam
  let vc := if winClass va = 0 && bitsOf x 45 40 = 63 then w.by_.vs / 4 else bitsOf x 45 40
  (k.team? w.dctx vt).map fun t => (t, vc, bitsOf x 22 0)

/-- The value of a signal word; the word of a checkpointed core keeps its saved value (21 R355). -/
def sigRead (k : Package) (w : Work) (va : W64) : Option W64 :=
  (sigPlace k w va).bind fun (t, vc, off) =>
    if t.placed then some ((k.core (t.coreOf vc)).winWord off)
    else (t.saved[vc]?).map fun c => c.winWord off

/-- 1 added to a signal word; none while its core is checkpointed (21 R355). A word whose team has been released is gone. -/
def sigAdd (p : Nat) (w : Work) (va : W64) (s : State) : Option State :=
  match sigPlace (s.pkg p) w va with
  | none => some s
  | some (t, vc, off) =>
    if t.st == .running then some (doAtom p (t.coreOf vc) off .add 1 0 s).2 else none

/-! ## The three words (21 R359-R362) -/

/-- The work entry of a context by VE, where it is not FREE. -/
def Package.entryOf (k : Package) (dctx ve : Nat) : Option (Nat × Work) :=
  (List.range 64).findSome? fun n =>
    let w := vget {} k.works n
    if w.st ≠ .free && w.dctx == dctx && w.ve == ve then some (n, w) else none

/-- The state codes (21 R349). -/
def WorkSt.code : WorkSt → Nat
  | .free => 0
  | .waittrig => 1
  | .run => 2
  | .susp => 3
  | .done => 4
  | .fault => 5

/-- The step that STEP names: the oldest in progress (21 R361). -/
def Work.stepNow (w : Work) : Nat :=
  if w.st == .run || w.st == .susp then ((w.runs.head?).map (·.idx)).getD w.pc else 0

/-- The status word (21 R361). -/
def Work.status (w : Work) : W64 :=
  if w.st = .free then 0
  else BitVec.ofNat 64 (w.g % 2 ^ 32 * 2 ^ 32 + w.st.code * 2 ^ 28 + w.stepNow % 256 * 2 ^ 16 + w.fcode % 256 * 2 ^ 8 +
    (if w.nan then 4 else 0) + (if w.ovf then 2 else 0) + (if w.dispend then 1 else 0))

/-- A freed entry: only its ABORTs that are still unanswered stay. -/
def Work.freed (w : Work) : Work :=
  { outs := w.outs.filter fun o => match o.pkt.kind with | .abort => true | _ => false }

/-- A request that the Rolernis complex or the windrow engine serves once under the sequencer's next serial (09 R192, 21 R359): the
front end waits for the reply, and a word executed again takes the reply of the first time. -/
def serviceWord (d : Reg) (act : State → W64 × State) (q : Seq) (s : State) : State :=
  match q.sysDone with
  | some v => s.modSeq s.who fun q => { q with wait := some (.service d v) }
  | none =>
    if !q.canIssue then s
    else
      let (v, t) := act s
      t.modSeq s.who fun q =>
        let q := { q with sern := q.sern + 1 }
        { q with ack := q.ackPoint, sysDone := some v, wait := some (.service d v) }

/-- `kstat` (21 R361). -/
def execKstat (g : Guard) (d b : Reg) (s : State) : Out' :=
  frontWord 8 g [d, b] (fun q s =>
    if (q.sr b).toNat > 63 then wordFault s.who fcWorkEntry 0 s
    else serviceWord d (fun s => (match (s.pkg s.who.pkg).entryOf q.dctx.toNat (q.sr b).toNat with
      | some x => x.2.status
      | none => 0, s)) q s) s

/-- `kdis` at the engine (21 R362): the status before, and what it does to the entry. -/
def disarm (p dctx ve : Nat) (s : State) : W64 × State :=
  match (s.pkg p).entryOf dctx ve with
  | none => (0, s)
  | some (n, w) =>
    (w.status, s.modWork p n fun w =>
      match w.st with
      | .run | .susp => { w with dispend := true }
      | _ => w.freed)

/-- `kdis` (21 R362). -/
def execKdis (g : Guard) (d b : Reg) (s : State) : Out' :=
  frontWord 8 g [d, b] (fun q s =>
    if (q.sr b).toNat > 63 then wordFault s.who fcWorkEntry 0 s
    else serviceWord d (fun s => disarm s.who.pkg q.dctx.toNat (q.sr b).toNat s) q s) s

/-- What a read of a part of the arming data finds: bytes; nothing, at a window address or in another package's memory; a fault;
or a wait. -/
inductive ArmRead where
  | bytes (bs : List Byte)
  | far
  | fault (f : FaultRec)
  | wait

/-- The runs of bytes within one 4 KiB page that make up n bytes from an address on; `fuel` bounds their number. -/
def pageRuns : Nat → Nat → Nat → List (Nat × Nat)
  | 0, _, _ => []
  | f + 1, va, n =>
    if n = 0 then []
    else
      let k := min n (4096 - va % 4096)
      (va, k) :: pageRuns f (va + k) (n - k)

/-- n bytes of the arming data in the context's memory (21 R360): a fault of any part of them comes before one that is far. -/
def armRuns (i : Sid) : List (Nat × Nat) → State → ArmRead × State
  | [], s => (.bytes [], s)
  | (va, k) :: r, s =>
    match unitPlace i (s.seq i).dctx.toNat (BitVec.ofNat 64 va) false s with
    | (.wait, s) => (.wait, s)
    | (.fault f, s) =>
      if f.code ≠ fcCopySpace then (.fault f, s)
      else
        match armRuns i r s with
        | (.bytes _, s) => (.far, s)
        | x => x
    | (.go pa, s) =>
      match armRuns i r s with
      | (.bytes bs, s) => (.bytes ((s.pkg i.pkg).bytes pa k ++ bs), s)
      | x => x

/-- n bytes from an address on. -/
def armRead (i : Sid) (va n : Nat) (s : State) : ArmRead × State := armRuns i (pageRuns (n / 4096 + 2) va n) s

/-- The step program up to its first `halt`, at most 256 steps (21 R345). -/
def armSteps (i : Sid) : Nat → Nat → State → ArmRead × State
  | 0, _, s => (.bytes [], s)
  | n + 1, va, s =>
    match armRead i va 4 s with
    | (.bytes bs, s) =>
      if leNat bs / 2 ^ 28 = 15 then (.bytes bs, s)
      else
        match armSteps i n (va + 4) s with
        | (.bytes cs, s) => (.bytes (bs ++ cs), s)
        | x => x
    | x => x

/-- A list of bytes as little-endian numbers of n bytes each. -/
def numbersOf (n : Nat) (bs : List Byte) : List Nat := (List.range (bs.length / n)).map fun k => fieldAt bs (n * k) n

/-- What `karm` reads (21 R360): the record, the rank table and the step program, or the fault that comes first. -/
inductive Armed where
  | go (r : List Byte) (ranks : List Nat) (steps : List (BitVec 32))
  | fault (f : FaultRec)
  | wait

/-- The rank table is good: each VP below N, no two equal, and the own one at RANK (21 R360). -/
def ranksGood (ranks : List Nat) (rank own n : Nat) : Bool :=
  ranks.all (fun r => decide (r < n)) && decide (ranks.eraseDups.length = ranks.length) && ranks[rank]? == some own

/-- An address in the record that R344 says is aligned and is not. -/
def armMisaligned (r : List Byte) : Option W64 :=
  ([(BitVec.ofNat 64 (wkSteps r), 64), (BitVec.ofNat 64 (wkRtab r), 2), (wkTsig r, 8), (wkWsig r, 8), (wkDsig r, 8)].find? fun x =>
    x.1.toNat % x.2 ≠ 0).map (·.1)

/-- The checks of `karm` on what it has read (21 R360): the record, the rank table and the step program. -/
def armData (i : Sid) (va : W64) (r tab prog : List Byte) (s : State) : Armed :=
  let q := s.seq i
  let ranks := numbersOf 2 tab
  let steps := (numbersOf 4 prog).map (BitVec.ofNat 32)
  if workRecordBad r || !ranksGood ranks (wkRank r) q.vpV.toNat q.vpN.toNat then .fault { code := fcWorkEntry, addr := va }
  else
    match [wkTsig r, wkWsig r, wkDsig r].zipIdx.find? fun x => (x.2 = 0 || x.1 ≠ 0) && signalBad i x.1 s with
    | some x => .fault { code := fcAtomicTarget, addr := x.1 }
    | none =>
      match scanSteps (wkWsig r ≠ 0) 0 {} steps with
      | some n => .fault { code := fcStepProgram, addr := va, aux := BitVec.ofNat 64 n }
      | none => .go r ranks steps

/-- The checks of `karm` in their order (21 R360). -/
def armCheck (i : Sid) (va : W64) (s : State) : Armed × State :=
  let far : Armed := .fault { code := fcWorkEntry, addr := va }
  if va.toNat ≥ 2 ^ 57 then (.fault { code := fcTranslation, addr := va, reason := 3 }, s)
  else if va.toNat % 128 ≠ 0 then (.fault { code := fcAlignment, addr := va }, s)
  else
    match armRead i va.toNat 128 s with
    | (.wait, s) => (.wait, s)
    | (.fault f, s) => (.fault f, s)
    | (.far, s) => (far, s)
    | (.bytes r, s) =>
      match armMisaligned r with
      | some x => (.fault { code := fcAlignment, addr := x }, s)
      | none =>
        match armRead i (wkRtab r) (2 * wkNr r) s with
        | (.wait, s) => (.wait, s)
        | (.fault f, s) => (.fault f, s)
        | (tab, s) =>
          match tab, armSteps i 256 (wkSteps r) s with
          | _, (.wait, s) => (.wait, s)
          | _, (.fault f, s) => (.fault f, s)
          | .bytes tb, (.bytes pb, s) => (armData i va r tb pb s, s)
          | _, (_, s) => (far, s)

/-- `karm` at the engine (21 R360): 1 where VE is in use, 2 where no physical entry is free, else 0 with the entry armed. -/
def armEntry (i : Sid) (ve : Nat) (r : List Byte) (ranks : List Nat) (steps : List (BitVec 32)) (caddr : W64) (s : State) :
    W64 × State :=
  let q := s.seq i
  let k := s.pkg i.pkg
  if (k.entryOf q.dctx.toNat ve).isSome then (1, s)
  else
    match (List.range 64).find? fun n => (vget {} k.works n).st == .free with
    | none => (2, s)
    | some n =>
      (0, s.modWork i.pkg n fun w =>
        { w with st := .waittrig, dctx := q.dctx.toNat, ve := ve, record := r, ranks := ranks, steps := steps,
                 vteam := q.vteam.toNat, by_ := q.ident, caddr := caddr })

/-- `karm` (21 R360). -/
def execKarm (g : Guard) (d a b : Reg) (s : State) : Out' :=
  frontWord 8 g [d, a, b] (fun q s =>
    if q.sysDone.isSome then serviceWord d (fun s => (0, s)) q s
    else if (q.sr b).toNat > 63 then wordFault s.who fcWorkEntry 0 s
    else
      match armCheck s.who (q.sr a) s with
      | (.wait, s) => s
      | (.fault f, s) => takeFault s.who { f with caddr := q.pc } s
      | (.go r ranks steps, s) => serviceWord d (armEntry s.who (q.sr b).toNat r ranks steps q.pc) q s) s

/-! ## The trigger (21 R349, R350) -/

/-- A generation starts. -/
def Work.startGen (w : Work) : Work :=
  { w with st := .run, pc := 0, i0 := 0, i1 := 0, n0 := none, n1 := none, pa := none, pb := none, runs := [], timer := 0, trig := false }

/-- The value of the word at TSIG starts generation g (21 R349): it is at least (TTHR + G × TINC) mod 2^64. -/
def Work.starts (w : Work) (g : Nat) (v : W64) : Bool := decide (v.toNat ≥ (wkTthr w.record + g * wkTinc w.record) % 2 ^ 64)

/-- What an entry learns of the writes to its TSIG (21 R349): in WAITTRIG, that its generation may start, and in RUN, that the next one
may. -/
def Work.watchTrigger (k : Package) (w : Work) : Work :=
  if (w.st ≠ .waittrig && w.st ≠ .run) || w.trig then w
  else
    match sigRead k w (wkTsig w.record) with
    | none => w
    | some v => if w.starts (if w.st = .run then w.g + 1 else w.g) v then { w with trig := true } else w

/-- WORK_ENTRY_TRIGGER (21 R349): a write to TSIG has been reported that starts the generation, or the word there does so now. -/
def execWorkEntryTrigger (p e : Nat) (s : State) : Out' :=
  let w := s.work p e
  if w.st = .waittrig && (w.trig || (sigRead (s.pkg p) w (wkTsig w.record)).any (w.starts w.g)) then .next (s.modWork p e Work.startGen)
  else .next s

/-! ## Packets of an entry (21 R352) -/

/-- A packet put on the fabric (21 R352): on the COLL channel of a direct link, else on the request plane. -/
def launchColl (p dst : Nat) (c : CollPkt) (s : State) : State :=
  addPacket p dst (if (neighbours s p).any fun n => n.2 == dst then 6 else 0) false (.coll c) s

/-- A packet of entry e to a rank, which stays with the entry until it is answered. -/
def sendColl (p e dst seq : Nat) (kind : CollKind) (s : State) : State :=
  let w := s.work p e
  match rankPkg (s.pkg p) w dst with
  | none => s
  | some d =>
    let c : CollPkt := { dctx := w.dctx, coll := wkColl w.record, g := w.g, src := wkRank w.record, dst := dst, seq := seq, kind := kind }
    let s := s.modWork p e fun w => { w with outs := w.outs ++ [{ pkt := c, dpkg := d, lastSend := s.ck }], timer := 0 }
    launchColl p d c s

/-- The number of a rank in a list of counters. -/
def counterOf (l : List (Nat × Nat)) (r : Nat) : Nat := ((l.find? fun x => x.1 == r).map (·.2)).getD 0

/-- A rank's counter moved on. -/
def bump (l : List (Nat × Nat)) (r : Option Nat) (n : Nat) : List (Nat × Nat) :=
  match r with
  | none => l
  | some r => (r, counterOf l r + n) :: l.filter fun x => x.1 ≠ r

/-- The counter of a rank's messages (ABORT, SUSPEND and RESUME), whose numbers run on through the generations. -/
def msgKey (r : Nat) : Nat := 1000 + r

/-- A message to a rank, under its own number (21 R352). -/
def sendMessage (p e dst : Nat) (kind : CollKind) (s : State) : State :=
  let n := counterOf (s.work p e).sendSeq (msgKey dst)
  sendColl p e dst n kind (s.modWork p e fun w => { w with sendSeq := bump w.sendSeq (some (msgKey dst)) 1 })

/-- The ranks of an entry but its own. -/
def Work.others (w : Work) : List Nat := (List.range w.ranks.length).filter fun r => r ≠ wkRank w.record

/-- ABORT to every other rank (21 R358, 25 R412). -/
def sendAborts (p e : Nat) (s : State) : State :=
  (s.work p e).others.foldl (fun s r => sendMessage p e r .abort s) s

/-- An entry faults (21 R358): FAULT, ABORT to every rank, and "collective" against its context. -/
def faultEntry (p e code : Nat) (s : State) : State :=
  let w := s.work p e
  match w.st with
  | .waittrig | .run | .susp =>
    let s := s.modWork p e fun w => { w with st := .fault, fcode := code, runs := [], staged := [], outs := [], holding := false, pass := [] }
    let s := sendAborts p e s
    deferFault w.by_ { code := fcCollective, caddr := w.caddr, aux := BitVec.ofNat 64 (w.ve + code * 256) } s
  | _ => s

/-- STEP_TIMEOUT (21 R357). -/
def execStepTimeout (p e : Nat) (s : State) : Out' :=
  let w := s.work p e
  if w.st == .run && decide (w.timer ≥ Config.stepTimerCk) then .next (faultEntry p e 5 s) else .next s

end Sys2Proof.Machine
end

