-- ==== Sys2Proof/Machine/Collectives.lean ====
section
/-! DEFINITION. The collective steps (21 R345-R351) and their transport, suspension and resume (21 R352-R358). -/

namespace Sys2Proof.Machine

/-! ## Chunks in memory (21 R344) -/

/-- The packets of a chunk, of 256 B each (21 R352), and its 64 B pieces (R348, R350). -/
def Work.pieces (w : Work) : Nat := (wkChunk w.record + 255) / 256
@[inherit_doc Work.pieces] def Work.cells (w : Work) : Nat := wkChunk w.record / 64

/-- The 64 B pieces of packet j of a chunk. -/
def Work.cellsOf (w : Work) (j : Nat) : List Nat := (List.range w.cells).filter fun u => u / 4 == j

/-- The address of 64 B piece u of chunk c in the source, or in the destination (21 R344). -/
def Work.pieceAt (w : Work) (dst : Bool) (c u : Nat) : W64 :=
  let r := w.record
  let base : Int := if dst then wkDbase r + w.g * wkDstr r else wkSbase r + w.g * wkSstr r
  BitVec.ofInt 64 (base + c * wkChunk r + 64 * u)

/-- The runs of bytes, each within one page, of n bytes from an address on. -/
def wordRuns (va : W64) (n : Nat) : List (W64 × Nat) := (pageRuns 3 va.toNat n).map fun x => (BitVec.ofNat 64 x.1, x.2)

/-- The physical places of n bytes in the entry's memory (21 R344). -/
def workPlaces (p : Nat) (w : Work) (va : W64) (n : Nat) (wr : Bool) (s : State) : Check (List (Nat × Nat)) × State :=
  let rs := wordRuns va n
  match unitPlaces (unitSid p w.by_ s) w.dctx wr (rs.map (·.1)) s with
  | (.go pas, s) => (.go (pas.zip (rs.map (·.2))), s)
  | (.fault f, s) => (.fault f, s)
  | (.wait, s) => (.wait, s)

/-- The FCODE of a fault on a chunk (21 R358). -/
def chunkCode (f : FaultRec) : Nat := if f.code = fcTranslation then 1 else if f.code = fcBlight then 3 else 2

/-- Bytes at physical places. -/
def readRuns (k : Package) (rs : List (Nat × Nat)) : List Byte := rs.flatMap fun r => k.bytes r.1 r.2

/-- Bytes written at physical places. -/
def writeRuns (k : Package) : List (Nat × Nat) → List Byte → Package
  | [], _ => k
  | r :: rs, bs => writeRuns (k.write r.1 (bs.take r.2)) rs (bs.drop r.2)

/-! ## What a step in progress does (21 R346) -/

/-- The kinds of a step that is in progress. -/
inductive RunKind where
  | send (fromDst : Bool)
  | recv (fwd : Bool)
  | rrs (write : Bool)
  | copy
  deriving DecidableEq, Repr

/-- The kind of a step's word; the other steps are never in progress. -/
def StepRun.kind (r : StepRun) : RunKind :=
  let x := r.word.getLsbD 26
  match r.word.extractLsb' 28 4 with
  | 1 => .send x
  | 2 => .recv x
  | 3 => .rrs x
  | _ => .copy

/-- The address of the bytes that 64 B piece u of a step reads, and of those it writes. -/
def Work.readsAt (w : Work) (r : StepRun) (u : Nat) : Option W64 :=
  match r.kind with
  | .send d => some (w.pieceAt d r.chunk u)
  | .rrs _ | .copy => some (w.pieceAt false r.chunk u)
  | .recv _ => none
@[inherit_doc Work.readsAt] def Work.writesAt (w : Work) (r : StepRun) (u : Nat) : Option W64 :=
  match r.kind with
  | .rrs true | .copy | .recv _ => some (w.pieceAt true r.chunk u)
  | _ => none

/-- The 64 B piece has been read, or written. -/
def StepRun.hasRead (r : StepRun) (u : Nat) : Bool := r.got.contains (u / 4) || r.read.any fun x => x.1 == u
@[inherit_doc StepRun.hasRead] def StepRun.hasWritten (r : StepRun) (u : Nat) : Bool := r.got.contains (u / 4) || r.wrote.contains u

/-- The physical bytes of a 64 B piece, as far as it translates. -/
def pieceBytes (p : Nat) (w : Work) (va : Option W64) (s : State) : List (Nat × Nat) :=
  match va with
  | none => []
  | some va =>
    match workPlaces p w va 64 false s with
    | (.go rs, _) => rs
    | _ => []

/-- Two lists of runs share a byte. -/
def runsMeet (a b : List (Nat × Nat)) : Bool := a.any fun x => b.any fun y => decide (x.1 < y.1 + y.2) && decide (y.1 < x.1 + x.2)

/-- The pieces of a step that are still to be written, or still to be read, share a byte with a list of runs. -/
def willWrite (p : Nat) (w : Work) (e : StepRun) (rs : List (Nat × Nat)) (s : State) : Bool :=
  (List.range w.cells).any fun v => !e.hasWritten v && runsMeet rs (pieceBytes p w (w.writesAt e v) s)
@[inherit_doc willWrite] def willRead (p : Nat) (w : Work) (e : StepRun) (rs : List (Nat × Nat)) (s : State) : Bool :=
  (List.range w.cells).any fun v => !e.hasRead v && runsMeet rs (pieceBytes p w (w.readsAt e v) s)

/-- The read or the write of a 64 B piece waits (21 R348): for what earlier steps in progress do to the same bytes, of which one side
writes; and a write, for the step's own reads of them. -/
def pieceHeld (p : Nat) (w : Work) (before : List StepRun) (r : StepRun) (u : Nat) (wr : Bool) (s : State) : Bool :=
  let me := pieceBytes p w (if wr then w.writesAt r u else w.readsAt r u) s
  before.any (fun e => willWrite p w e me s || (wr && willRead p w e me s)) || (wr && willRead p w r me s)

/-- The sum of two elements (21 R351): the bits, whether NaN arose, and whether it overflowed. -/
def sumElem (dtype a b : Nat) : Nat × Bool × Bool :=
  if dtype = 2 then ((a + b) % 2 ^ 32, false, false)
  else
    let f := tyFmt (if dtype = 0 then .fp32 else .bf16)
    let r := f.add {} false a b
    (r.1, (f.val r.1).isNan, r.2 &&& flagOF ≠ 0)

/-- The element-by-element sum of two pieces: received + local. -/
def sumPiece (dtype : Nat) (a b : List Byte) : List Byte × Bool × Bool :=
  let n := if dtype = 1 then 2 else 4
  let rs := List.zipWith (sumElem dtype) (numbersOf n a) (numbersOf n b)
  (rs.flatMap fun r => leBytes n r.1, rs.any (·.2.1), rs.any (·.2.2))

/-- The staged packet that piece j of a receiving step takes (21 R348). -/
def Work.packetFor (w : Work) (r : StepRun) (j : Nat) : Option (Nat × CollPkt) :=
  r.src.bind fun src => w.staged.find? fun x => x.2.g == w.g && x.2.src == src && x.2.seq == r.rbase + j

/-- A packet's c, NC, CHUNK or DTYPE is not the step's own (21 R348). -/
def Work.mismatch (w : Work) (r : StepRun) (j : Nat) (c : CollPkt) : Bool :=
  match c.kind with
  | .data ch nc size dt off _ =>
    ch ≠ r.chunk || nc ≠ wkNc w.record || size ≠ wkChunk w.record || dt ≠ wkDtype w.record || off ≠ 256 * j
  | _ => true

/-- The bytes of a packet. -/
def CollPkt.bytes (c : CollPkt) : List Byte := match c.kind with | .data _ _ _ _ _ bs => bs | _ => []

/-- A step in progress of an entry changed by f, by its index in the list. -/
def modRun (p e k : Nat) (f : StepRun → StepRun) (s : State) : State :=
  s.modWork p e fun w => { w with runs := w.runs.modify k f }

/-- The bytes of packet j of a step sent on to its destination rank. -/
def sendPiece (p e : Nat) (r : StepRun) (j : Nat) (bs : List Byte) (s : State) : State :=
  let w := s.work p e
  match r.dst with
  | none => s
  | some d => sendColl p e d (r.sbase + j) (.data r.chunk (wkNc w.record) (wkChunk w.record) (wkDtype w.record) (256 * j) bs) s

/-- A piece's bytes read from memory. -/
def readPiece (p : Nat) (w : Work) (va : W64) (n : Nat) (s : State) : Check (List Byte) × State :=
  match workPlaces p w va n false s with
  | (.go rs, s) => (.go (readRuns (s.pkg p) rs), s)
  | (.fault f, s) => (.fault f, s)
  | (.wait, s) => (.wait, s)

/-- The packet of a piece is taken from staging and counted. -/
def takePacket (p e : Nat) (x : Nat × CollPkt) (s : State) : State :=
  s.modWork p e fun w =>
    { w with staged := w.staged.filter fun y => y ≠ x, recvSeq := (x.2.src, x.2.seq) :: w.recvSeq, timer := 0 }

/-- The bytes read so far of packet j of a step. -/
def StepRun.bytesOf (w : Work) (r : StepRun) (j : Nat) : List Byte :=
  (w.cellsOf j).flatMap fun u => ((r.read.find? fun x => x.1 == u).map (·.2)).getD []

/-- What a step makes of packet j: nothing yet, a mismatch, or bytes, with whether NaN arose and whether a sum overflowed (21 R346,
R348, R351). A `recv` gives the packet's bytes, an `rrs` its sum with what was read, and the others what was read. -/
inductive Made where
  | later
  | mismatch
  | bytes (bs : List Byte) (nan ovf : Bool)
  deriving DecidableEq, Repr

@[inherit_doc Made] def Work.made (w : Work) (r : StepRun) (j : Nat) : Made :=
  match r.src with
  | none => .bytes (r.bytesOf w j) false false
  | some _ =>
    match w.packetFor r j with
    | none => .later
    | some x =>
      if w.mismatch r j x.2 then .mismatch
      else
        match r.kind with
        | .rrs _ => let sum := sumPiece (wkDtype w.record) x.2.bytes (r.bytesOf w j); .bytes sum.1 sum.2.1 sum.2.2
        | _ => .bytes x.2.bytes false false

/-- What a step makes of 64 B piece u of a chunk. -/
def Work.madeCell (w : Work) (r : StepRun) (u : Nat) : Made :=
  let at_ := fun (bs : List Byte) => (bs.drop (64 * (u % 4))).take 64
  let mine := ((r.read.find? fun x => x.1 == u).map (·.2)).getD []
  match r.src with
  | none => .bytes mine false false
  | some _ =>
    match w.packetFor r (u / 4) with
    | none => .later
    | some x =>
      if w.mismatch r (u / 4) x.2 then .mismatch
      else
        match r.kind with
        | .rrs _ => let sum := sumPiece (wkDtype w.record) (at_ x.2.bytes) mine; .bytes sum.1 sum.2.1 sum.2.2
        | _ => .bytes (at_ x.2.bytes) false false

/-- Every 64 B piece of packet j has been read and written as the step asks. -/
def Work.movedAll (w : Work) (r : StepRun) (j : Nat) : Bool :=
  (w.cellsOf j).all fun u => ((w.readsAt r u).isNone || r.hasRead u) && ((w.writesAt r u).isNone || r.hasWritten u)

/-- Packet j of the k-th step in progress is handled, once its pieces have been moved and what it receives is here: it leaves staging,
and what the step sends goes on (21 R346, R348, R351). -/
def endPacket (p e k j : Nat) (s : State) : State :=
  let w := s.work p e
  match w.runs[k]? with
  | none => s
  | some r =>
    if w.st ≠ .run || r.got.contains j || !w.movedAll r j then s
    else
      match w.made r j with
      | .later => s
      | .mismatch => faultEntry p e 4 s
      | .bytes bs nan ovf =>
        let s := match w.packetFor r j with
          | some x => takePacket p e x s
          | none => s
        modRun p e k (fun r => { r with
            got := j :: r.got
            read := r.read.filter fun x => x.1 / 4 ≠ j
            wrote := r.wrote.filter fun u => u / 4 ≠ j })
          ((sendPiece p e r j bs s).modWork p e fun w => { w with nan := w.nan || nan, ovf := w.ovf || ovf })

/-- A step has ended: every piece is handled, and every packet it sent is answered. -/
def Work.runDone (w : Work) (r : StepRun) : Bool :=
  decide (r.got.length ≥ w.pieces) && !w.outs.any fun o =>
    r.dst == some o.pkt.dst && (match o.pkt.kind with
      | .data _ _ _ _ _ _ => decide (r.sbase ≤ o.pkt.seq) && decide (o.pkt.seq < r.sbase + w.pieces)
      | _ => false)

/-- What a step receives has begun to arrive, or it receives nothing (21 R355). -/
def Work.begun (w : Work) (r : StepRun) : Bool :=
  !r.got.isEmpty || !r.wrote.isEmpty ||
    (match r.src with
     | none => true
     | some src => w.staged.any fun x => x.2.g == w.g && x.2.src == src && decide (r.rbase ≤ x.2.seq) && decide (x.2.seq < r.rbase + w.pieces))

/-- A later step in progress has to do with bytes that an earlier one has still to write or to read. -/
def runsConflict (p : Nat) (w : Work) (e r : StepRun) (s : State) : Bool :=
  (List.range w.cells).any fun u =>
    let rd := pieceBytes p w (w.readsAt r u) s
    let wt := pieceBytes p w (w.writesAt r u) s
    willWrite p w e rd s || willWrite p w e wt s || willRead p w e wt s

/-- A step in progress must end before its entry is held (21 R355): all its inputs have begun to arrive, those among them that come of an
earlier step in progress too. `idle` are the earlier steps that need not end. -/
def mustEnd (p : Nat) (w : Work) (s : State) : List StepRun → List StepRun → Bool
  | _, [] => false
  | idle, r :: rs =>
    if w.begun r && !idle.any (fun e => runsConflict p w e r s) then true
    else mustEnd p w s (idle ++ [r]) rs

/-- A suspending entry none of whose steps must end first is held (21 R355): it enters SUSP and sends its SUSPENDs on. Its saved state is
what the entry holds (assumption 49). -/
def settleHold (p e : Nat) (s : State) : State :=
  let w := s.work p e
  if w.st ≠ .run || !w.holding || mustEnd p w s [] w.runs then s
  else
    let s := s.modWork p e fun w => { w with st := .susp, before := .run, pass := [] }
    w.pass.foldl (fun s o => sendMessage p e ((wkRank w.record + 1) % wkNr w.record) (.suspend o) s) s

/-- The packets of an entry's steps in progress that are complete are handled, and the steps that have ended leave (21 R348). -/
def advanceRuns (p e : Nat) (s : State) : State :=
  let w := s.work p e
  if w.st ≠ .run then s
  else
    let todo := (List.range w.runs.length).flatMap fun k => (List.range w.pieces).map fun j => (k, j)
    let s := todo.foldl (fun s x => endPacket p e x.1 x.2 s) s
    settleHold p e (s.modWork p e fun w => { w with runs := w.runs.filter fun r => !w.runDone r })

/-- The engine reads 64 B piece u of the k-th step in progress (21 R348, R350). -/
def readStep (p e k u : Nat) (s : State) : State :=
  let w := s.work p e
  match w.runs[k]? with
  | none => s
  | some r =>
    match w.readsAt r u with
    | none => s
    | some va =>
      if r.hasRead u || pieceHeld p w (w.runs.take k) r u false s then s
      else
        match readPiece p w va 64 s with
        | (.wait, t) => t
        | (.fault f, t) => faultEntry p e (chunkCode f) t
        | (.go bs, t) => advanceRuns p e (modRun p e k (fun r => { r with read := (u, bs) :: r.read }) t)

/-- The engine writes 64 B piece u of the k-th step in progress, once what it is made of is here (21 R346, R348, R350, R351). -/
def writeStep (p e k u : Nat) (s : State) : State :=
  let w := s.work p e
  match w.runs[k]? with
  | none => s
  | some r =>
    match w.writesAt r u with
    | none => s
    | some va =>
      if r.hasWritten u || ((w.readsAt r u).isSome && !r.hasRead u) || pieceHeld p w (w.runs.take k) r u true s then s
      else
        match w.madeCell r u with
        | .later => s
        | .mismatch => faultEntry p e 4 s
        | .bytes bs _ _ =>
          match workPlaces p w va 64 true s with
          | (.wait, t) => t
          | (.fault f, t) => faultEntry p e (chunkCode f) t
          | (.go rs, t) => advanceRuns p e (modRun p e k (fun r => { r with wrote := u :: r.wrote }) (t.modPkg p fun x => writeRuns x rs bs))

/-- A turn of the engine for one 64 B piece of a step in progress (21 R350; assumption 1). -/
def movePiece (p e k u : Nat) (wr : Bool) (s : State) : State :=
  if !s.hasPkg p || (s.work p e).st ≠ .run || u ≥ (s.work p e).cells then s
  else if wr then writeStep p e k u s else readStep p e k u s

/-! ## Starting a step (21 R346) -/

/-- A step's meaning on the entry whose turn it is: its next word. -/
def stepWord (f : Work → Nat → Nat → State → State) (s : State) : Out' :=
  let p := s.whoEntry.1
  let e := s.whoEntry.2
  if !s.hasPkg p || e ≥ 64 then .fault .noSequencer else .next (f (s.work p e) p e s)

/-- A coefficient as a number. -/
def Coef.int : Coef → Int
  | .zero => 0
  | .plus => 1
  | .minus => -1

/-- The chunk of a step (21 R346). -/
def Work.chunkOf (w : Work) (mr m0 m1 : Coef) (v : BitVec 20) : Nat :=
  ((Coef.int mr * wkRank w.record + Coef.int m0 * w.i0 + Coef.int m1 * w.i1 + v.toInt) % (wkNc w.record : Int)).toNat

/-- The rank in a peer slot. -/
def Work.peer (w : Work) (ps : Bool) : Option Nat := if ps then w.pb else w.pa

/-- A step that moves a chunk starts (21 R348): it takes the next numbers of its ranks. -/
def startRun (src dst : Option Nat) (chunk : Nat) (w : Work) (p e : Nat) (s : State) : State :=
  let r : StepRun := { idx := w.pc, word := w.steps.getD w.pc 0, chunk := chunk, src := src,
                       rbase := counterOf w.recvNext (src.getD 0), dst := dst, sbase := counterOf w.sendSeq (dst.getD 0) }
  s.modWork p e fun w =>
    { w with pc := w.pc + 1, runs := w.runs ++ [r], recvNext := bump w.recvNext src w.pieces, sendSeq := bump w.sendSeq dst w.pieces }

/-- `send` (21 R346). -/
def execSend (ps _x : Bool) (mr m0 m1 : Coef) (v : BitVec 20) (s : State) : Out' :=
  stepWord (fun w => startRun none (w.peer ps) (w.chunkOf mr m0 m1 v) w) s

/-- `recv` (21 R346). -/
def execRecv (ps x : Bool) (mr m0 m1 : Coef) (v : BitVec 20) (s : State) : Out' :=
  stepWord (fun w => startRun (w.peer ps) (if x then w.peer (!ps) else none) (w.chunkOf mr m0 m1 v) w) s

/-- `rrs` (21 R346, R351). -/
def execRrs (ps _x : Bool) (mr m0 m1 : Coef) (v : BitVec 20) (s : State) : Out' :=
  stepWord (fun w => startRun (w.peer ps) (w.peer (!ps)) (w.chunkOf mr m0 m1 v) w) s

/-- `copy` (21 R346). -/
def execCopy (mr m0 m1 : Coef) (v : BitVec 20) (s : State) : Out' :=
  stepWord (fun w => startRun none none (w.chunkOf mr m0 m1 v) w) s

/-- `wait` (21 R346, R348): later steps start once the word at WSIG is at least V + G × WINC. -/
def execWait (v : BitVec 20) (s : State) : Out' :=
  stepWord (fun w p e s =>
    match sigRead (s.pkg p) w (wkWsig w.record) with
    | some x => if x.toNat ≥ v.toNat + w.g * wkWinc w.record then s.modWork p e fun w => { w with pc := w.pc + 1 } else s
    | none => s) s

/-- The index of the first step from n on that passes a test, or the program's end. -/
def Work.findStep (w : Work) (n : Nat) (f : Instr → Bool) : Nat :=
  n + ((w.steps.drop n).takeWhile fun x => !((decodeStep x).any f)).length

/-- The index of the last step before n that opens counter j. -/
def Work.openAt (w : Work) (n : Nat) (j : Bool) : Nat :=
  (((List.range n).reverse).find? fun k => match decodeStep (w.steps.getD k 0) with
    | some (.loop i _ _) => i == j
    | _ => false).getD 0

/-- A loop counter and its count set. -/
def Work.setLoop (w : Work) (j : Bool) (i : Nat) (n : Option Nat) : Work :=
  if j then { w with i1 := i, n1 := n } else { w with i0 := i, n0 := n }

/-- `loop` (21 R346). -/
def execLoop (j x : Bool) (v : BitVec 20) (s : State) : Out' :=
  stepWord (fun _ p e s => s.modWork p e fun w =>
    let count : Int := if x then (wkNr w.record : Int) - v.toNat else v.toNat
    if count ≤ 0 then
      { w.setLoop j 0 none with pc := w.findStep (w.pc + 1) (fun i => match i with | .endl k => k == j | _ => false) + 1 }
    else { w.setLoop j 0 (some count.toNat) with pc := w.pc + 1 }) s

/-- `endl` (21 R346). -/
def execEndl (j : Bool) (s : State) : Out' :=
  stepWord (fun _ p e s => s.modWork p e fun w =>
    let i := (if j then w.i1 else w.i0) + 1
    let n := (if j then w.n1 else w.n0).getD 0
    if i < n then { w.setLoop j i (some n) with pc := w.openAt w.pc j + 1 } else { w.setLoop j i none with pc := w.pc + 1 }) s

/-- `peer` (21 R346). -/
def execPeer (ps : Bool) (v : BitVec 20) (s : State) : Out' :=
  stepWord (fun _ p e s => s.modWork p e fun w =>
    let r := (((wkRank w.record : Int) + v.toInt) % (wkNr w.record : Int)).toNat
    if ps then { w with pb := some r, pc := w.pc + 1 } else { w with pa := some r, pc := w.pc + 1 }) s

/-- The entry after HALT (21 R349, R362). -/
def Work.endGen (w : Work) : Work :=
  let n := wkNarm w.record
  if w.dispend then w.freed
  else
    { w with
      g := w.g + 1, st := if n ≠ 0 && w.g + 1 ≥ n then .done else .waittrig
      sendSeq := w.sendSeq.filter (fun x => decide (x.1 ≥ msgKey 0)), recvNext := []
      recvSeq := w.recvSeq.filter (fun x => decide (x.1 ≥ msgKey 0)), runs := [] }

/-- `halt` (21 R349): with no step left in progress, 1 is added to the word at DSIG and the generation ends; the addition waits for
a checkpointed core (21 R355). -/
def execHalt (s : State) : Out' :=
  stepWord (fun w p e s =>
    if !w.runs.isEmpty then s
    else
      match (if wkDsig w.record = 0 then some s else sigAdd p w (wkDsig w.record) s) with
      | none => s
      | some s => s.modWork p e Work.endGen) s

/-! ## Arrival (21 R352-R354) -/

/-- The armed entry that a packet is for (21 R354). -/
def collTarget (k : Package) (c : CollPkt) : Option (Nat × Work) :=
  (List.range 64).findSome? fun n =>
    let w := vget {} k.works n
    if w.st ≠ .free && w.dctx == c.dctx && wkColl w.record == c.coll && wkRank w.record == c.dst then some (n, w) else none

/-- The staged packets of an entry at a port. -/
def Work.stagedAt (w : Work) (port : Nat) : Nat := (w.staged.filter fun x => x.1 == port).length

/-- A staging slot is free for an entry at a port (21 R353): 8 of its own, and 512 shared by all. -/
def stagingFree (k : Package) (w : Work) (port : Nat) : Bool :=
  decide (w.stagedAt port < 8) ||
    decide (((List.range 64).foldl (fun n x => n + ((vget {} k.works x).stagedAt port - 8)) 0) < 512)

/-- A step in progress takes the packet at once. -/
def Work.wantsNow (w : Work) (c : CollPkt) : Bool :=
  w.st == .run && c.g == w.g && w.runs.any fun r => r.src == some c.src && decide (r.rbase ≤ c.seq) && decide (c.seq < r.rbase + w.pieces)

/-- An answer to a collective packet. -/
def answerColl (p : Nat) (x : Packet) (c : CollPkt) (refused : Bool) (s : State) : State :=
  addPacket p x.src 0 true (.collAck c refused) (dropPacket x.id s)

/-- A collective packet that stands at its package, past its life, or in its time. -/
def collHere (p k : Nat) (s : State) : Option Packet :=
  (s.net[k]?).filter fun x => x.dst == p && x.at_ == p && x.port.isNone && decide (s.ck < x.sent + Config.expiryCk)

/-- A data packet reaches its receiver (21 R352-R354): refused, discarded as a duplicate, or staged for its step. -/
def collData (p : Nat) (x : Packet) (c : CollPkt) (s : State) : State :=
  match collTarget (s.pkg p) c with
  | none => answerColl p x c true s
  | some (n, w) =>
    if c.g < w.g || (c.g == w.g && w.recvSeq.contains (c.src, c.seq)) || w.staged.any (fun y => y.2.g == c.g && y.2.src == c.src && y.2.seq == c.seq) then
      answerColl p x c false s
    else if w.st == .fault || w.st == .done || !(w.wantsNow c || stagingFree (s.pkg p) w x.via) then answerColl p x c true s
    else
      let s := answerColl p x c false s
      advanceRuns p n (s.modWork p n fun w => { w with staged := w.staged ++ [(x.via, c)], timer := 0 })

/-- The entry that waits for an answer to a packet. -/
def collSender (k : Package) (c : CollPkt) : Option Nat :=
  (List.range 64).find? fun n => (vget {} k.works n).outs.any fun o => o.pkt == c

/-- The answer to a collective packet reaches its sender: it is counted, or resent after 1 µs (21 R353). -/
def collAnswer (p : Nat) (x : Packet) (c : CollPkt) (refused : Bool) (s : State) : State :=
  let s := dropPacket x.id s
  match collSender (s.pkg p) c with
  | none => s
  | some n =>
    if refused then
      s.modWork p n fun w => { w with outs := w.outs.map fun o =>
        if o.pkt = c then { o with resendAt := some (s.ck + Config.ckPerUs), lastSend := s.ck } else o }
    else advanceRuns p n (s.modWork p n fun w => { w with outs := w.outs.filter (fun o => o.pkt ≠ c), timer := 0 })

/-- COLL_PACKET_ARRIVAL (21 R348, R352-R354). -/
def execCollPacketArrival (p k : Nat) (s : State) : Out' :=
  match collHere p k s with
  | none => .next s
  | some x =>
    match x.body with
    | .coll c => (match c.kind with | .data _ _ _ _ _ _ => .next (collData p x c s) | _ => .next s)
    | .collAck c refused => .next (collAnswer p x c refused s)
    | _ => .next s

/-- COLL_PACKET_RESEND (21 R352, R353, R358): 64 µs after its send, or 1 µs after a refusal; a 16th send without an answer faults
the entry with code 7. An ABORT's entry has faulted before. -/
def execCollPacketResend (p e k : Nat) (s : State) : Out' :=
  match (s.work p e).outs[k]? with
  | none => .next s
  | some o =>
    let send := fun (n : Nat) => launchColl p o.dpkg o.pkt (s.modWork p e fun w =>
      { w with outs := w.outs.modify k fun o => { o with lastSend := s.ck, resendAt := none, attempts := n } })
    match o.resendAt with
    | some t => if s.ck < t then .next s else .next (send o.attempts)
    | none =>
      if s.ck < o.lastSend + Config.resendCk then .next s
      else if o.attempts ≥ Config.maxSends then
        let s := s.modWork p e fun w => { w with outs := w.outs.eraseIdx k }
        .next (if o.pkt.kind = .abort then s else faultEntry p e 7 s)
      else .next (send (o.attempts + 1))

/-- A message reaches an entry: `act` is applied unless a copy of it has come before (21 R352). -/
def onMessage (p n : Nat) (c : CollPkt) (act : State → State) (s : State) : State :=
  let key := (msgKey c.src, c.seq)
  if (s.work p n).recvSeq.contains key then s
  else act (s.modWork p n fun w => { w with recvSeq := key :: w.recvSeq })

/-- ABORT_RECEIVED (21 R358). -/
def execAbortReceived (p k : Nat) (s : State) : Out' :=
  match collHere p k s with
  | none => .next s
  | some x =>
    match x.body with
    | .coll c =>
      if c.kind ≠ .abort then .next s
      else
        match collTarget (s.pkg p) c with
        | none => .next (answerColl p x c true s)
        | some (n, _) => .next (onMessage p n c (faultEntry p n 6) (answerColl p x c false s))
    | _ => .next s

/-! ## Suspend and resume (21 R355, R356) -/

/-- An entry begins to suspend, for the SUSPEND of a rank (21 R355): an entry in WAITTRIG enters SUSP at once; a running one ends
what has begun first. A SUSPEND that has come here before is not sent on again. -/
def suspendEntry (p e origin : Nat) (s : State) : State :=
  let w := s.work p e
  if w.passed.contains origin then s
  else
    let s := s.modWork p e fun w => { w with passed := origin :: w.passed }
    let on := fun (s : State) => sendMessage p e ((wkRank w.record + 1) % wkNr w.record) (.suspend origin) s
    match w.st with
    | .run => settleHold p e (s.modWork p e fun w => { w with holding := true, pass := w.pass ++ [origin] })
    | .waittrig => on (s.modWork p e fun w => { w with st := .susp, before := .waittrig, holding := true })
    | .free => s
    | _ => on s

/-- COLL_SUSPEND_MESSAGE (21 R355): it ends where it began. -/
def execCollSuspendMessage (p k : Nat) (s : State) : Out' :=
  match collHere p k s with
  | none => .next s
  | some x =>
    match x.body with
    | .coll c =>
      match c.kind with
      | .suspend origin =>
        match collTarget (s.pkg p) c with
        | none => .next (answerColl p x c true s)
        | some (n, w) =>
          if wkRank w.record = origin then .next (answerColl p x c false s)
          else .next (onMessage p n c (suspendEntry p n origin) (answerColl p x c false s))
      | _ => .next s
    | _ => .next s

/-- Management takes a context's buffers out of memory (21 R355): its running entries begin to suspend, and those in WAITTRIG are
suspended. -/
def suspendWorks (p : Nat) (ok : Work → Bool) (s : State) : State :=
  (List.range 64).foldl (fun s n =>
    let w := s.work p n
    if !ok w then s
    else
      match w.st with
      | .run => suspendEntry p n (wkRank w.record) s
      | .waittrig => s.modWork p n fun w => { w with st := .susp, before := .waittrig, holding := true }
      | _ => s) s

/-- CONTEXT_EVICTION (21 R355). -/
def execContextEviction (p dctx : Nat) (s : State) : Out' := .next (suspendWorks p (fun w => w.dctx == dctx) s)

/-- A suspended entry is restored, where its package holds its VP, and sends its RESUME along the ring (21 R356). -/
def restoreWork (p n : Nat) (s : State) : State :=
  let w := s.work p n
  if w.st ≠ .susp || w.restored || !(s.pkg p).isVp w.dctx w.by_.vp then s
  else
    sendMessage p n ((wkRank w.record + 1) % wkNr w.record) (.resume (wkRank w.record))
      (s.modWork p n fun w => { w with restored := true })

/-- A suspended entry of another package is restored here, in the lowest free physical entry, where this package now holds its VP by the
context's remap table (21 R356). -/
def adoptWork (p g n : Nat) (s : State) : State :=
  let w := s.work g n
  match (List.range 64).find? fun m => (s.work p m).st == .free with
  | none => s
  | some m =>
    if g = p || w.st ≠ .susp || w.restored || !(s.pkg p).isVp w.dctx w.by_.vp then s
    else restoreWork p m ((s.modWork g n fun _ => {}).modWork p m fun _ => w)

/-- The suspended entries of a package that pass a test are restored. -/
def restoreWorks (p : Nat) (ok : Work → Bool) (s : State) : State :=
  (List.range 64).foldl (fun s n => if ok (s.work p n) then restoreWork p n s else s) s

/-- An entry leaves SUSP (21 R356); one that waits for its trigger reads TSIG anew. -/
def Work.leave (w : Work) : Work :=
  { w with st := w.before, holding := false, passed := [], pass := [], restored := false, trig := w.trig && w.before == .run }

/-- COLL_RESUME_MESSAGE (21 R356): a RESUME goes on from a rank that is restored, and back at its own rank the entry leaves SUSP. An
index past the packets names, that far on, an entry whose context's buffers management has brought back: one of the own 64, or by 64s
one of each package of the domain; it is restored. -/
def execCollResumeMessage (p k : Nat) (s : State) : Out' :=
  if k ≥ s.net.length then
    let n := k - s.net.length
    if (s.pkg p).susp ≠ 0 then .next s
    else if n < 64 then .next (restoreWork p n s)
    else
      match s.pkgs[n / 64 - 1]? with
      | none => .next s
      | some g => .next (adoptWork p g.num (n % 64) s)
  else
    match collHere p k s with
    | none => .next s
    | some x =>
      match x.body with
      | .coll c =>
        match c.kind with
        | .resume origin =>
          match collTarget (s.pkg p) c with
          | none => .next (answerColl p x c true s)
          | some (n, w) =>
            if w.st == .susp && !w.restored then .next (answerColl p x c true s)
            else
              let s := answerColl p x c false s
              .next (onMessage p n c (fun s =>
                if wkRank w.record ≠ origin then sendMessage p n ((wkRank w.record + 1) % wkNr w.record) (.resume origin) s
                else if w.st == .susp then advanceRuns p n (s.modWork p n Work.leave)
                else s) s)
        | _ => .next s
      | _ => .next s

end Sys2Proof.Machine
end

