-- ==== Sys2Proof/Machine/Control.lean ====
section
/-! DEFINITION. Control transfer and loops (09 R171, R172; 05 R90, R105). -/

namespace Sys2Proof.Machine

/-- The target of a branch form (05 R90). -/
def branchTarget (pc : W64) (imm : BitVec 41) : W64 := pc + 8 * imm.signExtend 64

/-- A transfer of control (05 R105): with a legal target, `f` acts and the program counter moves there; otherwise "fetch range"
names the target and the word does not complete. -/
def transfer (i : Sid) (target : W64) (f : Seq → Seq) (s : State) : State :=
  if (vget {} (s.pkg i.pkg).slots (s.seq i).slotN.toNat).fetchOk target then
    s.modSeq i fun q => { f q with pc := target }
  else wordFault i fcFetchRange target s

/-- `br` (09 R171). -/
def execBr (g : Guard) (imm : BitVec 41) (s : State) : Out' :=
  frontWord 8 g [] (fun q s => transfer s.who (branchTarget q.pc imm) id s) s

/-- `jr` (09 R171). -/
def execJr (g : Guard) (a : Reg) (s : State) : Out' :=
  frontWord 8 g [a] (fun q s => transfer s.who (q.sr a) id s) s

/-- `call` (09 R171): sD receives the address of the next word. -/
def execCall (g : Guard) (d : Reg) (imm : BitVec 41) (s : State) : Out' :=
  frontWord 8 g [d] (fun q s => transfer s.who (branchTarget q.pc imm) (fun q => q.setS d (q.pc + 8)) s) s

/-- `callr` (09 R171): sA is read before sD is written. -/
def execCallr (g : Guard) (d a : Reg) (s : State) : Out' :=
  frontWord 8 g [d, a] (fun q s => transfer s.who (q.sr a) (fun q => q.setS d (q.pc + 8)) s) s

/-- `ret` (09 R171). -/
def execRet (g : Guard) (a : Reg) (s : State) : Out' :=
  frontWord 8 g [a] (fun q s => transfer s.who (q.sr a) id s) s

/-- Loop counter lc0 or lc1 (09 R172). -/
def Seq.lcr (q : Seq) (n : Bool) : W64 := if n then q.lc1 else q.lc0

/-- Loop counter lc0 or lc1 written. -/
def Seq.setLcr (q : Seq) (n : Bool) (v : W64) : Seq := if n then { q with lc1 := v } else { q with lc0 := v }

/-- `lset` (09 R171). -/
def execLset (g : Guard) (n : Bool) (a : Reg) (imm : BitVec 36) (s : State) : Out' :=
  regWord 8 g [a] (fun q => q.setLcr n (q.sr a + imm.signExtend 64)) s

/-- `lend` (09 R171): the counter falls by one, and while it is above 0, signed, the word branches. -/
def execLend (g : Guard) (n : Bool) (imm : BitVec 41) (s : State) : Out' :=
  frontWord 8 g [] (fun q s =>
    let v := q.lcr n - 1
    if 0 < v.toInt then transfer s.who (branchTarget q.pc imm) (fun q => q.setLcr n v) s
    else s.modSeq s.who fun q => (q.setLcr n v).adv 8) s

end Sys2Proof.Machine
end

