-- ==== Sys2Proof/Machine/Services.lean ====
section
/-! DEFINITION. The queue record (25 R392), and the services that `sys` requests (09 R192, 25 R404). -/

namespace Sys2Proof.Machine

/-! ## The queue record (25 R392) -/

/-- The address of queue q's record. -/
def Package.qrec (k : Package) (q : Nat) : Nat := k.settings.qtbase + 128 * q

/-- A field of queue q's record: n bytes from an offset. -/
def Package.qget (k : Package) (q off n : Nat) : Nat := k.num' (k.qrec q + off) n

/-- A field of queue q's record written. -/
def Package.qset (k : Package) (q off n v : Nat) : Package := k.setBytes (k.qrec q + off) (leBytes n v)

/-- STATE of a queue (25 R392). -/
def Package.qstate (k : Package) (q : Nat) : Nat := bitsOf (k.qget q 48 1) 2 0

/-- STATE of a queue written. -/
def Package.setQstate (k : Package) (q st : Nat) : Package := k.qset q 48 1 (k.qget q 48 1 / 8 * 8 + st)

/-- WPEND of a queue (25 R392). -/
def Package.wpend (k : Package) (q : Nat) : Bool := (k.qget q 49 1).testBit 0

/-- WPEND of a queue written. -/
def Package.setWpend (k : Package) (q : Nat) (b : Bool) : Package :=
  k.qset q 49 1 (k.qget q 49 1 / 2 * 2 + (if b then 1 else 0))

/-- The states of a queue (25 R392). -/
def qsIdle : Nat := 0
@[inherit_doc qsIdle] def qsMapped : Nat := 1
@[inherit_doc qsIdle] def qsParked : Nat := 2
@[inherit_doc qsIdle] def qsUnmapping : Nat := 3
@[inherit_doc qsIdle] def qsOverrun : Nat := 4
@[inherit_doc qsIdle] def qsStopped : Nat := 5

/-- ALLOW in mJ and SPENT in µJ (25 R392). -/
def Package.allow (k : Package) (q : Nat) : Nat := k.qget q 28 4
@[inherit_doc Package.allow] def Package.spent (k : Package) (q : Nat) : Nat := k.qget q 56 8

/-- The queue may start no entry and hold no slot (25 R405). -/
def Package.exhausted (k : Package) (q : Nat) : Bool := k.allow q ≠ 0 && decide (k.spent q ≥ 1000 * k.allow q)

/-! ## What the Rolernis complex keeps of a queue, and its events -/

/-- What it keeps of a queue. -/
def Package.cq (k : Package) (q : Nat) : CQueue := (k.queues.find? fun c => c.num == q).getD { num := q }

/-- What it keeps of a queue changed by f. -/
def Package.modCq (k : Package) (q : Nat) (f : CQueue → CQueue) : Package :=
  if k.queues.any fun c => c.num == q then { k with queues := k.queues.map fun c => if c.num = q then f c else c }
  else { k with queues := k.queues ++ [f { num := q }] }

/-- EVBASE and EVQP of a queue (25 R392). -/
def Package.evbase (k : Package) (q : Nat) : Nat := bitsOf (k.qget q 32 8) 43 11 * 2048
@[inherit_doc Package.evbase] def Package.evqp (k : Package) (q : Nat) : Nat := bitsOf (k.qget q 40 8) 23 0

/-- What an event says, as numbers. -/
def Posted.says : Posted → List Nat
  | .completed _ i st d => [0, i, st, d]
  | .overrun _ r => [1, r]
  | .user _ v => [2, v.toNat]
  | _ => []

/-- What the package posts to the host (25 R409, R410). -/
def post (p : Nat) (e : Posted) (s : State) : State := s.modPkg p fun k => { k with posted := k.posted ++ [e] }

/-- An event posted on a queue (25 R392): it stands in the next 32 B of the queue's ring, and the queue pair of EVQP, where it is not
0, is notified. -/
def postEvent (p q : Nat) (e : Posted) (s : State) : State :=
  let n := ((s.pkg p).cq q).events
  let bytes := (List.range 32).map (Config.eventByte e.says)
  let s := post p e (s.modPkg p fun k =>
    (k.engineWrite (k.evbase q + 32 * (n % 64)) bytes).modCq q fun c => { c with events := n + 1 })
  let qp := (s.pkg p).evqp q
  if qp = 0 then s else post p (.notified q qp) s

/-! ## Services (25 R404) -/

/-- The invocation that a sequencer's team runs, and its home package. -/
def seqInv (s : State) (i : Sid) : Option (Nat × Invocation) :=
  let q := s.seq i
  ((s.pkg i.pkg).team? q.dctx.toNat q.vteam.toNat).bind fun t => (s.invOf t).map fun v => (t.home, v)

/-- A `sys` word (09 R192): the service acts on the state, and its reply is the value. -/
def sysWord (g : Guard) (d a : Reg) (act : Seq → W64 → State → W64 × State) (s : State) : Out' :=
  frontWord 8 g [d, a] (fun q s => serviceWord d (act q (q.sr a)) q s) s

/-- `sys` NOP (25 R404). -/
def execSysNop (g : Guard) (d a : Reg) (s : State) : Out' := sysWord g d a (fun _ _ s => (0, s)) s

/-- `sys` DTIME (25 R404): the domain time in ns. Its epoch is free, and where each answer lies within the 1 µs in which the
packages agree is a free value. -/
def execSysDtime (g : Guard) (d a : Reg) (s : State) : Out' :=
  sysWord g d a (fun _ _ s =>
    let (n, s) := s.drawNat
    (BitVec.ofNat 64 (Config.domainEpoch + s.time / 3 + n % 1001), s)) s

/-- `sys` HOSTEVENT (25 R404): USER(sA) on the invoking queue. -/
def execSysHostevent (g : Guard) (d a : Reg) (s : State) : Out' :=
  sysWord g d a (fun _ v s =>
    match seqInv s s.who with
    | none => (0, s)
    | some (h, n) => (0, postEvent h n.q (.user n.q v) s)) s

/-- `sys` ALLOWANCE (25 R404). -/
def execSysAllowance (g : Guard) (d a : Reg) (s : State) : Out' :=
  sysWord g d a (fun _ _ s =>
    match seqInv s s.who with
    | none => (0x7FFFFFFFFFFFFFFF, s)
    | some (h, n) =>
      let k := s.pkg h
      (if k.allow n.q = 0 then 0x7FFFFFFFFFFFFFFF else BitVec.ofInt 64 ((1000 * k.allow n.q : Nat) - (k.spent n.q : Nat) : Int), s)) s

/-- `sys` ESTIMATE (25 R404, 23 R369): the remaining estimate is the given one from now on. -/
def execSysEstimate (g : Guard) (d a : Reg) (s : State) : Out' :=
  sysWord g d a (fun _ v s =>
    match seqInv s s.who with
    | none => (0, s)
    | some (h, n) => (0, s.modPkg h fun k => k.modInv n.id fun n => { n with estimate := v.toNat + (s.ck - n.start.getD s.ck) })) s

/-- `sys` CTXINFO (25 R404). -/
def execSysCtxinfo (g : Guard) (d a : Reg) (s : State) : Out' :=
  sysWord g d a (fun q _ s =>
    let n := ((s.pkg s.who.pkg).teams.filter fun t => t.dctx == q.dctx.toNat && t.placed).length
    (BitVec.ofNat 64 (q.dctx.toNat * 2 ^ 48 + n % 64), s)) s

/-- `sys` with a service number that names none (25 R404). -/
def execSysNoService (g : Guard) (d a : Reg) (_n : BitVec 4) (s : State) : Out' :=
  sysWord g d a (fun _ _ s => (BitVec.allOnes 64, s)) s

end Sys2Proof.Machine
end

