-- ==== Sys2Proof/Machine/Rolernis.lean ====
section
/-! DEFINITION. Command queues and their hardware slots (25 R392, R394, R397-R399, R405): host writes, acceptance, mapping and
unmapping, watches, and when an accepted entry may start. -/

namespace Sys2Proof.Machine

/-! ## The queues that the Rolernis complex knows -/

/-- VALID, PRIO, LDEPTH and CBASE of a queue (25 R392). -/
def Package.qvalid (k : Package) (q : Nat) : Bool := decide (q < 4096) && (k.qget q 16 8).testBit 63
@[inherit_doc Package.qvalid] def Package.qprio (k : Package) (q : Nat) : Nat := bitsOf (k.qget q 16 8) 62 61
@[inherit_doc Package.qvalid] def Package.qdepth (k : Package) (q : Nat) : Nat := 2 ^ bitsOf (k.qget q 16 8) 59 56
@[inherit_doc Package.qvalid] def Package.qcbase (k : Package) (q : Nat) : Nat := bitsOf (k.qget q 16 8) 43 0

/-- WIX and RIX of a queue (25 R392). -/
def Package.wix (k : Package) (q : Nat) : Nat := k.qget q 0 4
@[inherit_doc Package.wix] def Package.rix (k : Package) (q : Nat) : Nat := k.qget q 4 4

/-- An accepted entry that has not started stands in the journal. -/
def CQueue.unstarted (c : CQueue) : Bool := c.entries.any fun e => e.st == .accepted

/-- An event enters the event queue (25 R397). -/
def Package.event (k : Package) (q : Nat) (e : Event) : Package := { k with evq := k.evq ++ [(q, e)] }

/-- The oldest event of a queue leaves the event queue: it is being handled (25 R397). -/
def Package.handled (k : Package) (q : Nat) : Package := { k with evq := k.evq.eraseP fun x => x.1 == q }

/-- OPC of an entry (25 R393). -/
def opcOf (b : List Byte) : Nat := fieldAt b 2 1

/-- A WAIT of the queue has started and is not complete (25 R399). -/
def CQueue.waiting (c : CQueue) : Bool := c.entries.any fun e => e.st == .started && e.outcome.isNone && opcOf e.bytes == 4

/-- The queue asks for a hardware slot (25 R398, R405). -/
def Package.asks (k : Package) (q : Nat) : Bool :=
  let c := k.cq q
  k.qvalid q && !k.exhausted q && (k.qstate q == qsIdle || k.qstate q == qsParked) && (c.wake || c.unstarted || k.wix q ≠ k.rix q)

/-- The ck since which a queue has asked without a break (25 R398). -/
def Package.noteAsk (k : Package) (q now : Nat) : Package :=
  match k.asks q, (k.cq q).askedAt with
  | true, none => k.modCq q fun c => { c with askedAt := some now }
  | false, some _ => k.modCq q fun c => { c with askedAt := none }
  | _, _ => k

/-- Whether a queue asks now is noted. -/
def noteAsk (p q : Nat) (s : State) : State := s.modPkg p fun k => k.noteAsk q s.ck

/-- The same of every queue. -/
def noteAsks (p : Nat) (s : State) : State := (s.pkg p).queues.foldl (fun s c => noteAsk p c.num s) s

/-- A wake event for a queue (25 R399): WPEND while it unmaps, and otherwise a request for a slot. -/
def wakeQueue (p q : Nat) (e : Event) (s : State) : State :=
  let s := s.modPkg p fun k => k.event q e
  if (s.pkg p).qstate q = qsUnmapping then s.modPkg p fun k => k.setWpend q true
  else noteAsk p q (s.modPkg p fun k => k.modCq q fun c => { c with wake := c.wake || k.qstate q ≠ qsMapped })

/-! ## Host writes (25 R392, R394) -/

/-- The host may reach the range: it lies in a range that management registers for it (25 R409). -/
def Package.hostRange (k : Package) (a n : Nat) : Bool :=
  k.settings.hostRanges.any fun r => decide (r.1 ≤ a) && decide (a + n ≤ r.1 + r.2)

/-- The host may write n bytes from an offset of queue q's record now: the domain is not in retention, and the bytes are in its range. -/
def Package.hostRecord (k : Package) (q off n : Nat) : Bool := decide (q < 4096) && decide (k.susp < 6) && k.hostRange (k.qrec q + off) n

/-- WIX_WRITE (25 R392, R397, R409). -/
def execWixWrite (p q : Nat) (v : BitVec 32) (s : State) : Out' :=
  if !(s.pkg p).hostRecord q 0 4 then .next s
  else .next (noteAsk p q (s.modPkg p fun k => ((k.qset q 0 4 v.toNat).modCq q id).event q .wix))

/-- WAKE_WRITE (25 R392, R399, R409). -/
def execWakeWrite (p q : Nat) (v : BitVec 64) (s : State) : Out' :=
  if !(s.pkg p).hostRecord q 8 8 then .next s
  else .next (wakeQueue p q .wake (s.modPkg p fun k => (k.qset q 8 8 v.toNat).modCq q id))

/-- The host may write bytes 16 to 47 of a queue's record (25 R392). -/
def Package.recordOpen (k : Package) (q : Nat) : Bool := k.qstate q == qsIdle || k.qstate q == qsOverrun || k.qstate q == qsStopped

/-- A write to bytes of 16 to 47 has been made: a queue in OVERRUN is IDLE again (25 R394). -/
def recordWritten (p q : Nat) (s : State) : State :=
  noteAsk p q (s.modPkg p fun k => (if k.qstate q = qsOverrun then k.setQstate q qsIdle else k).modCq q id)

/-- QUEUE_RECORD_WRITE (25 R392, R394, R409). -/
def execQueueRecordWrite (p q : Nat) (bytes : List (BitVec 8)) (s : State) : Out' :=
  if !(s.pkg p).hostRecord q 16 32 || !(s.pkg p).recordOpen q then .next s
  else .next (recordWritten p q (s.modPkg p fun k => k.setBytes (k.qrec q + 16) (bytes.take 32)))

/-! ## Hardware slots (25 R398, R405) -/

/-- A queue gives up its slot, and its state becomes st. -/
def Package.giveSlot (k : Package) (q st : Nat) : Package := (k.qset q 52 1 0xFF).setQstate q st

/-- The hardware slots in use. -/
def Package.slotsUsed (k : Package) : List Nat := (k.queues.map fun c => k.qget c.num 52 1).filter (· < 64)

/-- A queue asks before another one: by PRIO, then by how long it has asked (25 R398). -/
def Package.asksBefore (k : Package) (a b : Nat) : Bool :=
  decide (k.qprio b < k.qprio a) ||
    (k.qprio a == k.qprio b && decide (((k.cq a).askedAt.getD 0) < ((k.cq b).askedAt.getD 0)))

/-- SLOT_MAP (25 R398): the queue that asks first takes a free slot, whose number is a free value. A wake that a WAIT of the queue has
not seen yet stays (R399). -/
def execSlotMap (p q : Nat) (s : State) : Out' :=
  let k := s.pkg p
  let free := (List.range 64).filter fun n => !k.slotsUsed.contains n
  if !k.asks q || k.susp ≠ 0 || free.isEmpty || k.queues.any (fun c => c.num ≠ q && k.asks c.num && k.asksBefore c.num q) then .next s
  else
    let (n, s) := s.drawNat
    .next (s.modPkg p fun k =>
      ((((k.handled q).qset q 52 1 (free.getD (n % free.length) 0)).setQstate q qsMapped).modCq q fun c =>
        { c with wake := c.wake && c.waiting, askedAt := none, mappedAt := s.ck, busyAt := s.ck }))

/-- SLOT_UNMAP_IDLE (25 R398): nothing to accept and nothing to start for 10 µs. -/
def execSlotUnmapIdle (p q : Nat) (s : State) : Out' :=
  let k := s.pkg p
  if k.qstate q ≠ qsMapped || k.wix q ≠ k.rix q || (k.cq q).unstarted || s.ck < (k.cq q).busyAt + 10 * Config.ckPerUs then .next s
  else .next (s.modPkg p fun k => k.giveSlot q qsIdle)

/-- SLOT_UNMAP_FAIRNESS (25 R398): the slot held for 1 ms while another queue of equal or higher PRIO asks; the queue asks again at
once. -/
def execSlotUnmapFairness (p q : Nat) (s : State) : Out' :=
  let k := s.pkg p
  if k.qstate q ≠ qsMapped || s.ck < (k.cq q).mappedAt + 1000 * Config.ckPerUs ||
      !k.queues.any (fun c => c.num ≠ q && k.asks c.num && decide (k.qprio q ≤ k.qprio c.num)) then .next s
  else .next (noteAsk p q (s.modPkg p fun k => (k.giveSlot q qsIdle).modCq q fun c => { c with wake := true }))

/-- ALLOWANCE_EXHAUSTED (25 R405): the queue gives up its slot. -/
def execAllowanceExhausted (p q : Nat) (s : State) : Out' :=
  let k := s.pkg p
  if k.qstate q ≠ qsMapped || !k.exhausted q then .next s else .next (s.modPkg p fun k => k.giveSlot q qsIdle)

/-- The journal entry of an index. -/
def Package.jentry? (k : Package) (q j : Nat) : Option JEntry := (k.cq q).entries.find? fun e => e.idx == j

/-- The entry may start now as far as its own queue goes: the queue is mapped and has allowance, every earlier entry has started, no
WAIT before it is incomplete, and with FENCE every earlier one has completed. -/
def Package.ready (k : Package) (q j : Nat) : Bool :=
  let before := (k.cq q).entries.takeWhile fun e => e.idx ≠ j
  match k.jentry? q j with
  | none => false
  | some e =>
    e.st == .accepted && k.qstate q == qsMapped && k.susp == 0 && !k.exhausted q &&
      before.all (fun x => x.st ≠ .accepted && (x.st == .done || opcOf x.bytes ≠ 4)) &&
      (!(fieldAt e.bytes 3 1).testBit 0 || before.all fun x => x.st == .done)

/-- The queue has an entry to accept or to start, and may do so. -/
def Package.hasWork (k : Package) (q : Nat) : Bool :=
  k.qstate q == qsMapped && k.susp == 0 && !k.exhausted q && (k.wix q ≠ k.rix q || (k.cq q).entries.any fun e => k.ready q e.idx)

/-- One of the 12 Rolernis cores may handle the queue's oldest event (25 R397): it waits for at most 11 events of other queues, those
of queues with nothing to do apart. A handling is one step of the model, so that no step finds a queue lock held (assumption 43). -/
def Package.turnOf (k : Package) (q : Nat) : Bool :=
  !(k.evq.any fun x => x.1 == q) || decide (((k.evq.takeWhile fun x => x.1 ≠ q).filter fun x => k.hasWork x.1).length ≤ 11)

/-- The entry may start now. -/
def Package.mayStart (k : Package) (q j : Nat) : Bool := k.ready q j && k.turnOf q

/-- ENTRY_ACCEPT (25 R394, R403, R405): the entry at RIX goes into the journal, or the queue goes OVERRUN. Entries that are DONE leave
the journal. -/
def execEntryAccept (p q : Nat) (s : State) : Out' :=
  let k := s.pkg p
  let wix := k.wix q
  let rix := k.rix q
  let bytes := k.bytes (k.qcbase q + 256 * (rix % k.qdepth q)) 256
  if k.qstate q ≠ qsMapped || k.susp ≠ 0 || k.exhausted q || !k.turnOf q || wix = rix then .next s
  else if (wix + 2 ^ 32 - rix) % 2 ^ 32 > k.qdepth q || fieldAt bytes 0 2 ≠ rix % 65536 then
    .next (postEvent p q (.overrun q rix) (s.modPkg p fun k => (k.handled q).giveSlot q qsOverrun))
  else
    .next (s.modPkg p fun k =>
      (((k.handled q).modCq q fun c =>
        { c with entries := c.entries.filter (fun e => e.st ≠ .done) ++ [{ idx := rix, bytes := bytes }], busyAt := s.ck }).qset q 4 4
          ((rix + 1) % 2 ^ 32)))

/-- A signal word as N64. -/
def Package.signal (k : Package) (a : Nat) : Nat := k.num' a 8

/-- A write of the watched word has been reported that satisfies the watch, or it satisfies it now (25 R399). -/
def Package.watchMet (k : Package) (q : Nat) : Bool := (k.cq q).seen || (k.cq q).watch.any fun w => decide (w.2.toNat ≤ k.signal w.1)

/-- WATCH_SATISFIED (25 R399): the report that the watched word has reached its value is handled. -/
def execWatchSatisfied (p q : Nat) (s : State) : Out' :=
  match ((s.pkg p).cq q).watch with
  | none => .next s
  | some _ =>
    if !(s.pkg p).watchMet q || (s.pkg p).susp ≥ 6 then .next s
    else
      .next (wakeQueue p q .satisfied (s.modPkg p fun k => k.modCq q fun c =>
        { c with
          watch := none
          seen := false
          entries := c.entries.map fun e => if e.st == .started && fieldAt e.bytes 2 1 == 4 then { e with step := e.step % 8 + 8 } else e }))

/-! ## When an entry starts (25 R393, R399, R403, R405) -/

/-- The journal records that an entry, or a node of a replay, has started. -/
def markStarted (p q j : Nat) (node : Option Nat) (s : State) : State :=
  s.modPkg p fun k =>
    (k.modCq q fun c => { c with busyAt := s.ck }).modJ q j fun e =>
      match node with
      | none => { e with st := .started }
      | some n => { e with nodes := e.nodes.modify n fun d => { d with st := .started } }

/-- The first bad field that every entry may have (25 R393, R395), by its offset. -/
def badHeader (b : List Byte) : Option Nat :=
  if opcOf b > 9 then some 2
  else if fieldAt b 3 1 ≥ 4 then some 3
  else if fieldAt b 4 4 ≠ 0 then some 4
  else if (b.drop 32).take 32 |>.any (· ≠ 0) then some 32
  else none

/-- BAD_ENTRY with the offset of the field. -/
def badEntry (off : Nat) : Nat × Nat := (9, off)

/-- The outcome of an entry or node of package p. -/
def outcome (p q j : Nat) (node : Option Nat) (o : Nat × Nat) (s : State) : State := s.modPkg p fun k => k.setOutcome q j node o

/-- What a command comes to when it starts: done, or not yet, where a walk must be made again. -/
inductive Did where
  | done (s : State)
  | later (s : State)

/-- The common part of starting a command: the effect of `act` where the header is sound (25 R393-R396). -/
def startWith (p q j : Nat) (node : Option Nat) (b : List Byte) (act : State → Did) (s : State) : State :=
  match badHeader b with
  | some off => markStarted p q j node (outcome p q j node (badEntry off) s)
  | none =>
    match act s with
    | .done t => markStarted p q j node t
    | .later t => t

/-- A command of one OPC starts (25 R393-R396, R403), and the journal records it. -/
def startEntry (p q j opc : Nat) (act : List Byte → State → Did) (s : State) : Out' :=
  match (s.pkg p).jentry? q j with
  | none => .next s
  | some e =>
    if !(s.pkg p).mayStart q j || opcOf e.bytes ≠ opc then .next s
    else .next (startWith p q j none e.bytes (act e.bytes) (s.modPkg p fun k => k.handled q))

end Sys2Proof.Machine
end

