-- ==== Sys2Proof/Machine/StateRegs.lean ====
section
/-! DEFINITION. State registers (09 R188-R190, 17 R288): what `sget` reads and what each `sset` writes; `tagclr`. -/

namespace Sys2Proof.Machine

/-- Fields of a word put together: (value, lowest bit) pairs that do not overlap. -/
def fieldsWord (fs : List (Nat × Nat)) : W64 := BitVec.ofNat 64 (fs.foldl (fun n f => n + f.1 * 2 ^ f.2) 0)

/-- A state register as `sget` reads it (09 R188, R189; 07 R126, R127; 03 R70; 17 R288). -/
def readSReg (s : State) (i : Sid) (n : SReg) : W64 :=
  let q := s.seq i
  let c := s.core i.pkg i.core
  match n with
  | .fpc => q.fpc
  | .fps => q.fps
  | .tags => q.tags
  | .tagi => q.tagi
  | .lc0 => q.lc0
  | .lc1 => q.lc1
  | .prio => q.prio.setWidth 64
  | .memb => q.memb
  | .lease =>
    let held := c.holder == some i.seq
    fieldsWord [(q.lmax.toNat, 0), (if held then 1 else 0, 7), (if held then c.leaseIssued else 0, 8)]
  | .fqd => BitVec.ofNat 64 q.fq.length
  | .slot => fieldsWord [(q.dbase.toNat, 0), (q.slotN.toNat, 58)]
  | .vseq => q.vseq.setWidth 64
  | .vcore => q.vcore.setWidth 64
  | .vteam => q.vteam.setWidth 64
  | .tshape => fieldsWord [(q.cols.toNat, 0), (q.rows.toNat, 8)]
  | .ctx => fieldsWord [(q.lctx.toNat, 0), (q.dctx.toNat, 32)]
  | .sern => q.sern.setWidth 64
  | .sera => fieldsWord [(q.ack.toNat, 0), (q.serials.length, 32)]
  | .cyc => s.cyc i.pkg
  | .vpkg => fieldsWord [(q.vpV.toNat, 0), (q.vpN.toNat, 16)]
  | .base n => (vget 0 q.base n.toNat).setWidth 64

/-- `sget` (09 R188). -/
def execSget (g : Guard) (d : Reg) (n : SReg) (s : State) : Out' :=
  frontWord 8 g [d] (fun _ s => s.modSeq s.who fun q => (q.setS d (readSReg s s.who n)).adv 8) s

/-- The RW fields of FPC (07 R126). -/
def fpcMask : W64 := 0x1F0F
/-- The RW fields of FPS (07 R127). -/
def fpsMask : W64 := 0x3F
/-- The RW fields of MEMB (03 R70). -/
def membMask : W64 := 0xFFFF30

/-- `sset FPC` (09 R190, 07 R126). -/
def execSsetFpc (g : Guard) (a : Reg) (s : State) : Out' :=
  regWord 8 g [a] (fun q => { q with fpc := q.sr a &&& fpcMask }) s

/-- `sset FPS` (07 R130, 09 R190). -/
def execSsetFps (g : Guard) (a : Reg) (s : State) : Out' :=
  regWord 8 g [a] (fun q => { q with fps := q.sr a &&& fpsMask }) s

/-- `sset TAGS` (09 R190). -/
def execSsetTags (g : Guard) (a : Reg) (s : State) : Out' := regWord 8 g [a] (fun q => { q with tags := q.sr a }) s

/-- `sset LEASE` (09 R190): LMAX, in effect from the next grant. -/
def execSsetLease (g : Guard) (a : Reg) (s : State) : Out' :=
  regWord 8 g [a] (fun q => { q with lmax := (q.sr a).extractLsb' 0 6 }) s

/-- `sset PRIO` (09 R190). -/
def execSsetPrio (g : Guard) (a : Reg) (s : State) : Out' :=
  regWord 8 g [a] (fun q => { q with prio := (q.sr a).extractLsb' 0 2 }) s

/-- `sset MEMB` (09 R190, 03 R70). -/
def execSsetMemb (g : Guard) (a : Reg) (s : State) : Out' :=
  regWord 8 g [a] (fun q => { q with memb := q.sr a &&& membMask }) s

/-- `sset LC0` and `sset LC1` (09 R190). -/
def execSsetLc (g : Guard) (n : Bool) (a : Reg) (s : State) : Out' :=
  regWord 8 g [a] (fun q => if n then { q with lc1 := q.sr a } else { q with lc0 := q.sr a }) s

/-- `sset BASEn` (09 R189, R190). -/
def execSsetBase (g : Guard) (n : BitVec 4) (a : Reg) (s : State) : Out' :=
  regWord 8 g [a] (fun q => { q with base := vput q.base n.toNat ((q.sr a).extractLsb' 0 57) }) s

/-- `tagclr` (09 R178). -/
def execTagclr (g : Guard) (a : Reg) (s : State) : Out' :=
  regWord 8 g [a] (fun q => { q with tags := q.tags &&& ~~~(q.sr a) }) s

end Sys2Proof.Machine
end

