-- ==== Sys2Proof/Machine/Save.lean ====
section
/-! DEFINITION. The save image of a team (23 R375-R379): the bytes that a checkpoint writes, and the fields that a resume reads
back from it. -/

namespace Sys2Proof.Machine

/-! ## Bytes at offsets -/

/-- A part of an image: the offset of its first byte, and its bytes. -/
abbrev Part := Nat × List Byte

/-- Parts moved up by an offset. -/
def partsAt (base : Nat) (ps : List Part) : List Part := ps.map fun x => (base + x.1, x.2)

/-- A memory of bytes as parts. -/
def memParts (m : Memory) : List Part := m.map fun c => (c.1, [c.2])

/-- The size of a team's save block (23 R376, R377). -/
def saveSize (n : Nat) : Nat := 0x10000 + 0xD40000 * n

/-- Two ranges of physical addresses share a byte. -/
def rangesMeet (a n b m : Nat) : Bool := decide (a < b + m) && decide (b < a + n)

/-- The ranges of physical memory that loaded slots and saved teams hold. -/
def Package.taken (k : Package) : List (Nat × Nat) :=
  (k.slots.toList.filter (·.loaded)).map (fun t => (t.base, t.codePages + t.dataPages)) ++
    (k.teams.filter fun t => !t.placed).map fun t => (t.save, saveSize t.size)

/-- A package's memory with the region of a save block filled: the parts, and zeros elsewhere. -/
def Package.setImage (k : Package) (sb size : Nat) (ps : List Part) : Package :=
  let k := { k with mem := k.mem.filter fun c => !(decide (sb ≤ c.1) && decide (c.1 < sb + size)) }
  ps.foldl (fun k x => k.setBytes (sb + x.1) x.2) k

/-! ## Copies at the quiesce (23 R374) -/

/-- A piece of a copy that is performed, or held in the outstanding table under a serial. -/
def Seq.settledPiece (q : Seq) (c : Copy) (n : Nat) : Bool :=
  c.isDone n || q.out.any fun o => o.req.serial.isSome && o.req.origin == .piece c.id n

/-- The lowest piece from n on that is neither performed nor held; `fuel` bounds the pieces to pass. -/
def Seq.openPiece (q : Seq) (c : Copy) : Nat → Nat → Nat
  | 0, n => n
  | f + 1, n => if q.settledPiece c n then q.openPiece c f (n + 1) else n

/-- FIRST of a listed copy. -/
def Seq.firstOf (q : Seq) (c : Copy) : Nat :=
  match (if c.counted then none else c.stop) with
  | some n => n
  | none => q.openPiece c (c.done.length + q.out.length) c.low

/-- DONEMAP of a listed copy. -/
def Seq.doneMap (q : Seq) (c : Copy) : Nat :=
  if c.stop.isSome && !c.counted then 0
  else (List.range 64).foldl (fun m j => if q.settledPiece c (q.firstOf c + 1 + j) then m + 2 ^ j else m) 0

/-- The bytes that a copy moves in all (15 R271, R274). -/
def Copy.bytes (c : Copy) : Nat :=
  match copyKind c.word with
  | .cgat => patCount c.pat 0 * patGcnt c.pat
  | _ => patProd c.pat 0 (patNdim c.pat)

/-- The length of piece n of a copy. -/
def Copy.lenOf (c : Copy) (n : Nat) : Nat := ((copyPiece c n).map (·.len)).getD 0

/-- PEND of a listed copy: the bytes at or above FIRST that DONEMAP does not mark. -/
def Seq.pendBytes (q : Seq) (c : Copy) : Nat :=
  let first := q.firstOf c
  let marked := ((List.range 64).filter fun j => (q.doneMap c).testBit j).map fun j => first + 1 + j
  c.bytes - ((List.range first ++ marked).foldl (fun n k => n + c.lenOf k) 0)

/-- A copy with no piece requested, a `cput` or a `cget`, or one stopped by a fault (23 R374). -/
def Copy.isListed (c : Copy) : Bool :=
  c.listed || c.stop.isSome || copyKind c.word == .cput || copyKind c.word == .cget ||
    (c.next == 0 && c.flight.isEmpty && c.low == 0)

/-- The copies of a sequencer as the quiesce leaves them: each that meets that fate is listed, and one stopped by a fault starts
over from its faulting piece. -/
def Seq.listCopies (q : Seq) : Seq :=
  { q with copies := q.copies.map fun c =>
      if !c.isListed then c
      else
        let c := match (if c.counted then none else c.stop) with
          | some n => { c with low := n, done := [] }
          | none => c
        { c with listed := true, idx := if c.next = 0 then [] else c.idx } }

/-! ## A sequencer's block (23 R378, R379) -/

/-- The serial under which an issued entry's request is held (17 R301). -/
def Seq.entrySerial (q : Seq) (e : EQ) (id : Nat) : Nat :=
  ((q.out.find? fun o => o.req.origin == .entry e id).bind (·.req.serial)).getD 0

/-- A queue entry: the entries whose copies are listed for re-issue are not among them. -/
def entryBytes (q : Seq) (e : EQ) (x : Entry) : List Byte :=
  let held := x.issued && !x.done && q.out.any fun o => o.req.origin == .entry e x.id
  leBytes 8 x.word.toNat ++ leBytes 4 x.caddr.toNat ++
    leBytes 1 ((if x.guard then 1 else 0) + (if x.done then 2 else 0) + (if held then 4 else 0)) ++ leBytes 1 x.mode.toNat ++
    leBytes 2 0 ++ (List.range 5).flatMap (fun n => leBytes 8 (x.ops.getD n 0).toNat) ++
    leBytes 4 (if held then q.entrySerial e x.id else 0) ++ leBytes 4 0

/-- A queue's saved entries. -/
def Seq.savedQueue (q : Seq) (e : EQ) : List Entry := (q.queue e).filter fun x => !q.copies.any fun c => c.listed && c.id == x.id

/-- A re-issue entry. -/
def Seq.reissueBytes (q : Seq) (c : Copy) : List Byte :=
  leBytes 8 c.word.toNat ++ leBytes 4 c.caddr.toNat ++ leBytes 4 (eqNum c.q) ++
    [1, 2, 3].flatMap (fun n => leBytes 8 (c.opd n).toNat) ++
    leBytes 8 (q.firstOf c) ++ leBytes 8 (q.doneMap c) ++ leBytes 8 (q.pendBytes c)

/-- A pending front-end entry. -/
def pendEntryBytes (e : Pend) : List Byte :=
  leBytes 8 (256 * e.reg.toNat + 16 * Nat.log2 e.size + (if e.store then 2 else 0) + (if e.sext then 1 else 0)) ++
    leBytes 8 e.va.toNat ++ leBytes 8 (if e.store then e.data.toNat else 0)

/-- A number for the operation of a request, and its operands. -/
def opOperands : Op → Nat × List Nat
  | .load n => (0, [n])
  | .store n v => (1, [n, v.toNat])
  | .atomic k b c => (2 + (match k with
      | .add => 0 | .fadd => 1 | .minS => 2 | .minU => 3 | .maxS => 4 | .maxU => 5 | .and => 6 | .or => 7 | .xor => 8
      | .swap => 9 | .cas => 10), [b.toNat, c.toNat])
  | .push ws => (13, ws.map (·.toNat))
  | .joinDec => (14, [])
  | .count n => (15, [n])
  | .put bs _ _ => (16, bs.map (·.toNat))
  | .get n => (17, [n])
  | .sig set v => (18, [if set then 1 else 0, v.toNat])
  | .arrive _ n _ => (19, [n])
  | .release _ n _ => (20, [n])

/-- An outstanding-table entry. The codes and places that the spec does not give are those of Config. -/
def outBytes (o : Out) : List Byte :=
  let k := opOperands o.req.op
  let body := Config.savedBody k.1 o.req.addr.toNat k.2 o.req.fseq o.lastSend
  leBytes 8 (o.req.serial.getD 0 % 2 ^ 24 + 2 ^ 24 * (Config.savedKind k.1 % 16) + 2 ^ 28 * (o.attempts % 16) + 2 ^ 32 * o.reg.toNat) ++
    (List.range 40).map (fun n => body.getD n 0) ++ leBytes 4 o.req.caddr.toNat

/-- The resumption record of an `mslice` (13 R247). -/
def msParts (q : Seq) (r : MsRec) : List Part :=
  let sl := match (q.qc.find? fun e => e.id == r.entry).map fun e => decodeWord e.word 0 with
    | some (.ok (.mslice _ _ _ _ _ _ _ n _)) => n.toNat
    | _ => 0
  let i16 := fun (x : Int) => leBytes 2 (BitVec.ofInt 16 x).toNat
  [(0, leBytes 8 (sl * 2 ^ 28 + r.nextM * 2 ^ 24 + r.nextI * 2 ^ 20) ++ leBytes 8 r.fmt.word.toNat ++
      leBytes 4 r.fmt.ta.toNat ++ leBytes 4 r.fmt.tb.toNat ++ r.scales.flatMap i16),
   (1024, r.acc.flatMap fun x => leBytes 4 (BitVec.ofInt 32 x).toNat)]

/-- The state registers of R188 and R288 with their numbers. -/
def savedRegs : List (Nat × SReg) :=
  [(0, .fpc), (1, .fps), (2, .tags), (3, .tagi), (4, .lc0), (5, .lc1), (6, .prio), (7, .memb), (8, .lease), (9, .fqd), (10, .slot),
   (11, .vseq), (12, .vcore), (13, .vteam), (14, .tshape), (15, .ctx), (16, .sern), (17, .sera), (18, .cyc), (19, .vpkg)] ++
    (List.range 16).map fun n => (0x20 + n, .base (BitVec.ofNat 4 n))

/-- The code of the state that a stopped sequencer left. -/
def Seq.leftState (q : Seq) : Nat :=
  match q.st with
  | .idle => 1
  | .run => 2
  | .drain => 3
  | .halt => 4
  | _ => 0

/-- The first three words of a sequencer's header. -/
def headerBytes (q : Seq) : List Byte :=
  let listed := q.copies.filter (·.listed)
  leBytes 8 (q.leftState * 2 ^ 60 + (if q.lheld then 2 ^ 59 else 0) + (if q.msrec.isSome then 2 ^ 58 else 0) +
      (if q.aband then 2 ^ 57 else 0) + (if q.frec.isSome then 2 ^ 56 else 0) + q.flip.toNat * 2 ^ 52 + q.pc.toNat % 2 ^ 32) ++
    leBytes 8 ((q.p ||| 1).toNat * 2 ^ 16 + q.tokens.toNat) ++
    leBytes 8 (listed.length * 2 ^ 56 + q.fe.length * 2 ^ 48 + listed.foldl (fun n c => n + q.pendBytes c) 0)

/-- A sequencer's block. -/
def seqParts (s : State) (i : Sid) : List Part :=
  let q := s.seq i
  let listed := q.copies.filter (·.listed)
  let w64s := fun (ws : List W64) => ws.flatMap fun x => leBytes 8 x.toNat
  [(0, headerBytes q)] ++ (match q.frec with | some f => [(0x40, faultBytes f)] | none => []) ++
    [(0x100, w64s ((List.range 32).map fun n => q.sr (BitVec.ofNat 5 n)))] ++
    savedRegs.map (fun x => (0x200 + 8 * x.1, leBytes 8 (readSReg s i x.2).toNat)) ++
    q.fe.mapIdx (fun n e => (0x400 + 32 * n, pendEntryBytes e)) ++
    (List.range 32).map (fun n => (0x1000 + 512 * n, leBytes 512 (vget 0 q.v n).toNat)) ++
    (List.range 8).map (fun n => (0x5000 + 128 * n, leBytes 128 (q.kr (BitVec.ofNat 3 n)).toNat)) ++
    q.fq.mapIdx (fun n f => (0x5400 + 16 * n, leBytes 8 f.word.toNat ++ leBytes 4 f.ta.toNat ++ leBytes 4 f.tb.toNat)) ++
    [EQ.l, EQ.c, EQ.s].flatMap (fun e =>
      (q.savedQueue e).mapIdx fun n x => (0x5400 + 0x400 * eqNum e + 64 * n, entryBytes q e x)) ++
    listed.mapIdx (fun n c => (0x7000 + 64 * n, q.reissueBytes c)) ++
    listed.mapIdx (fun n c => (0x9000 + 256 * n, c.pat)) ++
    (q.out.filter fun o => o.req.serial.isSome).mapIdx (fun n o => (0xD000 + 64 * n, outBytes o)) ++
    (match q.msrec with | some r => partsAt 0x11000 (msParts q r) | none => [])

/-! ## A core's block and the team header (23 R376, R377) -/

/-- The code of a tile kind. -/
def kindCode : TileKind → Nat
  | .zero => 0
  | .f32 => 1
  | .i32 => 2
  | .p32 => 3
  | .p64 => 4
  | .member => 5

/-- A barrier instance (23 R379). -/
def barBytes (b : Barrier) : List Byte :=
  leBytes 4 b.expect ++ leBytes 4 b.arrived ++ leBytes 4 (BitVec.ofInt 32 b.pend).toNat ++ leBytes 4 (if b.phase then 1 else 0)

/-- A mask of numbers. -/
def maskOf (ns : List Nat) : Nat := (ns.eraseDups.map fun n => 2 ^ n).foldl (· + ·) 0

/-- The LIDX values live at a member (19 R326). -/
def liveLidx (k : Package) (dctx vteam vcore : Nat) : List Nat :=
  (k.dies.toList.flatMap (·.blocks)).filterMap fun b =>
    if b.dctx = dctx ∧ b.vteam = vteam ∧ b.vcore = vcore then some (qbLidx b.record) else none

/-- A core's block, with the bytes of the gather cache and of unused granules not in it. -/
def coreParts (s : State) (p : Nat) (t : Team) (v : Nat) : List Part :=
  let c := s.core p (t.coreOf v)
  memParts (c.spad.filter fun b => inDirect c.carve b.1 1 || inQueue c.carve b.1 1) ++
    (List.range 30).flatMap (fun n => partsAt (0x800000 + 0x20000 * n) ((vget {} c.tiles n).data.map fun e => (4 * e.1, leBytes 4 e.2.toNat))) ++
    partsAt 0xBC0000 (memParts c.win) ++
    c.replies.mapIdx (fun n r => (0xBF0000 + 16 * n,
      leBytes 8 r.result.toNat ++ leBytes 8 (r.serial + 2 ^ 24 * r.id.vs + 2 ^ 32 * r.id.vt + 2 ^ 38 * r.id.vp + 2 ^ 48 * r.id.dctx))) ++
    [(0xC00000, leBytes 8 c.carve.toNat), (0xC00008, leBytes 8 (maskOf (liveLidx (s.pkg p) t.dctx t.vteam v))),
     (0xC00010, leBytes 8 (maskOf ((c.pages.filter (·.held)).map (·.slot))))] ++
    (List.range 30).map (fun n =>
      let x := vget {} c.tiles n
      (0xC00100 + 16 * n, leBytes 4 (kindCode x.kind) ++ leBytes 4 0 ++ leBytes 4 x.ta.toNat ++ leBytes 4 x.tb.toNat)) ++
    (List.range 4).map (fun n => (0xC00300 + 16 * n, barBytes (vget {} c.bars n))) ++
    c.replies.mapIdx (fun n r => (0xC01000 + 4 * n, leBytes 4 (2 ^ 31 + (Config.holdCk - r.hold + 1023) / 1024))) ++
    (List.range 4).flatMap fun q => partsAt (0xC40000 + 0x40000 * q) (seqParts s ⟨p, t.coreOf v, q⟩)

/-- The whole image of a team, whose cores still hold its state. -/
def imageParts (s : State) (p reason : Nat) (t : Team) : List Part :=
  [(0, leBytes 8 (reason * 2 ^ 60 + t.vteam * 2 ^ 16 + t.rows * 2 ^ 8 + t.cols)),
   (8, leBytes 8 (t.stopAt - (s.pkg p).resetCk))] ++
    (List.range 16).map (fun n => (0x100 + 16 * n, barBytes (vget {} t.bars n))) ++
    (List.range t.size).flatMap fun v => partsAt (0x10000 + 0xD40000 * v) (coreParts s p t v)

/-! ## What a resume reads back (23 R366, R378) -/

/-- The fields that system software may change, read from a sequencer's block at `a`: PC, PRED, the s, v and k registers, and the
RW fields of the state registers. -/
def restoreSeq (k : Package) (a : Nat) (q : Seq) : Seq :=
  let reg := fun (n : Nat) => (BitVec.ofNat 64 (k.num' (a + 0x200 + 8 * n) 8) : W64)
  { q with
    pc := BitVec.ofNat 64 (k.num' a 4)
    p := BitVec.ofNat 8 (k.num' (a + 10) 1) ||| 1
    s := Vector.ofFn fun (n : Fin 32) => BitVec.ofNat 64 (k.num' (a + 0x100 + 8 * n.val) 8)
    v := Vector.ofFn fun (n : Fin 32) => BitVec.ofNat 4096 (k.num' (a + 0x1000 + 512 * n.val) 512)
    k := Vector.ofFn fun (n : Fin 8) => BitVec.ofNat 1024 (k.num' (a + 0x5000 + 128 * n.val) 128)
    fpc := reg 0 &&& fpcMask
    fps := reg 1 &&& fpsMask
    tags := reg 2
    lc0 := reg 4
    lc1 := reg 5
    prio := (reg 6).extractLsb' 0 2
    memb := reg 7 &&& membMask
    lmax := (reg 8).extractLsb' 0 6
    base := Vector.ofFn fun (n : Fin 16) => (reg (0x20 + n.val)).extractLsb' 0 57 }

end Sys2Proof.Machine
end

