-- ==== Sys2Proof/Machine/Shake.lean ====
section
/-! DEFINITION. SHAKE256, which DIGEST, the firmware keys and the measurement log use (05 R117; 25 R400, R410). The spec names the
function and does not define it: it is FIPS 202's (assumption 23). -/

namespace Sys2Proof.Machine

/-- The lane x, y of a Keccak state: 25 lanes, x fastest. -/
def lane (a : List W64) (x y : Nat) : W64 := a.getD (x % 5 + 5 * (y % 5)) 0

/-- A state whose lanes are given. -/
def lanes (f : Nat → Nat → W64) : List W64 := (List.range 25).map fun i => f (i % 5) (i / 5)

/-- Where the walk of rho stands after t moves: it begins at lane (1, 0) and moves from (x, y) to (y, 2x + 3y) (FIPS 202,
3.2.2). -/
def rhoWalk : Nat → Nat × Nat
  | 0 => (1, 0)
  | t + 1 => ((rhoWalk t).2, (2 * (rhoWalk t).1 + 3 * (rhoWalk t).2) % 5)

/-- The rotation of lane (x, y) in rho: the lane that the walk meets as its t-th turns by (t + 1)(t + 2) / 2; (0, 0) is not on
the walk and does not turn. -/
def rhoTurn (x y : Nat) : Nat :=
  match (List.range 24).find? fun t => rhoWalk t == (x, y) with
  | none => 0
  | some t => (t + 1) * (t + 2) / 2 % 64

/-- The shift register of iota after t moves, its low bit the output (FIPS 202, 3.2.5). -/
def iotaReg : Nat → Nat
  | 0 => 1
  | t + 1 => if (iotaReg t).testBit 7 then (2 * iotaReg t) ^^^ 0x171 else 2 * iotaReg t

/-- The constant of round r: bit 2^j - 1 is the register's output at move j + 7r. -/
def iotaWord (r : Nat) : W64 :=
  BitVec.ofNat 64 (((List.range 7).map fun j => 2 ^ (2 ^ j - 1) * (iotaReg (j + 7 * r) % 2)).sum)

/-- One round of Keccak-f[1600]. -/
def keccakRound (a : List W64) (r : Nat) : List W64 :=
  let c := (List.range 5).map fun x => lane a x 0 ^^^ lane a x 1 ^^^ lane a x 2 ^^^ lane a x 3 ^^^ lane a x 4
  let d := (List.range 5).map fun x => c.getD ((x + 4) % 5) 0 ^^^ (c.getD ((x + 1) % 5) 0).rotateLeft 1
  let t := lanes fun x y => (lane a x y ^^^ d.getD x 0).rotateLeft (rhoTurn x y)
  -- pi moves lane (x, y) to (y, 2x + 3y)
  let b := lanes fun x y => lane t (x + 3 * y) x
  let e := lanes fun x y => lane b x y ^^^ (~~~(lane b (x + 1) y) &&& lane b (x + 2) y)
  match e with
  | [] => []
  | w :: ws => (w ^^^ iotaWord r) :: ws

/-- Keccak-f[1600]. -/
def keccakF (a : List W64) : List W64 := (List.range 24).foldl keccakRound a

/-- The 136 B blocks of a message, the last padded; `fuel` bounds their number. -/
def shakeBlocks : Nat → List Byte → List (List Byte)
  | 0, _ => []
  | n + 1, m =>
    if m.length < 136 then
      let k := 136 - m.length
      [m ++ (if k = 1 then [0x9F] else 0x1F :: (List.replicate (k - 2) 0 ++ [0x80]))]
    else m.take 136 :: shakeBlocks n (m.drop 136)

/-- The lanes of a block. -/
def blockLanes (b : List Byte) : List W64 :=
  (List.range 25).map fun i => (List.range 8).foldl (fun w j => w ||| ((b.getD (8 * i + j) 0).setWidth 64 <<< (8 * j))) 0

/-- n blocks of output from a state. -/
def squeeze : Nat → List W64 → List Byte
  | 0, _ => []
  | n + 1, a =>
    (a.take 17).flatMap (fun (w : W64) => (List.range 8).map fun j => (w >>> (8 * j)).setWidth 8) ++ squeeze n (keccakF a)

/-- SHAKE256 of a message, n bytes. -/
def shake256 (m : List Byte) (n : Nat) : List Byte :=
  let a := (shakeBlocks (m.length / 136 + 1) m).foldl (fun a b => keccakF (List.zipWith (· ^^^ ·) a (blockLanes b)))
    (List.replicate 25 0)
  (squeeze (n / 136 + 1) a).take n

end Sys2Proof.Machine
end

