-- ==== Sys2Proof/Machine/Granary.lean ====
section
/-! DEFINITION. Granary slots: the slot object (05 R117, R118), the page scanner over a slot (05 R103, R104), LOADSLOT and FREESLOT
(25 R400, R401). -/

namespace Sys2Proof.Machine

/-! ## The slot object (05 R117) -/

/-- The header's figures, from an object's bytes. -/
def soCode (o : List Byte) : Nat := fieldAt o 8 8
@[inherit_doc soCode] def soData (o : List Byte) : Nat := fieldAt o 16 8
@[inherit_doc soCode] def soEntry (o : List Byte) : Nat := fieldAt o 24 8
@[inherit_doc soCode] def soNtdm (o : List Byte) : Nat := fieldAt o 32 4
@[inherit_doc soCode] def soTdmoff (o : List Byte) : Nat := fieldAt o 40 8

/-- The planes that have a time-division table. -/
def planesOf (ntdm : Nat) : Nat := ((List.range 12).filter fun n => ntdm.testBit n).length

/-- A header that R400 refuses with the object address field, or whose tables R401 refuses. -/
def headerBad (o : List Byte) : Bool :=
  fieldAt o 0 4 ≠ 0x4F444C55 || fieldAt o 4 2 ≠ 1 || soCode o = 0 || soCode o % 8 ≠ 0 || soEntry o % 8 ≠ 0 || soEntry o ≥ soCode o ||
    soNtdm o ≥ 2 ^ 12 || ((o.drop 48).take 16).any (· ≠ 0) || ((o.drop 128).take 128).any (· ≠ 0) ||
    soTdmoff o % 64 ≠ 0 || (soNtdm o ≠ 0 && soTdmoff o + 1024 * planesOf (soNtdm o) > soData o)

/-- The object's digest is the one its header holds (05 R117). -/
def digestOk (o : List Byte) : Bool :=
  shake256 (o.take 64 ++ (o.drop 256).take (soCode o + soData o)) 64 == (o.drop 64).take 64

/-! ## The page scanner (05 R103, R104) -/

/-- The words of a code section. -/
def codeWords : Nat → List Byte → List W64
  | 0, _ => []
  | n + 1, bs => wordOfBytes bs :: codeWords n (bs.drop 8)

/-- The indices of the second words of two-word forms. -/
def contMap : Nat → Bool → List W64 → List Nat
  | _, _, [] => []
  | n, second, w :: r => if second then n :: contMap (n + 1) false r else contMap (n + 1) (twoWord w) r

/-- The target of a branch word, relative to its own index in words (05 R90). -/
def targetOf (w : W64) : Option Int :=
  match decodeWord w 0 with
  | .ok (.br _ imm) | .ok (.call _ _ imm) | .ok (.lend _ _ imm) => some imm.toInt
  | _ => none

/-- The reason for which word n of n words' code is rejected (05 R103). -/
def wordReason (total : Nat) (cont : List Nat) (n : Nat) (w : W64) : Option Nat :=
  match scanWord w with
  | some r => some r.num
  | none =>
    if twoWord w && (n + 1 ≥ total || (n + 1) / 512 ≠ n / 512) then some Reason.split.num
    else
      match targetOf w with
      | none => none
      | some d =>
        let t := (n : Int) + d
        if t < 0 || t ≥ total || cont.contains t.toNat then some Reason.target.num else none

/-- The first word that the scanner rejects, with its reason. -/
def scanCode (ws : List W64) (cont : List Nat) : Option (Nat × Nat) :=
  (ws.zipIdx).findSome? fun (x : W64 × Nat) =>
    if cont.contains x.2 then none else (wordReason ws.length cont x.2 x.1).map fun r => (x.2, r)

/-! ## LOADSLOT and FREESLOT (25 R400) -/

/-- Where an object of `size` bytes of pages comes to lie: the lowest place from the slot base on, or behind a range that is taken,
at which it meets no slot and no saved team (assumption 7). -/
def slotMemory (k : Package) (size : Nat) : Nat :=
  let places := k.settings.slotBase :: k.taken.map fun r => (r.1 + r.2 + 4095) / 4096 * 4096
  match places.filter fun a => decide (k.settings.slotBase ≤ a) && k.taken.all fun r => !rangesMeet a size r.1 r.2 with
  | [] => k.settings.slotBase
  | a :: l => l.foldl min a

/-- The slot that an object makes. -/
def slotOfObject (k : Package) (o : List Byte) (wb wl : Nat) : Slot :=
  { loaded := true, base := slotMemory k ((soCode o + 4095) / 4096 * 4096 + (soData o + 4095) / 4096 * 4096)
    codesz := soCode o, datasz := soData o, entry := soEntry o,
    cont := contMap 0 false (codeWords (soCode o / 8) (o.drop 256)), ntdm := soNtdm o, tdmoff := soTdmoff o, wbase := wb, wlen := wl }

/-- The checks of LOADSLOT in their order (25 R396, R400, R401): the outcome of the first that fails. -/
def loadFault (k : Package) (b o : List Byte) : Option (Nat × Nat) :=
  let n := fieldAt b 64 1
  let sig := fieldAt b 88 8
  let cont := contMap 0 false (codeWords (soCode o / 8) (o.drop 256))
  if n > 63 then some (badEntry 64)
  else if fieldAt b 104 8 % 4096 ≠ 0 then some (badEntry 104)
  else if fieldAt b 112 8 % 4096 ≠ 0 then some (badEntry 112)
  else if (vget {} k.slots n).loaded then some (6, n)
  else if headerBad o then some (badEntry 72)
  else if o.length < 256 + soCode o + soData o then some (badEntry 80)
  else if !digestOk o then some (2, 0)
  else if sig = 0 && k.settings.needSig then some (3, 0)
  else if sig ≠ 0 &&
      !Config.falconVerify k.settings.slotKey ((o.drop 64).take 64) (k.bytes sig (fieldAt b 96 2)) then some (3, 0)
  else (scanCode (codeWords (soCode o / 8) (o.drop 256)) cont).map fun x => (1, x.1 / 512 * 2 ^ 24 + x.1 % 512 * 2 ^ 8 + x.2)

/-- LOADSLOT: the slot's code pages, zero-filled, its data pages and its weights, with the object measured (25 R410). -/
def doLoadslot (p q j : Nat) (node : Option Nat) (b : List Byte) (s : State) : Did :=
  let k := s.pkg p
  let o := k.bytes (fieldAt b 72 8) (fieldAt b 80 8)
  match loadFault k b o with
  | some x => .done (outcome p q j node x s)
  | none =>
    let t := slotOfObject k o (fieldAt b 104 8) (fieldAt b 112 8)
    let body := o.drop 256
    .done (outcome p q j node (0, 0) (s.modPkg p fun k =>
      let k := k.setBytes t.base (List.replicate (t.codePages + t.dataPages) 0)
      let k := (k.setBytes t.base (body.take t.codesz)).setBytes (t.base + t.codePages) ((body.drop t.codesz).take t.datasz)
      { k with slots := vput k.slots (fieldAt b 64 1) t, mlog := k.mlog ++ [shake256 o 64] }))

/-- LOADSLOT (25 R400). -/
def execLoadslot (p q j : Nat) (s : State) : Out' := startEntry p q j 1 (doLoadslot p q j none) s

/-- An invocation uses the slot: it waits, or its team runs, is stopped or is saved. -/
def slotBusy (k : Package) (n : Nat) : Bool :=
  k.teams.any (fun t => t.slot == n) || k.invs.any fun v => v.start.isNone && fieldAt v.bytes 64 1 == n

/-- FREESLOT: a free slot stays free, and a loaded one that no invocation uses is freed with its mapping. -/
def doFreeslot (p q j : Nat) (node : Option Nat) (b : List Byte) (s : State) : Did :=
  let n := fieldAt b 64 1
  if n > 63 then .done (outcome p q j node (badEntry 64) s)
  else if slotBusy (s.pkg p) n then .done (outcome p q j node (6, n) s)
  else .done (outcome p q j node (0, 0) (s.modPkg p fun k => { k with slots := vput k.slots n {} }))

/-- FREESLOT (25 R400). -/
def execFreeslot (p q j : Nat) (s : State) : Out' := startEntry p q j 2 (doFreeslot p q j none) s

end Sys2Proof.Machine
end

