-- ==== Sys2Proof/Machine/Preempt.lean ====
section
/-! DEFINITION. Machine checks and offline cores (23 R367, R389; 01 R37), the pre-emption policy (23 R369-R372), the checkpoint of
a team (23 R373-R375) and its resume (23 R381). -/

namespace Sys2Proof.Machine

/-! ## Deferred faults, check bits and parts taken out of service -/

/-- DEFERRED_FAULT_DELIVERY (23 R363): the oldest deferred fault of a sequencer stops it at its instruction boundary, and at once
where it is IDLE. -/
def execDeferredFaultDelivery (i : Sid) (s : State) : Out' :=
  let q := s.seq i
  match q.deferred with
  | [] => .next s
  | f :: r =>
    if !s.has i || !(q.st == .run || q.st == .idle || q.st == .drain) then .next s
    else .next (takeFault i f (s.modSeq i fun q => { q with deferred := r }))

/-- CORE_OFFLINE (01 R37). -/
def execCoreOffline (p c : Nat) (s : State) : Out' := .next (takeOffline p [c] s)

/-- SECDED_ERROR (23 R367, 05 R106): a single-bit error is corrected and counted; a double-bit error is the machine check of its
structure, and an instruction-cache line with one is invalidated, so that it is filled again. -/
def execSecdedError (p : Nat) (site : EccSite) (double : Bool) (s : State) : Out' :=
  if !double then .next (s.modPkg p fun k => { k with corrected := k.corrected + 1 })
  else
    match site with
    | .context i loc => if s.has i && (s.seq i).st ≠ .unbound then .next (machineCheck i fcUncorrectable loc s) else .next s
    | .icacheLine c n l => .next (s.modCore p c fun k => { k with icache := k.icache.filter fun x => !(x.1 == n && x.2.1 == l) })
    | .replyCache c => .next (takeOffline p [c] s)
    | .dieMap d => .next (takeOffline p (dieCores d) s)
    | .blightMap => .next (takeOffline p (dieCores 0 ++ dieCores 1) (s.modPkg p fun k => { k with offline := true }))

/-- An access under way in a frame: a front-end load whose data has not come back, or a piece that a slice is to read. -/
inductive UnderWay where
  | load (i : Sid) (e : Pend)
  | piece (i : Sid) (cid n : Nat)
  deriving DecidableEq, Repr

/-- The accesses under way that read a frame (23 R389). -/
def readsFrame (s : State) (p pa : Nat) : List UnderWay :=
  ((sidsOf p).flatMap fun i => ((s.seq i).fe.filter fun e => !e.store && !e.sent && !e.ready && !e.bad && (match e.place with
      | .mem q a => q == p && a / 4096 == pa / 4096
      | _ => false)).map (.load i)) ++
    (s.pkg p).dies.toList.flatMap fun d => (d.reqs.filter fun r => r.write.isNone && r.pa / 4096 == pa / 4096).map fun r => .piece r.who r.cid r.piece

/-- An access that met an uncorrectable error takes the blight fault (23 R389): a load's is deferred, and it is performed after the resume;
a piece's stops its copy. -/
def meetError (x : UnderWay) (s : State) : State :=
  match x with
  | .load i e =>
    deferFault (s.seq i).ident { code := fcBlight, addr := e.va, caddr := e.caddr }
      (s.modSeq i fun q => { q with fe := q.fe.map fun y => if y.id = e.id then { y with bad := true } else y })
  | .piece i cid n =>
    match ((s.seq i).copies.find? fun c => c.id == cid).bind fun c => copyPiece c n with
    | none => s
    | some pc =>
      let s := [0, 1].foldl (fun s d => s.modDie i.pkg d fun x => { x with reqs := x.reqs.filter fun r => !(r.who == i && r.cid == cid && decide (n ≤ r.piece)) }) s
      stopCopy i cid n { code := fcBlight, addr := pc.src } s

/-- BLIGHT_SET (23 R389): the bit of a frame of populated memory is set, and what its slices hold of it that is dirty is discarded. Where a
read met the error, rather than a scrub or a request of management, that access takes the fault: which one is a free value. -/
def execBlightSet (p frame : Nat) (s : State) : Out' :=
  let pa := if frame < 0xC000000 then frame * 4096 else 0x10000000000 + (frame - 0xC000000) * 4096
  if !(s.pkg p).populated pa then .next s
  else
    let xs := readsFrame s p pa
    let (n, s) := s.drawNat
    let s := s.modPkg p fun k =>
      { k.setBlight pa true with dies := k.dies.map fun d => { d with lines := d.lines.filter fun l => !(l.dirty && l.line / 32 == pa / 4096) } }
    .next (match xs[n % (xs.length + 1)]? with
      | some x => meetError x s
      | none => s)

/-! ## Rectangles (03 R65) -/

/-- The rectangle lies on a die. -/
def rectFits (die row col rows cols : Nat) : Bool :=
  decide (die < 2) && decide (1 ≤ rows) && decide (1 ≤ cols) && decide (row + rows ≤ 6) && decide (col + cols ≤ 8)

/-- The cores of a rectangle, by VCORE. -/
def rectCores (die row col rows cols : Nat) : List Nat :=
  (List.range (rows * cols)).map fun v => die * 48 + (row + v / cols) * 8 + col + v % cols

/-- Every core of the rectangle is in service, and with `free` bound to no context. -/
def rectOk (k : Package) (free : Bool) (die row col rows cols : Nat) : Bool :=
  rectFits die row col rows cols && !k.offline &&
    (rectCores die row col rows cols).all fun c => !(k.core c).offline && (!free || (k.core c).bound.isNone)

/-- Some rectangle of the shape stands on a die that DIE names (2 for either). -/
def rectSome (k : Package) (free : Bool) (die rows cols : Nat) : Bool :=
  (List.range 2).any fun d => (die == 2 || die == d) && (List.range 6).any fun r => (List.range 8).any fun c => rectOk k free d r c rows cols

/-- The fields of an INVOKE payload (25 R400), from the entry's bytes. -/
def ivSlot (b : List Byte) : Nat := fieldAt b 64 1
@[inherit_doc ivSlot] def ivDctx (b : List Byte) : Nat := fieldAt b 66 2
@[inherit_doc ivSlot] def ivVteam (b : List Byte) : Nat := fieldAt b 68 1
@[inherit_doc ivSlot] def ivRows (b : List Byte) : Nat := bitsOf (fieldAt b 69 1) 6 4
@[inherit_doc ivSlot] def ivCols (b : List Byte) : Nat := bitsOf (fieldAt b 69 1) 3 0
@[inherit_doc ivSlot] def ivDie (b : List Byte) : Nat := fieldAt b 70 1
@[inherit_doc ivSlot] def ivTokens (b : List Byte) : Nat := bitsOf (fieldAt b 71 1) 3 0
@[inherit_doc ivSlot] def ivRestart (b : List Byte) : Bool := (fieldAt b 71 1).testBit 4
@[inherit_doc ivSlot] def ivPrio (b : List Byte) : Nat := bitsOf (fieldAt b 71 1) 7 6
@[inherit_doc ivSlot] def ivEstimate (b : List Byte) : Nat := fieldAt b 72 8
@[inherit_doc ivSlot] def ivCarve (b : List Byte) : W64 := BitVec.ofNat 64 (fieldAt b 80 8)
@[inherit_doc ivSlot] def ivQtab (b : List Byte) : Nat := fieldAt b 88 8
@[inherit_doc ivSlot] def ivBase (b : List Byte) (n : Nat) : W64 := BitVec.ofNat 64 (fieldAt b (128 + 8 * n) 8)

/-- The team of an invocation. -/
def Package.invTeam? (k : Package) (v : Invocation) : Option Team :=
  k.teams.find? fun t => t.home == k.num && t.inv == v.id && t.dctx == ivDctx v.bytes && t.vteam == ivVteam v.bytes

/-- The remaining estimate of a running invocation (23 R369). -/
def Invocation.remaining (v : Invocation) (ck : Nat) : Nat := v.estimate - (ck - v.start.getD ck)

/-! ## Stopping a team (23 R373, steps 1 to 3) -/

/-- The matrix commands that the holder has issued are done: its lease is released, and it is recorded that it held it (03 R80). -/
def Core.stopLease (c : Core) : Core :=
  match c.holder with
  | none => c
  | some n => c.endLease.modSeq n fun q => { q with lheld := true }

/-- The front ends of a team stop, its lists of copies are settled, and its array is cleared of what waits for a bus stream
(23 R373, R374; 13 R254). An `mslice` that is in the array stops at the end of a pass (13 R247): `passes` gives, by VSEQ, 0 for none
and one more than the count of stopSlice for one. -/
def closeTeam (p : Nat) (t : Team) (reason : Nat) (passes : List Nat) (s : State) : State :=
  let sids := t.sids p
  let s := s.modPkg p fun k => k.modTeam t.dctx t.vteam fun t => { t with st := .closing, reason := reason, stopAt := s.ck }
  let s := (sids.zipIdx).foldl (fun s (x : Sid × Nat) =>
    match passes.getD x.2 0 with
    | 0 => s
    | n + 1 => stopSlice x.1 n s) s
  let s := t.cores.foldl (fun s c => (withdrawArray p c s).modCore p c Core.stopLease) s
  sids.foldl (fun s i => s.modSeq i fun q => q.dropWait.listCopies) s

/-- The copy reaches another package. -/
def copyRemote (c : Copy) : Bool := copyKind c.word == .cput || copyKind c.word == .cget

/-- Nothing of a team is under way that a stop lets end (23 R373, R374): the harrow has caught up, copies and their requests have
settled, deferred faults have been taken, no page is on its way, and the mesh has handled what it had accepted. A remote piece that is not
answered 64 µs after the stop, or has met a NACK, is not waited for, except in a team that is killed, whose issued pieces complete
(R371). -/
def teamQuiet (s : State) (p : Nat) (t : Team) : Bool :=
  let k := s.pkg p
  let late := decide (s.ck ≥ t.stopAt + Config.resendCk)
  let kill := t.reason == 5
  (t.sids p).all (fun i =>
    let q := s.seq i
    q.harrow.all (fun h => !h.isEntry) && (q.st == .halt || q.deferred.isEmpty) && !q.fe.any (·.ready) &&
      q.copies.all (fun c => c.listed && c.adds == 0 && c.flight.all fun f =>
        c.stop.any (fun m => decide (m ≤ f.n)) || (copyRemote c && !f.ready && !kill)) &&
      q.out.all (fun o => (o.req.serial.isSome && !kill) || (!kill && (late || decide (0 < o.nacks))) ||
        (match o.req.origin with | .piece _ _ | .counter _ _ => false | _ => true)) &&
      !k.dies.toList.any fun d => d.reqs.any fun r => r.who == i) &&
    t.cores.all (fun c => !(k.die t.die).deliv.any fun v => v.mask.getLsbD (c % 48)) &&
    !k.mesh.any fun m => decide (m.at_ ≤ t.stopAt) && (match ownerPlace m.req with
      | .vspad _ vt _ _ | .vwin _ vt _ _ => m.req.id.dctx == t.dctx && vt == t.vteam
      | _ => false)

/-- A core released: it serves no context and keeps nothing; one that is offline stays so. -/
def freeCore (c : Core) : Core := { offline := c.offline }

/-- The slot whose tables a die's ring uses: that of every team on it, where they agree (25 R401). -/
def settleTdm (p : Nat) (s : State) : State :=
  [0, 1].foldl (fun s d =>
    let slots := (((s.pkg p).teams.filter fun t => t.placed && t.die == d).map (·.slot)).eraseDups
    let new := match slots with
      | [n] => if (vget {} (s.pkg p).slots n).ntdm ≠ 0 then some n else none
      | _ => none
    s.modDie p d fun x => if x.tdm = new then x else { x with tdm := new, tdmOld := x.tdm, tdmAt := s.ck }) s

/-- A team's cores are released, and the walks that they had under way are dropped. -/
def freeCores (p : Nat) (t : Team) (s : State) : State :=
  settleTdm p (t.cores.foldl (fun s c => s.modCore p c freeCore)
    (s.modPkg p fun k => { k with crit := k.crit.filter fun x => !t.cores.contains x.who.core }))

/-! ## The pre-emption policy (23 R369-R371) -/

/-- The context may be killed without trace of what it does elsewhere (23 R369). -/
def killable (s : State) (dctx : Nat) : Bool :=
  s.pkgs.all fun g =>
    !(g.works.toList.any fun w => w.st ≠ .free && w.dctx == dctx) && !(g.dies.toList.any fun d => d.blocks.any fun b => b.dctx == dctx) &&
    g.teams.all fun t =>
      t.dctx ≠ dctx || ((t.placed → (t.sids g.num).all fun i => (s.seq i).serials.isEmpty) &&
        t.saved.all fun c => c.seqs.toList.all fun q => q.serials.isEmpty)

/-- A killed sequencer (23 R371): every queued entry that has not issued is discarded, and no copy requests a further piece. -/
def Seq.killed (q : Seq) : Seq :=
  { q with
    ql := q.ql.filter (·.issued), qc := q.qc.filter (·.issued), qs := q.qs.filter (·.issued)
    harrow := [], fe := [], copies := q.copies.map fun c => { c with listed := true } }

/-- The victim is the next invocation that the scheduler takes for a newcomer (23 R369): the newcomer waits for cores that no free
rectangle gives it, and the victim, running with fewer tokens than it and than every other one not yet decided, holds cores of
such a die. -/
def considers (k : Package) (n v : Invocation) : Bool :=
  let onDie := fun (v : Invocation) => (k.invTeam? v).any fun t => t.st == .running && (ivDie n.bytes == 2 || ivDie n.bytes == t.die)
  let open_ := fun (w : Invocation) => w.start.isSome && w.decision == .none && onDie w && decide (ivTokens w.bytes < ivTokens n.bytes)
  n.start.isNone && !n.ended && !rectSome k true (ivDie n.bytes) (ivRows n.bytes) (ivCols n.bytes) && open_ v &&
    !k.invs.any fun w => open_ w && decide (ivTokens w.bytes < ivTokens v.bytes)

/-- PREEMPTION_DECISION (23 R369): DRAIN, KILL or CHECKPOINT for an invocation, for a newcomer, both by their numbers. -/
def execPreemptionDecision (p newcomer victim : Nat) (s : State) : Out' :=
  let k := s.pkg p
  match k.invs.find? (fun v => v.id == newcomer), k.invs.find? (fun v => v.id == victim) with
  | some n, some v =>
    if !considers k n v then .next s
    else
      let decide' := fun (d : Decision) (s : State) => s.modPkg p fun k => k.modInv v.id fun v => { v with decision := d }
      if v.remaining s.ck ≤ k.settings.drainLimit then .next (decide' (.drain s.ck) s)
      else if ivRestart v.bytes && decide (ivTokens v.bytes + k.settings.killGap ≤ ivTokens n.bytes) &&
          killable s (ivDctx v.bytes) then
        match k.invTeam? v with
        | none => .next s
        | some t =>
          let s := closeTeam p t 5 [] (decide' .kill s)
          .next ((t.sids p).foldl (fun s i => s.modSeq i Seq.killed) s)
      else .next (decide' .checkpoint s)
  | _, _ => .next s

/-- DRAIN_EXPIRY (23 R370): an invocation that drains has not completed 2 × DRAIN_LIMIT after the decision; it is checkpointed. -/
def execDrainExpiry (p k : Nat) (s : State) : Out' :=
  match (s.pkg p).invs.find? fun v => v.id == k with
  | some v =>
    match v.decision with
    | .drain t =>
      if v.ended || s.ck < t + 2 * (s.pkg p).settings.drainLimit then .next s
      else .next (s.modPkg p fun g => g.modInv k fun v => { v with decision := .checkpoint })
    | _ => .next s
  | none => .next s

/-! ## The checkpoint -/

/-- The reason for which a team is to be checkpointed now (23 R366, R369, R372; 25 R407). -/
def stopReason (k : Package) (t : Team) : Option Nat :=
  match (k.ctx? t.dctx).bind (·.stopping) with
  | some r => some r
  | none =>
    if k.susp ≥ 2 then some 4
    else
      match (k.invs.find? fun v => t.home == k.num && v.id == t.inv).map (fun (v : Invocation) => v.decision) with
      | some Decision.checkpoint => some 1
      | _ => none

/-- An invocation is reported as stopped (23 R366; 25 R395, R413): its INVOKE, or the CTXRESUME that last resumed it, completes with
STOPPED and the address of the team header. -/
def reportStopped (t : Team) (sb : Nat) (s : State) : State :=
  s.modPkg t.home fun k =>
    match k.invs.find? fun v => v.id == t.inv && !v.ended with
    | none => k
    | some v =>
      match v.resumer with
      | none => k.setOutcome v.q v.idx v.node (7, sb)
      | some r => k.setOutcome r.1 r.2.1 r.2.2 (7, sb)

/-- CHECKPOINT (23 R373, R374): a running team's admission closes, its front ends stop and its engines begin to quiesce. A team
already saved is stopped with its context. -/
def execCheckpoint (p dctx vteam : Nat) (passes : List Nat) (s : State) : Out' :=
  match (s.pkg p).team? dctx vteam with
  | none => .next s
  | some t =>
    match stopReason (s.pkg p) t with
    | none => .next s
    | some r =>
      match t.st with
      | .running => .next (closeTeam p t r passes s)
      | .saved =>
        if r = 2 || r = 3 then
          .next (reportStopped t t.save (s.modPkg p fun k =>
            (k.setBytes (t.save + 7) [BitVec.ofNat 8 (16 * r)]).modTeam dctx vteam fun t => { t with st := .stopped, reason := r }))
        else .next s
      | _ => .next s

/-- An `asub` whose step at the sower met a fault stands unissued again, with its tokens (23 R366, R373): at resume it is executed anew. -/
def Seq.withdrawAsub (q : Seq) : Seq :=
  match q.qs.find? fun e => e.issued && !e.done && (match e.instr? with | some (.asub _ _ _ _) => true | _ => false) with
  | none => q
  | some e => q.unissue .s e.id

/-- A sequencer as its image holds it (23 R373-R375): the harrow is at its end, requests under no serial are performed anew at
resume, and the queues of an abandoned seed are empty (R368). -/
def Seq.settle (q : Seq) : Seq :=
  let q := match q.wait with
    | some (.reply d _ (some v)) => { q.setS d v with wait := none }
    | _ => q
  let q := if q.aband then { q with ql := [], qc := [], qs := [] } else q.withdrawAsub
  let out := q.out.filter fun o => o.req.serial.isSome
  { q with
    harrow := [], deferred := [], out := out
    fe := q.fe.map fun e => { e with sent := false, compared := true }
    copies := q.copies.map fun c =>
      { c with flight := c.flight.filter fun f => out.any fun o => o.req.origin == .piece c.id f.n } }

/-- The copies of a team's ordered-stream requests that the router die keeps while it is checkpointed (17 R307): of those sent and not
answered, be it by a NACK. -/
def orderedOuts (s : State) (p : Nat) (t : Team) : List Out :=
  (t.sids p).flatMap fun i => (s.seq i).out.filter fun o => o.req.fseq.isSome && o.resendAt.isNone

/-- A save block may stand there: populated memory that holds no slot, no other save block, no queue record and no blight map. -/
def saveOk (k : Package) (sb size : Nat) : Bool :=
  decide (sb % 4096 = 0) && k.populated sb && k.populated (sb + size - 1) &&
    decide (sb < 0x0C000000000 → sb + size ≤ 0x0C000000000) &&
    !k.slots.toList.any (fun t => t.loaded && (rangesMeet sb size t.base (t.codePages + t.dataPages) || rangesMeet sb size t.wbase t.wlen)) &&
    !k.teams.any (fun t => !t.placed && rangesMeet sb size t.save (saveSize t.size)) &&
    !rangesMeet sb size k.settings.qtbase (128 * 4096) && !rangesMeet sb size k.settings.bmbase (56 * 2 ^ 20)

/-- CHECKPOINT_IMAGE (23 R373-R376): once a stopping team is quiet, its image is written and its cores are released; one stopped with
its context is reported. -/
def execCheckpointImage (p dctx vteam sb : Nat) (s : State) : Out' :=
  match (s.pkg p).team? dctx vteam with
  | none => .next s
  | some t =>
    if t.st ≠ .closing || t.reason ≥ 5 || !teamQuiet s p t || !saveOk (s.pkg p) sb (saveSize t.size) then .next s
    else
      let reason := (((s.pkg p).ctx? dctx).bind (·.stopping)).getD t.reason
      let copies := orderedOuts s p t
      let s := t.cores.foldl (fun s c =>
        s.modCore p c fun k => { k with gather := [], leaseWait := [], seqs := k.seqs.map Seq.settle }) s
      let s := s.modPkg p fun k =>
        { k.setImage sb (saveSize t.size) (imageParts s p reason t) with routerCopies := k.routerCopies ++ copies }
      let cores := t.cores.map (s.core p)
      let stopped := reason == 2 || reason == 3
      let s := s.modPkg p fun k => k.modTeam dctx vteam fun t =>
        { t with st := if stopped then .stopped else .saved, reason := reason, save := sb, saved := cores }
      let s := freeCores p t s
      .next (if stopped then reportStopped t sb s else s)

/-! ## The resume (23 R381) -/

/-- A fault record, or an abandoned seed, that prevents a team's resume. -/
def Seq.barsResume (q : Seq) : Bool := q.aband || q.frec.any fun f => !f.resumable

/-- The team is bound to its die by what it holds there (19 R340). -/
def Team.holdsDie (t : Team) (k : Package) : Bool :=
  (k.dies.toList.any fun d => d.blocks.any fun b => b.dctx == t.dctx && b.vteam == t.vteam) || t.saved.any fun c => c.pages.any (·.held)

/-- A sequencer restored from the image at `a` (23 R381, 17 R308): a copy of a re-issue list goes on at FIRST, and an outstanding
request is sent again 48 µs or more after its last send. -/
def resumeSeq (k : Package) (a now : Nat) (q : Seq) : Seq :=
  let firsts := q.copies.map fun c => (c.id, q.firstOf c)
  let r := restoreSeq k a q
  { r with
    st := if q.st == .idle || (q.st == .halt && q.idleStop) then .idle else .run
    idleStop := false, frec := none, lheld := false
    copies := q.copies.map fun c =>
      { c with listed := false, stop := none, next := ((firsts.find? fun x => x.1 == c.id).map (·.2)).getD c.next }
    out := q.out.map fun o =>
      { o with attempts := 1, nacks := 0, refused := false, resendAt := some (max now (o.lastSend + Config.expiryCk)) } }

/-- A core restored from the image of package k (23 R381): CTX.LCTX is that of the package that it runs on, the gather cache is empty, and
head timers start anew. -/
def resumeCore (k : Package) (t : Team) (lctx v now : Nat) (c : Core) : Core :=
  { c with
    seqs := Vector.ofFn fun (n : Fin 4) =>
      { resumeSeq k (t.save + saveHeader v n.val) now (c.seq n.val) with lctx := BitVec.ofNat 6 lctx }
    gather := [], icache := [], waking := [], array := [], reads := [], rehomed := [], offline := false
    headCk := Vector.ofFn fun n => if c.occupancy n = 0 then none else some now
    bound := some ⟨t.dctx, t.vteam, v⟩ }

/-- A pending front-end entry performed at resume (23 R381): at once on this package, and as a request again to another one. Its
address is resolved anew, and a fault met now is deferred. -/
def performPending (i : Sid) (e : Pend) (s : State) : State :=
  let keep := fun (s : State) (pl : Place) => s.modSeq i fun q =>
    { q with
      fe := q.fe ++ [{ e with place := pl, bad := false }]
      harrow := if e.store then q.harrow ++ [.store e.id s.ck] else q.harrow }
  match resolve i e.va e.size (if e.store then .store else .load) s with
  | (.stall, s) => keep s e.place
  | (.fault f, s) => deferFault (s.seq i).ident { f with caddr := e.caddr } s
  | (.ok pl, s) =>
    if farPlace s i pl then keep s pl
    else
      match nearPlace s i { e with place := pl } with
      | none => keep s pl
      | some (_, some code) => deferFault (s.seq i).ident { code := code, addr := e.va, caddr := e.caddr } s
      | some (here, none) =>
        if e.store then writePlace (leBytes e.size e.data.toNat) here s
        else s.modSeq i fun q => q.setS e.reg (loadValue e.size e.sext (wordLE (readPlace s e.size here)))

/-- The virtual package of a saved team (23 R380). -/
def Team.vp (t : Team) : Nat := ((t.saved[0]?).map fun c => (c.seq 0).vpV.toNat).getD 0

/-- The package that holds a saved team which package p may resume (17 R308, 23 R381): p itself, or another one, where p's package map gives
p for the team's VP (assumption 30). -/
def savedAt (s : State) (p dctx vteam : Nat) : Option (Package × Team) :=
  match (s.pkg p).team? dctx vteam with
  | some t => some (s.pkg p, t)
  | none => s.pkgs.findSome? fun g =>
      (g.team? dctx vteam).bind fun t => if t.st == .saved && (s.pkg p).isVp dctx t.vp then some (g, t) else none

/-- TEAM_RESUME (23 R381): a saved team is restored on cores of its shape, on the die that holds its state where it has any there
(19 R340); the pending entries are performed; and the team starts. -/
def execTeamResume (p dctx vteam die row col : Nat) (s : State) : Out' :=
  let k := s.pkg p
  match savedAt s p dctx vteam with
  | none => .next s
  | some (g, t) =>
    if t.st ≠ .saved || (stopReason { k with invs := [] } t).isSome || k.susp ≠ 0 || !rectOk k true die row col t.rows t.cols ||
        (t.holdsDie g && (t.die ≠ die || g.num ≠ p)) || g.routerCopies.any (fun o => o.req.id.dctx == dctx && o.req.id.vt == vteam) ||
        t.saved.any (fun c => c.seqs.toList.any Seq.barsResume) then .next s
    else
      let u : Team := { t with st := .running, die := die, row := row, col := col, saved := [] }
      let lctx := ((k.ctx? dctx).map (·.lctx)).getD 0
      let s :=
        if g.num = p then s.modPkg p fun k => k.modTeam dctx vteam fun _ => u
        else (s.modPkg g.num fun k => { k with teams := k.teams.filter fun x => !(x.dctx == dctx && x.vteam == vteam) }).modPkg p fun k =>
          { k with teams := k.teams ++ [u] }
      let s := s.modPkg t.home fun k => k.modInv t.inv fun v => { v with decision := .none }
      let s := t.saved.zipIdx.foldl (fun s (x : Core × Nat) =>
        s.modCore p (u.coreOf x.2) fun _ => resumeCore g t lctx x.2 s.ck x.1) s
      let s := (u.sids p).foldl (fun s i =>
        let es := (s.seq i).fe
        let s := es.foldl (fun s e => performPending i e s) (s.modSeq i fun q => { q with fe := [] })
        sendLoads i s) s
      .next (settleTdm p s)

end Sys2Proof.Machine
end

