-- ==== Sys2Proof/Machine/Commands.lean ====
section
/-! DEFINITION. The commands NOP, INVOKE, WAIT, SIGNAL, CTXNEW, CTXEND and CTXRESUME (25 R395, R399, R400, R412, R413), placement and
the release of teams (03 R65-R67, R72; 25 R400), and the completion of entries (25 R393). -/

namespace Sys2Proof.Machine

/-! ## NOP and SIGNAL -/

/-- NOP (25 R395). -/
def doNop (p q j : Nat) (node : Option Nat) (s : State) : Did := .done (outcome p q j node (0, 0) s)

/-- CMD_NOP (25 R395). -/
def execCmdNop (p q j : Nat) (s : State) : Out' := startEntry p q j 0 (fun _ => doNop p q j none) s

/-- A signal word: 8 B aligned, in HBM4 (25 R396). -/
def signalWord (a : Nat) : Bool := a % 8 == 0 && decide (a + 8 ≤ 0x0C000000000)

/-- SIGNAL (25 R395): the word is set or added to. -/
def doSignal (p q j : Nat) (node : Option Nat) (b : List Byte) (s : State) : Did :=
  let a := fieldAt b 64 8
  let v := fieldAt b 72 8
  if !signalWord a then .done (outcome p q j node (badEntry 64) s)
  else
    .done (outcome p q j node (0, 0) (s.modPkg p fun k =>
      k.engineWrite a (leBytes 8 ((if (fieldAt b 80 1).testBit 0 then v else k.signal a + v) % 2 ^ 64))))

/-- SIGNAL (25 R395). -/
def execSignal (p q j : Nat) (s : State) : Out' := startEntry p q j 5 (doSignal p q j none) s

/-! ## WAIT (25 R399) -/

/-- The step of a WAIT with what is known of its word: steps 1 to 4 are recorded, and 8 is added once the watch has been satisfied. -/
def setStep (p q j n : Nat) (s : State) : State := s.modPkg p fun k => k.modJ q j fun e => { e with step := e.step / 8 * 8 + n }

/-- WAIT's next step (25 R399): UNMAPPING; the watch, and the end where the word already satisfies it; the record; then WPEND and the
slot together, which leaves the queue PARKED or, with a wake pending, IDLE and asking. A queue mapped again completes the WAIT once
it is satisfied, and otherwise parks again. -/
def waitStep (p q j : Nat) (e : JEntry) (s : State) : State :=
  let a := fieldAt e.bytes 64 8
  let v := fieldAt e.bytes 72 8
  let k := s.pkg p
  let met := e.step ≥ 8 || (k.cq q).seen || decide (v ≤ k.signal a)
  let finish := fun (s : State) =>
    outcome p q j none (0, 0) (s.modPkg p fun k => (k.setQstate q qsMapped).modCq q fun c =>
      { c with watch := none, seen := false, wake := false, busyAt := s.ck })
  match e.step % 8 with
  | 1 =>
    if met then finish s
    else setStep p q j 2 (s.modPkg p fun k => k.modCq q fun c => { c with watch := some (a, BitVec.ofNat 64 v) })
  | 2 => setStep p q j 3 s
  | 3 =>
    setStep p q j 4 (if k.wpend q then
      noteAsk p q (s.modPkg p fun k => ((k.setWpend q false).giveSlot q qsIdle).modCq q fun c => { c with wake := true })
    else s.modPkg p fun k => k.giveSlot q qsParked)
  | 4 =>
    if k.qstate q ≠ qsMapped then s
    else if met then finish s
    else setStep p q j 1 (s.modPkg p fun k => (k.setQstate q qsUnmapping).modCq q fun c => { c with wake := false })
  | _ => s

/-- CMD_WAIT (25 R399): step 1 as the entry starts, and each further step. -/
def execCmdWait (p q j : Nat) (s : State) : Out' :=
  match (s.pkg p).jentry? q j with
  | none => .next s
  | some e =>
    if e.st == .started && e.outcome.isNone && opcOf e.bytes == 4 then
      (if (s.pkg p).susp ≥ 6 then .next s else .next (waitStep p q j e s))
    else
      startEntry p q j 4 (fun b s =>
        if !signalWord (fieldAt b 64 8) then .done (outcome p q j none (badEntry 64) s)
        else .done (setStep p q j 1 (s.modPkg p fun k => k.setQstate q qsUnmapping))) s

/-! ## INVOKE (25 R396, R400) -/

/-- A core as placement gives it its carve and its queue table. -/
def carvedCore (carve : W64) (image : List Byte) : Core := ({ carve := carve } : Core).setSpad (queueBase carve) image

/-- The first payload field of an INVOKE that R396 refuses. -/
def invokeBad (b image : List Byte) : Option Nat :=
  let qg := bitsOf (ivCarve b).toNat 23 16
  let f := if qg = 0 || qg > 32 then some fcCarve else carveFault (carvedCore (ivCarve b) image) (ivCarve b)
  if ivSlot b > 63 then some 64
  else if ivVteam b > 63 then some 68
  else if ivRows b = 0 || ivRows b > 6 || ivCols b = 0 || ivCols b > 8 then some 69
  else if ivDie b > 2 then some 70
  else if f = some fcCarve then some 80
  else if f.isSome then some 88
  else if ((b.drop 96).take 32).any (· ≠ 0) then some 96
  else ((List.range 16).find? fun n => (ivBase b n).toNat ≥ 2 ^ 57).map fun n => 128 + 8 * n

/-- A context of the package that is not ending (25 R412). -/
def Package.liveCtx? (k : Package) (dctx : Nat) : Option Context := (k.ctx? dctx).filter fun c => !c.ended

/-- The first buffer address, from BASEn on, that does not translate (25 R400), or a walk that must be made again. -/
def baseBad (p dctx : Nat) (b : List Byte) : List Nat → State → Check (Option Nat) × State
  | [], s => (.go none, s)
  | n :: r, s =>
    let a := ivBase b n
    if a = 0 || isWindow a then baseBad p dctx b r s
    else
      match translate p dctx ⟨p, 96, 0⟩ a false true s with
      | (.ok _ _, s) => baseBad p dctx b r s
      | (.fault _ _ _, s) => (.go (some n), s)
      | (.stall, s) => (.wait, s)

/-- INVOKE (25 R396, R400): the fields, the context, residency, and whether the shape can stand at all; the invocation then waits for
its placement. The queue table image is read here. -/
def doInvoke (p q j : Nat) (node : Option Nat) (b : List Byte) (s : State) : Did :=
  let k := s.pkg p
  let image := k.bytes (ivQtab b) 256
  let fail := fun o (s : State) => Did.done (outcome p q j node o s)
  match invokeBad b image with
  | some off => fail (badEntry off) s
  | none =>
    if (k.liveCtx? (ivDctx b)).isNone then fail (12, ivDctx b) s
    else if !(vget {} k.slots (ivSlot b)).loaded then fail (4, ivSlot b) s
    else if (k.team? (ivDctx b) (ivVteam b)).isSome then fail (4, 0x200) s
    else
      match baseBad p (ivDctx b) b (List.range 16) s with
      | (.wait, s) => .later s
      | (.go (some n), s) => fail (4, 0x100 + n) s
      | (_, s) =>
        if !rectSome k false (ivDie b) (ivRows b) (ivCols b) then fail (5, 0) s
        else
          .done (s.modPkg p fun k =>
            { k with
              nextInv := k.nextInv + 1
              invs := k.invs ++ [{ id := k.nextInv, q := q, idx := j, node := node, bytes := b ++ image, estimate := ivEstimate b }] })

/-- INVOKE (25 R400). -/
def execInvoke (p q j : Nat) (s : State) : Out' := startEntry p q j 3 (doInvoke p q j none) s

/-! ## Placement (03 R65-R67, R72; 25 R400) -/

/-- The base address of slot n's region (25 R400). -/
def slotRegion (n : Nat) : Nat := 0x1FE000000000000 + n * 2 ^ 40

/-- A sequencer as placement leaves it (03 R53, R67; 09 R189): `sern` is its first serial. -/
def placedSeq (k : Package) (c : Context) (t : Team) (b : List Byte) (v n sern : Nat) : Seq :=
  let sl := vget {} k.slots t.slot
  let own := (c.vps.map (·.1)).findIdx (· == k.num)
  { st := .idle, slotN := BitVec.ofNat 6 t.slot, dbase := BitVec.ofNat 57 (slotRegion t.slot + sl.codePages)
    vseq := BitVec.ofNat 8 (4 * v + n), vcore := BitVec.ofNat 6 v, vteam := BitVec.ofNat 6 t.vteam
    rows := BitVec.ofNat 3 t.rows, cols := BitVec.ofNat 4 t.cols, dctx := BitVec.ofNat 16 t.dctx, lctx := BitVec.ofNat 6 c.lctx
    vpN := BitVec.ofNat 10 c.vps.length, vpV := BitVec.ofNat 10 own
    sern := BitVec.ofNat 24 sern, ack := BitVec.ofNat 24 sern - 1
    base := Vector.ofFn fun (i : Fin 16) => (ivBase b i.val).extractLsb' 0 57 }

/-- The root seed (25 R400). Placement pushes it as it is: an ENTRY that names the second word of a two-word form has no sower to fault,
R400 does not refuse it, and the model lets its first fetch raise "fetch range", which is the model's choice (05 R105; assumption 55). -/
def rootSeed (k : Package) (t : Team) (b : List Byte) : List W64 :=
  [BitVec.ofNat 64 (ivPrio b * 2 ^ 62 + (vget {} k.slots t.slot).entry), 0, 0x01FF00000082FFC0, 0]

/-- A member as placement leaves it (an ENTRY on a second word is not checked: assumption 55): its carve, its queue table, core-scope instance 0 and its sequencers; VCORE 0 holds the join
block, with COUNT 1, and the root seed. -/
def placedCore (k : Package) (c : Context) (t : Team) (b : List Byte) (v ck : Nat) (serns : List Nat) : Core :=
  let x := carvedCore (ivCarve b) ((b.drop 256).take 256)
  let x : Core := { x with
    seqs := Vector.ofFn fun (n : Fin 4) => placedSeq k c t b v n.val (serns.getD (4 * v + n.val) 0)
    bars := (Vector.replicate 4 {}).set 0 { expect := 4 }
    bound := some ⟨t.dctx, t.vteam, v⟩ }
  if v = 0 then (x.setWin 0x2FFC0 (leBytes 8 1)).push (ivPrio b) ck (rootSeed k t b) else x

/-- The first serials of a team's sequencers, by VSEQ: those with which a killed run left off (23 R371), and free values where the
spec gives none (09 R189). -/
def firstSerials (k : Package) (v : Invocation) : Nat → State → List Nat × State
  | 0, s => ([], s)
  | n + 1, s =>
    let (l, s) := firstSerials k v n s
    let (x, s) := s.drawNat
    let kept := (k.killed.find? fun y => y.q == v.q && y.idx == v.idx && y.node == v.node).bind fun y => y.serials.find? fun z => z.1 == n
    (l ++ [(kept.map (·.2)).getD (x % 2 ^ 24)], s)

/-- A waiting invocation is refused (01 R37, 25 R400): no rectangle of its shape lies wholly on cores in service any more. -/
def refuseInvoke (p : Nat) (v : Invocation) (s : State) : State :=
  outcome p v.q v.idx v.node (5, 0) (s.modPkg p fun k => { k with invs := k.invs.filter fun x => x.id ≠ v.id })

/-- PLACEMENT (03 R65-R67, 25 R400; 01 R37): an invocation that waits is placed on a free rectangle of a die that it allows, and its
team starts; one that no rectangle in service can hold is refused. -/
def execPlacement (p k die row col : Nat) (s : State) : Out' :=
  let g := s.pkg p
  match g.invs.find? fun v => v.id == k with
  | none => .next s
  | some v =>
    let b := v.bytes
    match g.liveCtx? (ivDctx b) with
    | none => .next s
    | some c =>
      if v.start.isNone && !v.ended && v.resumer.isNone && g.susp = 0 && !rectSome g false (ivDie b) (ivRows b) (ivCols b) then
        .next (refuseInvoke p v s)
      else if v.start.isSome || v.ended || g.susp ≠ 0 || g.exhausted v.q || c.stopping.isSome || (g.team? c.dctx (ivVteam b)).isSome ||
          !(ivDie b == 2 || ivDie b == die) || !rectOk g true die row col (ivRows b) (ivCols b) then .next s
      else
        let t : Team :=
          { dctx := c.dctx, vteam := ivVteam b, st := .running, die := die, row := row, col := col, rows := ivRows b, cols := ivCols b,
            slot := ivSlot b, inv := k, home := p, bars := (Vector.replicate 16 {}).set 0 { expect := 4 * (ivRows b * ivCols b) } }
        let (serns, s) := firstSerials g v (4 * t.size) s
        let s := s.modPkg p fun g =>
          { g.modInv k fun v => { v with start := some s.ck, decision := .none } with
            teams := g.teams ++ [t]
            killed := g.killed.filter fun y => !(y.q == v.q && y.idx == v.idx && y.node == v.node) }
        let s := (List.range t.size).foldl (fun s v' => s.modCore p (t.coreOf v') fun _ => placedCore g c t b v' s.ck serns) s
        .next (settleTdm p s)

/-! ## The release of a team -/

/-- Nothing of the team runs, waits in a seed queue or is outstanding (25 R400). -/
def teamIdle (s : State) (p : Nat) (t : Team) : Bool :=
  (t.sids p).all (fun i =>
    let q := s.seq i
    q.st == .idle && q.deferred.isEmpty && q.drained && q.harrow.isEmpty && q.fe.isEmpty && q.out.isEmpty && q.copies.isEmpty) &&
    t.cores.all fun c => (List.range 4).all fun n => (s.core p c).occupancy n == 0

/-- The team leaves the package, which remembers that it was placed (17 R289). -/
def dropTeam (p : Nat) (t : Team) (s : State) : State :=
  freeCores p t (s.modPkg p fun k =>
    { k.modCtx t.dctx fun c => { c with past := (t.vteam, t.size) :: c.past.filter fun x => x.1 ≠ t.vteam } with
      teams := k.teams.filter fun x => !(x.dctx == t.dctx && x.vteam == t.vteam) })

/-- The serials at which a killed run leaves off, by VSEQ (23 R371). -/
def runSerials (s : State) (p : Nat) (t : Team) : List (Nat × Nat) := (t.sids p).zipIdx.map fun (x : Sid × Nat) => (x.2, (s.seq x.1).sern.toNat)

/-- A killed invocation runs again from its INVOKE (23 R371): the entry returns to the head of its queue, or, where an earlier stop has
completed it and a CTXRESUME waits for its join, the invocation waits for placement again (assumption 44). -/
def Package.runAgain (k : Package) (v : Invocation) : Package :=
  match v.resumer with
  | some _ => k.modInv v.id fun v => { v with start := none, decision := .none }
  | none =>
    { k.modJ v.q v.idx fun e =>
        match v.node with
        | none => { e with st := .accepted }
        | some n => { e with nodes := e.nodes.modify n fun d => { d with st := .accepted } } with
      invs := k.invs.filter fun x => x.id ≠ v.id }

/-- The serials of a killed run are kept for the next one (23 R371). -/
def Package.keepSerials (k : Package) (x : Killed) : Package := { k with killed := x :: k.killed }

/-- TEAM_RELEASE (25 R400): the invocation has ended and the team is at rest: its cores and its VTEAM are free. A killed team (23
R371) is released once what had issued has completed, and its INVOKE returns to the head of its queue. -/
def execTeamRelease (p dctx vteam : Nat) (s : State) : Out' :=
  let k := s.pkg p
  match k.team? dctx vteam with
  | none => .next s
  | some t =>
    if t.st == .running then
      (if (s.invOf t).any (·.ended) && teamIdle s p t then
        .next (dropTeam p t (s.modPkg t.home fun k => { k with invs := k.invs.filter fun v => v.id ≠ t.inv }))
      else .next s)
    else if t.st == .closing && t.reason == 5 && teamQuiet s p t then
      match s.invOf t with
      | none => .next (dropTeam p t s)
      | some v =>
        let kept : Killed := { q := v.q, idx := v.idx, node := v.node, serials := runSerials s p t }
        .next (dropTeam p t (s.modPkg t.home fun k => (k.runAgain v).keepSerials kept))
    else .next s

/-! ## Contexts (25 R395, R396, R412, R413) -/

/-- The physical packages that CTXNEW names, by VP. -/
def ctxTable (k : Package) (b : List Byte) : List Nat := (List.range (fieldAt b 66 2)).map fun n => k.num' (fieldAt b 72 8 + 2 * n) 2

/-- The flows of a new context start afresh (17 R293, R294): what a context of the same DCTX that has ended on the package left in
its own streams, on the fabric and at the destinations is dropped (assumption 25). -/
def freshFlows (p dctx : Nat) (s : State) : State :=
  let s := s.modPkg p fun k =>
    { k with flowsTx := k.flowsTx.filter fun f => f.dctx ≠ dctx
             routerCopies := k.routerCopies.filter fun o => o.req.id.dctx ≠ dctx }
  { s with
    pkgs := s.pkgs.map fun k => { k with flowsRx := k.flowsRx.filter fun f => !(f.dctx == dctx && f.src == p) }
    net := s.net.filter fun x => !(x.src == p && (match x.body with | .req r => r.id.dctx == dctx | _ => false)) }

/-- CTXNEW (25 R395, R396): the context takes a free LCTX, and the remap table the incarnations that the packages have now. -/
def doCtxnew (p q j : Nat) (node : Option Nat) (b : List Byte) (s : State) : Did :=
  let k := s.pkg p
  let dctx := fieldAt b 64 2
  let n := fieldAt b 66 2
  let root := fieldAt b 80 8
  let fail := fun o => Did.done (outcome p q j node o s)
  if n = 0 || n > 576 then fail (badEntry 66)
  else
    let vps := ctxTable k b
    if vps.any (· > 575) || vps.eraseDups.length ≠ n || !vps.contains p then fail (badEntry 72)
    else if root % 4096 ≠ 0 || !k.populated root then fail (badEntry 80)
    else if (k.ctx? dctx).isSome then fail (11, dctx)
    else
      let free := (List.range 64).filter fun x => !k.ctxs.any fun c => c.lctx == x
      if free.isEmpty then fail (13, 0)
      else
        let (x, s) := s.drawNat
        let lctx := free.getD (x % free.length) 0
        .done (outcome p q j node (0, lctx) ((freshFlows p dctx s).modPkg p fun k =>
          { k with ctxs := k.ctxs ++ [{ dctx := dctx, lctx := lctx, root := root, vps := vps.map fun v => (v, (s.pkg v).inc) }] }))

/-- CTXNEW (25 R395). -/
def execCtxnew (p q j : Nat) (s : State) : Out' := startEntry p q j 7 (doCtxnew p q j none) s

/-- Every INVOKE of a context that is not complete, and every CTXRESUME that waits for one, completes with STOPPED and DETAIL 0
(25 R412). -/
def endInvokes (p dctx : Nat) (s : State) : State :=
  (s.pkg p).invs.foldl (fun s v =>
    if ivDctx v.bytes ≠ dctx || v.ended then s
    else
      let s := outcome p v.q v.idx v.node (7, 0) s
      match v.resumer with
      | none => s
      | some r => outcome p r.1 r.2.1 r.2.2 (7, 0) s) s

/-- The armed work entries of a context are freed, those in RUN or SUSP after an ABORT to their ranks (25 R412). -/
def endWorks (p dctx : Nat) (s : State) : State :=
  (List.range 64).foldl (fun s e =>
    let w := s.work p e
    if w.dctx ≠ dctx || w.st == .free then s
    else
      let s := if w.st == .run || w.st == .susp then sendAborts p e s else s
      s.modWork p e Work.freed) s

/-- The live blocks of a context are freed with their subscriber entries, and its layers leave the sower (25 R412). -/
def endBlocks (p dctx : Nat) (s : State) : State :=
  [0, 1].foldl (fun s d =>
    let s := ((s.pkg p).die d).layers.foldl (fun s l => if l.dctx = dctx then retireLayer p d l s else s) s
    s.modDie p d fun x => { x with blocks := x.blocks.filter fun b => b.dctx ≠ dctx }) s

/-- CTXEND begins (25 R412): the teams stop as for a checkpoint, with reason 6, the model's own. -/
def beginEnd (p dctx : Nat) (s : State) : State :=
  let teams := (s.pkg p).teams.filter fun t => t.dctx == dctx
  let s := s.modPkg p fun k => k.modCtx dctx fun c => { c with ended := true }
  let s := teams.foldl (fun s t =>
    match t.st with
    | .running => closeTeam p t 6 [] s
    | .closing => s.modPkg p fun k => k.modTeam dctx t.vteam fun t => { t with reason := 6 }
    | _ => s) s
  endWorks p dctx (endBlocks p dctx (endInvokes p dctx s))

/-- CTXEND ends (25 R412): the cores are freed with nothing saved, and the remap tables, the save blocks, the context record and its
LCTX are released. What its teams sent on ordered streams stays with the router die until it is answered (17 R307). -/
def finishEnd (p dctx : Nat) (s : State) : State :=
  let teams := (s.pkg p).teams.filter fun t => t.dctx == dctx
  let s := teams.foldl (fun s t =>
    if t.placed then
      let copies := orderedOuts s p t
      dropTeam p t (s.modPkg p fun k => { k with routerCopies := k.routerCopies ++ copies })
    else s) s
  let s := dropTranslations p dctx (fun _ => true) (fun _ => true) s
  s.modPkg p fun k =>
    { k with
      teams := k.teams.filter fun t => t.dctx ≠ dctx
      invs := k.invs.filter fun v => ivDctx v.bytes ≠ dctx
      unitOut := k.unitOut.filter fun o => o.req.id.dctx ≠ dctx
      ctxs := k.ctxs.filter fun c => c.dctx ≠ dctx }

/-- CTXEND (25 R412): as it starts, its teams stop; it ends once they are at rest. -/
def endStep (p q j : Nat) (node : Option Nat) (b : List Byte) (s : State) : State :=
  let dctx := fieldAt b 64 2
  if (s.pkg p).teams.any fun t => t.dctx == dctx && t.placed && !teamQuiet s p t then s
  else outcome p q j node (0, 0) (finishEnd p dctx s)

/-- CTXEND starts. -/
def doCtxend (p q j : Nat) (node : Option Nat) (b : List Byte) (s : State) : Did :=
  let dctx := fieldAt b 64 2
  if ((s.pkg p).liveCtx? dctx).isNone then .done (outcome p q j node (12, dctx) s)
  else .done (endStep p q j node b (beginEnd p dctx s))

/-- CTXEND (25 R412). -/
def execCtxend (p q j : Nat) (s : State) : Out' :=
  match (s.pkg p).jentry? q j with
  | none => .next s
  | some e =>
    if e.st == .started && e.outcome.isNone && opcOf e.bytes == 8 then .next (endStep p q j none e.bytes s)
    else startEntry p q j 8 (doCtxend p q j none) s

/-- The records and abandoned seeds of a context's stopped teams, by VP, VTEAM and VSEQ in ascending order, that prevent a resume
(23 R366, 25 R395). -/
def resumeBars (s : State) (dctx : Nat) (c : Context) : List (Nat × Nat × Nat × Seq) :=
  (c.vps.map (·.1)).zipIdx.flatMap fun (x : Nat × Nat) =>
    (List.range 64).flatMap fun vt =>
      match (s.pkg x.1).team? dctx vt with
      | none => []
      | some t =>
        (t.saved.zipIdx.flatMap fun (y : Core × Nat) =>
          (List.range 4).map fun n => (x.2, vt, 4 * y.2 + n, y.1.seq n)).filter fun z => z.2.2.2.barsResume

/-- The DETAIL of a CTXRESUME that a record prevents (25 R395). -/
def barsDetail (bars : List (Nat × Nat × Nat × Seq)) : Nat :=
  match bars.find? fun z => z.2.2.2.frec.isSome with
  | none => 0
  | some (vp, vt, vs, q) => ((q.frec.map (·.code)).getD 0) * 2 ^ 40 + vp * 2 ^ 30 + vt * 2 ^ 24 + vs * 2 ^ 16

/-- CTXRESUME (25 R413): waits for the stop to end on this package; a record or abandoned seed prevents it; otherwise the stopped teams
may be resumed, and it completes at once where no join is to come. -/
def doCtxresume (p q j : Nat) (node : Option Nat) (b : List Byte) (s : State) : Did :=
  let k := s.pkg p
  let dctx := fieldAt b 64 2
  match k.liveCtx? dctx with
  | none => .done (outcome p q j node (12, dctx) s)
  | some c =>
    if c.stopping.isSome && k.teams.any (fun t => t.dctx == dctx && t.st ≠ .stopped) then .later s
    else
      let teams := k.teams.filter fun t => t.dctx == dctx && t.st == .stopped
      let bars := if teams.isEmpty then [] else resumeBars s dctx c
      if !bars.isEmpty then .done (outcome p q j node (8, barsDetail bars) s)
      else
        let open_ := fun (v : Invocation) => !v.ended && teams.any fun t => t.inv == v.id
        let s := s.modPkg p fun k =>
          { k.modCtx dctx fun c => { c with stopping := none } with
            teams := k.teams.map fun t => if t.dctx = dctx ∧ t.st = .stopped then { t with st := .saved } else t
            invs := k.invs.map fun v => if open_ v then { v with resumer := some (q, j, node), start := some s.ck } else v }
        if k.invs.any open_ then .done s else .done (outcome p q j node (0, 0) s)

/-- CTXRESUME (25 R413). -/
def execCtxresume (p q j : Nat) (s : State) : Out' := startEntry p q j 9 (doCtxresume p q j none) s

/-! ## Completion and takeover (25 R393, R403) -/

/-- The status word of an entry or a node, then its SIG addition (25 R393). -/
def writeStatus (b : List Byte) (o : Nat × Nat) (k : Package) : Package :=
  let st := fieldAt b 8 8
  let sig := fieldAt b 16 8
  let k := k.engineWrite st (leBytes 8 (o.1 * 2 ^ 48 + o.2 % 2 ^ 48))
  if (fieldAt b 3 1).testBit 1 then k.engineWrite sig (leBytes 8 ((k.signal sig + fieldAt b 24 8) % 2 ^ 64)) else k

/-- The lowest-numbered node of a replay that failed (25 R402): one that completed with a status other than OK and was not skipped. -/
def failingNode (e : JEntry) : Option (Nat × Nat) :=
  e.nodes.zipIdx.findSome? fun (x : Node × Nat) =>
    match x.1.status with
    | some (0, _) | some (10, _) | none => none
    | some (st, _) => some (st, x.2)

/-- The outcome of a replay whose nodes are all done (25 R402). -/
def replayOutcome (e : JEntry) : Nat × Nat := (failingNode e).getD (0, 0)

/-- COMMAND_COMPLETION (25 R393, R402, R403): a node with a status, a replay whose nodes are all done, or an entry with its outcome
writes its status word and its SIG addition; an entry then posts its completion event and is DONE. An entry whose operation does not
exist completes with BAD_ENTRY. -/
def execCommandCompletion (p q j : Nat) (s : State) : Out' :=
  let k := s.pkg p
  match k.jentry? q j with
  | none => .next s
  | some e =>
    if e.st == .accepted && k.mayStart q j && opcOf e.bytes > 9 then
      .next (startWith p q j none e.bytes .done s)
    else if e.st ≠ .started || k.susp ≥ 6 then .next s
    else
      match e.nodes.findIdx? fun n => n.st ≠ .done && n.status.isSome with
      | some n =>
        match e.nodes[n]? with
        | none => .next s
        | some d =>
          .next (s.modPkg p fun k => (writeStatus d.bytes (d.status.getD (0, 0)) k).modJ q j fun e =>
            { e with nodes := e.nodes.modify n fun d => { d with st := .done } })
      | none =>
        match e.outcome with
        | some o =>
          .next (noteAsks p (postEvent p q (.completed q j o.1 o.2) (s.modPkg p fun k =>
            ((writeStatus e.bytes o k).modJ q j fun e => { e with st := .done }).event q .completion)))
        | none =>
          if opcOf e.bytes == 6 && !e.nodes.isEmpty && e.nodes.all (fun n => n.st == .done) then
            .next (outcome p q j none (replayOutcome e) s)
          else .next s

/-- A queue whose WAIT has ended with FAULT is as before that WAIT (25 R399, R403). -/
def Package.leaveWait (k : Package) (q : Nat) : Package :=
  let st := k.qstate q
  (k.setQstate q (if st = qsUnmapping then qsMapped else if st = qsParked then qsIdle else st)).modCq q fun c =>
    { c with watch := none, seen := false }

/-- A started entry, or the first started node of a replay, whose last step cannot be taken again completes with FAULT (25 R403); an
INVOKE that waits is not placed any more. A CTXEND that has begun only waits for its teams, which it can always do again. -/
def loseStep (p q j : Nat) (e : JEntry) (s : State) : State :=
  let drop := fun (n : Option Nat) (k : Package) =>
    { k with invs := k.invs.filter fun v => !(v.q == q && v.idx == j && v.node == n && v.start.isNone && v.resumer.isNone) }
  match e.nodes.findIdx? fun d => d.st == .started && (d.status.isSome || opcOf d.bytes ≠ 8) with
  | some n => s.modPkg p fun k => drop (some n) (k.modJ q j fun e =>
      { e with nodes := e.nodes.modify n fun d => { d with status := some (8, 0) } })
  | none =>
    if !e.nodes.isEmpty || (e.outcome.isNone && opcOf e.bytes = 8) then s
    else s.modPkg p fun k =>
      let k := drop none (k.modJ q j fun e => { e with outcome := some (8, 0) })
      if opcOf e.bytes = 4 && e.outcome.isNone then k.leaveWait q else k

/-- ROLERNIS_TAKEOVER (25 R403): another core works from the journal. An ACCEPTED entry starts, and a STARTED one is continued from its
last recorded step, as they would have been; or a STARTED one whose step cannot be taken again, which the spec leaves to the step and
the model to a free value, completes with FAULT. -/
def execRolernisTakeover (p q j : Nat) (s : State) : Out' :=
  match (s.pkg p).jentry? q j with
  | none => .next s
  | some e =>
    if e.st ≠ .started then .next s
    else
      let (lost, s) := s.drawBool
      .next (if lost then loseStep p q j e s else s)

end Sys2Proof.Machine
end

