-- ==== Sys2Proof/Machine/FrontFloat.lean ====
section
/-! DEFINITION. The scalar floating-point instructions, compares and predicates (09 R166-R170). -/

namespace Sys2Proof.Machine

/-- The element type of a scalar float type (05 R94). -/
def ftyTy : FTy → Ty
  | .fp32 => .fp32
  | .fp64 => .fp64

/-- The format of a scalar float type. -/
def ftyFmt (t : FTy) : FFmt := tyFmt (ftyTy t)

/-- The environment of a front-end float word: FPC as it stands, with RND (07 R128). -/
def Seq.env (q : Seq) (r : Rnd) : FEnv := FEnv.of (q.fpc.extractLsb' 0 4) r

/-- A float result written to sD, an FP32 one with bits [63:32] zero, and its flags (09 R154, 07 R130). -/
def putFloat (d : Reg) (r : Nat × Nat) (q : Seq) : Seq := (q.setS d (BitVec.ofNat 64 r.1)).orFps (flagWord r.2)

/-- An operand's bits: an FP32 operand ignores bits [63:32] (09 R154). -/
def ftyBits (t : FTy) (x : W64) : Nat := x.toNat % 2 ^ (ftyFmt t).w

/-- `fadd` (09 R167). -/
def execFadd (g : Guard) (ty : FTy) (rnd : Rnd) (d a b : Reg) (s : State) : Out' :=
  regWord 8 g [d, a, b] (fun q =>
    putFloat d ((ftyFmt ty).add (q.env rnd) false (ftyBits ty (q.sr a)) (ftyBits ty (q.sr b))) q) s

/-- `fsub` (09 R167). -/
def execFsub (g : Guard) (ty : FTy) (rnd : Rnd) (d a b : Reg) (s : State) : Out' :=
  regWord 8 g [d, a, b] (fun q =>
    putFloat d ((ftyFmt ty).sub (q.env rnd) false (ftyBits ty (q.sr a)) (ftyBits ty (q.sr b))) q) s

/-- `fmul` (09 R167). -/
def execFmul (g : Guard) (ty : FTy) (rnd : Rnd) (d a b : Reg) (s : State) : Out' :=
  regWord 8 g [d, a, b] (fun q =>
    putFloat d ((ftyFmt ty).mul (q.env rnd) false (ftyBits ty (q.sr a)) (ftyBits ty (q.sr b))) q) s

/-- `fdiv` (09 R167). -/
def execFdiv (g : Guard) (ty : FTy) (rnd : Rnd) (d a b : Reg) (s : State) : Out' :=
  regWord 8 g [d, a, b] (fun q =>
    putFloat d ((ftyFmt ty).div (q.env rnd) false (ftyBits ty (q.sr a)) (ftyBits ty (q.sr b))) q) s

/-- `ffma` (09 R167). -/
def execFfma (g : Guard) (ty : FTy) (rnd : Rnd) (d a b c : Reg) (s : State) : Out' :=
  regWord 8 g [d, a, b, c] (fun q =>
    putFloat d ((ftyFmt ty).fma (q.env rnd) false false false (ftyBits ty (q.sr a)) (ftyBits ty (q.sr b)) (ftyBits ty (q.sr c))) q) s

/-- `fsqrt` (09 R167). -/
def execFsqrt (g : Guard) (ty : FTy) (rnd : Rnd) (d a : Reg) (s : State) : Out' :=
  regWord 8 g [d, a] (fun q => putFloat d ((ftyFmt ty).sqrt (q.env rnd) false (ftyBits ty (q.sr a))) q) s

/-- `fmin` (09 R167, 07 R133). -/
def execFmin (g : Guard) (ty : FTy) (d a b : Reg) (s : State) : Out' :=
  regWord 8 g [d, a, b] (fun q =>
    putFloat d ((ftyFmt ty).pick false (q.env .dyn) (ftyBits ty (q.sr a)) (ftyBits ty (q.sr b))) q) s

/-- `fmax` (09 R167, 07 R133). -/
def execFmax (g : Guard) (ty : FTy) (d a b : Reg) (s : State) : Out' :=
  regWord 8 g [d, a, b] (fun q =>
    putFloat d ((ftyFmt ty).pick true (q.env .dyn) (ftyBits ty (q.sr a)) (ftyBits ty (q.sr b))) q) s

/-- A conversion's result as it stands in a scalar register (09 R154): an I32 result sign-extended, every other one with
zeros above it. -/
def scalarResult (t : Ty) (x : Nat) : W64 :=
  if t = .i32 then (BitVec.ofNat 32 x).signExtend 64 else BitVec.ofNat 64 x

/-- `fcvt` (09 R168). -/
def execFcvt (g : Guard) (ty ty2 : Ty) (rnd : Rnd) (sat : Bool) (d a : Reg) (s : State) : Out' :=
  regWord 8 g [d, a] (fun q =>
    let r := convert (q.env rnd) sat ty ty2 ((q.sr a).toNat % 2 ^ ty2.width)
    (q.setS d (scalarResult ty r.1)).orFps (flagWord r.2)) s

/-- `cmp` (09 R169). -/
def execCmp (g : Guard) (ty : ITy) (cond : Cond) (d : PReg) (a b : Reg) (s : State) : Out' :=
  regWord 8 g [a, b] (fun q => q.setP d (condInt cond (ityVal ty (q.sr a)) (ityVal ty (q.sr b)))) s

/-- `fcmp` (09 R169, 07 R133). -/
def execFcmp (g : Guard) (ty : FTy) (cond : Cond) (d : PReg) (a b : Reg) (s : State) : Out' :=
  regWord 8 g [a, b] (fun q =>
    q.setP d ((ftyFmt ty).cond (q.env .dyn) cond (ftyBits ty (q.sr a)) (ftyBits ty (q.sr b)))) s

/-- `pand` (09 R170). -/
def execPand (g : Guard) (d a b : PReg) (s : State) : Out' :=
  regWord 8 g [] (fun q => q.setP d (q.pr a && q.pr b)) s

/-- `por` (09 R170). -/
def execPor (g : Guard) (d a b : PReg) (s : State) : Out' :=
  regWord 8 g [] (fun q => q.setP d (q.pr a || q.pr b)) s

/-- `pxor` (09 R170). -/
def execPxor (g : Guard) (d a b : PReg) (s : State) : Out' :=
  regWord 8 g [] (fun q => q.setP d (q.pr a != q.pr b)) s

/-- `pnot` (09 R170). -/
def execPnot (g : Guard) (d a : PReg) (s : State) : Out' :=
  regWord 8 g [] (fun q => q.setP d (!q.pr a)) s

end Sys2Proof.Machine
end

