-- ==== Sys2Proof/Machine/FrontInt.lean ====
section
/-! DEFINITION. The scalar integer instructions (09 R157-R161): arithmetic and logic, immediate forms, moves and addresses. -/

namespace Sys2Proof.Machine

/-- The shift amount b[5:0] (09 R158). -/
def shiftAmount (b : W64) : Nat := b.toNat % 64

/-- The exact result of `add`, `sub`, `mul`, `div` and `shl` (09 R158); a divisor of 0 gives all ones. -/
def addX (t : ITy) (a b : W64) : Int := ityVal t a + ityVal t b
@[inherit_doc addX] def subX (t : ITy) (a b : W64) : Int := ityVal t a - ityVal t b
@[inherit_doc addX] def mulX (t : ITy) (a b : W64) : Int := ityVal t a * ityVal t b
@[inherit_doc addX] def shlX (t : ITy) (a b : W64) : Int := ityVal t a * (2 ^ shiftAmount b : Nat)
@[inherit_doc addX] def divX (t : ITy) (a b : W64) : Int := truncDiv (ityVal t a) (ityVal t b)

/-- An exact integer result written to sD, with SF where saturating changed it (09 R158). -/
def putInt (t : ITy) (sat : Bool) (d : Reg) (x : Int) (q : Seq) : Seq :=
  let r := intResult 64 (itySigned t) sat x
  (q.setS d (BitVec.ofNat 64 r.1)).orFps (flagWord r.2)

/-- The remainder (09 R158): a - b * (a div b), and a for a divisor of 0. -/
def remX (t : ITy) (a b : W64) : Int := ityVal t a - ityVal t b * (if b = 0 then 0 else divX t a b)

/-- The high 64 bits of the product (09 R158). -/
def mulhX (t : ITy) (a b : W64) : Int := Int.fdiv (ityVal t a * ityVal t b) (2 ^ 64 : Nat)

/-- The smaller or larger operand (09 R158, R185). -/
def minX (t : ITy) (a b : W64) : W64 := if ityVal t b < ityVal t a then b else a
@[inherit_doc minX] def maxX (t : ITy) (a b : W64) : W64 := if ityVal t a < ityVal t b then b else a

/-- `add` (09 R158). -/
def execAdd (g : Guard) (ty : ITy) (sat : Bool) (d a b : Reg) (s : State) : Out' :=
  regWord 8 g [d, a, b] (fun q => putInt ty sat d (addX ty (q.sr a) (q.sr b)) q) s

/-- `sub` (09 R158). -/
def execSub (g : Guard) (ty : ITy) (sat : Bool) (d a b : Reg) (s : State) : Out' :=
  regWord 8 g [d, a, b] (fun q => putInt ty sat d (subX ty (q.sr a) (q.sr b)) q) s

/-- `mul` (09 R158). -/
def execMul (g : Guard) (ty : ITy) (sat : Bool) (d a b : Reg) (s : State) : Out' :=
  regWord 8 g [d, a, b] (fun q => putInt ty sat d (mulX ty (q.sr a) (q.sr b)) q) s

/-- `shl` (09 R158). -/
def execShl (g : Guard) (ty : ITy) (sat : Bool) (d a b : Reg) (s : State) : Out' :=
  regWord 8 g [d, a, b] (fun q => putInt ty sat d (shlX ty (q.sr a) (q.sr b)) q) s

/-- `div` (09 R158): all ones for a divisor of 0, with no fault and no flag. -/
def execDiv (g : Guard) (ty : ITy) (sat : Bool) (d a b : Reg) (s : State) : Out' :=
  regWord 8 g [d, a, b] (fun q =>
    if q.sr b = 0 then q.setS d (BitVec.allOnes 64) else putInt ty sat d (divX ty (q.sr a) (q.sr b)) q) s

/-- `mulh` (09 R158). -/
def execMulh (g : Guard) (ty : ITy) (d a b : Reg) (s : State) : Out' :=
  regWord 8 g [d, a, b] (fun q => putInt ty false d (mulhX ty (q.sr a) (q.sr b)) q) s

/-- `rem` (09 R158). -/
def execRem (g : Guard) (ty : ITy) (d a b : Reg) (s : State) : Out' :=
  regWord 8 g [d, a, b] (fun q => putInt ty false d (remX ty (q.sr a) (q.sr b)) q) s

/-- `and` (09 R158). -/
def execAnd (g : Guard) (_ty : ITy) (d a b : Reg) (s : State) : Out' :=
  regWord 8 g [d, a, b] (fun q => q.setS d (q.sr a &&& q.sr b)) s

/-- `or` (09 R158). -/
def execOr (g : Guard) (_ty : ITy) (d a b : Reg) (s : State) : Out' :=
  regWord 8 g [d, a, b] (fun q => q.setS d (q.sr a ||| q.sr b)) s

/-- `xor` (09 R158). -/
def execXor (g : Guard) (_ty : ITy) (d a b : Reg) (s : State) : Out' :=
  regWord 8 g [d, a, b] (fun q => q.setS d (q.sr a ^^^ q.sr b)) s

/-- `shr` (09 R158). -/
def execShr (g : Guard) (_ty : ITy) (d a b : Reg) (s : State) : Out' :=
  regWord 8 g [d, a, b] (fun q => q.setS d (q.sr a >>> shiftAmount (q.sr b))) s

/-- `sra` (09 R158). -/
def execSra (g : Guard) (_ty : ITy) (d a b : Reg) (s : State) : Out' :=
  regWord 8 g [d, a, b] (fun q => q.setS d ((q.sr a).sshiftRight (shiftAmount (q.sr b)))) s

/-- `min` (09 R158). -/
def execMin (g : Guard) (ty : ITy) (d a b : Reg) (s : State) : Out' :=
  regWord 8 g [d, a, b] (fun q => q.setS d (minX ty (q.sr a) (q.sr b))) s

/-- `max` (09 R158). -/
def execMax (g : Guard) (ty : ITy) (d a b : Reg) (s : State) : Out' :=
  regWord 8 g [d, a, b] (fun q => q.setS d (maxX ty (q.sr a) (q.sr b))) s

/-- `sel` (09 R158). -/
def execSel (g : Guard) (_ty : ITy) (d a b : Reg) (c : PReg) (s : State) : Out' :=
  regWord 8 g [d, a, b] (fun q => q.setS d (if q.pr c then q.sr a else q.sr b)) s

/-- `clz` (09 R158). -/
def execClz (g : Guard) (_ty : ITy) (d a : Reg) (s : State) : Out' :=
  regWord 8 g [d, a] (fun q => q.setS d (BitVec.ofNat 64 (clz64 (q.sr a)))) s

/-- `ctz` (09 R158). -/
def execCtz (g : Guard) (_ty : ITy) (d a : Reg) (s : State) : Out' :=
  regWord 8 g [d, a] (fun q => q.setS d (BitVec.ofNat 64 (ctz64 (q.sr a)))) s

/-- `popc` (09 R158). -/
def execPopc (g : Guard) (_ty : ITy) (d a : Reg) (s : State) : Out' :=
  regWord 8 g [d, a] (fun q => q.setS d (BitVec.ofNat 64 (popBits (q.sr a)))) s

/-- `addi` (09 R159). -/
def execAddi (g : Guard) (d a : Reg) (imm : BitVec 36) (s : State) : Out' :=
  regWord 8 g [d, a] (fun q => putInt .i64 false d (addX .i64 (q.sr a) (imm.signExtend 64)) q) s

/-- `andi` (09 R159). -/
def execAndi (g : Guard) (d a : Reg) (imm : BitVec 36) (s : State) : Out' :=
  regWord 8 g [d, a] (fun q => q.setS d (q.sr a &&& imm.signExtend 64)) s

/-- `ori` (09 R159). -/
def execOri (g : Guard) (d a : Reg) (imm : BitVec 36) (s : State) : Out' :=
  regWord 8 g [d, a] (fun q => q.setS d (q.sr a ||| imm.signExtend 64)) s

/-- `xori` (09 R159). -/
def execXori (g : Guard) (d a : Reg) (imm : BitVec 36) (s : State) : Out' :=
  regWord 8 g [d, a] (fun q => q.setS d (q.sr a ^^^ imm.signExtend 64)) s

/-- `shli` (09 R159). -/
def execShli (g : Guard) (d a : Reg) (imm : BitVec 36) (s : State) : Out' :=
  regWord 8 g [d, a] (fun q => putInt .i64 false d (shlX .i64 (q.sr a) (imm.signExtend 64)) q) s

/-- `shri` (09 R159). -/
def execShri (g : Guard) (d a : Reg) (imm : BitVec 36) (s : State) : Out' :=
  regWord 8 g [d, a] (fun q => q.setS d (q.sr a >>> shiftAmount (imm.signExtend 64))) s

/-- `srai` (09 R159). -/
def execSrai (g : Guard) (d a : Reg) (imm : BitVec 36) (s : State) : Out' :=
  regWord 8 g [d, a] (fun q => q.setS d ((q.sr a).sshiftRight (shiftAmount (imm.signExtend 64)))) s

/-- `muli` (09 R159). -/
def execMuli (g : Guard) (d a : Reg) (imm : BitVec 36) (s : State) : Out' :=
  regWord 8 g [d, a] (fun q => putInt .i64 false d (mulX .i64 (q.sr a) (imm.signExtend 64)) q) s

/-- `movi` (09 R160). -/
def execMovi (g : Guard) (d : Reg) (imm : BitVec 41) (s : State) : Out' :=
  regWord 8 g [d] (fun q => q.setS d (imm.signExtend 64)) s

/-- `movhi` (09 R160): bits [63:23] replaced, bits [22:0] kept. -/
def execMovhi (g : Guard) (d : Reg) (imm : BitVec 41) (s : State) : Out' :=
  regWord 8 g [d] (fun q => q.setS d (imm ++ (q.sr d).extractLsb' 0 23)) s

/-- A formed address: taken modulo 2^57 (09 R161). -/
def addr57 (x : W64) : W64 := (x.setWidth 57).setWidth 64

/-- `lea` (09 R161). -/
def execLea (g : Guard) (d a : Reg) (imm : BitVec 36) (s : State) : Out' :=
  regWord 8 g [d, a] (fun q => q.setS d (addr57 (q.sr a + imm.signExtend 64))) s

/-- `leal` (09 R161), a two-word form (05 R93). -/
def execLeal (g : Guard) (d a : Reg) (imm : BitVec 64) (s : State) : Out' :=
  regWord 16 g [d, a] (fun q => q.setS d (addr57 (q.sr a + imm))) s

/-- `movl` (09 R161), a two-word form (05 R93). -/
def execMovl (g : Guard) (d : Reg) (imm : BitVec 64) (s : State) : Out' :=
  regWord 16 g [d] (fun q => q.setS d imm) s

end Sys2Proof.Machine
end

