-- ==== Sys2Proof/Machine/Replay.lean ====
section
/-! DEFINITION. REPLAY (25 R402): the snapshot of a plan, and the start of its nodes. -/

namespace Sys2Proof.Machine

/-- The node of a plan at an address: its command entry and its predecessors. -/
def planNode (k : Package) (a : Nat) : Node :=
  { bytes := k.bytes a 256, preds := ((List.range 32).map fun i => k.num' (a + 256 + 2 * i) 2).filter (· ≠ 0xFFFF) }

/-- REPLAY (25 R402): the plan is copied into the journal. -/
def doReplay (p q j : Nat) (b : List Byte) (s : State) : Did :=
  let k := s.pkg p
  let a := fieldAt b 64 8
  let nn := k.num' a 4
  if nn = 0 || nn > 4096 then .done (outcome p q j none (badEntry 64) s)
  else .done (s.modPkg p fun k => k.modJ q j fun e => { e with nodes := (List.range nn).map fun n => planNode k (a + 64 + 320 * n) })

/-- REPLAY (25 R402). -/
def execReplay (p q j : Nat) (s : State) : Out' := startEntry p q j 6 (doReplay p q j) s

/-- The command of a node. A node that is a REPLAY or has no operation is a bad entry at its OPC; a WAIT waits in its node. -/
def doNode (p q j node : Nat) (b : List Byte) (s : State) : Did :=
  let n := some node
  match opcOf b with
  | 0 => doNop p q j n s
  | 1 => doLoadslot p q j n b s
  | 2 => doFreeslot p q j n b s
  | 3 => doInvoke p q j n b s
  | 4 => if signalWord (fieldAt b 64 8) then .done s else .done (outcome p q j n (badEntry 64) s)
  | 5 => doSignal p q j n b s
  | 7 => doCtxnew p q j n b s
  | 8 => doCtxend p q j n b s
  | 9 => doCtxresume p q j n b s
  | _ => .done (outcome p q j n (badEntry 2) s)

/-- A started node that goes on: a WAIT whose word has reached its value, or a CTXEND whose teams have come to rest. -/
def nodeGoesOn (p q j node : Nat) (d : Node) (s : State) : State :=
  if opcOf d.bytes = 4 && (s.pkg p).signal (fieldAt d.bytes 64 8) ≥ fieldAt d.bytes 72 8 then outcome p q j (some node) (0, 0) s
  else if opcOf d.bytes = 8 then endStep p q j (some node) d.bytes s
  else s

/-- REPLAY_NODE_START (25 R402): a node whose predecessors have all completed OK starts; one with a predecessor that completed
otherwise is SKIPPED; and a node that waits is looked at again. -/
def execReplayNodeStart (p q j node : Nat) (s : State) : Out' :=
  let k := s.pkg p
  match k.jentry? q j with
  | none => .next s
  | some e =>
    match e.nodes[node]? with
    | none => .next s
    | some d =>
      if e.st ≠ .started || k.susp ≠ 0 || k.exhausted q then .next s
      else if d.st == .started && d.status.isNone then .next (nodeGoesOn p q j node d s)
      else if d.st ≠ .accepted || d.status.isSome then .next s
      else
        let ends := d.preds.map fun n => (e.nodes[n]?).bind fun x => if x.st == .done then x.status.map (·.1) else none
        if ends.any fun x => x.any (· ≠ 0) then .next (markStarted p q j (some node) (outcome p q j (some node) (10, 0) s))
        else if ends.all fun x => x == some 0 then .next (startWith p q j (some node) d.bytes (doNode p q j node d.bytes) s)
        else .next s

end Sys2Proof.Machine
end

