-- ==== Sys2Proof/Machine/Host.lean ====
section
/-! DEFINITION. The clock (00 R7, R8), energy and supply (25 R405, R406), the suspend of the domain, retention and resume
(25 R407, R408), package reset (17 R309; 25 R411), the host's RDMA accesses (25 R409) and firmware (25 R410). -/

namespace Sys2Proof.Machine

/-! ## The clock -/

/-- The step timer counts while an entry is in RUN and not suspended (21 R357). -/
def Work.tickBy (n : Nat) (w : Work) : Work := if w.st == .run then { w with timer := w.timer + n } else w

/-- A package after n ck (17 R306; 21 R357). -/
def tickPackage (s : State) (n : Nat) (k : Package) : Package :=
  { k with
    cores := Vector.ofFn fun (c : Fin 96) => holdReplies s n k.num c.val (k.core c.val)
    works := k.works.map (Work.tickBy n) }

/-- The core clock moves on by n ck, and time by n thirds of a nanosecond, or by more while the clock of some die is stretched (00 R8,
25 R406; assumption 45). -/
def advanceClock (n : Nat) (s : State) : State :=
  let (more, s) := if s.pkgs.any fun k => k.dies.toList.any (·.stretched) then s.drawNat else (0, s)
  { s with ck := s.ck + n, time := s.time + n + more, pkgs := s.pkgs.map (tickPackage s n) }

/-- A turn of the clock: it stands while a timer for sending a request again has to act first (17 R306, R307). -/
def tick (n : Nat) (s : State) : State := if sendsDue n s then s else advanceClock n s

/-! ## Energy and supply (25 R405, R406) -/

/-- Energy charged to a queue in µJ (25 R405). -/
def chargeQueue (p q uj : Nat) (s : State) : State :=
  if q ≥ 4096 || (s.pkg p).susp ≥ 6 then s
  else s.modPkg p fun k => (k.modCq q id).qset q 56 8 (min (k.spent q + uj) (2 ^ 64 - 1))

/-- A queue at the end of an accounting period (25 R405): what was spent beyond the allowance stays, and nothing of it where there is
no limit. A queue that may start entries again has a refill event. -/
def refillQueue (k : Package) (q : Nat) : Package :=
  if k.spent q = 0 then k
  else
    let left := if k.allow q = 0 then 0 else k.spent q - 1000 * k.allow q
    let k' := k.qset q 56 8 left
    if k.exhausted q && !k'.exhausted q then k'.event q .refill else k'

/-- ALLOWANCE_PERIOD_END (25 R405): an accounting period has passed. -/
def execAllowancePeriodEnd (p : Nat) (s : State) : Out' :=
  let k := s.pkg p
  if k.susp ≥ 6 || s.ck < k.periodAt + k.settings.period then .next s
  else .next (noteAsks p (s.modPkg p fun k => { (List.range 4096).foldl refillQueue k with periodAt := s.ck }))

/-- DROOP_STRETCH (25 R406): the clock of a die is stretched, or runs again; bounds in ck keep holding and no result changes. -/
def execDroopStretch (p d : Nat) (on : Bool) (s : State) : Out' := .next (s.modDie p d fun x => { x with stretched := on })

/-! ## Suspend, retention and resume (25 R407, R408) -/

/-- 4.5 s from the broadcast, in thirds of a nanosecond: the last moment for an acknowledgement (25 R407, 00 R8). -/
def suspendLimit : Nat := 4500000 * 3000

/-- A package takes the next step of the suspend. -/
def suspendTo (p n : Nat) (s : State) : State := s.modPkg p fun k => { k with susp := n }

/-- DOMAIN_SUSPEND (25 R407): the broadcast reaches the package, which accepts and starts no entry; each further step begins once the
one before has ended. Step 4 writes the dirty lines of every slice to memory. -/
def execDomainSuspend (p : Nat) (s : State) : Out' :=
  let k := s.pkg p
  match k.susp with
  | 0 => .next (suspendTo p 1 { s with suspendAt := some (s.suspendAt.getD s.time) })
  | 1 => .next (suspendTo p 2 s)
  | 2 => if k.teams.any (·.placed) then .next s else .next (suspendWorks p (fun _ => true) (suspendTo p 3 s))
  | 3 => if k.works.toList.any fun w => w.st == .run || w.st == .waittrig then .next s else .next (suspendTo p 4 s)
  | 4 => .next (suspendTo p 5 (s.modPkg p fun k => { k with dies := k.dies.map fun d => d.writeBack fun _ => true }))
  | 5 =>
    if s.time ≤ (s.suspendAt.getD s.time) + suspendLimit then .next (s.modPkg p fun k => { k with suspAck := true }) else .next s
  | _ => .next s

/-- Every package runs again: its work entries are restored and its queues are open (25 R407, R408). -/
def reopenAll (s : State) : State :=
  let s := { s with suspendAt := none, pkgs := s.pkgs.map fun (k : Package) => { k with susp := 0, suspAck := false } }
  (s.pkgs.map fun (k : Package) => k.num).foldl (fun s p => noteAsks p (restoreWorks p (fun _ => true) s)) s

/-- SUSPEND_ABANDON (25 R407): some package has not acknowledged by 4.5 s. Every package finishes the step it is in, so that one which
checkpoints its teams ends that, and resumes. -/
def execSuspendAbandon (s : State) : Out' :=
  match s.suspendAt with
  | none => .next s
  | some t =>
    if s.time < t + suspendLimit || s.pkgs.all (·.suspAck) then .next s
    else
      let s := s.pkgs.foldl (fun s k =>
        if k.susp ≠ 2 then s
        else k.teams.foldl (fun s t => if t.st == .running then closeTeam k.num t 4 [] s else s) s) s
      .next (reopenAll s)

/-- RETENTION_ENTRY (25 R407): every package has acknowledged. What stands outside memory, the journal and the retention island is
lost: translations and packets on the fabric. -/
def execRetentionEntry (s : State) : Out' :=
  if s.suspendAt.isSome && s.pkgs.all (fun k => k.susp == 5 && k.suspAck) then
    .next { s with
      net := []
      pkgs := s.pkgs.map fun k =>
        { k with susp := 6, tlb := [], walk := [], crit := []
                 ports := k.ports.map Port.trained } }
  else .next s

/-- DOMAIN_RESUME (25 R408): every package comes back from retention, with INC unchanged. -/
def execDomainResume (p : Nat) (s : State) : Out' := if (s.pkg p).susp = 6 then .next (reopenAll s) else .next s

/-- PACKAGE_RESET (17 R309; 25 R411): a cold restart. Memory and every other state of the package are as after reset, with the next
INC; what management and fuses set stays (assumption 7). Its router holds tree epoch 0 until the next tree, which is the model's choice
(17 R318; assumption 52). Its links train anew, and the packets on them and at its router are lost. -/
def execPackageReset (p : Nat) (s : State) : Out' :=
  let lost := fun (x : Packet) => x.at_ == p || match x.port with
    | some n => (peerOf s x.at_ n).any fun y => y.1 == p
    | none => false
  let s := { s with net := s.net.filter fun x => !lost x }
  let s := (List.range 31).foldl (fun s n =>
    modLink p n Port.trained s) s
  .next (s.modPkg p fun k =>
    { num := k.num, inc := (k.inc + 1) % 65536, resetCk := s.ck, periodAt := s.ck, lpddr := k.lpddr, settings := k.settings
      ports := k.ports, rollback := k.rollback, unitNext := k.unitNext, posted := k.posted })

/-! ## The host port (25 R409) -/

/-- The command queue whose record holds an address, with the byte's place in it (25 R392). -/
def Package.recordAt (k : Package) (a : Nat) : Option (Nat × Nat) :=
  if k.settings.qtbase ≤ a && a < k.settings.qtbase + 128 * 4096 then
    some ((a - k.settings.qtbase) / 128, (a - k.settings.qtbase) % 128)
  else none

/-- The host may write the byte: of a queue record only WIX, WAKE and, in some states, bytes 16 to 47 (25 R392). -/
def Package.hostMay (k : Package) (a : Nat) : Bool :=
  match k.recordAt a with
  | none => true
  | some (q, o) => decide (o < 4) || (decide (8 ≤ o) && decide (o < 16)) || (decide (16 ≤ o) && decide (o < 48) && k.recordOpen q)

/-- What a host write to a queue's record brings about (25 R392, R394, R397, R399): `as` are the bytes written, and `old` is the package
before it. -/
def recordEvents (p : Nat) (as : List Nat) (q : Nat) (old : Package) (s : State) : State :=
  let hit := fun (lo len : Nat) => as.any fun a => decide (old.qrec q + lo ≤ a) && decide (a < old.qrec q + lo + len)
  let s := if hit 0 4 then noteAsk p q (s.modPkg p fun k => (k.modCq q id).event q .wix) else s
  let s := if hit 16 32 && old.recordOpen q then recordWritten p q s else s
  if hit 8 8 then wakeQueue p q .wake (s.modPkg p fun k => k.modCq q id) else s

/-- RDMA_WRITE (25 R409): the bytes of frames that take the write (05 R106, 23 R390). -/
def execRdmaWrite (p addr : Nat) (bytes : List (BitVec 8)) (s : State) : Out' :=
  let k := s.pkg p
  if k.susp ≥ 6 || !k.hostRange addr bytes.length || bytes.isEmpty || !k.populated addr ||
      !k.populated (addr + bytes.length - 1) then .next s
  else
    let ok := bytes.zipIdx.filter fun (x : Byte × Nat) => k.hostMay (addr + x.2) && k.frameOpen (addr + x.2)
    let s := s.modPkg p fun k => { ok.foldl (fun k (x : Byte × Nat) => k.write (addr + x.2) [x.1]) k with woken := k.woken }
    let qs := if rangesMeet addr bytes.length k.settings.qtbase (128 * 4096) then
        (List.range 4096).filter fun q => rangesMeet addr bytes.length (k.qrec q) 128
      else []
    .next (qs.foldl (fun s q => recordEvents p (ok.map fun x => addr + x.2) q k s) s)

/-- RDMA_READ (25 R409): the bytes go to the host, unless they lie in a blighted frame, which no read returns (23 R389). -/
def execRdmaRead (p addr len : Nat) (s : State) : Out' :=
  let k := s.pkg p
  if k.susp ≥ 6 || !k.hostRange addr len || len = 0 || !k.populated addr || !k.populated (addr + len - 1) ||
      (List.range (len / 4096 + 2)).any (fun n => decide (addr / 4096 * 4096 + 4096 * n < addr + len) && k.blighted (addr + 4096 * n)) then
    .next s
  else .next (post p (.read (k.bytes addr len)) s)

/-- RDMA_SEND (25 R409): a message of the host comes to a queue pair. No rule lets it reach memory or a command queue. -/
def execRdmaSend (_p : Nat) (_bytes : List (BitVec 8)) (s : State) : Out' := .next s

/-! ## Firmware (25 R410) -/

/-- FIRMWARE_BOOT (25 R410): an image whose signature verifies under the fused key, and whose version is not below the rollback count,
is measured and runs. -/
def execFirmwareBoot (p : Nat) (image key sig : List (BitVec 8)) (version : Nat) (s : State) : Out' :=
  let k := s.pkg p
  if shake256 key 64 == k.settings.bootKeyHash && Config.falconVerify key image sig && decide (k.rollback ≤ version) then
    .next (s.modPkg p fun k => { k with fwVersion := version, mlog := k.mlog ++ [shake256 image 64] })
  else .next s

/-- MEASUREMENT_REQUEST (25 R410): the log, signed with the device key. -/
def execMeasurementRequest (p : Nat) (s : State) : Out' :=
  let l := (s.pkg p).mlog.flatten
  if (s.pkg p).susp ≥ 6 then .next s else .next (post p (.log l (Config.falconSign p l)) s)

end Sys2Proof.Machine
end

