-- ==== Sys2Proof/Machine/Dispatch.lean ====
section
/-! DEFINITION. One arm per instruction: its meaning, or a refusal by name. -/

namespace Sys2Proof.Machine

/-- What executing a step does: each arm calls that step's meaning, for the sequencer State.who where the step is an
instruction and for the work entry State.whoEntry where it is a collective step. -/
def exec (i : Instr) (s : State) : Host.Outcome State Fault Refusal :=
  match i with
  | .dispatch w => Sys2Proof.Machine.execDispatch w s
  | .harrowCompare sid k ok => Sys2Proof.Machine.execHarrowCompare sid k ok s
  | .entryRetire sid q => Sys2Proof.Machine.execEntryRetire sid q s
  | .tokenDeadlock sid => Sys2Proof.Machine.execTokenDeadlock sid s
  | .instructionFetchMissFill sid => Sys2Proof.Machine.execInstructionFetchMissFill sid s
  | .seedPop sid => Sys2Proof.Machine.execSeedPop sid s
  | .seedAging p c q => Sys2Proof.Machine.execSeedAging p c q s
  | .nackResend sid k => Sys2Proof.Machine.execNackResend sid k s
  | .barrierArrivalMessage p dctx inst => Sys2Proof.Machine.execBarrierArrivalMessage p dctx inst s
  | .barrierReleaseMessage p k => Sys2Proof.Machine.execBarrierReleaseMessage p k s
  | .leaseGrant p c => Sys2Proof.Machine.execLeaseGrant p c s
  | .leaseTimeLimit p c => Sys2Proof.Machine.execLeaseTimeLimit p c s
  | .frontEndWaitEnd sid => Sys2Proof.Machine.execFrontEndWaitEnd sid s
  | .loadDataReturn sid k => Sys2Proof.Machine.execLoadDataReturn sid k s
  | .add g ty sat d a b => Sys2Proof.Machine.execAdd g ty sat d a b s
  | .sub g ty sat d a b => Sys2Proof.Machine.execSub g ty sat d a b s
  | .mul g ty sat d a b => Sys2Proof.Machine.execMul g ty sat d a b s
  | .mulh g ty d a b => Sys2Proof.Machine.execMulh g ty d a b s
  | .div g ty sat d a b => Sys2Proof.Machine.execDiv g ty sat d a b s
  | .rem g ty d a b => Sys2Proof.Machine.execRem g ty d a b s
  | .and g ty d a b => Sys2Proof.Machine.execAnd g ty d a b s
  | .or g ty d a b => Sys2Proof.Machine.execOr g ty d a b s
  | .xor g ty d a b => Sys2Proof.Machine.execXor g ty d a b s
  | .shl g ty sat d a b => Sys2Proof.Machine.execShl g ty sat d a b s
  | .shr g ty d a b => Sys2Proof.Machine.execShr g ty d a b s
  | .sra g ty d a b => Sys2Proof.Machine.execSra g ty d a b s
  | .min g ty d a b => Sys2Proof.Machine.execMin g ty d a b s
  | .max g ty d a b => Sys2Proof.Machine.execMax g ty d a b s
  | .sel g ty d a b c => Sys2Proof.Machine.execSel g ty d a b c s
  | .clz g ty d a => Sys2Proof.Machine.execClz g ty d a s
  | .ctz g ty d a => Sys2Proof.Machine.execCtz g ty d a s
  | .popc g ty d a => Sys2Proof.Machine.execPopc g ty d a s
  | .addi g d a imm => Sys2Proof.Machine.execAddi g d a imm s
  | .andi g d a imm => Sys2Proof.Machine.execAndi g d a imm s
  | .ori g d a imm => Sys2Proof.Machine.execOri g d a imm s
  | .xori g d a imm => Sys2Proof.Machine.execXori g d a imm s
  | .shli g d a imm => Sys2Proof.Machine.execShli g d a imm s
  | .shri g d a imm => Sys2Proof.Machine.execShri g d a imm s
  | .srai g d a imm => Sys2Proof.Machine.execSrai g d a imm s
  | .muli g d a imm => Sys2Proof.Machine.execMuli g d a imm s
  | .movi g d imm => Sys2Proof.Machine.execMovi g d imm s
  | .movhi g d imm => Sys2Proof.Machine.execMovhi g d imm s
  | .lea g d a imm => Sys2Proof.Machine.execLea g d a imm s
  | .leal g d a imm => Sys2Proof.Machine.execLeal g d a imm s
  | .movl g d imm => Sys2Proof.Machine.execMovl g d imm s
  | .ld8 g d a imm => Sys2Proof.Machine.execLd8 g d a imm s
  | .ld16 g d a imm => Sys2Proof.Machine.execLd16 g d a imm s
  | .ld32 g d a imm => Sys2Proof.Machine.execLd32 g d a imm s
  | .ld64 g d a imm => Sys2Proof.Machine.execLd64 g d a imm s
  | .ld8s g d a imm => Sys2Proof.Machine.execLd8s g d a imm s
  | .ld16s g d a imm => Sys2Proof.Machine.execLd16s g d a imm s
  | .ld32s g d a imm => Sys2Proof.Machine.execLd32s g d a imm s
  | .st8 g d a imm => Sys2Proof.Machine.execSt8 g d a imm s
  | .st16 g d a imm => Sys2Proof.Machine.execSt16 g d a imm s
  | .st32 g d a imm => Sys2Proof.Machine.execSt32 g d a imm s
  | .st64 g d a imm => Sys2Proof.Machine.execSt64 g d a imm s
  | .fadd g ty rnd d a b => Sys2Proof.Machine.execFadd g ty rnd d a b s
  | .fsub g ty rnd d a b => Sys2Proof.Machine.execFsub g ty rnd d a b s
  | .fmul g ty rnd d a b => Sys2Proof.Machine.execFmul g ty rnd d a b s
  | .fdiv g ty rnd d a b => Sys2Proof.Machine.execFdiv g ty rnd d a b s
  | .ffma g ty rnd d a b c => Sys2Proof.Machine.execFfma g ty rnd d a b c s
  | .fsqrt g ty rnd d a => Sys2Proof.Machine.execFsqrt g ty rnd d a s
  | .fmin g ty d a b => Sys2Proof.Machine.execFmin g ty d a b s
  | .fmax g ty d a b => Sys2Proof.Machine.execFmax g ty d a b s
  | .fcvt g ty ty2 rnd sat d a => Sys2Proof.Machine.execFcvt g ty ty2 rnd sat d a s
  | .cmp g ty cond d a b => Sys2Proof.Machine.execCmp g ty cond d a b s
  | .fcmp g ty cond d a b => Sys2Proof.Machine.execFcmp g ty cond d a b s
  | .pand g d a b => Sys2Proof.Machine.execPand g d a b s
  | .por g d a b => Sys2Proof.Machine.execPor g d a b s
  | .pxor g d a b => Sys2Proof.Machine.execPxor g d a b s
  | .pnot g d a => Sys2Proof.Machine.execPnot g d a s
  | .br g imm => Sys2Proof.Machine.execBr g imm s
  | .jr g a => Sys2Proof.Machine.execJr g a s
  | .call g d imm => Sys2Proof.Machine.execCall g d imm s
  | .callr g d a => Sys2Proof.Machine.execCallr g d a s
  | .ret g a => Sys2Proof.Machine.execRet g a s
  | .lset g n a imm => Sys2Proof.Machine.execLset g n a imm s
  | .lend g n imm => Sys2Proof.Machine.execLend g n imm s
  | .sow g d a => Sys2Proof.Machine.execSow g d a s
  | .reap g => Sys2Proof.Machine.execReap g s
  | .bar g sc => Sys2Proof.Machine.execBar g sc s
  | .bard g sc => Sys2Proof.Machine.execBard g sc s
  | .barj g sc => Sys2Proof.Machine.execBarj g sc s
  | .tokget g d => Sys2Proof.Machine.execTokget g d s
  | .tokset g a => Sys2Proof.Machine.execTokset g a s
  | .wtany g d a => Sys2Proof.Machine.execWtany g d a s
  | .wtall g d a => Sys2Proof.Machine.execWtall g d a s
  | .wtff g d a => Sys2Proof.Machine.execWtff g d a s
  | .wcnt g sc d a b => Sys2Proof.Machine.execWcnt g sc d a b s
  | .qfence g f l c src => Sys2Proof.Machine.execQfence g f l c src s
  | .rel g sc => Sys2Proof.Machine.execRel g sc s
  | .acq g sc => Sys2Proof.Machine.execAcq g sc s
  | .tagclr g a => Sys2Proof.Machine.execTagclr g a s
  | .aadd g d a b => Sys2Proof.Machine.execAadd g d a b s
  | .afadd g d a b => Sys2Proof.Machine.execAfadd g d a b s
  | .amin g ty d a b => Sys2Proof.Machine.execAmin g ty d a b s
  | .amax g ty d a b => Sys2Proof.Machine.execAmax g ty d a b s
  | .aand g d a b => Sys2Proof.Machine.execAand g d a b s
  | .aor g d a b => Sys2Proof.Machine.execAor g d a b s
  | .axor g d a b => Sys2Proof.Machine.execAxor g d a b s
  | .aswap g d a b => Sys2Proof.Machine.execAswap g d a b s
  | .acas g d a b c => Sys2Proof.Machine.execAcas g d a b c s
  | .atomicReply sid => Sys2Proof.Machine.execAtomicReply sid s
  | .sget g d n => Sys2Proof.Machine.execSget g d n s
  | .ssetFpc g a => Sys2Proof.Machine.execSsetFpc g a s
  | .ssetFps g a => Sys2Proof.Machine.execSsetFps g a s
  | .ssetTags g a => Sys2Proof.Machine.execSsetTags g a s
  | .ssetLease g a => Sys2Proof.Machine.execSsetLease g a s
  | .ssetPrio g a => Sys2Proof.Machine.execSsetPrio g a s
  | .ssetMemb g a => Sys2Proof.Machine.execSsetMemb g a s
  | .ssetLc g n a => Sys2Proof.Machine.execSsetLc g n a s
  | .ssetBase g n a => Sys2Proof.Machine.execSsetBase g n a s
  | .tfence g => Sys2Proof.Machine.execTfence g s
  | .sysNop g d a => Sys2Proof.Machine.execSysNop g d a s
  | .sysDtime g d a => Sys2Proof.Machine.execSysDtime g d a s
  | .sysHostevent g d a => Sys2Proof.Machine.execSysHostevent g d a s
  | .sysAllowance g d a => Sys2Proof.Machine.execSysAllowance g d a s
  | .sysEstimate g d a => Sys2Proof.Machine.execSysEstimate g d a s
  | .sysCtxinfo g d a => Sys2Proof.Machine.execSysCtxinfo g d a s
  | .sysNoService g d a n => Sys2Proof.Machine.execSysNoService g d a n s
  | .pchg g a => Sys2Proof.Machine.execPchg g a s
  | .pchgApply p c => Sys2Proof.Machine.execPchgApply p c s
  | .granuleFillEnd p c k => Sys2Proof.Machine.execGranuleFillEnd p c k s
  | .tlbi g a => Sys2Proof.Machine.execTlbi g a s
  | .tlbia g => Sys2Proof.Machine.execTlbia g s
  | .blclr g a => Sys2Proof.Machine.execBlclr g a s
  | .blq g d a => Sys2Proof.Machine.execBlq g d a s
  | .mfmt g a => Sys2Proof.Machine.execMfmt g a s
  | .karm g d a b => Sys2Proof.Machine.execKarm g d a b s
  | .kstat g d b => Sys2Proof.Machine.execKstat g d b s
  | .kdis g d b => Sys2Proof.Machine.execKdis g d b s
  | .vadd h ty rnd sat sb km d a b => Sys2Proof.Machine.execVadd h ty rnd sat sb km d a b s
  | .vsub h ty rnd sat sb km d a b => Sys2Proof.Machine.execVsub h ty rnd sat sb km d a b s
  | .vmul h ty rnd sat sb km d a b => Sys2Proof.Machine.execVmul h ty rnd sat sb km d a b s
  | .vmulh h ty sb km d a b => Sys2Proof.Machine.execVmulh h ty sb km d a b s
  | .vfma h ty rnd sat sb sc km d a b c => Sys2Proof.Machine.execVfma h ty rnd sat sb sc km d a b c s
  | .vfms h ty rnd sat sb sc km d a b c => Sys2Proof.Machine.execVfms h ty rnd sat sb sc km d a b c s
  | .vfnma h ty rnd sat sb sc km d a b c => Sys2Proof.Machine.execVfnma h ty rnd sat sb sc km d a b c s
  | .vabs h ty sat km d a => Sys2Proof.Machine.execVabs h ty sat km d a s
  | .vneg h ty sat km d a => Sys2Proof.Machine.execVneg h ty sat km d a s
  | .vmin h ty sb km d a b => Sys2Proof.Machine.execVmin h ty sb km d a b s
  | .vmax h ty sb km d a b => Sys2Proof.Machine.execVmax h ty sb km d a b s
  | .vabd h ty rnd sat sb km d a b => Sys2Proof.Machine.execVabd h ty rnd sat sb km d a b s
  | .vclamp h ty sb sc km d a b c => Sys2Proof.Machine.execVclamp h ty sb sc km d a b c s
  | .vdiv h ty rnd sat sb km d a b => Sys2Proof.Machine.execVdiv h ty rnd sat sb km d a b s
  | .vand h ty sb km d a b => Sys2Proof.Machine.execVand h ty sb km d a b s
  | .vor h ty sb km d a b => Sys2Proof.Machine.execVor h ty sb km d a b s
  | .vxor h ty sb km d a b => Sys2Proof.Machine.execVxor h ty sb km d a b s
  | .vnot h ty km d a => Sys2Proof.Machine.execVnot h ty km d a s
  | .vshl h ty sat sb km d a b => Sys2Proof.Machine.execVshl h ty sat sb km d a b s
  | .vshr h ty sb km d a b => Sys2Proof.Machine.execVshr h ty sb km d a b s
  | .vsra h ty sb km d a b => Sys2Proof.Machine.execVsra h ty sb km d a b s
  | .vrot h ty sb km d a b => Sys2Proof.Machine.execVrot h ty sb km d a b s
  | .vcmp h ty cond sb km d a b => Sys2Proof.Machine.execVcmp h ty cond sb km d a b s
  | .vsel h ty km d a b c => Sys2Proof.Machine.execVsel h ty km d a b c s
  | .kand h d a b => Sys2Proof.Machine.execKand h d a b s
  | .kor h d a b => Sys2Proof.Machine.execKor h d a b s
  | .kxor h d a b => Sys2Proof.Machine.execKxor h d a b s
  | .knot h d a => Sys2Proof.Machine.execKnot h d a s
  | .kmov h d a => Sys2Proof.Machine.execKmov h d a s
  | .kmovS h d a c => Sys2Proof.Machine.execKmovS h d a c s
  | .kpop h km d a => Sys2Proof.Machine.execKpop h km d a s
  | .vperm h ty km d a b => Sys2Proof.Machine.execVperm h ty km d a b s
  | .vrev h ty km d a => Sys2Proof.Machine.execVrev h ty km d a s
  | .vzip h ty d a b => Sys2Proof.Machine.execVzip h ty d a b s
  | .vunzip h ty d a b => Sys2Proof.Machine.execVunzip h ty d a b s
  | .vslide h ty km d a b c => Sys2Proof.Machine.execVslide h ty km d a b c s
  | .vbcast h ty km d a => Sys2Proof.Machine.execVbcast h ty km d a s
  | .vbcastEl h ty km d a b => Sys2Proof.Machine.execVbcastEl h ty km d a b s
  | .vext h ty d a b => Sys2Proof.Machine.execVext h ty d a b s
  | .vins h ty d a b => Sys2Proof.Machine.execVins h ty d a b s
  | .vmov h ty km d a => Sys2Proof.Machine.execVmov h ty km d a s
  | .vcmpr h ty km d a => Sys2Proof.Machine.execVcmpr h ty km d a s
  | .vexpd h ty km d a => Sys2Proof.Machine.execVexpd h ty km d a s
  | .vwadd h ty ty2 rnd sat km d a b => Sys2Proof.Machine.execVwadd h ty ty2 rnd sat km d a b s
  | .vwmul h ty ty2 rnd sat km d a b => Sys2Proof.Machine.execVwmul h ty ty2 rnd sat km d a b s
  | .vwcvt h ty ty2 rnd sat km d a => Sys2Proof.Machine.execVwcvt h ty ty2 rnd sat km d a s
  | .vnar h ty ty2 rnd sat km d a => Sys2Proof.Machine.execVnar h ty ty2 rnd sat km d a s
  | .vcvt h ty ty2 rnd sat km d a part => Sys2Proof.Machine.execVcvt h ty ty2 rnd sat km d a part s
  | .vunpk h ty ty2 km d a b c => Sys2Proof.Machine.execVunpk h ty ty2 km d a b c s
  | .vsum h ty rnd sat km d a l => Sys2Proof.Machine.execVsum h ty rnd sat km d a l s
  | .vsumw h ty ty2 rnd sat km d a l => Sys2Proof.Machine.execVsumw h ty ty2 rnd sat km d a l s
  | .vmaxr h ty km d a l => Sys2Proof.Machine.execVmaxr h ty km d a l s
  | .vminr h ty km d a l => Sys2Proof.Machine.execVminr h ty km d a l s
  | .vexp h ty km d a => Sys2Proof.Machine.execVexp h ty km d a s
  | .vexp2 h ty km d a => Sys2Proof.Machine.execVexp2 h ty km d a s
  | .vlog2 h ty km d a => Sys2Proof.Machine.execVlog2 h ty km d a s
  | .vrcp h ty km d a => Sys2Proof.Machine.execVrcp h ty km d a s
  | .vrsqrt h ty km d a => Sys2Proof.Machine.execVrsqrt h ty km d a s
  | .vsqrt h ty rnd km d a => Sys2Proof.Machine.execVsqrt h ty rnd km d a s
  | .vsin h ty km d a => Sys2Proof.Machine.execVsin h ty km d a s
  | .vcos h ty km d a => Sys2Proof.Machine.execVcos h ty km d a s
  | .vtanh h ty km d a => Sys2Proof.Machine.execVtanh h ty km d a s
  | .vsigm h ty km d a => Sys2Proof.Machine.execVsigm h ty km d a s
  | .vrand h ty km d a b => Sys2Proof.Machine.execVrand h ty km d a b s
  | .vld h d a imm => Sys2Proof.Machine.execVld h d a imm s
  | .vst h d a imm => Sys2Proof.Machine.execVst h d a imm s
  | .vlds h ty km d a b => Sys2Proof.Machine.execVlds h ty km d a b s
  | .vsts h ty km d a b => Sys2Proof.Machine.execVsts h ty km d a b s
  | .vldx h ty km d a b => Sys2Proof.Machine.execVldx h ty km d a b s
  | .vstx h ty km d a b => Sys2Proof.Machine.execVstx h ty km d a b s
  | .vldb h d a imm => Sys2Proof.Machine.execVldb h d a imm s
  | .mlease h => Sys2Proof.Machine.execMlease h s
  | .mrel h => Sys2Proof.Machine.execMrel h s
  | .mmul h t ab ap bb bp asrc bsrc acc kf => Sys2Proof.Machine.execMmul h t ab ap bb bp asrc bsrc acc kf s
  | .mslice h t ab ap bb bp acc src kf => Sys2Proof.Machine.execMslice h t ab ap bb bp acc src kf s
  | .mzero h t => Sys2Proof.Machine.execMzero h t s
  | .mld h t ab ap acc => Sys2Proof.Machine.execMld h t ab ap acc s
  | .mst h t ab ap => Sys2Proof.Machine.execMst h t ab ap s
  | .msow h ab ap col kf => Sys2Proof.Machine.execMsow h ab ap col kf s
  | .arrayEntryCheck sid => Sys2Proof.Machine.execArrayEntryCheck sid s
  | .streamBegin p d col line => Sys2Proof.Machine.execStreamBegin p d col line s
  | .cpy h f na => Sys2Proof.Machine.execCpy h f na s
  | .cgat h f na => Sys2Proof.Machine.execCgat h f na s
  | .cmc h f na => Sys2Proof.Machine.execCmc h f na s
  | .cpyo h f na => Sys2Proof.Machine.execCpyo h f na s
  | .cget h f na => Sys2Proof.Machine.execCget h f na s
  | .cput h f na => Sys2Proof.Machine.execCput h f na s
  | .ksig h f na => Sys2Proof.Machine.execKsig h f na s
  | .copyPieceRequest p c => Sys2Proof.Machine.execCopyPieceRequest p c s
  | .piecePerformed sid cid piece => Sys2Proof.Machine.execPiecePerformed sid cid piece s
  | .sliceRequest p d k => Sys2Proof.Machine.execSliceRequest p d k s
  | .ringDelivery p d k => Sys2Proof.Machine.execRingDelivery p d k s
  | .rehome p d k => Sys2Proof.Machine.execRehome p d k s
  | .sliceRetire p d k map => Sys2Proof.Machine.execSliceRetire p d k map s
  | .slicePowerDown p d k => Sys2Proof.Machine.execSlicePowerDown p d k s
  | .coreOffline p c => Sys2Proof.Machine.execCoreOffline p c s
  | .remotePacketArrival k => Sys2Proof.Machine.execRemotePacketArrival k s
  | .remoteOperation p k => Sys2Proof.Machine.execRemoteOperation p k s
  | .answerArrival p k => Sys2Proof.Machine.execAnswerArrival p k s
  | .resendTimeout sid k => Sys2Proof.Machine.execResendTimeout sid k s
  | .nackBackoffResend sid k => Sys2Proof.Machine.execNackBackoffResend sid k s
  | .packetExpiry k => Sys2Proof.Machine.execPacketExpiry k s
  | .replyCacheExpiry p c k => Sys2Proof.Machine.execReplyCacheExpiry p c k s
  | .laneFallow p port lane => Sys2Proof.Machine.execLaneFallow p port lane s
  | .laneRetrain p port lane => Sys2Proof.Machine.execLaneRetrain p port lane s
  | .spareLinkAssign p port g => Sys2Proof.Machine.execSpareLinkAssign p port g s
  | .flitReceive p port good => Sys2Proof.Machine.execFlitReceive p port good s
  | .flitReplay p port => Sys2Proof.Machine.execFlitReplay p port s
  | .packetRoute k port => Sys2Proof.Machine.execPacketRoute k port s
  | .headlandMove k => Sys2Proof.Machine.execHeadlandMove k s
  | .treeDrain => Sys2Proof.Machine.execTreeDrain s
  | .treeSwitch => Sys2Proof.Machine.execTreeSwitch s
  | .asub h tag notag r => Sys2Proof.Machine.execAsub h tag notag r s
  | .aunsub h tag notag r => Sys2Proof.Machine.execAunsub h tag notag r s
  | .amerge h tag notag r a b => Sys2Proof.Machine.execAmerge h tag notag r a b s
  | .afin h tag notag r => Sys2Proof.Machine.execAfin h tag notag r s
  | .await h tag notag r => Sys2Proof.Machine.execAwait h tag notag r s
  | .mainPassHoldExpiry p d k => Sys2Proof.Machine.execMainPassHoldExpiry p d k s
  | .sowerServePage p d => Sys2Proof.Machine.execSowerServePage p d s
  | .gleaningPassStart p d k => Sys2Proof.Machine.execGleaningPassStart p d k s
  | .sheafMerge p d k => Sys2Proof.Machine.execSheafMerge p d k s
  | .workEntryTrigger p e => Sys2Proof.Machine.execWorkEntryTrigger p e s
  | .send ps x mr m0 m1 v => Sys2Proof.Machine.execSend ps x mr m0 m1 v s
  | .recv ps x mr m0 m1 v => Sys2Proof.Machine.execRecv ps x mr m0 m1 v s
  | .rrs ps x mr m0 m1 v => Sys2Proof.Machine.execRrs ps x mr m0 m1 v s
  | .copy mr m0 m1 v => Sys2Proof.Machine.execCopy mr m0 m1 v s
  | .wait v => Sys2Proof.Machine.execWait v s
  | .loop j x v => Sys2Proof.Machine.execLoop j x v s
  | .endl j => Sys2Proof.Machine.execEndl j s
  | .peer ps v => Sys2Proof.Machine.execPeer ps v s
  | .halt => Sys2Proof.Machine.execHalt s
  | .collPacketArrival p k => Sys2Proof.Machine.execCollPacketArrival p k s
  | .collPacketResend p e k => Sys2Proof.Machine.execCollPacketResend p e k s
  | .stepTimeout p e => Sys2Proof.Machine.execStepTimeout p e s
  | .abortReceived p k => Sys2Proof.Machine.execAbortReceived p k s
  | .collSuspendMessage p k => Sys2Proof.Machine.execCollSuspendMessage p k s
  | .collResumeMessage p k => Sys2Proof.Machine.execCollResumeMessage p k s
  | .deferredFaultDelivery sid => Sys2Proof.Machine.execDeferredFaultDelivery sid s
  | .secdedError p site double => Sys2Proof.Machine.execSecdedError p site double s
  | .preemptionDecision p newcomer victim => Sys2Proof.Machine.execPreemptionDecision p newcomer victim s
  | .drainExpiry p k => Sys2Proof.Machine.execDrainExpiry p k s
  | .checkpoint p dctx vteam passes => Sys2Proof.Machine.execCheckpoint p dctx vteam passes s
  | .checkpointImage p dctx vteam sb => Sys2Proof.Machine.execCheckpointImage p dctx vteam sb s
  | .teamResume p dctx vteam die row col => Sys2Proof.Machine.execTeamResume p dctx vteam die row col s
  | .blightSet p frame => Sys2Proof.Machine.execBlightSet p frame s
  | .wixWrite p q v => Sys2Proof.Machine.execWixWrite p q v s
  | .wakeWrite p q v => Sys2Proof.Machine.execWakeWrite p q v s
  | .queueRecordWrite p q bytes => Sys2Proof.Machine.execQueueRecordWrite p q bytes s
  | .entryAccept p q => Sys2Proof.Machine.execEntryAccept p q s
  | .slotMap p q => Sys2Proof.Machine.execSlotMap p q s
  | .slotUnmapIdle p q => Sys2Proof.Machine.execSlotUnmapIdle p q s
  | .slotUnmapFairness p q => Sys2Proof.Machine.execSlotUnmapFairness p q s
  | .watchSatisfied p q => Sys2Proof.Machine.execWatchSatisfied p q s
  | .cmdNop p q j => Sys2Proof.Machine.execCmdNop p q j s
  | .loadslot p q j => Sys2Proof.Machine.execLoadslot p q j s
  | .freeslot p q j => Sys2Proof.Machine.execFreeslot p q j s
  | .invoke p q j => Sys2Proof.Machine.execInvoke p q j s
  | .placement p k die row col => Sys2Proof.Machine.execPlacement p k die row col s
  | .teamRelease p dctx vteam => Sys2Proof.Machine.execTeamRelease p dctx vteam s
  | .cmdWait p q j => Sys2Proof.Machine.execCmdWait p q j s
  | .signal p q j => Sys2Proof.Machine.execSignal p q j s
  | .replay p q j => Sys2Proof.Machine.execReplay p q j s
  | .replayNodeStart p q j node => Sys2Proof.Machine.execReplayNodeStart p q j node s
  | .ctxnew p q j => Sys2Proof.Machine.execCtxnew p q j s
  | .ctxend p q j => Sys2Proof.Machine.execCtxend p q j s
  | .ctxresume p q j => Sys2Proof.Machine.execCtxresume p q j s
  | .commandCompletion p q j => Sys2Proof.Machine.execCommandCompletion p q j s
  | .rolernisTakeover p q j => Sys2Proof.Machine.execRolernisTakeover p q j s
  | .allowancePeriodEnd p => Sys2Proof.Machine.execAllowancePeriodEnd p s
  | .droopStretch p d on => Sys2Proof.Machine.execDroopStretch p d on s
  | .domainSuspend p => Sys2Proof.Machine.execDomainSuspend p s
  | .suspendAbandon => Sys2Proof.Machine.execSuspendAbandon s
  | .retentionEntry => Sys2Proof.Machine.execRetentionEntry s
  | .domainResume p => Sys2Proof.Machine.execDomainResume p s
  | .packageReset p => Sys2Proof.Machine.execPackageReset p s
  | .rdmaWrite p addr bytes => Sys2Proof.Machine.execRdmaWrite p addr bytes s
  | .rdmaRead p addr len => Sys2Proof.Machine.execRdmaRead p addr len s
  | .rdmaSend p bytes => Sys2Proof.Machine.execRdmaSend p bytes s
  | .firmwareBoot p image key sig version => Sys2Proof.Machine.execFirmwareBoot p image key sig version s
  | .measurementRequest p => Sys2Proof.Machine.execMeasurementRequest p s
  | .allowanceExhausted p q => Sys2Proof.Machine.execAllowanceExhausted p q s
  | .contextEviction p dctx => Sys2Proof.Machine.execContextEviction p dctx s
  | .linkReturn p port => Sys2Proof.Machine.execLinkReturn p port s

end Sys2Proof.Machine
end

