-- ==== Sys2Proof/Machine/Report.lean ====
section
/-! DEFINITION. What a step's writes report: a write to a queue's WAKE word is a wake event (25 R392, R399), a write to a watched signal word
is reported to the Rolernis complex (25 R399), and one to a TSIG to the windrow engine (21 R349); and the queues that ask for a slot from
then on (25 R398). -/

namespace Sys2Proof.Machine

/-- The Rolernis complex learns that the watched word of a queue has reached its value, should the word be lowered again (25 R399). -/
def CQueue.watched (k : Package) (c : CQueue) : CQueue :=
  if c.watch.any fun w => decide (w.2.toNat ≤ k.signal w.1) then { c with seen := true } else c

/-- The reports of a package at the end of a step. -/
def reportPackage (p : Nat) (s : State) : State :=
  let s := (s.pkg p).woken.foldl (fun s q => wakeQueue p q .wake s) s
  noteAsks p (s.modPkg p fun k =>
    { k with woken := [], queues := k.queues.map (CQueue.watched k), works := k.works.map (Work.watchTrigger k) })

/-- The reports of a step. -/
def reportWrites (s : State) : State := (s.pkgs.map (·.num)).foldl (fun s p => reportPackage p s) s

/-- A step's outcome with its reports made. -/
def reported (o : Out') : Out' :=
  match o with
  | .next s => .next (reportWrites s)
  | o => o

end Sys2Proof.Machine
end

