-- ==== Sys2Proof/Machine/Step.lean ====
section
/-! DEFINITION. One step of the machine: the agent whose turn it is acts, and what its writes report is reported. -/

namespace Sys2Proof.Machine

/-- What a turn's finding does. -/
def runFound (f : Found) (s : State) : Host.Outcome State Fault Refusal :=
  match f with
  | .idle => .next s
  | .run i => exec i s
  | .illegal w => .refused (.illegalWord w)
  | .taken t => .next t

/-- A turn is taken: the named agent acts, or the clock moves on. -/
def takeTurn (t : Turn) (s : State) : Host.Outcome State Fault Refusal :=
  match t with
  | .front i => runFound (fetchFront i s) { s with who := i }
  | .issue i q => runFound (fetchIssue i q s) { s with who := i }
  | .windrow p e => runFound (fetchWork p e s) { s with whoEntry := (p, e) }
  | .unit (.dispatch _) => .next s
  | .unit e => if (encode e) = .none then exec e s else .next s
  | .piece p e k u wr => .next (movePiece p e k u wr s)
  | .tick n => .next (tick n s)
  | .charge p q uj => .next (chargeQueue p q uj s)

/-- One step (assumption 1): the turn at the head of the tape is taken, or, with an empty tape, a free one. -/
def step (s : State) : Host.Outcome State Fault Refusal :=
  match s.tape with
  | t :: rest => reported (takeTurn t { s with tape := rest })
  | [] => reported (takeTurn (Config.nextTurn s.free) { s with free := s.free + 1 })

/-- The state with a collective step in place as the only step of work entry 0 of package 0, about to start (21 R348): the
entry runs, both peers are set and both loops are open. -/
def withStepWord (s : State) (w : BitVec 32) : State :=
  let s := s.modWork 0 0 fun k =>
    { k with st := .run, steps := [w], pc := 0, runs := [], holding := false, ranks := [0, 1],
             n0 := some 1, n1 := some 1, pa := some 1, pb := some 1 }
  { s with tape := .windrow 0 0 :: s.tape }

/-- The state with a front-end word at the program counter of sequencer 0 of core 0 of package 0, which runs (03 R40): the
word and its extension stand in the slot's code and in the instruction-cache line. -/
def withFrontWord (s : State) (w ext : W64) : State :=
  let i : Sid := ⟨0, 0, 0⟩
  let code := leBytes 8 w.toNat ++ leBytes 8 ext.toNat
  let q := s.seq i
  let n := q.slotN.toNat
  let s := s.modSeq i fun q => { q with st := .run, pc := 0, wait := none, deferred := [] }
  let s := s.modPkg 0 fun p =>
    let base := (vget {} p.slots n).base
    let p := { p with slots := vmod p.slots n fun t =>
      { t with loaded := true, codesz := 16, cont := if twoWord w then [1] else [] } }
    p.setBytes base code
  let s := s.modCore 0 0 fun c => { c with icache := [(n, 0, code)] }
  { s with tape := .front i :: s.tape }

/-- The state with an engine word at the head of its queue, past the compare, about to issue (03 R42, R44). -/
def withEngineWord (s : State) (w : W64) : State :=
  let i : Sid := ⟨0, 0, 0⟩
  let e := routeQueue w
  let s := s.modSeq i fun q => { q.setQueue e [{ makeEntry q w with compared := true }] with st := .run, next := q.next + 1 }
  { s with tape := .issue i e :: s.tape }

/-- The state in which the next step fetches and runs the instruction whose bits are w, numbered as the opcode table numbers
them (assumption 17): a collective step, a front-end word with its extension word, or an engine word. -/
def State.withFetchWord (s : State) (nbits w : Nat) : State :=
  if nbits ≤ 32 then withStepWord s (BitVec.ofNat 32 w)
  else
    let v : W64 := BitVec.ofNat 64 w
    if (Raw.ofWord v).q == 0 then withFrontWord s v (BitVec.ofNat 64 (w >>> 64)) else withEngineWord s v

end Sys2Proof.Machine
end

