-- ==== Sys2Proof/Safety.lean ====
section
/-! DEFINITION. What counts as a safe run, in the terms that claims use: a run in which no step stops; and the form in which every
memory of the machine stands. -/

namespace Sys2Proof.Machine

/-- The step does not stop: the machine goes on, a fault of the spec being a next state (23 R366). -/
def Goes (s : State) : Prop := ∃ t, step s = .next t

/-- t comes from s by steps that do not stop. -/
inductive Reaches (s : State) : State → Prop where
  | refl : Reaches s s
  | step {t u : State} : Reaches s t → step t = .next u → Reaches s u

/-- A run from s is safe: no state that it reaches stops. -/
def SafeFrom (s : State) : Prop := ∀ t, Reaches s t → Goes t

/-- The memories of a core, and the words of its tiles, stand in canonical form. -/
def Core.memWf (c : Core) : Bool :=
  Memory.wf zeroByte c.spad && Memory.wf zeroByte c.win &&
    c.tiles.toList.all fun t => cellSorted none t.data && t.data.all fun e => !decide (e.2 = 0)

/-- Every memory of a package stands in canonical form, those in its saved teams too. -/
def Package.memWf (p : Package) : Bool :=
  Memory.wf p.unlisted p.mem && p.cores.toList.all Core.memWf && p.teams.all fun t => t.saved.all Core.memWf

/-- Every memory of the machine stands in canonical form, so that equal memories are equal data. -/
def State.memWf (s : State) : Bool := s.pkgs.all Package.memWf

/-! ## When a word or entry acts -/

/-- The sequencer State.who can carry out a front-end word with a guard that names the scalar registers `rs`: it is there, its
guard is true, and no register of them waits for a load's data (05 R86; 09 R154, R165). -/
structure Ready (s : State) (g : Guard) (rs : List Reg) : Prop where
  has : s.has s.who = true
  guard : (s.seq s.who).guard g = true
  data : (s.seq s.who).clear rs = true

/-- Entry x is the head of a queue of the sequencer State.who and issues now: it has passed the compare, its guard is true and its
tokens are there (03 R42-R46). -/
structure Issues (s : State) (e : EQ) (h : EHead) (x : Entry) : Prop where
  has : s.has s.who = true
  head : (s.seq s.who).headOf e = some x
  compared : x.compared = true
  guard : x.guard = true
  tokens : (s.seq s.who).canTake e h = true

/-! ## What a step leaves as it was -/

/-- Every byte of memory reads as before: package memory, scratchpads and atomic windows; and so do the tiles. -/
structure SameMemory (s t : State) : Prop where
  mem : ∀ p a, (t.pkg p).byte a = (s.pkg p).byte a
  spad : ∀ p c a, memGet zeroByte (t.core p c).spad a = memGet zeroByte (s.core p c).spad a
  win : ∀ p c a, memGet zeroByte (t.core p c).win a = memGet zeroByte (s.core p c).win a
  tiles : ∀ p c, (t.core p c).tiles = (s.core p c).tiles

/-- What stands outside sequencer i reads as before: the other sequencers, every memory, the carves and leases, contexts and teams,
the fabric and the clock. -/
structure OnlySeq (s t : State) (i : Sid) : Prop where
  memory : SameMemory s t
  others : ∀ j, j ≠ i → t.seq j = s.seq j
  carve : ∀ p c, (t.core p c).carve = (s.core p c).carve
  holder : ∀ p c, (t.core p c).holder = (s.core p c).holder
  bars : ∀ p c, (t.core p c).bars = (s.core p c).bars
  ctxs : ∀ p, (t.pkg p).ctxs = (s.pkg p).ctxs
  teams : ∀ p, (t.pkg p).teams = (s.pkg p).teams
  works : ∀ p, (t.pkg p).works = (s.pkg p).works
  net : t.net = s.net
  ck : t.ck = s.ck

/-! ## Front-end words (05 R84-R86, R105; 07 R126-R133) -/

/-- A legal fetch address of sequencer i (05 R105): in the code of its loaded slot, a multiple of 8, and no second word. -/
def GoodTarget (s : State) (i : Sid) (t : W64) : Prop :=
  let x := vget {} (s.pkg i.pkg).slots (s.seq i).slotN.toNat
  x.loaded = true ∧ t.toNat % 8 = 0 ∧ t.toNat < x.codesz ∧ t.toNat / 8 ∉ x.cont

/-- A result goes to sD, and the flags that it raised are ORed into FPS (07 R127, R130). -/
def resultWrite (d : Reg) (r : W64 × Nat) (q : Seq) : Seq := { q.setS d r.1 with fps := q.fps ||| BitVec.ofNat 64 r.2 }

/-- The guard, the length in bytes and the scalar registers of a front-end word (05 R84, R88-R91; 09 R165); of `mfmt`, whose
format word names registers too, none. s0, which never waits, stands in an atomic without a C operand. -/
def frontOf : Instr → Option (Guard × Nat × List Reg)
  | .add g _ _ d a b | .sub g _ _ d a b | .mul g _ _ d a b | .mulh g _ d a b | .div g _ _ d a b | .rem g _ d a b => some (g, 8, [d, a, b])
  | .and g _ d a b | .or g _ d a b | .xor g _ d a b | .shl g _ _ d a b | .shr g _ d a b | .sra g _ d a b => some (g, 8, [d, a, b])
  | .min g _ d a b | .max g _ d a b | .sel g _ d a b _ => some (g, 8, [d, a, b])
  | .clz g _ d a | .ctz g _ d a | .popc g _ d a => some (g, 8, [d, a])
  | .addi g d a _ | .andi g d a _ | .ori g d a _ | .xori g d a _ | .shli g d a _ | .shri g d a _ | .srai g d a _ | .muli g d a _ =>
    some (g, 8, [d, a])
  | .movi g d _ | .movhi g d _ => some (g, 8, [d])
  | .lea g d a _ => some (g, 8, [d, a])
  | .leal g d a _ => some (g, 16, [d, a])
  | .movl g d _ => some (g, 16, [d])
  | .ld8 g d a _ | .ld16 g d a _ | .ld32 g d a _ | .ld64 g d a _ | .ld8s g d a _ | .ld16s g d a _ | .ld32s g d a _ => some (g, 8, [d, a])
  | .st8 g d a _ | .st16 g d a _ | .st32 g d a _ | .st64 g d a _ => some (g, 8, [d, a])
  | .fadd g _ _ d a b | .fsub g _ _ d a b | .fmul g _ _ d a b | .fdiv g _ _ d a b | .fmin g _ d a b | .fmax g _ d a b =>
    some (g, 8, [d, a, b])
  | .ffma g _ _ d a b c => some (g, 8, [d, a, b, c])
  | .fsqrt g _ _ d a | .fcvt g _ _ _ _ d a => some (g, 8, [d, a])
  | .cmp g _ _ _ a b | .fcmp g _ _ _ a b => some (g, 8, [a, b])
  | .pand g _ _ _ | .por g _ _ _ | .pxor g _ _ _ | .pnot g _ _ => some (g, 8, [])
  | .br g _ | .lend g _ _ | .bar g _ | .bard g _ | .barj g _ | .qfence g _ _ _ _ | .rel g _ | .acq g _ | .tfence g | .tlbia g =>
    some (g, 8, [])
  | .reap g => some (g, 8, [3])
  | .jr g a | .ret g a | .lset g _ a _ | .tokset g a | .tagclr g a => some (g, 8, [a])
  | .ssetFpc g a | .ssetFps g a | .ssetTags g a | .ssetLease g a | .ssetPrio g a | .ssetMemb g a | .ssetLc g _ a | .ssetBase g _ a =>
    some (g, 8, [a])
  | .call g d _ | .tokget g d | .sget g d _ => some (g, 8, [d])
  | .callr g d a | .wtany g d a | .wtall g d a | .wtff g d a => some (g, 8, [d, a])
  | .wcnt g _ d a b => some (g, 8, [d, a, b])
  | .aadd g d a b | .afadd g d a b | .amin g _ d a b | .amax g _ d a b | .aand g d a b | .aor g d a b | .axor g d a b | .aswap g d a b =>
    some (g, 8, [d, a, b, 0])
  | .acas g d a b c => some (g, 8, [d, a, b, c])
  | .pchg g a | .tlbi g a | .blclr g a => some (g, 8, [a])
  | .blq g d a => some (g, 8, [d, a])
  | .sow g d a => some (g, 8, [d, a, a + 1, a + 2, a + 3])
  | .sysNop g d a | .sysDtime g d a | .sysHostevent g d a | .sysAllowance g d a | .sysEstimate g d a | .sysCtxinfo g d a
  | .sysNoService g d a _ => some (g, 8, [d, a])
  | .karm g d a b => some (g, 8, [d, a, b])
  | .kstat g d b | .kdis g d b => some (g, 8, [d, b])
  | _ => none

/-! ## Integers (07 R120, R122; 09 R158) -/

/-- A register read as signed or unsigned. -/
def intRead (ty : ITy) (x : W64) : Int := if ty = .i64 then x.toInt else x.toNat

/-- Sat(x, TYPE). -/
def intClamp (ty : ITy) (x : Int) : Int :=
  if ty = .i64 then max (-(2 ^ 63)) (min (2 ^ 63 - 1) x) else max 0 (min (2 ^ 64 - 1) x)

/-- An exact result x goes to sD, modulo 2^64 or saturated, with SF where saturating changed it. -/
def intWrite (ty : ITy) (sat : Bool) (d : Reg) (x : Int) (q : Seq) : Seq :=
  { q.setS d (BitVec.ofInt 64 (if sat then intClamp ty x else x)) with
    fps := if sat ∧ intClamp ty x ≠ x then q.fps ||| 0x20#64 else q.fps }

/-- n is the count of leading zeros of x. -/
def LeadingZeros (x : W64) (n : Nat) : Prop := n ≤ 64 ∧ (∀ k < n, x.getLsbD (63 - k) = false) ∧ (n < 64 → x.getLsbD (63 - n) = true)

/-- n is the count of trailing zeros of x. -/
def TrailingZeros (x : W64) (n : Nat) : Prop := n ≤ 64 ∧ (∀ k < n, x.getLsbD k = false) ∧ (n < 64 → x.getLsbD n = true)

/-- The count of one bits of x. -/
def onesCount (x : W64) : Nat := ((List.range 64).filter fun k => x.getLsbD k).length

/-! ## Loads, stores and atomics (09 R162-R165, R184-R187) -/

/-- A load word's size in bytes, whether it extends the sign, and its guard, destination, base and offset. -/
def loadOf : Instr → Option (Nat × Bool × Guard × Reg × Reg × BitVec 36)
  | .ld8 g d a imm => some (1, false, g, d, a, imm)
  | .ld16 g d a imm => some (2, false, g, d, a, imm)
  | .ld32 g d a imm => some (4, false, g, d, a, imm)
  | .ld64 g d a imm => some (8, false, g, d, a, imm)
  | .ld8s g d a imm => some (1, true, g, d, a, imm)
  | .ld16s g d a imm => some (2, true, g, d, a, imm)
  | .ld32s g d a imm => some (4, true, g, d, a, imm)
  | _ => none

/-- A store word's size in bytes, and its guard, data register, base and offset. -/
def storeOf : Instr → Option (Nat × Guard × Reg × Reg × BitVec 36)
  | .st8 g d a imm => some (1, g, d, a, imm)
  | .st16 g d a imm => some (2, g, d, a, imm)
  | .st32 g d a imm => some (4, g, d, a, imm)
  | .st64 g d a imm => some (8, g, d, a, imm)
  | _ => none

/-- An atomic word's size in bytes, the value that it leaves for the old value and its B and C operands, and its guard and
registers. -/
def atomOf : Instr → Option (Nat × (W64 → W64 → W64 → W64) × Guard × Reg × Reg × Reg × Reg)
  | .aadd g d a b => some (8, fun old x _ => old + x, g, d, a, b, 0)
  | .afadd g d a b => some (4, fun old x _ => BitVec.ofNat 64 ((tyFmt .fp32).add {} false old.toNat x.toNat).1, g, d, a, b, 0)
  | .amin g ty d a b => some (8, fun old x _ => if intRead ty x < intRead ty old then x else old, g, d, a, b, 0)
  | .amax g ty d a b => some (8, fun old x _ => if intRead ty old < intRead ty x then x else old, g, d, a, b, 0)
  | .aand g d a b => some (8, fun old x _ => old &&& x, g, d, a, b, 0)
  | .aor g d a b => some (8, fun old x _ => old ||| x, g, d, a, b, 0)
  | .axor g d a b => some (8, fun old x _ => old ^^^ x, g, d, a, b, 0)
  | .aswap g d a b => some (8, fun _ x _ => x, g, d, a, b, 0)
  | .acas g d a b c => some (8, fun old x y => if old = x then y else old, g, d, a, b, c)
  | _ => none

/-- A load word has executed: its access is pending under the next handle. -/
def Seq.addLoad (q : Seq) (e : Pend) : Seq :=
  { q with pc := q.pc + 8, fe := q.fe ++ [{ e with id := q.next, store := false, caddr := q.pc }], next := q.next + 1 }

/-- A store word has executed: its access is pending under the next handle, and the harrow has it to compare. -/
def Seq.addStore (q : Seq) (e : Pend) (ck : Nat) : Seq :=
  { q with
    pc := q.pc + 8, fe := q.fe ++ [{ e with id := q.next, store := true, caddr := q.pc }]
    harrow := q.harrow ++ [.store q.next ck], next := q.next + 1 }

/-- No load for another package waits to be sent (09 R165). -/
def NoneToSend (s : State) (i : Sid) : Prop :=
  ∀ e ∈ (s.seq i).fe, e.store = false → e.sent = false → farPlace s i e.place = false

/-- An access of n bytes at a place is free to be performed by sequencer i after the pending accesses `before` (09 R165, R193;
15 R256, R261): none of them must come first, no unanswered atomic is to its bytes, its core allows it and no granule of it wakes. -/
structure MayPerform (s : State) (i : Sid) (before : List Pend) (e : Pend) (pl : Place) : Prop where
  near : farPlace s i e.place = false
  order : ∀ b ∈ before, mustFollow s i b e = false
  atoms : atomAhead s i e = false
  allowed : nearPlace s i e = some (pl, none)
  awake : spadStalls s i e.size pl = false

/-! ## Translation (23 R382-R385) -/

/-- A table entry read at a level breaks 23 R383: a reserved bit is set, or LEAF is not as the level allows. -/
def entryBad (l : Nat) (e : W64) : Prop :=
  let leaf := e.getLsbD 2
  e.extractLsb' 61 2 ≠ 0 ∨ e.extractLsb' 44 6 ≠ 0 ∨ e.extractLsb' 3 8 ≠ 0 ∨ (leaf = true ∧ 4 ≤ l) ∨ (leaf = false ∧ l = 1) ∨
    (leaf = false ∧ (e.getLsbD 63 = true ∨ e.extractLsb' 50 11 ≠ 0 ∨ e.getLsbD 11 = true ∨ e.getLsbD 1 = true)) ∨
    (leaf = true ∧ (e.getLsbD 60 = false ∧ e.extractLsb' 50 10 ≠ 0 ∨ l ≠ 1 ∧ e.getLsbD 11 = true ∨
      l = 3 ∧ e.extractLsb' 12 18 ≠ 0 ∨ l = 2 ∧ e.extractLsb' 12 9 ≠ 0))

/-- The address of the table entry that a walk for va reads at a level, and the entry as it stands in memory (23 R382). -/
def entryAddr (va l t : Nat) : Nat := t + 8 * (va / 2 ^ (9 * l + 3) % 2 ^ 9)
@[inherit_doc entryAddr] def entryIn (k : Package) (va l t : Nat) : W64 := BitVec.ofNat 64 (k.num' (entryAddr va l t) 8)

/-- How a walk for va from level l and table t on ends (23 R384): at a leaf, with its level and address, or in a fault, with its
reason and level. -/
inductive Walks (k : Package) (va : Nat) : Nat → Nat → WalkEnd → Prop where
  | table {l t : Nat} : 1 ≤ l → k.blighted t = true → Walks k va l t (.fault 7 l)
  | invalid {l t : Nat} : 1 ≤ l → k.blighted t = false → (entryIn k va l t).getLsbD 0 = false → Walks k va l t (.fault 1 l)
  | reserved {l t : Nat} : 1 ≤ l → k.blighted t = false → (entryIn k va l t).getLsbD 0 = true → entryBad l (entryIn k va l t) →
      Walks k va l t (.fault 2 l)
  | leaf {l t : Nat} : 1 ≤ l → k.blighted t = false → (entryIn k va l t).getLsbD 0 = true → ¬ entryBad l (entryIn k va l t) →
      (entryIn k va l t).getLsbD 2 = true → Walks k va l t (.leaf (entryIn k va l t) l (entryAddr va l t))
  | nowhere {l t : Nat} : 1 ≤ l → k.blighted t = false → (entryIn k va l t).getLsbD 0 = true → ¬ entryBad l (entryIn k va l t) →
      (entryIn k va l t).getLsbD 2 = false → k.populated (((entryIn k va l t).extractLsb' 12 32).toNat * 4096) = false →
      Walks k va l t (.fault 4 l)
  | next {l t : Nat} {w : WalkEnd} : k.blighted t = false → (entryIn k va (l + 1) t).getLsbD 0 = true →
      ¬ entryBad (l + 1) (entryIn k va (l + 1) t) → (entryIn k va (l + 1) t).getLsbD 2 = false →
      k.populated (((entryIn k va (l + 1) t).extractLsb' 12 32).toNat * 4096) = true →
      Walks k va l (((entryIn k va (l + 1) t).extractLsb' 12 32).toNat * 4096) w → Walks k va (l + 1) t w

/-- What the checks after a leaf make of an access (23 R384): a fault, or the frame's package and the address. -/
def leafVerdict (p : Nat) (k : Package) (cx : Context) (e : W64) (l va : Nat) (wr blight : Bool) : Tr :=
  let vp := (e.extractLsb' 50 10).toNat
  let far := e.getLsbD 60 = true ∧ vp ≠ (cx.vps.map (·.1)).findIdx (· == p)
  let pa := (e.extractLsb' 12 32).toNat * 4096 + va % 2 ^ (9 * l + 3)
  if e.getLsbD 60 = true ∧ cx.vps.length ≤ vp then .fault 0x01 6 l
  else if ¬ far ∧ k.populated pa = false then .fault 0x01 4 l
  else if wr = true ∧ e.getLsbD 1 = false then .fault 0x02 1 l
  else if wr = true ∧ ¬ far ∧ k.granary pa = true then .fault 0x02 2 l
  else if blight = true ∧ ¬ far ∧ k.blighted pa = true then .fault 0x03 0 0
  else .ok (if far then ((cx.vps.map (·.1)).getD vp p) else p) pa

/-! ## Engine words (03 R42-R47; 11 R197-R201) -/

/-- Entry x of a queue has taken its tokens and issued. -/
def Seq.started (q : Seq) (e : EQ) (h : EHead) (x : Entry) : Seq :=
  (q.take e h).modEntry e x.id fun y => { y with issued := true }

/-- A C entry that acts on its sequencer alone issues, has its effect f and completes. -/
def VecEnds (s : State) (h : EHead) (x : Entry) (f : Seq → Seq) (o : Host.Outcome State Fault Refusal) : Prop :=
  o = .next (s.modSeq s.who fun q => (f (q.started .c h x)).complete .c x.id)

/-- A C entry issues and completes with one vector register written: an active element of width w takes its result modulo 2^w, an
inactive one keeps its value, and the flags of the active elements are ORed into FPS (11 R198, R199). -/
def VecWrites (s : State) (h : EHead) (x : Entry) (w : Nat) (km : KReg) (d : Reg) (val : Seq → Nat → Int × Nat)
    (o : Host.Outcome State Fault Refusal) : Prop :=
  ∃ f : Seq → Seq, VecEnds s h x f o ∧ ∀ q, ∃ v,
    f q = { q with
      v := vput q.v d.toNat v
      fps := q.fps ||| BitVec.ofNat 64 ((List.range (4096 / w)).foldl (fun a i => a ||| if (q.kr km).getLsbD i then (val q i).2 else 0) 0) } ∧
    ∀ i < 4096 / w, (velem w v i : Int) = if (q.kr km).getLsbD i then (val q i).1 % 2 ^ w else velem w (q.vr d) i

/-- A C entry issues and completes with a group of g vector registers written: flat element n, which is element n / g of register
d + n mod g, takes its result modulo 2^w where it is active, and the flags of the active elements are ORed into FPS (11 R198, R211). -/
def GroupWrites (s : State) (h : EHead) (x : Entry) (w g : Nat) (km : KReg) (d : Reg) (val : Seq → Nat → Int × Nat)
    (o : Host.Outcome State Fault Refusal) : Prop :=
  ∃ f : Seq → Seq, VecEnds s h x f o ∧ ∀ q,
    { f q with v := q.v, fps := q.fps } = q ∧
    (∀ n < g * (4096 / w), (velem w ((f q).vr (d + BitVec.ofNat 5 (n % g))) (n / g) : Int) =
      if (q.kr km).getLsbD n then (val q n).1 % 2 ^ w else velem w (q.vr (d + BitVec.ofNat 5 (n % g))) (n / g)) ∧
    (∀ r : Reg, (∀ k < g, r ≠ d + BitVec.ofNat 5 k) → (f q).vr r = q.vr r) ∧
    ∀ k < 64, (f q).fps.getLsbD k = true ↔
      q.fps.getLsbD k = true ∨ ∃ n < g * (4096 / w), (q.kr km).getLsbD n = true ∧ (val q n).2.testBit k = true

/-- A C entry issues and completes with vD alone written, from the bytes of its core (11 R222). -/
def SpadLoads (s : State) (h : EHead) (x : Entry) (d : Reg) (v : Core → Vec → Prop) (o : Host.Outcome State Fault Refusal) : Prop :=
  ∃ f : Core → Vec, (∀ k, v k (f k)) ∧ o = .next (s.modCore s.who.pkg s.who.core fun k =>
    k.modSeq s.who.seq fun q => ((q.started .c h x).setV d (f k)).complete .c x.id)

/-- A C entry issues and completes with the scratchpad alone written (11 R222, R224). -/
def SpadStores (s : State) (h : EHead) (x : Entry) (v : Core → Memory → Prop) (o : Host.Outcome State Fault Refusal) : Prop :=
  ∃ f : Core → Memory, (∀ k, v k (f k)) ∧ o = .next (s.modCore s.who.pkg s.who.core fun k =>
    { (k.modSeq s.who.seq fun q => (q.started .c h x).complete .c x.id) with spad := f k })

/-- An exact integer result of a vector type, saturated where `sat` is set, and SF where that changed it (07 R122). -/
def vecInt (ty : Ty) (sat : Bool) (x : Int) : Int × Nat :=
  let lo : Int := if ty.isSigned then -(2 ^ (ty.width - 1)) else 0
  let hi : Int := if ty.isSigned then 2 ^ (ty.width - 1) - 1 else 2 ^ ty.width - 1
  if sat then (max lo (min hi x), if max lo (min hi x) ≠ x then 0x20 else 0) else (x, 0)

/-- A result of a vector type: of a float type the value v rounded once, with the flags that it raised, else the exact integer. -/
def vecResult (ty : Ty) (env : FEnv) (sat : Bool) (v : Val × Nat) (x : Int) : Int × Nat :=
  if ty.isFloat then
    let r := (tyFmt ty).ofVal env sat v.1
    (r.1, r.2 ||| v.2)
  else vecInt ty sat x

/-! ## Matrix commands (13 R226-R251) -/

/-- A matrix command that has passed its checks of format, tiles and scales may enter the array: its sequencer holds the lease, its
bases and pitches are legal, its bytes lie in the direct region and are awake, no receiver waits at the array, and no command there
still reads what it writes (03 R76; 13 R228, R232, R242). -/
structure MayEnter (s : State) (pairs : List (W64 × W64)) (reads writes : List (Nat × Nat)) : Prop where
  holder : (s.core s.who.pkg s.who.core).holder = some s.who.seq
  operands : ∀ p ∈ pairs, operandBad p.1 p.2 = false
  direct : ∀ r ∈ reads ++ writes, r.1 + r.2 ≤ directEnd (s.core s.who.pkg s.who.core).carve ∧
    (s.core s.who.pkg s.who.core).wakingAt r.1 r.2 = false
  array : ∀ a ∈ (s.core s.who.pkg s.who.core).array, a.fromRow = false ∧ a.fromCol = false
  unread : (s.core s.who.pkg s.who.core).stillReads s.who.seq writes = false

/-- The head C entry x has entered the array of core k, popped its format word where it pops one, raised its flags and completed. -/
def Core.entered (k : Core) (n : Nat) (h : EHead) (x : Entry) (pop : Bool) (flags : Nat) : Core :=
  k.countLease.modSeq n fun q =>
    let q := q.started .c h x
    ((if pop then q.popFmt else q).orFps (flagWord flags)).complete .c x.id

/-- The tiles after a command that writes all of tile t: its elements, kind and scales; the other tiles of a group that it breaks are F32 with
scales 1.0, their bits as before, and every other tile is as before (13 R239). -/
structure TileIs (old new : Vector Tile 30) (t : Nat) (kind : TileKind) (scales : BitVec 32 × BitVec 32) (val : Nat → Nat) : Prop where
  elements : ∀ i < 32768, (vget {} new t).el i = BitVec.ofNat 32 (val i)
  kind : (vget {} new t).kind = kind
  scales : ((vget {} new t).ta, (vget {} new t).tb) = scales
  others : ∀ n < 30, n ≠ t → vget {} new n =
    if n ∈ groupOf old t then { vget {} old n with kind := .f32, ta := 0x3F800000, tb := 0x3F800000 } else vget {} old n

/-- A C entry enters the array, writes tile t whole and completes, with the flags of its elements (13 R226-R228). -/
def TileWrites (s : State) (h : EHead) (x : Entry) (pop : Bool) (t : Nat) (kind : TileKind) (scales : Core → BitVec 32 × BitVec 32)
    (val : Core → Nat → Nat × Nat) (o : Host.Outcome State Fault Refusal) : Prop :=
  ∃ f : Core → Vector Tile 30 × Nat,
    (∀ k, TileIs k.tiles (f k).1 t kind (scales k) (fun i => (val k i).1) ∧
      ∀ b, (f k).2.testBit b = true ↔ ∃ i < 32768, (val k i).2.testBit b = true) ∧
    o = .next (s.modCore s.who.pkg s.who.core fun k => { k.entered s.who.seq h x pop (f k).2 with tiles := (f k).1 })

/-- A finite value in units of 2^k, for k no larger than its exponent. -/
def Val.units (k : Int) : Val → Int
  | .fin neg m e => (if neg then -1 else 1) * m * 2 ^ (e - k).toNat
  | _ => 0

/-- No exponent of the finite values is below k. -/
def UnitOf (k : Int) (vs : List Val) : Prop := ∀ neg m e, Val.fin neg m e ∈ vs → k ≤ e

/-- A value is a number. -/
def Val.Number (v : Val) : Prop := ∃ neg m e, v = .fin neg m e

/-- `top` is the largest floor(log2 |t|) of the finite non-zero values. -/
def TopOf (top : Int) (vs : List Val) : Prop :=
  (∃ neg m e, Val.fin neg m e ∈ vs ∧ m ≠ 0 ∧ top = e + Nat.log2 m) ∧ ∀ neg m e, Val.fin neg m e ∈ vs → m ≠ 0 → e + Nat.log2 m ≤ top

/-- The sum of a group's terms, each truncated at 2^(E - 48), rounded once, and its flags (07 R143, R144). -/
structure GroupSumIs (terms : List Val) (r fl : Nat) : Prop where
  nan : Val.nan ∈ terms ∨ (Val.inf false ∈ terms ∧ Val.inf true ∈ terms) → r = 0x7FC00000 ∧ fl = 0
  inf : ∀ n, Val.nan ∉ terms → Val.inf n ∈ terms → Val.inf (!n) ∉ terms → r = (if n then 0xFF800000 else 0x7F800000) ∧ fl = 0
  zero : (∀ t ∈ terms, ∃ n e, t = .fin n 0 e) → r = (if ∀ t ∈ terms, t.sign = true then 0x80000000 else 0) ∧ fl = 0
  sum : (∀ t ∈ terms, t.Number) → ∀ top k, TopOf top terms → UnitOf k terms → k ≤ top - 48 →
    let x := (tyFmt .fp32).ofVal {} false
      (Val.ofInt false ((terms.map fun t => Int.fdiv (t.units k) (2 ^ (top - 48 - k).toNat)).sum) (top - 48))
    r = x.1 ∧ fl = if x.2.testBit 2 then flagOF else 0

/-- Groups of g products, each added with the sum before it, lead from the sum s to the sum r (07 R143). -/
inductive GroupsLead (g : Nat) : List Val → Nat → Nat → Nat → Prop where
  | none (s : Nat) : GroupsLead g [] s s 0
  | next {ts : List Val} {s s' r fl fl' : Nat} : ts ≠ [] → GroupSumIs ((tyFmt .fp32).val s :: ts.take g) s' fl →
      GroupsLead g (ts.drop g) s' r fl' → GroupsLead g ts s r (fl ||| fl')

/-- The scales of a tile after a command that adopts those of its format word with ACC = 0 or on a ZERO tile (13 R241). -/
def scalesAfter (acc : Bool) (y : Tile) (f : Fmtw) : BitVec 32 × BitVec 32 := if acc = false ∨ y.kind = .zero then (f.ta, f.tb) else (y.ta, y.tb)

/-! ## Copies (15 R273, 17 R297) -/

/-- A copy command's queue and header. -/
def copyOf : Instr → Option (EQ × EHead)
  | .cpy h _ _ | .cgat h _ _ | .cmc h _ _ | .cget h _ _ => some (.l, h)
  | .cpyo h _ _ | .cput h _ _ => some (.s, h)
  | _ => none

/-! ## Links (01 R29, R30; 17 R311-R315) -/

/-- d lies within n hops of p over running links. -/
inductive Within (s : State) : Nat → Nat → Nat → Prop where
  | here (n p : Nat) : Within s n p p
  | hop {n p q d port : Nat} : (port, q) ∈ neighbours s p → Within s n q d → Within s (n + 1) p d

/-- b is the least cost of the outputs of a router. -/
def LeastCost (s : State) (p : Nat) (ports : List Nat) (b : Nat) : Prop :=
  (∃ n ∈ ports, portCost s p n = b) ∧ ∀ n ∈ ports, b ≤ portCost s p n

end Sys2Proof.Machine
end

