-- ==== Sys2Proof/Certificates/Slice0/Obligations.lean ====
section
/-! DEFINITION. The statements for the provers, about the machine as the rules of spec/ give it. -/

open Sys2Proof Sys2Proof.Machine

/-! ## Scalar words -/

/-- 09 R158: the integer register forms. Each, when ready, goes on to the state in which only its sequencer has changed: sD holds the
result of the operands a and b as they stood, SF is set where saturating changed it, and the program counter has moved on. -/
def Obligations.IntegerRegisterForms : Prop :=
  ∀ (s : State) (g : Guard) (ty : ITy) (sat : Bool) (d a b : Reg) (c : PReg),
    let goes := fun (f : Seq → Seq) => Host.Outcome.next (φ := Fault) (ρ := Refusal) (s.modSeq s.who fun q => (f q).adv 8)
    let x := fun (q : Seq) => q.sr a
    let y := fun (q : Seq) => q.sr b
    let u := fun (q : Seq) => intRead ty (x q)
    let v := fun (q : Seq) => intRead ty (y q)
    let n := fun (q : Seq) => ((y q).extractLsb' 0 6).toNat
    (Ready s g [d, a, b] →
      exec (.add g ty sat d a b) s = goes (fun q => intWrite ty sat d (u q + v q) q) ∧
      exec (.sub g ty sat d a b) s = goes (fun q => intWrite ty sat d (u q - v q) q) ∧
      exec (.mul g ty sat d a b) s = goes (fun q => intWrite ty sat d (u q * v q) q) ∧
      exec (.mulh g ty d a b) s = goes (fun q => intWrite ty false d (Int.fdiv (u q * v q) (2 ^ 64)) q) ∧
      exec (.div g ty sat d a b) s =
        goes (fun q => if y q = 0 then q.setS d (BitVec.allOnes 64) else intWrite ty sat d (Int.tdiv (u q) (v q)) q) ∧
      exec (.rem g ty d a b) s =
        goes (fun q => if y q = 0 then q.setS d (x q) else intWrite ty false d (u q - v q * Int.tdiv (u q) (v q)) q) ∧
      exec (.and g ty d a b) s = goes (fun q => q.setS d (x q &&& y q)) ∧
      exec (.or g ty d a b) s = goes (fun q => q.setS d (x q ||| y q)) ∧
      exec (.xor g ty d a b) s = goes (fun q => q.setS d (x q ^^^ y q)) ∧
      exec (.shl g ty sat d a b) s = goes (fun q => intWrite ty sat d (u q * 2 ^ n q) q) ∧
      exec (.shr g ty d a b) s = goes (fun q => q.setS d (x q >>> n q)) ∧
      exec (.sra g ty d a b) s = goes (fun q => q.setS d ((x q).sshiftRight (n q))) ∧
      exec (.min g ty d a b) s = goes (fun q => intWrite ty false d (min (u q) (v q)) q) ∧
      exec (.max g ty d a b) s = goes (fun q => intWrite ty false d (max (u q) (v q)) q) ∧
      exec (.sel g ty d a b c) s = goes (fun q => q.setS d (if q.pr c then x q else y q))) ∧
    (Ready s g [d, a] →
      (∃ n : W64 → Nat, (∀ w, LeadingZeros w (n w)) ∧
        exec (.clz g ty d a) s = goes (fun q => q.setS d (BitVec.ofNat 64 (n (x q))))) ∧
      (∃ n : W64 → Nat, (∀ w, TrailingZeros w (n w)) ∧
        exec (.ctz g ty d a) s = goes (fun q => q.setS d (BitVec.ofNat 64 (n (x q))))) ∧
      exec (.popc g ty d a) s = goes (fun q => q.setS d (BitVec.ofNat 64 (onesCount (x q)))))

/-- 09 R159-R161: the immediate forms act as their register forms with TYPE `.i64`, SAT = 0 and b the sign-extended immediate; then moves
and formed addresses, of which a two-word form moves the program counter on by 16, with their words (05 R89, R90, R93). -/
def Obligations.ImmediatesAndMoves : Prop :=
  (∀ (s : State) (g : Guard) (d a : Reg) (imm : BitVec 36), Ready s g [d, a] →
      let goes := fun (f : W64 → W64) =>
        Host.Outcome.next (φ := Fault) (ρ := Refusal) (s.modSeq s.who fun q => (q.setS d (f (q.sr a))).adv 8)
      let y := imm.signExtend 64
      let n := (y.extractLsb' 0 6).toNat
      exec (.addi g d a imm) s = goes (fun x => x + y) ∧
      exec (.andi g d a imm) s = goes (fun x => x &&& y) ∧
      exec (.ori g d a imm) s = goes (fun x => x ||| y) ∧
      exec (.xori g d a imm) s = goes (fun x => x ^^^ y) ∧
      exec (.shli g d a imm) s = goes (fun x => x <<< n) ∧
      exec (.shri g d a imm) s = goes (fun x => x >>> n) ∧
      exec (.srai g d a imm) s = goes (fun x => x.sshiftRight n) ∧
      exec (.muli g d a imm) s = goes (fun x => x * y)) ∧
  (∀ (s : State) (g : Guard) (d a : Reg) (imm : BitVec 36) (imm41 : BitVec 41) (imm64 : W64),
      let goes := fun (f : Seq → W64) (n : Nat) =>
        Host.Outcome.next (φ := Fault) (ρ := Refusal) (s.modSeq s.who fun q => (q.setS d (f q)).adv n)
      (Ready s g [d] →
        exec (.movi g d imm41) s = goes (fun _ => imm41.signExtend 64) 8 ∧
        exec (.movhi g d imm41) s = goes (fun q => (imm41.zeroExtend 64 <<< 23) ||| (q.sr d &&& 0x7FFFFF)) 8 ∧
        exec (.movl g d imm64) s = goes (fun _ => imm64) 16) ∧
      (Ready s g [d, a] →
        exec (.lea g d a imm) s = goes (fun q => BitVec.ofNat 64 ((q.sr a + imm.signExtend 64).toNat % 2 ^ 57)) 8 ∧
        exec (.leal g d a imm64) s = goes (fun q => BitVec.ofNat 64 ((q.sr a + imm64).toNat % 2 ^ 57)) 16)) ∧
  (∀ (g : Guard) (d a : Reg) (imm : BitVec 36) (imm41 : BitVec 41) (imm64 : W64),
      encode (.movi g d imm41) = .word ((Hd.f g).word 0x20 (d ++ imm41)) ∧
      encode (.movhi g d imm41) = .word ((Hd.f g).word 0x21 (d ++ imm41)) ∧
      encode (.lea g d a imm) = .word ((Hd.f g).word 0x22 (d ++ a ++ imm)) ∧
      encode (.leal g d a imm64) = .pair ((Hd.f g).word 0x23 (d ++ a ++ (0 : BitVec 36))) imm64 ∧
      encode (.movl g d imm64) = .pair ((Hd.f g).word 0x24 (d ++ (0 : Reg) ++ (0 : BitVec 36))) imm64)

/-- 09 R167, R168: each float word delivers the result of its operation on its operands, read and flushed under FPC and rounded once into
the type T, and ORs the flags of that rounding and of the operation into FPS; of minimum and maximum, those of a result that FZ replaces. -/
def Obligations.ScalarFloatForms : Prop :=
  ∀ (s : State) (g : Guard) (ty : FTy) (t u : Ty) (rnd : Rnd) (sat : Bool) (d a b c : Reg),
    let goes := fun (f : Seq → W64 × Nat) =>
      Host.Outcome.next (φ := Fault) (ρ := Refusal) (s.modSeq s.who fun q => (resultWrite d (f q) q).adv 8)
    let env := fun (q : Seq) (r : Rnd) => FEnv.of (q.fpc.extractLsb' 0 4) r
    let x := fun (q : Seq) (r : Reg) => (ftyFmt ty).opd (env q rnd) ((q.sr r).toNat % 2 ^ (ftyFmt ty).w)
    let once := fun (q : Seq) (v : Val × Nat) =>
      let r := (ftyFmt ty).ofVal (env q rnd) false v.1
      (BitVec.ofNat 64 r.1, r.2 ||| v.2)
    let chosen := fun (q : Seq) (larger : Bool) =>
      let e := env q .dyn
      let v := fun (r : Reg) => (ftyFmt ty).opd e ((q.sr r).toNat % 2 ^ (ftyFmt ty).w)
      let r := (ftyFmt ty).ofVal e false ((v a).pick larger (v b))
      (BitVec.ofNat 64 r.1, r.2)
    (Ready s g [d, a, b] →
      exec (.fadd g ty rnd d a b) s = goes (fun q => once q ((x q a).add (env q rnd).rm (x q b))) ∧
      exec (.fsub g ty rnd d a b) s = goes (fun q => once q ((x q a).add (env q rnd).rm (x q b).neg)) ∧
      exec (.fmul g ty rnd d a b) s = goes (fun q => once q ((x q a).mul (x q b))) ∧
      exec (.fdiv g ty rnd d a b) s = goes (fun q => once q ((x q a).div (ftyFmt ty).guardBits (x q b))) ∧
      exec (.fmin g ty d a b) s = goes (fun q => chosen q false) ∧
      exec (.fmax g ty d a b) s = goes (fun q => chosen q true)) ∧
    (Ready s g [d, a, b, c] →
      exec (.ffma g ty rnd d a b c) s = goes (fun q =>
        let p := (x q a).mul (x q b)
        let t := p.1.add (env q rnd).rm (x q c)
        if (x q c).isNan then once q (.nan, 0) else once q (t.1, p.2 ||| t.2))) ∧
    (Ready s g [d, a] →
      exec (.fsqrt g ty rnd d a) s = goes (fun q => once q ((x q a).sqrt (ftyFmt ty).guardBits)) ∧
      exec (.fcvt g t u rnd sat d a) s = goes (fun q =>
        let r := convert (env q rnd) sat t u ((q.sr a).toNat % 2 ^ u.width)
        (if t = .i32 then (BitVec.ofNat 32 r.1).signExtend 64 else BitVec.ofNat 64 r.1, r.2)))

/-- 07 R123, R126-R129, R132, R133, R135: the special operands of the scalar float operations, and the order that minimum and maximum give to
zeros; rounding a magnitude m * 2^e to the multiples n * 2^q of 2^q, both counted in units of 2^k: to nearest with ties to even, toward zero,
toward plus infinity and toward minus infinity, and whether the result is exact; and the one rounding of a finite value into a format: what
an overflow delivers, by mode and SAT, what FZ replaces, and otherwise the value that the delivered bits have, and the flags of each. -/
def Obligations.FloatOperandsAndRounding : Prop :=
  (∀ (rm : Mode) (k : Nat) (v : Val) (x y : Bool) (m n : Nat) (e d : Int),
      (Val.nan.add rm v = (.nan, 0) ∧ v.add rm .nan = (.nan, 0) ∧ Val.nan.mul v = (.nan, 0) ∧ v.mul .nan = (.nan, 0) ∧
        Val.nan.div k v = (.nan, 0) ∧ v.div k .nan = (.nan, 0) ∧ Val.nan.sqrt k = (.nan, 0) ∧
        Val.nan.pick x v = .nan ∧ v.pick x .nan = .nan) ∧
      (x ≠ y → (Val.inf x).add rm (.inf y) = (.nan, flagIV)) ∧ (Val.inf x).add rm (.inf x) = (.inf x, 0) ∧
      (Val.inf x).add rm (.fin y n d) = (.inf x, 0) ∧ (Val.fin y n d).add rm (.inf x) = (.inf x, 0) ∧
      (Val.inf x).mul (.fin y 0 d) = (.nan, flagIV) ∧ (Val.fin y 0 d).mul (.inf x) = (.nan, flagIV) ∧
      (n ≠ 0 → (Val.inf x).mul (.fin y n d) = (.inf (x != y), 0) ∧ (Val.fin y n d).mul (.inf x) = (.inf (x != y), 0)) ∧
      (Val.fin x 0 e).div k (.fin y 0 d) = (.nan, flagIV) ∧ (Val.inf x).div k (.inf y) = (.nan, flagIV) ∧
      (m ≠ 0 → (Val.fin x m e).div k (.fin y 0 d) = (.inf (x != y), flagDZ)) ∧ (Val.inf x).div k (.fin y n d) = (.inf (x != y), 0) ∧
      (n ≠ 0 → (Val.fin x 0 e).div k (.fin y n d) = (.fin (x != y) 0 0, 0)) ∧ (Val.fin x m e).div k (.inf y) = (.fin (x != y) 0 0, 0) ∧
      (m ≠ 0 → (Val.fin true m e).sqrt k = (.nan, flagIV)) ∧ (Val.fin x 0 e).sqrt k = (.fin x 0 0, 0) ∧
      (Val.inf true).sqrt k = (.nan, flagIV) ∧ (Val.inf false).sqrt k = (.inf false, 0) ∧
      (∃ z, (Val.fin x m e).add rm (.fin (!x) m e) = (.fin z 0 e, 0) ∧ (m ≠ 0 → z = (rm == .rdn))) ∧
      (∃ h, (Val.fin x 0 e).add rm (.fin x 0 d) = (.fin x 0 h, 0)) ∧
      (Val.fin x m e).mul (.fin y n d) = (.fin (x != y) (m * n) (e + d), 0) ∧
      (Val.fin true 0 e).pick true (.fin false 0 d) = .fin false 0 d ∧ (Val.fin false 0 d).pick true (.fin true 0 e) = .fin false 0 d ∧
      (Val.fin false 0 d).pick false (.fin true 0 e) = .fin true 0 e ∧ (Val.fin true 0 e).pick false (.fin false 0 d) = .fin true 0 e) ∧
  (∀ (rm : Mode) (neg : Bool) (m : Nat) (e q : Int),
      let k := min e q
      let x := m * 2 ^ (e - k).toNat
      let u := 2 ^ (q - k).toNat
      let n := (roundAt rm neg m e q).1
      let down := n * u ≤ x ∧ x < n * u + u
      let up := x ≤ n * u ∧ n * u < x + u
      ((roundAt rm neg m e q).2 = true ↔ n * u = x) ∧
      (rm = .rtz → down) ∧ (rm = .rup → if neg then down else up) ∧ (rm = .rdn → if neg then up else down) ∧
      (rm = .rne → 2 * x ≤ 2 * (n * u) + u ∧ 2 * (n * u) ≤ 2 * x + u ∧
        (2 * x = 2 * (n * u) + u ∨ 2 * (n * u) = 2 * x + u → n % 2 = 0))) ∧
  (∀ (ty : Ty) (env : FEnv) (sat neg : Bool) (m : Nat) (e : Int), ty.isFloat = true →
    let f := tyFmt ty
    let r := f.ofVal env sat (.fin neg m e)
    let sign := if neg then 2 ^ (f.w - 1) else 0
    let most := sign + f.maxBits
    let omega := if sat = true ∨ ty = .e2m1 then most else if ty = .e4m3 then f.nanBits else most + 1
    let qU : Int := e + Nat.log2 m - f.mb
    let unbounded := (roundAt env.rm neg m e qU).1
    let tooBig := ∃ y n d, f.val f.maxBits = .fin y n d ∧ dyCmp unbounded qU n d = .gt
    let q := max qU (1 - f.bias - f.mb)
    let n := (roundAt env.rm neg m e q).1
    let exact := (roundAt env.rm neg m e q).2
    let flushes := 0 < n ∧ n < 2 ^ f.mb ∧ env.fz = true ∧ f.w ∈ [16, 32, 64]
    (m = 0 → r = (sign, 0)) ∧
    (m ≠ 0 → tooBig → r = (match env.rm with
      | .rne => omega
      | .rtz => most
      | .rup => if neg then most else omega
      | .rdn => if neg then omega else most, flagOF + flagNX)) ∧
    (m ≠ 0 → ¬ tooBig →
      (flushes → r = (sign, flagUF + flagNX)) ∧
      (¬ flushes → (∃ k d, f.val r.1 = .fin neg k d ∧ dyCmp k d n q = .eq) ∧ r.1 < 2 ^ f.w ∧
        r.2 = (if exact then 0 else if dyCmp unbounded qU 1 (1 - f.bias) = .lt then flagNX + flagUF else flagNX))))

/-- 09 R169, R170; 07 R133: the compares and the predicate operations. They write one predicate and no flag. With the words
of the predicate operations. -/
def Obligations.ComparesAndPredicates : Prop :=
  ∀ (s : State) (g : Guard) (ty : ITy) (ft : FTy) (cond : Cond) (d x y : PReg) (a b : Reg),
    let goes := fun (f : Seq → Bool) =>
      Host.Outcome.next (φ := Fault) (ρ := Refusal) (s.modSeq s.who fun q => (q.setP d (f q)).adv 8)
    (Ready s g [a, b] →
      (cond ≠ .uo → cond ≠ .ord → exec (.cmp g ty cond d a b) s = goes (fun q =>
        let u := intRead ty (q.sr a)
        let v := intRead ty (q.sr b)
        match cond with
        | .eq => decide (u = v) | .ne => decide (u ≠ v) | .lt => decide (u < v) | .le => decide (u ≤ v)
        | .gt => decide (u > v) | .ge => decide (u ≥ v) | _ => false)) ∧
      exec (.fcmp g ft cond d a b) s = goes (fun q =>
        let v := fun (r : Reg) => (ftyFmt ft).opd (FEnv.of (q.fpc.extractLsb' 0 4) .dyn) ((q.sr r).toNat % 2 ^ (ftyFmt ft).w)
        if v a = .nan ∨ v b = .nan then decide (cond = .ne ∨ cond = .uo)
        else
          let o := (v a).cmp (v b)
          match cond with
          | .eq => decide (o = .eq) | .ne => decide (o ≠ .eq) | .lt => decide (o = .lt) | .le => decide (o ≠ .gt)
          | .gt => decide (o = .gt) | .ge => decide (o ≠ .lt) | .uo => false | .ord => true)) ∧
    (Ready s g [] →
      exec (.pand g d x y) s = goes (fun q => q.pr x && q.pr y) ∧
      exec (.por g d x y) s = goes (fun q => q.pr x || q.pr y) ∧
      exec (.pxor g d x y) s = goes (fun q => xor (q.pr x) (q.pr y)) ∧
      exec (.pnot g d x) s = goes (fun q => !q.pr x)) ∧
    (let fields := fun (z : PReg) => RRR.toBits { d := d.setWidth 5, a := x.setWidth 5, b := z.setWidth 5 };
      encode (.pand g d x y) = .word ((Hd.f g).word 0x4A (fields y)) ∧
      encode (.por g d x y) = .word ((Hd.f g).word 0x4B (fields y)) ∧
      encode (.pxor g d x y) = .word ((Hd.f g).word 0x4C (fields y)) ∧
      encode (.pnot g d x) = .word ((Hd.f g).word 0x4D (fields 0)))

/-- 09 R171, R172; 05 R90, R105: transfers of control and loops. A legal target is taken; any other raises "fetch range" with the target as
the address, and the word changes nothing else: that a bad target of `br`, `call` or `lend` also leaves the link register and the loop counter
is the model's reading, for R171 says it of register targets (assumption 19). -/
def Obligations.ControlTransfers : Prop :=
  ∀ (s : State) (g : Guard) (n : Bool) (d a : Reg) (imm : BitVec 41) (imm36 : BitVec 36),
    let q := s.seq s.who
    let label := q.pc + 8 * imm.signExtend 64
    let lc := fun (q : Seq) => if n then q.lc1 else q.lc0
    let setLc := fun (q : Seq) (v : W64) => if n then { q with lc1 := v } else { q with lc0 := v }
    let moves := fun (t : W64) (f : Seq → Seq) (o : Host.Outcome State Fault Refusal) =>
      (GoodTarget s s.who t → o = .next (s.modSeq s.who fun q => { f q with pc := t })) ∧
      (¬ GoodTarget s s.who t → o = .next (takeFault s.who { code := 0x0F, caddr := q.pc, addr := t } s))
    (Ready s g [] → moves label id (exec (.br g imm) s)) ∧
    (Ready s g [a] → moves (q.sr a) id (exec (.jr g a) s) ∧ moves (q.sr a) id (exec (.ret g a) s) ∧
      exec (.lset g n a imm36) s = .next (s.modSeq s.who fun q => (setLc q (q.sr a + imm36.signExtend 64)).adv 8)) ∧
    (Ready s g [d] → moves label (fun q => q.setS d (q.pc + 8)) (exec (.call g d imm) s)) ∧
    (Ready s g [d, a] → moves (q.sr a) (fun q => q.setS d (q.pc + 8)) (exec (.callr g d a) s)) ∧
    (Ready s g [] →
      (0 < (lc q - 1).toInt → moves label (fun x => setLc x (lc q - 1)) (exec (.lend g n imm) s)) ∧
      (¬ 0 < (lc q - 1).toInt → exec (.lend g n imm) s = .next (s.modSeq s.who fun x => (setLc x (lc q - 1)).adv 8)))

/-- 05 R86, 09 R165: a front-end word whose guard is false only moves on, whatever it is; one that names a register whose load data has not
come changes nothing and stays. -/
def Obligations.GuardAndLoadHazard : Prop :=
  ∀ (s : State) (i : Instr) (g : Guard) (n : Nat) (rs : List Reg), frontOf i = some (g, n, rs) → s.has s.who = true →
    ((s.seq s.who).guard g = false → exec i s = .next (s.modSeq s.who fun q => q.adv n)) ∧
    ((s.seq s.who).guard g = true → (∃ r ∈ rs, (s.seq s.who).loading r = true) → exec i s = .next s)

/-! ## State registers -/

/-- 09 R177, R178, R188-R190; 07 R126, R127; 03 R70; 17 R288: what `sget` reads of each register, field by field; what each `sset`
writes, RO and reserved bits apart; `tokget` and `tagclr`. -/
def Obligations.StateRegisters : Prop :=
  ∀ (s : State) (g : Guard) (d a : Reg) (n : SReg) (k : BitVec 4) (l : Bool),
    let q := s.seq s.who
    let c := s.core s.who.pkg s.who.core
    let goes := fun (f : Seq → Seq) => Host.Outcome.next (φ := Fault) (ρ := Refusal) (s.modSeq s.who fun q => (f q).adv 8)
    let word := fun (n : Nat) => BitVec.ofNat 64 n
    (Ready s g [d] →
      exec (.sget g d n) s = goes (fun x => x.setS d (match n with
        | .fpc => q.fpc
        | .fps => q.fps
        | .tags => q.tags
        | .tagi => q.tagi
        | .lc0 => q.lc0
        | .lc1 => q.lc1
        | .prio => word q.prio.toNat
        | .memb => q.memb
        | .lease => word (q.lmax.toNat + (if c.holder = some s.who.seq then 2 ^ 7 + 2 ^ 8 * c.leaseIssued else 0))
        | .fqd => word q.fq.length
        | .slot => word (q.dbase.toNat + 2 ^ 58 * q.slotN.toNat)
        | .vseq => word q.vseq.toNat
        | .vcore => word q.vcore.toNat
        | .vteam => word q.vteam.toNat
        | .tshape => word (q.cols.toNat + 2 ^ 8 * q.rows.toNat)
        | .ctx => word (q.lctx.toNat + 2 ^ 32 * q.dctx.toNat)
        | .sern => word q.sern.toNat
        | .sera => word (q.ack.toNat + 2 ^ 32 * (q.out.filter fun o => o.req.serial.isSome).length)
        | .cyc => word (s.ck - (s.pkg s.who.pkg).resetCk)
        | .vpkg => word (q.vpV.toNat + 2 ^ 16 * q.vpN.toNat)
        | .base n => word (vget 0 q.base n.toNat).toNat)) ∧
      exec (.tokget g d) s = goes (fun q => q.setS d (word (q.lc % 16 + 2 ^ 4 * (q.cl % 16) + 2 ^ 8 * (q.cs % 16) + 2 ^ 12 * (q.sc % 16))))) ∧
    (Ready s g [a] →
      exec (.ssetFpc g a) s = goes (fun q => { q with fpc := q.sr a &&& 0x1F0F }) ∧
      exec (.ssetFps g a) s = goes (fun q => { q with fps := q.sr a &&& 0x3F }) ∧
      exec (.ssetTags g a) s = goes (fun q => { q with tags := q.sr a }) ∧
      exec (.ssetLease g a) s = goes (fun q => { q with lmax := (q.sr a).extractLsb' 0 6 }) ∧
      exec (.ssetPrio g a) s = goes (fun q => { q with prio := (q.sr a).extractLsb' 0 2 }) ∧
      exec (.ssetMemb g a) s = goes (fun q => { q with memb := q.sr a &&& 0xFFFF30 }) ∧
      exec (.ssetLc g l a) s = goes (fun q => if l then { q with lc1 := q.sr a } else { q with lc0 := q.sr a }) ∧
      exec (.ssetBase g k a) s = goes (fun q => { q with base := vput q.base k.toNat ((q.sr a).extractLsb' 0 57) }) ∧
      exec (.tagclr g a) s = goes (fun q => { q with tags := q.tags &&& ~~~(q.sr a) }))

/-! ## Loads, stores and atomics -/

/-- 09 R163, R165: a load or store word whose address resolves joins the pending accesses of its sequencer, and the front end goes on; one
whose address faults takes that fault at its own word. -/
def Obligations.LoadAndStoreWords : Prop :=
  ∀ (s t : State) (i : Instr) (n : Nat) (x : Bool) (g : Guard) (d a : Reg) (imm : BitVec 36) (pl : Place) (f : FaultRec),
    let q := s.seq s.who
    let va := q.sr a + imm.signExtend 64
    Ready s g [d, a] → q.fe.length < Config.maxPending →
    (loadOf i = some (n, x, g, d, a, imm) →
      (∀ u, resolve s.who va n .load s = (.ok pl, t) →
        u = t.modSeq s.who (fun r => r.addLoad { id := 0, store := false, size := n, sext := x, reg := d, va := va, place := pl }) →
        NoneToSend u s.who → exec i s = .next u) ∧
      (resolve s.who va n .load s = (.fault f, t) → exec i s = .next (takeFault s.who { f with caddr := q.pc } t))) ∧
    (storeOf i = some (n, g, d, a, imm) →
      (resolve s.who va n .store s = (.ok pl, t) →
        exec i s = .next (t.modSeq s.who fun r =>
          r.addStore { id := 0, store := true, size := n, va := va, place := pl, data := r.sr d } t.ck)) ∧
      (resolve s.who va n .store s = (.fault f, t) → exec i s = .next (takeFault s.who { f with caddr := q.pc } t)))

/-- 09 R163, R186; 15 R255, R256; 17 R289; 23 R382-R384; 25 R400: the order of the checks on an address: a non-canonical one is a translation
fault of reason 3, a misaligned one an alignment fault, and an atomic's that is no window word an atomic-target fault, before its alignment is
checked (that the atomic target comes before R256's "window" is the model's reading, assumption 60). A window address goes to the core that
it names, and a global address where it translates: through the tables, with no cached translation of its context, to the leaf that the walk
comes to and through the checks after it, a CRIT leaf read twice; or to the bytes of a loaded slot. -/
def Obligations.AddressChecks : Prop :=
  ∀ (s : State) (i : Sid) (va : W64) (n p dctx l a : Nat) (k : Acc) (cx : Context) (t : Team) (e : W64) (w : WalkEnd) (c : CritRead)
    (wr blight : Bool),
    (2 ^ 57 ≤ va.toNat → resolve i va n k s = (.fault { code := 0x01, addr := va, reason := 3 }, s)) ∧
    (va.toNat < 2 ^ 57 → k = .load ∨ k = .store →
      (va.toNat % n ≠ 0 → resolve i va n k s = (.fault { code := 0x04, addr := va }, s)) ∧
      (va.toNat % n = 0 → isWindow va = true → resolve i va n k s = (resolveWindow i va n k s, s)) ∧
      (va.toNat % n = 0 → isWindow va = false → ∀ p pa t,
        translate i.pkg (s.seq i).dctx.toNat i va (k == .store) true s = (.ok p pa, t) → resolve i va n k s = (.ok (.mem p pa), t))) ∧
    (va.toNat < 2 ^ 57 → isWindow va = false → resolve i va n .atomic s = (.fault { code := 0x05, addr := va }, s)) ∧
    (va.toNat < 2 ^ 57 → isWindow va = true →
      (∀ f, resolveWindow i va 1 .atomic s = .fault f → resolve i va n .atomic s =
        (.fault (if f.code = 0x07 then { code := 0x05, addr := va } else f), s)) ∧
      (∀ pl, resolveWindow i va 1 .atomic s = .ok pl → resolve i va n .atomic s =
        (if va.toNat % n = 0 then .ok pl else .fault { code := 0x04, addr := va }, s))) ∧
    (let q := s.seq i
     let v := va.toNat
     let cls := v / 2 ^ 46 % 4
     let vc := v / 2 ^ 40 % 64
     let off := v % 2 ^ 23
     let space := va.getLsbD 23
     let own := vc = 63 ∨ vc = q.vcore.toNat
     let bad := fun (code : Nat) => (Res.fault { code := code, addr := va })
     (cls = 1 ∨ cls = 3 → resolveWindow i va n k s = bad 0x07) ∧
     (cls = 0 → v / 2 ^ 24 % 2 ^ 16 ≠ 0 → resolveWindow i va n k s = bad 0x07) ∧
     (cls = 0 → v / 2 ^ 24 % 2 ^ 16 = 0 → (s.pkg i.pkg).team? q.dctx.toNat q.vteam.toNat = some t → k = .load ∨ k = .store →
       let core := if own then i.core else t.coreOf vc
       let carve := (s.core i.pkg i.core).carve
       (vc ≠ 63 → t.size ≤ vc → resolveWindow i va n k s = bad 0x06) ∧
       (vc = 63 ∨ vc < t.size → space = true → resolveWindow i va n k s = if off < 0x30000 then .ok (.win i.pkg core off) else bad 0x07) ∧
       (vc = 63 ∨ vc < t.size → space = false → own → resolveWindow i va n k s =
         if off + n ≤ carve.toNat % 2 ^ 8 * 65536 ∨ 0x800000 - carve.toNat / 2 ^ 16 % 2 ^ 8 * 65536 ≤ off ∧ off + n ≤ 0x800000 then
           .ok (.spad i.pkg core off) else bad 0x08) ∧
       (vc < t.size → space = false → ¬ own → resolveWindow i va n k s = .ok (.spad i.pkg core off))) ∧
     (cls = 2 → (s.pkg i.pkg).ctx? q.dctx.toNat = some cx →
       let vt := v / 2 ^ 34 % 64
       let vp := v / 2 ^ 24 % 1024
       (cx.vps[vp]? = none → resolveWindow i va n k s = bad 0x06) ∧
       (∀ d, cx.vps[vp]? = some d →
         ((s.pkg d.1).membersOf? q.dctx.toNat vt = none → resolveWindow i va n k s = bad 0x06) ∧
         (∀ m, (s.pkg d.1).membersOf? q.dctx.toNat vt = some m → resolveWindow i va n k s =
           if vc < m then .ok (if space = true then .vwin vp vt vc off else .vspad vp vt vc off) else bad 0x06)))) ∧
    (let x := s.pkg p
     let v := va.toNat % 2 ^ 57
     let result := (translate p dctx i va wr blight s).1
     x.ctx? dctx = some cx →
      (v / 2 ^ 48 ≠ 0x1FE → (∀ c ∈ x.tlb, c.lctx ≠ cx.lctx) → (∀ c ∈ x.walk, c.lctx ≠ cx.lctx) →
        ((∀ c ∈ x.crit, c.who ≠ i) → Walks x v 5 cx.root w →
          (∀ r, w = .fault r l → result = .fault 0x01 r l) ∧
          (w = .leaf e l a → e.getLsbD 63 = true → result = .stall) ∧
          (w = .leaf e l a → e.getLsbD 63 = false → (l = 1 → e.getLsbD 11 = false) → result = leafVerdict p x cx e l v wr blight)) ∧
        (x.crit = [c] → c.who = i → c.lctx = cx.lctx → c.va = va →
          (s.ck < c.ck + 64 → result = .stall) ∧
          (c.ck + 64 ≤ s.ck → BitVec.ofNat 64 (x.num' c.addr 8) ≠ c.entry → result = .fault 0x01 5 c.lvl) ∧
          (c.ck + 64 ≤ s.ck → BitVec.ofNat 64 (x.num' c.addr 8) = c.entry → 1 ≤ c.lvl → ¬ entryBad c.lvl c.entry → c.entry.getLsbD 2 = true →
            (c.lvl = 1 → c.entry.getLsbD 11 = false) → result = leafVerdict p x cx c.entry c.lvl v wr blight))) ∧
      (v / 2 ^ 48 = 0x1FE →
        let n := v / 2 ^ 40 % 2 ^ 8
        let off := v % 2 ^ 40
        let sl := vget {} x.slots n
        let pages := fun (b : Nat) => (b + 4095) / 4096 * 4096
        let pa := sl.base + off
        (64 ≤ n ∨ sl.loaded = false → result = .fault 0x01 1 4) ∧
        (n < 64 → sl.loaded = true → pages sl.codesz + pages sl.datasz + sl.wlen ≤ off → ∃ l, result = .fault 0x01 1 l) ∧
        (n < 64 → sl.loaded = true → sl.base % 4096 = 0 → off < pages sl.codesz + pages sl.datasz → pa < 2 ^ 44 → x.populated pa = true →
          (wr = true → result = .fault 0x02 1 1) ∧ (wr = false → blight = false → result = .ok p pa))))

/-- 09 R163, R165: LOAD_DATA_RETURN of the k-th pending access, a load on its own package that nothing holds back: its register takes the
bytes that stand at its place, extended as its word says, and the access is no longer pending. Memory stays as it was. That the load reads its
bytes in the step in which its data returns is the model's choice (assumption 38). -/
def Obligations.LoadData : Prop :=
  ∀ (s : State) (i : Sid) (k : Nat) (e : Pend) (pl : Place),
    s.has i = true → (s.seq i).fe[k]? = some e → e.store = false → e.ready = false → e.sent = false → e.bad = false →
    MayPerform s i ((s.seq i).fe.take k) e pl →
    let x := wordLE (readPlace s e.size pl)
    let m := 8 * e.size
    let v := if e.sext ∧ x.getLsbD (m - 1) = true then x ||| ~~~(BitVec.ofNat 64 (2 ^ m - 1)) else x &&& BitVec.ofNat 64 (2 ^ m - 1)
    let t := s.modSeq i fun q => { q with fe := q.fe.filter fun y => y.id ≠ e.id }.setS e.reg v
    exec (.loadDataReturn i k) s = .next t ∧ OnlySeq s t i

/-- 03 R42; 09 R163, R165: HARROW_COMPARE of the oldest item, 6 ck or more after it executed. A store that nothing holds back writes the low
bytes of its data, least significant first, at its place, and is no longer pending; an engine entry may issue; an `mfmt` pushes its format
word; a mismatch abandons the seed, with every store not yet compared, and stops with "harrow mismatch". The location that AUX
names is the model's free value (assumption 2). -/
def Obligations.HarrowCompare : Prop :=
  ∀ (s : State) (i : Sid) (h : HItem) (r : List HItem), s.has i = true → (s.seq i).harrow = h :: r →
    h.ck + 6 ≤ s.ck →
    let drop := fun (t : State) => t.modSeq i fun q => { q with harrow := q.harrow.eraseIdx 0 }
    (∀ id ck e pl, h = .store id ck → (s.seq i).fe.find? (fun e => e.id == id) = some e →
      MayPerform s i ((s.seq i).feBefore e.id) e pl →
      exec (.harrowCompare i 0 true) s = .next (drop ((writePlace (leBytes e.size e.data.toNat) pl s).modSeq i fun q =>
        { q with fe := q.fe.filter fun y => y.id ≠ e.id }))) ∧
    (∀ q id ck, h = .entry q id ck →
      exec (.harrowCompare i 0 true) s = .next (drop (s.modSeq i fun x => x.modEntry q id fun y => { y with compared := true }))) ∧
    (∀ f ck, h = .fmt f ck → exec (.harrowCompare i 0 true) s = .next (drop (s.modSeq i fun q => { q with fq := q.fq ++ [f] }))) ∧
    exec (.harrowCompare i 0 false) s = .next (takeFault i
      { code := 0x30, caddr := (s.seq i).pc, aux := Config.checkLocation 0x30 i.pkg i.core i.seq }
      (s.modSeq i fun q => { q with
        ql := q.ql.filter (·.issued), qc := q.qc.filter (·.issued), qs := q.qs.filter (·.issued)
        fe := q.fe.filter fun e => !e.store || e.compared, harrow := [], aband := true }))

/-- 15 R256; 00 R4; 01 R27: what bytes written at a place leave: they read back there, and every other byte of every memory reads as before. -/
def Obligations.ReadAfterWrite : Prop :=
  ∀ (s : State) (bs : List Byte) (p c off : Nat), s.hasPkg p = true → c < 96 →
    let a := writePlace bs (.mem p off) s
    let b := writePlace bs (.spad p c off) s
    let d := writePlace bs (.win p c off) s
    (readPlace a bs.length (.mem p off) = bs ∧ readPlace b bs.length (.spad p c off) = bs ∧ readPlace d bs.length (.win p c off) = bs) ∧
    (∀ r x, ¬ (r = p ∧ off ≤ x ∧ x < off + bs.length) → (a.pkg r).byte x = (s.pkg r).byte x) ∧
    (∀ r k x, ¬ (r = p ∧ k = c ∧ off ≤ x ∧ x < off + bs.length) →
      memGet zeroByte (b.core r k).spad x = memGet zeroByte (s.core r k).spad x ∧
      memGet zeroByte (d.core r k).win x = memGet zeroByte (s.core r k).win x) ∧
    (∀ r x, (b.pkg r).byte x = (s.pkg r).byte x ∧ (d.pkg r).byte x = (s.pkg r).byte x) ∧
    (∀ r k x, memGet zeroByte (a.core r k).spad x = memGet zeroByte (s.core r k).spad x ∧
      memGet zeroByte (a.core r k).win x = memGet zeroByte (s.core r k).win x ∧
      memGet zeroByte (b.core r k).win x = memGet zeroByte (s.core r k).win x ∧
      memGet zeroByte (d.core r k).spad x = memGet zeroByte (s.core r k).spad x)

/-- 09 R184-R187; 17 R303: an atomic on a word of the own core's window is performed at once: the word holds the new value, sD the old one, and the
front end goes on. On another core's window it leaves as a request with the next serial: posted, the front end going on, where D is s0, and
otherwise the front end waits for the old value (how the wait stands while the team is saved is the model's choice, assumption 25). -/
def Obligations.AtomicWords : Prop :=
  ∀ (s t u : State) (pl : Place) (i : Instr) (n : Nat) (f : W64 → W64 → W64 → W64) (g : Guard) (d a b c : Reg) (off : Nat) (r : FaultRec),
    let q := s.seq s.who
    atomOf i = some (n, f, g, d, a, b, c) → Ready s g [d, a, b, c] →
    (resolve s.who (q.sr a) n .atomic s = (.ok (.win s.who.pkg s.who.core off), t) →
      (∀ e ∈ q.fe, sameBytes t s.who e.size n e.place (.win s.who.pkg s.who.core off) = false) →
      let old := wordLE (readPlace t n (.win s.who.pkg s.who.core off))
      exec i s = .next ((writePlace (leBytes n (f old (q.sr b) (q.sr c)).toNat) (.win s.who.pkg s.who.core off) t).modSeq s.who
        fun q => (q.setS d old).adv 8)) ∧
    (resolve s.who (q.sr a) n .atomic s = (.ok (.win s.who.pkg s.who.core off), t) →
      (∃ e ∈ q.fe, sameBytes t s.who e.size n e.place (.win s.who.pkg s.who.core off) = true) → exec i s = .next t) ∧
    (resolve s.who (q.sr a) n .atomic s = (.ok pl, t) → (∀ off, pl ≠ .win s.who.pkg s.who.core off) →
      (∀ e ∈ q.fe, e.sent = true ∨ sameBytes t s.who e.size n e.place pl = false) →
      ∃ k : Atom, atomSize k = n ∧ (∀ old x y, atomNew k old x y = f old x y) ∧
        (issueReq s.who (.atomic k (q.sr b) (q.sr c)) pl (q.sr a) q.pc (if d = 0 then .posted else .front) true true d t = some u →
          (∃ r : Req, r.op = .atomic k (q.sr b) (q.sr c) ∧ r.serial = some (t.seq s.who).sern.toNat ∧ r.id = (t.seq s.who).ident ∧
            (u.seq s.who).out = (t.seq s.who).out ++ [{ req := r, lastSend := t.ck, reg := d }] ∧
            (u.seq s.who).sern = (t.seq s.who).sern + 1) ∧
          exec i s = .next (u.modSeq s.who fun q => { q.adv 8 with
            wait := if d = 0 then none else some (.reply d (some (q.sern - 1).toNat) none) })) ∧
        (issueReq s.who (.atomic k (q.sr b) (q.sr c)) pl (q.sr a) q.pc (if d = 0 then .posted else .front) true true d t = none →
          exec i s = .next t)) ∧
    (resolve s.who (q.sr a) n .atomic s = (.fault r, t) → exec i s = .next (takeFault s.who { r with caddr := q.pc } t))

/-- 09 R187: ATOMIC_REPLY: the old value of a non-posted atomic is in sD and the front end goes on. -/
def Obligations.AtomicReplies : Prop :=
  ∀ (s : State) (i : Sid) (d : Reg) (n : Option Nat) (v : W64), s.has i = true → (s.seq i).wait = some (.reply d n (some v)) →
    exec (.atomicReply i) s = .next (s.modSeq i fun q => { q.setS d v with wait := none })

/-! ## Barriers, waits and fences -/

/-- 03 R71: an arrival at an instance: a drop or join that takes PEND beyond ±262,143, and a flip that takes EXPECT out of 0 to 262,143, leave
it unchanged; ARRIVED = EXPECT flips the phase, EXPECT moving by PEND, and releases every waiting plain and join arrival; any other
arrival is counted and, unless it drops, waits. -/
def Obligations.BarrierArrivals : Prop :=
  ∀ (b : Barrier) (a : Arrival),
    let n := b.arrived + (if a.kind = .join then 0 else 1)
    let p := b.pend + (match a.kind with | .plain => 0 | .drop => -1 | .join => 1)
    let w := b.waiting ++ (if a.kind = .drop then [] else [a])
    let e := (b.expect : Int) + p
    (n ≤ 262143 → -262143 ≤ p → p ≤ 262143 → n ≠ b.expect → b.arrive a = some ({ b with arrived := n, pend := p, waiting := w }, [])) ∧
    (n ≤ 262143 → -262143 ≤ p → p ≤ 262143 → n = b.expect → 0 ≤ e → e ≤ 262143 →
      b.arrive a = some ({ expect := e.toNat, arrived := 0, pend := 0, phase := !b.phase, waiting := [] }, w)) ∧
    (p < -262143 ∨ 262143 < p → b.arrive a = none) ∧
    (n = b.expect → e < 0 ∨ 262143 < e → b.arrive a = none)

/-- 09 R176; 03 R69-R71, R73, R75: the barrier words. At `.seq` each is a release followed by an acquire, and waits for no other member (the
model's reading, assumption 13). At core, team and package scope, with every earlier access performed, an
arrival that flips nothing is counted at the instance that MEMB names; `bar` and `barj` then wait and `bard` goes on; at domain scope it goes to
the context's root package. A plain or join word whose flip was recorded while the sequencer was saved goes on and clears the record. -/
def Obligations.BarrierWords : Prop :=
  ∀ (s : State) (g : Guard) (sc : Scope) (b : Barrier) (tm : Team) (cx : Context), Ready s g [] →
    let i := s.who
    let q := s.seq i
    let d := q.dctx.toNat
    let n := bitsOf q.memb.toNat 5 4
    let nt := bitsOf q.memb.toNat 11 8
    let np := bitsOf q.memb.toNat 17 12
    let nd := bitsOf q.memb.toNat 23 18
    let here := vget {} (s.core i.pkg i.core).bars n
    let counted := fun (t : State) => t.modCore i.pkg i.core fun c => { c with bars := vput c.bars n b }
    let countedTeam := fun (t : State) => t.modPkg i.pkg fun k => k.modTeam d q.vteam.toNat fun t => { t with bars := vput t.bars nt b }
    let countedPkg := fun (t : State) => t.modPkg i.pkg fun k => k.modCtx d fun c => { c with pkgBars := cellPut {} c.pkgBars np b }
    let sent := fun (k : Arrive) (t : State) => sendUnit i.pkg (rootPkg s i.pkg d) q.ident (.arrive d nd [⟨q.ident, k, q.pc⟩]) t
    let arrives := fun (x : Barrier) (k : Arrive) => x.arrive ⟨q.ident, k, q.pc⟩ = some (b, [])
    let arrival := arrives here
    let waitsAt := fun (sc : Scope) (n : Nat) => s.modSeq i fun q => { q with wait := some (.bar sc false), atBar := some (sc, n) }
    let waits := waitsAt .core n
    let passes := s.modSeq i fun q => q.adv 8
    let goesOn := acquireAt i sc (s.modSeq i fun q => { q.adv 8 with flip := q.flip &&& ~~~(1#4 <<< scopeBit sc) })
    (q.releaseDone = true → q.acquireDone = true →
      exec (.bar g .seq) s = .next passes ∧ exec (.bard g .seq) s = .next passes ∧ exec (.barj g .seq) s = .next passes) ∧
    (q.releaseDone = false ∨ q.acquireDone = false →
      exec (.bar g .seq) s = .next s ∧ exec (.bard g .seq) s = .next s ∧ exec (.barj g .seq) s = .next s) ∧
    (q.releaseDone = true → q.flip.getLsbD 0 = false → q.atBar ≠ some (.core, n) →
      (arrival .plain → exec (.bar g .core) s = .next (counted waits)) ∧
      (arrival .join → exec (.barj g .core) s = .next (counted waits))) ∧
    (q.releaseDone = true → arrival .drop → exec (.bard g .core) s = .next (counted passes)) ∧
    ((s.pkg i.pkg).team? d q.vteam.toNat = some tm → q.releaseDone = true → q.flip.getLsbD 1 = false → q.atBar ≠ some (.team, nt) →
      (arrives (vget {} tm.bars nt) .plain → exec (.bar g .team) s = .next (countedTeam (waitsAt .team nt))) ∧
      (arrives (vget {} tm.bars nt) .join → exec (.barj g .team) s = .next (countedTeam (waitsAt .team nt))) ∧
      (arrives (vget {} tm.bars nt) .drop → exec (.bard g .team) s = .next (countedTeam passes))) ∧
    ((s.pkg i.pkg).ctx? d = some cx → q.releaseDone = true → q.flip.getLsbD 2 = false → q.atBar ≠ some (.pkg, np) →
      (arrives (cellGet {} cx.pkgBars np) .plain → exec (.bar g .pkg) s = .next (countedPkg (waitsAt .pkg np))) ∧
      (arrives (cellGet {} cx.pkgBars np) .join → exec (.barj g .pkg) s = .next (countedPkg (waitsAt .pkg np))) ∧
      (arrives (cellGet {} cx.pkgBars np) .drop → exec (.bard g .pkg) s = .next (countedPkg passes))) ∧
    (q.releaseDone = true → q.flip.getLsbD 3 = false → q.atBar ≠ some (.dom, nd) →
      exec (.bar g .dom) s = .next (sent .plain (waitsAt .dom nd)) ∧ exec (.barj g .dom) s = .next (sent .join (waitsAt .dom nd)) ∧
      exec (.bard g .dom) s = .next (sent .drop passes)) ∧
    (q.releaseDone = false → sc ≠ .seq → q.flip.getLsbD (scopeBit sc) = false → q.atBar = none →
      exec (.bar g sc) s = .next s ∧ exec (.barj g sc) s = .next s ∧ exec (.bard g sc) s = .next s) ∧
    (sc ≠ .seq → q.flip.getLsbD (scopeBit sc) = true → exec (.bar g sc) s = .next goesOn ∧ exec (.barj g sc) s = .next goesOn)

/-- 03 R73: the messages of barrier units. The oldest arrival message for an instance is performed at the root, once, its arrivals one at a
time in order; a release message is handed to each of its arrivals, once; each is answered. -/
def Obligations.BarrierMessages : Prop :=
  ∀ (s : State) (p d n k : Nat) (m : MeshReq) (who : List Arrival), (s.pkg p).mesh[k]? = some m → s.hasPkg p = true →
    let taken := s.modPkg p fun x => { x with mesh := x.mesh.eraseIdx k }
    let seen := fun (t : State) => t.modPkg p fun x => { x with unitSeen := (m.src, m.req.serial.getD 0) :: x.unitSeen }
    let fresh := (m.src, m.req.serial.getD 0) ∉ (s.pkg p).unitSeen
    let known := ((s.pkg p).ctx? m.req.id.dctx).isSome = true ∧ m.req.inc = (s.pkg p).inc
    (m.req.op = .arrive d n who →
      findUnit (s.pkg p) (arriveFor d n) = some k →
      (fresh → known → exec (.barrierArrivalMessage p d n) s =
        .next (answerReq p m (.result 0) (who.foldl (rootArrive p d n) (seen taken)))) ∧
      (¬ fresh → exec (.barrierArrivalMessage p d n) s = .next (answerReq p m (.result 0) taken))) ∧
    (m.req.op = .release d n who →
      (fresh → known → exec (.barrierReleaseMessage p k) s = .next (answerReq p m (.result 0) (releaseAll p .dom who (seen taken)))) ∧
      (¬ fresh → exec (.barrierReleaseMessage p k) s = .next (answerReq p m (.result 0) taken)))

/-- 09 R179, R180: the tag waits and `wcnt`. Each completes at once where its condition holds, writing what it read, and otherwise waits; a
counter that is not in the own window, or is misaligned, faults. -/
def Obligations.TagAndCounterWaits : Prop :=
  ∀ (s : State) (g : Guard) (sc : Scope) (d a b : Reg) (off : Nat),
    let i := s.who
    let q := s.seq i
    let m := q.sr a
    let x := q.tags &&& m
    let word := (s.core i.pkg i.core).winWord off
    let goes := fun (sc : Scope) (v : W64) =>
      Host.Outcome.next (φ := Fault) (ρ := Refusal) ((acquireAt i sc s).modSeq i fun q => { (q.setS d v).adv 8 with wait := none })
    let waits := fun (w : Wait) => Host.Outcome.next (φ := Fault) (ρ := Refusal) (s.modSeq i fun q => { q with wait := some w })
    let certified := if x &&& q.tagAcq = 0 then Scope.seq else .core
    (Ready s g [d, a] →
      (m = 0 ∨ x ≠ 0 → exec (.wtany g d a) s = goes certified x) ∧
      (m ≠ 0 → x = 0 → exec (.wtany g d a) s = waits (.tags 0 d m)) ∧
      (x = m → exec (.wtall g d a) s = goes certified x) ∧
      (x ≠ m → exec (.wtall g d a) s = waits (.tags 1 d m)) ∧
      (m = 0 ∨ x ≠ 0 → ∃ n, TrailingZeros x n ∧ exec (.wtff g d a) s = goes certified (BitVec.ofNat 64 n)) ∧
      (m ≠ 0 → x = 0 → exec (.wtff g d a) s = waits (.tags 2 d m))) ∧
    (Ready s g [d, a, b] →
      (ownCounter s i m = some off → off % 8 = 0 →
        ((q.sr b).toNat ≤ word.toNat → exec (.wcnt g sc d a b) s = goes sc word) ∧
        (word.toNat < (q.sr b).toNat → exec (.wcnt g sc d a b) s = waits (.wcnt sc d off (q.sr b)))) ∧
      (ownCounter s i m = none → exec (.wcnt g sc d a b) s = .next (takeFault i { code := 0x05, caddr := q.pc, addr := m } s)) ∧
      (ownCounter s i m = some off → off % 8 ≠ 0 →
        exec (.wcnt g sc d a b) s = .next (takeFault i { code := 0x04, caddr := q.pc, addr := m } s)))

/-- 09 R177, R181, R182, R191; 07 R131: `qfence`, `rel`, `acq`, `tfence` and `tokset`. Each completes at once where nothing is left to wait for,
and otherwise waits. `tfence` with an enabled flag set raises "arithmetic" and leaves FPS; a bad count raises "token count" and changes no
count. -/
def Obligations.FencesAndTokens : Prop :=
  ∀ (s : State) (g : Guard) (sc : Scope) (f l c x : Bool) (a : Reg),
    let i := s.who
    let q := s.seq i
    let v := (q.sr a).toNat
    let goes := fun (h : Seq → Seq) (t : State) =>
      Host.Outcome.next (φ := Fault) (ρ := Refusal) (t.modSeq i fun q => { (h q).adv 8 with wait := none })
    let waits := fun (w : Wait) => Host.Outcome.next (φ := Fault) (ρ := Refusal) (s.modSeq i fun q => { q with wait := some w })
    let waiting := fun (w : Wait) => s.modSeq i fun q => { q with wait := some w }
    let traps := q.fps &&& (q.fpc >>> 8) &&& 0x1F ≠ 0
    let fenced := (f = true → q.frontDone = true) ∧ (l = true → q.allDone .l = true) ∧ (c = true → q.allDone .c = true) ∧
      (x = true → q.allDone .s = true)
    let good := v < 2 ^ 16 ∧ v % 16 ≤ 8 ∧ v / 16 % 16 ≤ 8 ∧ v / 256 % 16 ≤ 8 ∧ v / 4096 % 16 ≤ 8
    (Ready s g [] →
      (fenced → exec (.qfence g f l c x) s = goes id s) ∧ (¬ fenced → exec (.qfence g f l c x) s = waits (.qfence f l c x)) ∧
      (q.releaseDone = true → exec (.rel g sc) s = goes id s) ∧ (q.releaseDone = false → exec (.rel g sc) s = waits (.rel sc)) ∧
      (q.acquireDone = true → exec (.acq g sc) s = goes id (acquireAt i sc s)) ∧
      (q.acquireDone = false → exec (.acq g sc) s = waits (.acq sc)) ∧
      (q.allDone .c = true → ¬ traps → exec (.tfence g) s = goes id s) ∧
      (q.allDone .c = true → traps → exec (.tfence g) s = .next (takeFault i { code := 0x1E, caddr := q.pc } (waiting .tfence))) ∧
      (q.allDone .c = false → exec (.tfence g) s = waits .tfence)) ∧
    (Ready s g [a] →
      (q.drained = true → good → exec (.tokset g a) s =
        goes (fun q => { q with lc := v % 16, cl := v / 16 % 16, cs := v / 256 % 16, sc := v / 4096 % 16 }) s) ∧
      (q.drained = true → ¬ good →
        exec (.tokset g a) s = .next (takeFault i { code := 0x11, caddr := q.pc } (waiting (.tokset (q.sr a))))) ∧
      (q.drained = false → exec (.tokset g a) s = waits (.tokset (q.sr a))))

/-- 09 R177, R179-R183, R191; 03 R54, R73: FRONT_END_WAIT_END: the wait of a sequencer that runs ends with its condition: a released barrier, an
arrived tag, a reached counter, performed accesses, drained queues, a reply from a service; and the front end goes on. `tfence` and `tokset` may
fault there. The waits of `sow`, `mfmt`, `pchg`, a dispatch and an atomic's reply end elsewhere: at the word's next turn, at PCHG_APPLY and
at ATOMIC_REPLY. -/
def Obligations.WaitEnds : Prop :=
  ∀ (s : State) (i : Sid) (sc : Scope) (d : Reg) (off : Nat) (m v b : W64) (under : List (Sid × Nat)) (f l c x : Bool),
    let q := s.seq i
    let n := v.toNat
    let traps := q.fps &&& (q.fpc >>> 8) &&& 0x1F ≠ 0
    let fenced := (f = true → q.frontDone = true) ∧ (l = true → q.allDone .l = true) ∧ (c = true → q.allDone .c = true) ∧
      (x = true → q.allDone .s = true)
    let good := n < 2 ^ 16 ∧ n % 16 ≤ 8 ∧ n / 16 % 16 ≤ 8 ∧ n / 256 % 16 ≤ 8 ∧ n / 4096 % 16 ≤ 8
    let word := (s.core i.pkg i.core).winWord off
    let goes := fun (h : Seq → Seq) (t : State) =>
      Host.Outcome.next (φ := Fault) (ρ := Refusal) (t.modSeq i fun q => { (h q).adv 8 with wait := none })
    s.has i = true → q.st = .run ∨ q.st = .drain → teamStops s i = false →
    (q.wait = some (.bar sc true) → exec (.frontEndWaitEnd i) s =
      .next (acquireAt i sc (s.modSeq i fun q => { q.adv 8 with wait := none, atBar := none }))) ∧
    (q.wait = some (.tags 0 d m) → q.tags &&& m ≠ 0 → q.tags &&& m &&& q.tagAcq = 0 →
      exec (.frontEndWaitEnd i) s = goes (fun x => x.setS d (q.tags &&& m)) s) ∧
    (q.wait = some (.tags 1 d m) → q.tags &&& m = m → m &&& q.tagAcq ≠ 0 →
      exec (.frontEndWaitEnd i) s = goes (fun x => x.setS d m) (acquireAt i .core s)) ∧
    (q.wait = some (.tags 2 d m) → q.tags &&& m ≠ 0 → q.tags &&& m &&& q.tagAcq = 0 →
      ∃ n, TrailingZeros (q.tags &&& m) n ∧ exec (.frontEndWaitEnd i) s = goes (fun x => x.setS d (BitVec.ofNat 64 n)) s) ∧
    (q.wait = some (.wcnt sc d off b) → b.toNat ≤ word.toNat →
      exec (.frontEndWaitEnd i) s = goes (fun x => x.setS d word) (acquireAt i sc s)) ∧
    (q.wait = some (.qfence f l c x) → fenced → exec (.frontEndWaitEnd i) s = goes id s) ∧
    (q.wait = some .tfence → q.allDone .c = true →
      (¬ traps → exec (.frontEndWaitEnd i) s = goes id s) ∧
      (traps → exec (.frontEndWaitEnd i) s = .next (takeFault i { code := 0x1E, caddr := q.pc } s))) ∧
    (q.wait = some (.tokset v) → q.drained = true →
      (good → exec (.frontEndWaitEnd i) s =
        goes (fun q => { q with lc := n % 16, cl := n / 16 % 16, cs := n / 256 % 16, sc := n / 4096 % 16 }) s) ∧
      (¬ good → exec (.frontEndWaitEnd i) s = .next (takeFault i { code := 0x11, caddr := q.pc } s))) ∧
    (q.wait = some .reap → q.drained = true → q.copies = [] → q.sr 3 = 0 → exec (.frontEndWaitEnd i) s =
      .next ((s.modCore i.pkg i.core fun c => c.dropLease i.seq).modSeq i fun q =>
        { q.adv 8 with st := .idle, wait := none, lc := 0, cl := 0, cs := 0, sc := 0 })) ∧
    (q.wait = some .reap → q.drained = false ∨ q.copies ≠ [] → exec (.frontEndWaitEnd i) s = .next s) ∧
    (q.wait = some .fmt ∨ (∃ t, q.wait = some (.sow t)) ∨ (∃ w, q.wait = some (.pchg w)) ∨ (∃ e, q.wait = some (.dispatch e)) ∨
      (∃ d n r, q.wait = some (.reply d n r)) → exec (.frontEndWaitEnd i) s = .next s) ∧
    (q.wait = some (.rel sc) → q.releaseDone = true → exec (.frontEndWaitEnd i) s = goes id s) ∧
    (q.wait = some (.acq sc) → q.acquireDone = true → exec (.frontEndWaitEnd i) s = goes id (acquireAt i sc s)) ∧
    (q.wait = some (.service d v) → exec (.frontEndWaitEnd i) s = goes (fun x => { x.setS d v with sysDone := none }) s) ∧
    (q.wait = some (.tlb under) → tlbBusy s under = false → exec (.frontEndWaitEnd i) s = goes id s)

/-! ## Seeds -/

/-- 09 R173, R174; 03 R50, R57, R60-R62: `sow`. A local push puts the record, CONT cleared, at the tail of the own core's queue of its PRIO;
a bad record, a bad queue and a bad destination fault; a full queue makes the word wait, until its back-off is over and it offers the record
again; a push to another core leaves as a request. -/
def Obligations.SowWords : Prop :=
  ∀ (s t : State) (g : Guard) (d a : Reg) (vp vt vc : Nat) (dom : Bool), Ready s g [d, a, a + 1, a + 2, a + 3] →
    let i := s.who
    let q := s.seq i
    let c := s.core i.pkg i.core
    let ws := [q.sr a &&& ~~~0x0100000000000000, q.sr (a + 1), q.sr (a + 2), q.sr (a + 3)]
    let n := bitsOf (q.sr a).toNat 63 62
    let faults := fun (code : Nat) => Host.Outcome.next (φ := Fault) (ρ := Refusal) (takeFault i { code := code, caddr := q.pc } s)
    (q.sr d = 0 → ∀ t, q.wait = some (.sow t) → s.ck < t → exec (.sow g d a) s = .next s) ∧
    (q.sr d = 0 → q.sowReady = false → exec (.sow g d a) s = .next s) ∧
    (q.sr d = 0 → q.sowReady = true → (∀ t, q.wait = some (.sow t) → t ≤ s.ck) →
      (recordBad s i.pkg i.core ws = true → exec (.sow g d a) s = faults 0x0D) ∧
      (recordBad s i.pkg i.core ws = false → c.queueBad n = true → exec (.sow g d a) s = faults 0x0C) ∧
      (recordBad s i.pkg i.core ws = false → c.queueBad n = false → c.queueFull n false = false →
        exec (.sow g d a) s = .next ((s.modCore i.pkg i.core fun k => k.push n s.ck ws).modSeq i fun q => { q.adv 8 with wait := none })) ∧
      (recordBad s i.pkg i.core ws = false → c.queueBad n = false → c.queueFull n false = true →
        exec (.sow g d a) s = .next (s.modSeq i fun q =>
          { q with wait := some (.sow (if c.policyNack n then s.ck + 64 * 2 ^ c.backoff n else s.ck)) }))) ∧
    (bitsOf (q.sr d).toNat 63 62 = 3 → exec (.sow g d a) s = faults 0x0E) ∧
    (bitsOf (q.sr d).toNat 63 62 = 0 → bitsOf (q.sr d).toNat 61 0 ≠ 0 → exec (.sow g d a) s = faults 0x0E) ∧
    (sowDest s i (q.sr d) = .far vp vt vc dom → q.sowReady = true → q.windowFull = false →
      issueReq i (.push ws) (.vspad vp vt vc 0) 0 q.pc .posted dom true 0 s = some t →
      exec (.sow g d a) s = .next (t.modSeq i fun q => q.adv 8))

/-- 03 R54, R81; 09 R175: `reap` with its queues drained and no copy outstanding: the lease is released, the token counts are 0 and the
sequencer is IDLE past the word; with a join address it first releases, waiting in DRAIN until every earlier access is performed, and then
decrements the block: its own core's at once, another's by a request under the next serial. With entries still queued, or a copy outstanding,
it waits in DRAIN. -/
def Obligations.ReapWords : Prop :=
  ∀ (s t u : State) (g : Guard) (off : Nat) (pl : Place) (f : FaultRec), Ready s g [3] →
    let i := s.who
    let q := s.seq i
    let drains := (s.modCore i.pkg i.core fun c => c.dropLease i.seq).modSeq i fun q =>
      { q with st := .drain, wait := some .reap, lc := 0, cl := 0, cs := 0, sc := 0 }
    let idle := fun (s : State) => s.modSeq i fun q => { q.adv 8 with st := .idle, wait := none }
    (q.drained = true → q.copies = [] → q.sr 3 ≠ 0 →
      (q.releaseDone = false → exec (.reap g) s = .next drains) ∧
      (q.releaseDone = true →
        (resolve i (q.sr 3) 64 .atomic drains = (.ok (.win i.pkg i.core off), t) →
          (joinDecrement i.pkg i.core off q.ident (q.sr 3) q.pc t = some u → exec (.reap g) s = .next (idle u)) ∧
          (joinDecrement i.pkg i.core off q.ident (q.sr 3) q.pc t = none → exec (.reap g) s = .next t)) ∧
        (resolve i (q.sr 3) 64 .atomic drains = (.ok pl, t) → (∀ off, pl ≠ .win i.pkg i.core off) →
          issueReq i .joinDec pl (q.sr 3) q.pc .posted true true 0 t = some u → exec (.reap g) s = .next (idle u)) ∧
        (resolve i (q.sr 3) 64 .atomic drains = (.fault f, t) → exec (.reap g) s = .next (takeFault i { f with caddr := q.pc } t)))) ∧
    (q.drained = true → q.copies ≠ [] → exec (.reap g) s = .next (s.modSeq i fun q => { q with st := .drain, wait := some .reap })) ∧
    (q.drained = true → q.copies = [] → q.sr 3 = 0 →
      exec (.reap g) s = .next ((s.modCore i.pkg i.core fun c => c.dropLease i.seq).modSeq i fun q =>
        { q.adv 8 with st := .idle, wait := none, lc := 0, cl := 0, cs := 0, sc := 0 })) ∧
    (q.drained = false → exec (.reap g) s = .next (s.modSeq i fun q => { q with st := .drain, wait := some .reap }))

/-- 03 R55; 25 R400: a join decrement at its owner. COUNT falls by one; from 1 to 0 it pushes the continuation, CONT set,
to the owner's queue of its PRIO, or of an invocation's root block ends the invocation, whose INVOKE completes with OK; a continuation that
fails its checks, or a COUNT below 0, is a deferred fault of the decrementing sequencer, and nothing is pushed. -/
def Obligations.JoinDecrements : Prop :=
  ∀ (s : State) (p c off h : Nat) (id : Ident) (addr caddr : W64) (v : Invocation),
    let k := s.core p c
    let old := k.winWord off
    let t := s.modCore p c fun k => k.setWin off (leBytes 8 (old - 1).toNat)
    let ws := (List.range 4).map fun i => k.winWord (off + 32 + 8 * i)
    let n := bitsOf (ws.headD 0).toNat 63 62
    let bad := fun (code : Nat) => some (deferFault id { code := code, addr := addr, caddr := caddr } t)
    let r := joinDecrement p c off id addr caddr s
    (2 ≤ old.toInt → r = some t) ∧
    (old.toInt ≤ 0 → -(2 ^ 63) < old.toInt → r = bad 0x20) ∧
    (s.rootJoin? p c off = none →
      (old = 1 → recordBad t p c ws = true → r = bad 0x0D) ∧
      (old = 1 → recordBad t p c ws = false → (t.core p c).queueBad n = true → r = bad 0x0C) ∧
      (old = 1 → recordBad t p c ws = false → (t.core p c).queueBad n = false → (t.core p c).queueFull n true = false →
        r = some (t.modCore p c fun k => k.push n s.ck (withCont true ws))) ∧
      (old = 1 → recordBad t p c ws = false → (t.core p c).queueBad n = false → (t.core p c).queueFull n true = true → r = none)) ∧
    (s.rootJoin? p c off = some (h, v) → old = 1 → v.resumer = none →
      r = some (t.modPkg h fun k => (k.modInv v.id fun v => { v with ended := true }).setOutcome v.q v.idx v.node (0, 0)))

/-- 03 R52, R53; 13 R230: SEED_POP: an idle sequencer starts the head record of the highest-priority queue of its core that holds one which was pushed in
an earlier ck: what its registers hold at the start, and what is left from the seed before. A record pushed in this ck starts nothing yet. -/
def Obligations.SeedPop : Prop :=
  ∀ (s : State) (i : Sid) (n : Nat), s.has i = true → mayPop s i = true →
    let c := s.core i.pkg i.core
    let sees := fun (m : Nat) => c.occupancy m - (if (vget (0, 0) c.pushed m).1 = s.ck then (vget (0, 0) c.pushed m).2 else 0)
    ((∀ m < 4, sees m = 0) → exec (.seedPop i) s = .next s) ∧
    (n < 4 → sees n ≠ 0 → (∀ m, n < m → m < 4 → sees m = 0) →
    let w := fun (k : Nat) => (c.headRecord n).getD k 0
    ∃ f : Seq → Seq,
      exec (.seedPop i) s = .next ((s.modCore i.pkg i.core fun k => { k.dropHead n s.ck with gather := [] }).modSeq i f) ∧
      ∀ q, (f q).st = .run ∧ (f q).pc = BitVec.ofNat 64 (bitsOf (w 0).toNat 31 0) ∧
        (f q).sr 1 = w 1 ∧ (f q).sr 2 = w 3 ∧ (f q).sr 3 = w 2 ∧ (∀ r, 4 ≤ r.toNat → (f q).sr r = 0) ∧
        (∀ r, (f q).pr r = (r == 0)) ∧ (f q).lc0 = 0 ∧ (f q).lc1 = 0 ∧ (f q).prio = BitVec.ofNat 2 (bitsOf (w 0).toNat 63 62) ∧
        (f q).lc = 0 ∧ (f q).cl = 0 ∧ (f q).cs = 0 ∧ (f q).sc = 0 ∧ (f q).fmtCount = 0 ∧
        (f q).v = q.v ∧ (f q).k = q.k ∧ (f q).tags = q.tags ∧ (f q).fpc = q.fpc ∧ (f q).fps = q.fps ∧ (f q).memb = q.memb ∧
        (f q).lmax = q.lmax ∧ (f q).base = q.base)

/-- 03 R58, R62: SEED_AGING moves a record that has been at the head of queue 0, 1 or 2 for 65,536 ck to the tail of the next queue up, its PRIO
raised; NACK_RESEND, after the back-off, sends the refused push and every later push again, in their order. -/
def Obligations.SeedQueueEvents : Prop :=
  ∀ (s : State) (i : Sid) (p c q t k : Nat) (w : W64) (r : List W64) (o : Out),
    let x := s.core p c
    (vget none x.headCk q = some t → q < 3 → x.occupancy q ≠ 0 → t + 65536 ≤ s.ck → x.queueFull (q + 1) true = false →
      x.headRecord q = w :: r →
      exec (.seedAging p c q) s = .next (s.modCore p c fun y =>
        (y.dropHead q s.ck).push (q + 1) s.ck
          (((w &&& 0x3FFFFFFFFFFFFFFF) ||| BitVec.ofNat 64 ((bitsOf w.toNat 63 62 + 1) * 2 ^ 62)) :: r))) ∧
    ((s.seq i).out[k]? = some o → o.refused = true → o.resendAt = some t → t ≤ s.ck → s.has i = true →
      exec (.nackResend i k) s = .next ((((s.seq i).out.drop k).filter fun x => match x.req.op with | .push _ => true | _ => false).foldl
        (fun s o => resend i o false s) s))

/-! ## The queues of a sequencer and the lease -/

/-- 03 R40-R42; 09 R178: DISPATCH: an engine word joins the tail of its queue with its guard, its scalar operands and FPC's modes as they stand,
the harrow has it to compare, and a copy command with a true guard clears its tag; into a full queue the front end waits. -/
def Obligations.Dispatch : Prop :=
  ∀ (s : State) (w : W64) (j : Instr), s.has s.who = true → decodeWord w 0 = .ok j →
    let i := s.who
    let q := s.seq i
    let e := routeQueue w
    q.clear (scalarFields j) = true → ((s.core i.pkg i.core).pchgHolds = false ∨ touchesSpad j = false) →
    ((q.queue e).length < 16 →
      ∃ f : Seq → Seq, exec (.dispatch w) s = .next (s.modSeq i f) ∧
        let x : Entry := { id := q.next, word := w, caddr := q.pc, guard := q.guard (Raw.ofWord w).guard, mode := q.fpc.extractLsb' 0 4,
                           ops := (scalarFields j).map q.sr }
        (f q).queue e = q.queue e ++ [x] ∧ (∀ d, d ≠ e → (f q).queue d = q.queue d) ∧ (f q).pc = q.pc + 8 ∧
        (f q).harrow = q.harrow ++ [.entry e q.next s.ck] ∧ (f q).s = q.s ∧ (f q).p = q.p ∧ (f q).fpc = q.fpc ∧
        (f q).tags = (match x.tag? with | none => q.tags | some n => q.tags &&& ~~~(1#64 <<< n))) ∧
    (16 ≤ (q.queue e).length → exec (.dispatch w) s = .next (s.modSeq i fun q => { q with wait := some (.dispatch e) }))

/-- 03 R44, R47, R48; 01 R20: ENTRY_RETIRE puts the tokens of the oldest entry, once it has completed and each FIFO that it names holds at most 7,
and takes it from its queue. TOKEN_DEADLOCK abandons the seed and raises its fault at the front end's program counter. A cache miss fills the
lines that the fetch needs from the granary slot. The 128 B line and the order in which lines leave the cache are the model's choices
(assumption 18). -/
def Obligations.QueueEvents : Prop :=
  ∀ (s : State) (i : Sid) (x : Entry) (rest : List Entry), s.has i = true →
    let q := s.seq i
    let slot := vget {} (s.pkg i.pkg).slots q.slotN.toNat
    let h := (Raw.ofWord x.word).head
    (q.ql = x :: rest → x.done = true → (h.pr = true → q.lc ≤ 7) →
      exec (.entryRetire i .l) s = .next (s.modSeq i fun q => { q with ql := rest, lc := if h.pr then q.lc + 1 else q.lc })) ∧
    (q.qc = x :: rest → x.done = true → (h.pl = true → q.cl ≤ 7) → (h.pr = true → q.cs ≤ 7) →
      exec (.entryRetire i .c) s = .next (s.modSeq i fun q =>
        { q with qc := rest, cl := if h.pl then q.cl + 1 else q.cl, cs := if h.pr then q.cs + 1 else q.cs })) ∧
    (q.qs = x :: rest → x.done = true → (h.pl = true → q.sc ≤ 7) →
      exec (.entryRetire i .s) s = .next (s.modSeq i fun q => { q with qs := rest, sc := if h.pl then q.sc + 1 else q.sc })) ∧
    (q.deadlocked = true → q.st = .run → teamStops s i = false →
      exec (.tokenDeadlock i) s = .next (takeFault i { code := 0x10, caddr := q.pc, addr := q.pc }
        (s.modSeq i fun q => { q with
          ql := q.ql.filter (·.issued), qc := q.qc.filter (·.issued), qs := q.qs.filter (·.issued)
          harrow := q.harrow.filter HItem.isStore, aband := true }))) ∧
    (q.deadlocked = true → q.wait = some .reap ∨ (∃ v, q.wait = some (.tokset v)) ∨ q.wait = some .tfence ∨
      (∃ f l c s, q.wait = some (.qfence f l c s)) ∨ (∃ sc, q.wait = some (.rel sc)) ∨ ∃ e, q.wait = some (.dispatch e) ∧ 16 ≤ (q.queue e).length) ∧
    (q.deadlocked = true → ∀ e, (∀ y ∈ q.queue e, y.issued = true → y.done = true) ∧
      (q.queue e = [] ∨ (∃ y, q.headOf e = some y ∧ y.compared = true ∧ q.canTake e y.head = false) ∨
        ∃ y r, q.queue e = y :: r ∧ y.done = true ∧ q.canPut e y.head = false)) ∧
    (q.st = .run → slot.loaded = true →
      exec (.instructionFetchMissFill i) s = .next (s.modCore i.pkg i.core fun c =>
        { c with icache := ((missingLines i s).map (fun l =>
            (q.slotN.toNat, l, (s.pkg i.pkg).bytes (slot.base + l * Config.icacheLine) Config.icacheLine)) ++ c.icache).take Config.icacheLines }))

/-- 03 R76-R80: LEASE_GRANT gives a free array to the choice of the arbiter, with LEASE_MAX as it stands and a count of 0; the choice is, among
the waiting sequencers not held back by another that waits since before their last grant, one of the highest PRIO, and among equals the next
from the last holder on. A sequencer that waits sees each other one granted at most once, which with LEASE_TIME_LIMIT, that ends a lease held
for LEASE_MAX × T_max while another waits, is the bound of R79. A closing team is granted nothing, and a sequencer whose `mslice` a checkpoint
cut comes first (13 R227). -/
def Obligations.Leases : Prop :=
  ∀ (s : State) (p c n : Nat),
    let k := s.core p c
    let eligible := fun (m : Nat) => ∃ w ∈ k.leaseAskers, w.1 = m ∧ ∀ y ∈ k.leaseAskers, y.1 ≠ m → m ∉ y.2
    (k.leaseChoice = some n → k.cutSlice = none → n < 4 ∧ eligible n ∧ (∀ m, eligible m → (k.seq m).prio.toNat ≤ (k.seq n).prio.toNat) ∧
      ∃ d < 4, n = (k.lastHolder + 1 + d) % 4 ∧
        ∀ e < d, eligible ((k.lastHolder + 1 + e) % 4) → (k.seq ((k.lastHolder + 1 + e) % 4)).prio.toNat < (k.seq n).prio.toNat) ∧
    (∀ m, k.leaseChoice = some n → k.cutSlice = some m → n = m) ∧
    (teamStops s ⟨p, c, 0⟩ = true → exec (.leaseGrant p c) s = .next s) ∧
    (k.holder = none → k.leaseChoice = some n → teamStops s ⟨p, c, 0⟩ = false →
      ∃ f : Core → Core, exec (.leaseGrant p c) s = .next (s.modCore p c f) ∧
        (f k).holder = some n ∧ (f k).lastHolder = n ∧ (f k).grantCk = s.ck ∧ (f k).leaseIssued = 0 ∧ (f k).leaseMax = (k.seq n).lmax.toNat + 1 ∧
        (∀ w ∈ (f k).leaseWait, w.1 ≠ n ∧ n ∈ w.2) ∧
        (∀ w ∈ k.leaseAskers, w.1 ≠ n → (w.1, n :: w.2) ∈ (f k).leaseWait ∧ (k.cutSlice = none → n ∉ w.2)) ∧ (f k).seqs = k.seqs ∧ (f k).spad = k.spad ∧ (f k).tiles = k.tiles) ∧
    (k.holder = some n → k.grantCk + k.leaseMax * Config.tMax ≤ s.ck → (∃ w ∈ k.leaseAskers, w.1 ≠ n) →
      exec (.leaseTimeLimit p c) s = .next (s.modCore p c fun x => { x with holder := none, leaseIssued := 0 }))


/-! ## Services, carves and maintenance -/

/-- 09 R192; 25 R404; 21 R359-R362: the services of `sys` and the words for work entries. Each is served once under the next serial, and the
front end waits for its reply: 0 of NOP, HOSTEVENT and ESTIMATE, the domain time within 1 µs, what is left of the allowance, the context and
its teams, all ones of a number that names no service; of `karm` whether the entry is armed, and of `kstat` and `kdis` its status. That the service acts at
the step that requests it (assumption 9), that a number of an entry above 63 is looked at before anything else (assumption 12), which teams CTXINFO
counts (assumption 32) and the domain time, a free value within its bound (assumption 2), are the model's choices. -/
def Obligations.SystemServices : Prop :=
  ∀ (s : State) (g : Guard) (d a b : Reg) (n : BitVec 4), (s.seq s.who).sysDone = none → (s.seq s.who).canIssue = true →
    let i := s.who
    let q := s.seq i
    let k := s.pkg i.pkg
    let x := (q.sr a).toNat
    let ve := (q.sr b).toNat
    let entry := k.entryOf q.dctx.toNat ve
    let answers := fun (v : W64) (t : State) => Host.Outcome.next (φ := Fault) (ρ := Refusal) (t.modSeq i fun q =>
      { q with sern := q.sern + 1, ack := { q with sern := q.sern + 1 }.ackPoint, sysDone := some v, wait := some (.service d v) })
    let bad := Host.Outcome.next (φ := Fault) (ρ := Refusal) (takeFault i { code := 0x1C, caddr := q.pc } s)
    (Ready s g [d, a] →
      exec (.sysNop g d a) s = answers 0 s ∧
      (∃ m, Config.domainEpoch + s.time / 3 ≤ m ∧ m ≤ Config.domainEpoch + s.time / 3 + 1000 ∧
        exec (.sysDtime g d a) s = answers (BitVec.ofNat 64 m) { s with free := s.free + 1 }) ∧
      exec (.sysNoService g d a n) s = answers (BitVec.allOnes 64) s ∧
      exec (.sysCtxinfo g d a) s = answers (BitVec.ofNat 64 (q.dctx.toNat * 2 ^ 48 +
        (k.teams.filter fun t => t.dctx == q.dctx.toNat && t.placed).length % 64)) s ∧
      (∀ h v, seqInv s i = some (h, v) →
        let home := s.pkg h
        let posts := fun (e : Posted) (s : State) => s.modPkg h fun k => { k with posted := k.posted ++ [e] }
        (∃ bytes : List Byte, bytes.length = 32 ∧
          let t := posts (.user v.q (q.sr a)) (s.modPkg h fun k =>
            (k.engineWrite (k.evbase v.q + 32 * ((home.cq v.q).events % 64)) bytes).modCq v.q fun c =>
              { c with events := (home.cq v.q).events + 1 })
          exec (.sysHostevent g d a) s = answers 0
            (if (t.pkg h).evqp v.q = 0 then t else posts (.notified v.q ((t.pkg h).evqp v.q)) t)) ∧
        exec (.sysAllowance g d a) s =
          answers (if home.allow v.q = 0 then 0x7FFFFFFFFFFFFFFF
            else BitVec.ofInt 64 (1000 * (home.allow v.q : Int) - (home.spent v.q : Int))) s ∧
        exec (.sysEstimate g d a) s = answers 0
          (s.modPkg h fun k => k.modInv v.id fun n => { n with estimate := x + (s.ck - n.start.getD s.ck) }))) ∧
    (Ready s g [d, a, b] → 63 < ve → exec (.karm g d a b) s = bad) ∧
    (Ready s g [d, b] → 63 < ve → exec (.kstat g d b) s = bad ∧ exec (.kdis g d b) s = bad) ∧
    (ve ≤ 63 →
      (Ready s g [d, b] →
        (entry = none → exec (.kstat g d b) s = answers 0 s ∧ exec (.kdis g d b) s = answers 0 s) ∧
        (∀ e w, entry = some (e, w) →
          exec (.kstat g d b) s = answers w.status s ∧
          exec (.kdis g d b) s = answers w.status (s.modWork i.pkg e fun w =>
            if w.st = .run ∨ w.st = .susp then { w with dispend := true } else w.freed))) ∧
      (Ready s g [d, a, b] → ∀ r ranks steps t, armCheck i (q.sr a) s = (.go r ranks steps, t) → t.who = i →
        ((t.pkg i.pkg).entryOf (t.seq i).dctx.toNat ve ≠ none → exec (.karm g d a b) s = answers 1 t) ∧
        ((t.pkg i.pkg).entryOf (t.seq i).dctx.toNat ve = none →
          ((∀ e < 64, (t.work i.pkg e).st ≠ .free) → exec (.karm g d a b) s = answers 2 t) ∧
          (∀ e < 64, (t.work i.pkg e).st = .free → (∀ m < e, (t.work i.pkg m).st ≠ .free) →
            exec (.karm g d a b) s = answers 0 (t.modWork i.pkg e fun w =>
              { w with st := .waittrig, dctx := (t.seq i).dctx.toNat, ve := ve, record := r, ranks := ranks, steps := steps
                       vteam := (t.seq i).vteam.toNat, by_ := (t.seq i).ident, caddr := q.pc })))))

/-- 09 R193-R196; 15 R258-R261; 23 R384: `pchg` checks the new carve word and waits; PCHG_APPLY applies it once no entry or copy of the core
touches the scratchpad: a granule that leaves or enters the direct region reads as zeros, and every other byte stays. `tlbi` and `tlbia` drop
the context's translations, with its walks of CRIT leaves under way, and wait for the accesses under way; `blclr` zeroes a frame and clears its
blight, which `blq` reads; BLIGHT_SET sets it, and where a read met the error gives that read the blight fault. That `blclr` acts before its own
sequencer's pending loads and stores, and what frames it and `blq` refuse, are the model's choices (assumptions 57 and 20). -/
def Obligations.CarveAndMaintenance : Prop :=
  ∀ (s : State) (g : Guard) (d a : Reg) (p c n frame : Nat) (w : W64),
    let i := s.who
    let q := s.seq i
    let y := s.core i.pkg i.core
    let k := s.core p c
    let v := q.sr a
    let x := v.toNat
    let qg := bitsOf x 23 16
    let faults := fun (code : Nat) (addr : W64) (t : State) =>
      Host.Outcome.next (φ := Fault) (ρ := Refusal) (takeFault i { code := code, addr := addr, caddr := q.pc } t)
    let carveBad := bitsOf x 63 24 ≠ 0 ∨ bitsOf x 15 10 ≠ 0 ∨ 128 < bitsOf x 7 0 ∨ qg ≠ bitsOf y.carve.toNat 23 16 ∨
      0x800000 < bitsOf x 7 0 * 65536 + gatherSize v + qg * 65536 ∨ qg * 65536 < y.queueSpace
    let queueBad := (∃ m < 16, qcwValid (y.queueCtl m) = true ∧ qcwBad v (m < 4) (y.queueCtl m) = true) ∨
      (∃ m < 4, qcwValid (y.queueCtl m) = false)
    let old := bitsOf k.carve.toNat 7 0
    let new := bitsOf w.toNat 7 0
    let z := k.applyCarve w s.ck
    let pa := if frame < 0xC000000 then frame * 4096 else 0x10000000000 + (frame - 0xC000000) * 4096
    (Ready s g [a] →
      (carveBad → exec (.pchg g a) s = faults 0x0B 0 s) ∧
      (¬ carveBad → queueBad → exec (.pchg g a) s = faults 0x0C 0 s) ∧
      (¬ carveBad → ¬ queueBad → exec (.pchg g a) s = .next (s.modSeq i fun q => { q with wait := some (.pchg (q.sr a)) }))) ∧
    (n < 4 → (k.seq n).wait = some (.pchg w) → (∀ m < n, ∀ u, (k.seq m).wait ≠ some (.pchg u)) →
      (∀ m < 4, (k.seq m).spadQuiet = true) → cmcReaches s p c = false →
      exec (.pchgApply p c) s = .next (s.modCore p c fun k => (k.applyCarve w s.ck).modSeq n fun q => { q.adv 8 with wait := none })) ∧
    (z.carve = w ∧ z.gather = [] ∧ z.win = k.win ∧ z.tiles = k.tiles ∧ z.seqs = k.seqs ∧
      (∀ b, b < queueBase w → ¬ (b / 65536 < old ∧ b / 65536 < new) → memGet zeroByte z.spad b = 0) ∧
      (∀ b, ¬ (b / 65536 * 65536 < queueBase w) ∨ (b / 65536 < old ∧ b / 65536 < new) →
        memGet zeroByte z.spad b = memGet zeroByte k.spad b) ∧
      (∀ e, old ≤ e → e < new → (e, s.ck + 2048) ∈ z.waking)) ∧
    exec (.granuleFillEnd p c n) s = .next (s.modCore p c fun x => { x with waking := x.waking.eraseIdx n }) ∧
    (∀ cx, (s.pkg i.pkg).ctx? q.dctx.toNat = some cx →
      let drops := fun (tlb walk : Cached → Bool) => s.modPkg i.pkg fun k =>
        { k with
          tlb := k.tlb.filter fun e => !(e.lctx == cx.lctx && tlb e)
          walk := k.walk.filter fun e => !(e.lctx == cx.lctx && walk e)
          crit := k.crit.filter fun c => c.lctx ≠ cx.lctx }
      let one := drops (fun e => e.covers e.lctx (x % 2 ^ 57)) (fun e => e.tag == x % 2 ^ 57 / leafSpan e.level)
      let all := drops (fun _ => true) (fun _ => true)
      let under := accessesUnder s i.pkg q.dctx.toNat
      (Ready s g [a] →
        (under = [] → exec (.tlbi g a) s = .next (one.modSeq i fun q => { q.adv 8 with wait := none })) ∧
        (tlbBusy s under = true → exec (.tlbi g a) s = .next (one.modSeq i fun q => { q with wait := some (.tlb under) }))) ∧
      (Ready s g [] →
        (under = [] → exec (.tlbia g) s = .next (all.modSeq i fun q => { q.adv 8 with wait := none })) ∧
        (tlbBusy s under = true → exec (.tlbia g) s = .next (all.modSeq i fun q => { q with wait := some (.tlb under) })))) ∧
    (Ready s g [a] →
      (x < 2 ^ 57 → x % 4096 ≠ 0 → exec (.blclr g a) s = faults 0x04 v s) ∧
      (∀ m b t, frameOf i v true s = (.ok (.mem m b), t) → t.who = i → exec (.blclr g a) s =
        .next ((t.modPkg m fun k => (k.write (b / 4096 * 4096) (List.replicate 4096 0)).setBlight (b / 4096 * 4096) false).modSeq i
          fun q => q.adv 8))) ∧
    (Ready s g [d, a] → ∀ m b t, frameOf i v false s = (.ok (.mem m b), t) → t.who = i → exec (.blq g d a) s =
      .next (t.modSeq i fun q => (q.setS d (if (t.pkg m).blighted b then 1 else 0)).adv 8)) ∧
    ((s.pkg p).populated pa = true →
      let marked := ({ s with free := s.free + 1 } : State).modPkg p fun k =>
        { k.setBlight pa true with
          dies := k.dies.map fun d => { d with lines := d.lines.filter fun l => !(l.dirty && l.line / 32 == pa / 4096) } }
      (readsFrame s p pa = [] → exec (.blightSet p frame) s = .next marked) ∧
      (∃ t, exec (.blightSet p frame) s = .next t ∧ (t = marked ∨ ∃ x ∈ readsFrame s p pa, t = meetError x marked)) ∧
      (∀ j e, (meetError (.load j e) s) = deferFault (s.seq j).ident { code := 0x03, addr := e.va, caddr := e.caddr }
        (s.modSeq j fun q => { q with fe := q.fe.map fun y => if y.id = e.id then { y with bad := true } else y })))

/-! ## Vector words -/

/-- 11 R197, R198, R204, R205; 07 R122, R128, R132, R133: element arithmetic. Each word issues, completes and leaves in every active element of
vD the result of its operation on vA, on vB or scalar B and on vC or scalar C: the exact integer, saturated or modulo 2^w, or the exact value of
the flushed operands rounded once; its flags go to FPS. -/
def Obligations.VectorArithmetic : Prop :=
  ∀ (s : State) (h : EHead) (x : Entry) (ty : Ty) (rnd : Rnd) (sat sb sc : Bool) (km : KReg) (d a b c : Reg), Issues s .c h x →
    let w := ty.width
    let env := fun (r : Rnd) => FEnv.of x.mode r
    let rm := (env rnd).rm
    let p := fun (q : Seq) (i : Nat) => velem w (q.vr a) i
    let r := fun (q : Seq) (i : Nat) => if sb then (x.ops.getD 0 0).toNat % 2 ^ w else velem w (q.vr b) i
    let t := fun (q : Seq) (i : Nat) => if sc then (x.ops.getD (if sb then 1 else 0) 0).toNat % 2 ^ w else velem w (q.vr c) i
    let int := fun (n : Nat) => if ty.isSigned ∧ 2 ^ (w - 1) ≤ n then (n : Int) - 2 ^ w else n
    let flt := fun (n : Nat) => (tyFmt ty).opd (env rnd) n
    let dyn := fun (n : Nat) => (tyFmt ty).opd (env .dyn) n
    let writes := fun (val : Nat → Nat → Nat → Int × Nat) => VecWrites s h x w km d fun q i => val (p q i) (r q i) (t q i)
    let fma := fun (np nc : Bool) (p r t : Nat) =>
      let m := (flt p).mul (flt r)
      let z := (if np then m.1.neg else m.1).add rm (if nc then (flt t).neg else flt t)
      if (flt t).isNan then (.nan, 0) else (z.1, m.2 ||| z.2)
    writes (fun p r _ => vecResult ty (env rnd) sat ((flt p).add rm (flt r)) (int p + int r)) (exec (.vadd h ty rnd sat sb km d a b) s) ∧
    writes (fun p r _ => vecResult ty (env rnd) sat ((flt p).add rm (flt r).neg) (int p - int r)) (exec (.vsub h ty rnd sat sb km d a b) s) ∧
    writes (fun p r _ => vecResult ty (env rnd) sat ((flt p).mul (flt r)) (int p * int r)) (exec (.vmul h ty rnd sat sb km d a b) s) ∧
    writes (fun p r _ => (Int.fdiv (int p * int r) (2 ^ w), 0)) (exec (.vmulh h ty sb km d a b) s) ∧
    writes (fun p r t => vecResult ty (env rnd) sat (fma false false p r t) (int p * int r + int t))
      (exec (.vfma h ty rnd sat sb sc km d a b c) s) ∧
    writes (fun p r t => vecResult ty (env rnd) sat (fma false true p r t) (int p * int r - int t))
      (exec (.vfms h ty rnd sat sb sc km d a b c) s) ∧
    writes (fun p r t => vecResult ty (env rnd) sat (fma true false p r t) (-(int p * int r) + int t))
      (exec (.vfnma h ty rnd sat sb sc km d a b c) s) ∧
    VecWrites s h x w km d (fun q i =>
        if ty.isFloat then (((tyFmt ty).ofVal (env .dyn) false (dyn (p q i)).abs).1, 0) else vecInt ty sat ((int (p q i)).natAbs : Int))
      (exec (.vabs h ty sat km d a) s) ∧
    VecWrites s h x w km d (fun q i =>
        if ty.isFloat then (((tyFmt ty).ofVal (env .dyn) false (dyn (p q i)).neg).1, 0) else vecInt ty sat (-(int (p q i))))
      (exec (.vneg h ty sat km d a) s) ∧
    writes (fun p r _ => if ty.isFloat then (((tyFmt ty).ofVal (env .dyn) false ((dyn p).pick false (dyn r))).1, 0) else (min (int p) (int r), 0))
      (exec (.vmin h ty sb km d a b) s) ∧
    writes (fun p r _ => if ty.isFloat then (((tyFmt ty).ofVal (env .dyn) false ((dyn p).pick true (dyn r))).1, 0) else (max (int p) (int r), 0))
      (exec (.vmax h ty sb km d a b) s) ∧
    writes (fun p r _ =>
        if ty.isFloat then
          let z := vecResult ty (env rnd) sat ((flt p).add rm (flt r).neg) 0
          (z.1 % 2 ^ ((tyFmt ty).w - 1), z.2)
        else vecInt ty sat ((int p - int r).natAbs : Int))
      (exec (.vabd h ty rnd sat sb km d a b) s) ∧
    writes (fun p r t =>
        if ty.isFloat then (((tyFmt ty).ofVal (env .dyn) false (((dyn p).pick true (dyn r)).pick false (dyn t))).1, 0)
        else (min (max (int p) (int r)) (int t), 0))
      (exec (.vclamp h ty sb sc km d a b c) s) ∧
    (ty.isInt = true ∨ ty.isFlt = true →
      writes (fun p r _ => if ty.isInt ∧ r = 0 then (2 ^ w - 1, 0)
          else vecResult ty (env rnd) sat ((flt p).div (tyFmt ty).guardBits (flt r)) (Int.tdiv (int p) (int r)))
        (exec (.vdiv h ty rnd sat sb km d a b) s))

/-- 11 R206-R209; 05 R97; 07 R133: logic, shifts, compares, selects and masks. Shift counts are taken modulo w; `vsra` fills with the top bit
whatever the type; `vcmp` writes its whole mask, 0 where inactive; the mask words act on all 1,024 bits. -/
def Obligations.VectorLogicAndMasks : Prop :=
  ∀ (s : State) (h : EHead) (x : Entry) (ty : Ty) (cond : Cond) (sat sb : Bool) (km ka kb kc kd : KReg) (d a b : Reg) (ch : BitVec 4),
    Issues s .c h x →
    let w := ty.width
    let p := fun (q : Seq) (i : Nat) => velem w (q.vr a) i
    let r := fun (q : Seq) (i : Nat) => if sb then (x.ops.getD 0 0).toNat % 2 ^ w else velem w (q.vr b) i
    let signed := fun (n : Nat) => if 2 ^ (w - 1) ≤ n then (n : Int) - 2 ^ w else n
    let int := fun (n : Nat) => if ty.isSigned then signed n else n
    let writes := fun (val : Nat → Nat → Int × Nat) => VecWrites s h x w km d fun q i => val (p q i) (r q i)
    let mask := fun (val : Seq → Nat → Bool) (o : Host.Outcome State Fault Refusal) =>
      ∃ f : Seq → Seq, VecEnds s h x f o ∧ ∀ q, ∃ m, f q = q.setK kd m ∧ ∀ i < 1024, m.getLsbD i = val q i
    writes (fun p r => ((p &&& r : Nat), 0)) (exec (.vand h ty sb km d a b) s) ∧
    writes (fun p r => ((p ||| r : Nat), 0)) (exec (.vor h ty sb km d a b) s) ∧
    writes (fun p r => ((p ^^^ r : Nat), 0)) (exec (.vxor h ty sb km d a b) s) ∧
    VecWrites s h x w km d (fun q i => (2 ^ w - 1 - (p q i : Int), 0)) (exec (.vnot h ty km d a) s) ∧
    writes (fun p r => vecInt ty sat (int p * 2 ^ (r % w))) (exec (.vshl h ty sat sb km d a b) s) ∧
    writes (fun p r => ((p / 2 ^ (r % w) : Nat), 0)) (exec (.vshr h ty sb km d a b) s) ∧
    writes (fun p r => (Int.fdiv (signed p) (2 ^ (r % w)), 0)) (exec (.vsra h ty sb km d a b) s) ∧
    writes (fun p r => ((p * 2 ^ (r % w) + p / 2 ^ (w - r % w) : Nat), 0)) (exec (.vrot h ty sb km d a b) s) ∧
    VecWrites s h x w km d (fun q i => (velem w (q.vr (if (q.kr kc).getLsbD i then a else b)) i, 0)) (exec (.vsel h ty km d a b kc) s) ∧
    mask (fun q i => decide (i < 4096 / w) && (q.kr km).getLsbD i &&
        (if ty.isFloat then
          let v := fun (n : Nat) => (tyFmt ty).opd (FEnv.of x.mode .dyn) n
          let y := v (p q i)
          let z := v (r q i)
          if y.isNan || z.isNan then decide (cond = .ne ∨ cond = .uo)
          else
            match cond with
            | .eq => decide (y.cmp z = .eq) | .ne => decide (y.cmp z ≠ .eq) | .lt => decide (y.cmp z = .lt) | .le => decide (y.cmp z ≠ .gt)
            | .gt => decide (y.cmp z = .gt) | .ge => decide (y.cmp z ≠ .lt) | .uo => false | .ord => true
        else
          let y := int (p q i)
          let z := int (r q i)
          match cond with
          | .eq => decide (y = z) | .ne => decide (y ≠ z) | .lt => decide (y < z) | .le => decide (y ≤ z)
          | .gt => decide (y > z) | .ge => decide (y ≥ z) | .uo => false | .ord => true))
      (exec (.vcmp h ty cond sb km kd a b) s) ∧
    mask (fun q i => (q.kr ka).getLsbD i && (q.kr kb).getLsbD i) (exec (.kand h kd ka kb) s) ∧
    mask (fun q i => (q.kr ka).getLsbD i || (q.kr kb).getLsbD i) (exec (.kor h kd ka kb) s) ∧
    mask (fun q i => xor ((q.kr ka).getLsbD i) ((q.kr kb).getLsbD i)) (exec (.kxor h kd ka kb) s) ∧
    mask (fun q i => !(q.kr ka).getLsbD i) (exec (.knot h kd ka) s) ∧
    mask (fun q i => (q.kr ka).getLsbD i) (exec (.kmov h kd ka) s) ∧
    mask (fun q i => if i / 64 = ch.toNat then (x.ops.getD 0 0).getLsbD (i % 64) else (q.kr kd).getLsbD i) (exec (.kmovS h kd a ch) s) ∧
    (∃ f : Seq → Seq, VecEnds s h x f (exec (.kpop h km d ka) s) ∧ ∀ q, f q = q.setV d (BitVec.ofNat 4096
      (((List.range 1024).filter fun i => (q.kr ka).getLsbD i && (q.kr km).getLsbD i).length)))

/-- 11 R210: permutes, broadcasts and moves. Element numbers taken from registers are used modulo n; `vslide` slides by at most n; the pair words
write both registers of the pair, and `vext`, `vcmpr` and the pair words write 0 or their result in every element, whatever the mask. -/
def Obligations.VectorPermutes : Prop :=
  ∀ (s : State) (h : EHead) (x : Entry) (ty : Ty) (km : KReg) (d a b c : Reg), Issues s .c h x →
    let w := ty.width
    let n := 4096 / w
    let p := fun (q : Seq) (i : Nat) => velem w (q.vr a) i
    let y := (x.ops.getD 0 0).toNat
    let writes := fun (val : Seq → Nat → Nat) => VecWrites s h x w km d fun q i => (val q i, 0)
    let both := fun (q : Seq) (i : Nat) => if i < n then p q i else velem w (q.vr b) (i - n)
    let zip := fun (q : Seq) (i : Nat) => velem w (q.vr (if i % 2 = 0 then a else b)) (i / 2)
    let active := fun (q : Seq) (i : Nat) => (List.range i).filter fun j => (q.kr km).getLsbD j
    let pair := fun (u v : Seq → Nat → Nat) (o : Host.Outcome State Fault Refusal) =>
      ∃ f : Seq → Seq, VecEnds s h x f o ∧ ∀ q, ∃ r t, f q = (q.setV d r).setV (d + 1) t ∧
        ∀ i < n, velem w r i = u q i ∧ velem w t i = v q i
    let whole := fun (u : Seq → Nat → Nat) (o : Host.Outcome State Fault Refusal) =>
      ∃ f : Seq → Seq, VecEnds s h x f o ∧ ∀ q, ∃ r, f q = q.setV d r ∧ ∀ i < n, velem w r i = u q i
    writes (fun q i => p q (velem w (q.vr b) i % n)) (exec (.vperm h ty km d a b) s) ∧
    writes (fun q i => p q (n - 1 - i)) (exec (.vrev h ty km d a) s) ∧
    pair zip (fun q i => zip q (n + i)) (exec (.vzip h ty d a b) s) ∧
    pair (fun q i => both q (2 * i)) (fun q i => both q (2 * i + 1)) (exec (.vunzip h ty d a b) s) ∧
    writes (fun q i => both q (i + min y n)) (exec (.vslide h ty km d a b c) s) ∧
    writes (fun _ _ => y) (exec (.vbcast h ty km d a) s) ∧
    writes (fun q _ => p q (y % n)) (exec (.vbcastEl h ty km d a b) s) ∧
    whole (fun q i => if i = 0 then p q (y % n) else 0) (exec (.vext h ty d a b) s) ∧
    whole (fun q i => if i = (x.ops.getD 1 0).toNat % n then y % 2 ^ w else velem w (q.vr d) i) (exec (.vins h ty d a b) s) ∧
    writes (fun q i => p q i) (exec (.vmov h ty km d a) s) ∧
    whole (fun q i => ((active q n).map (p q)).getD i 0) (exec (.vcmpr h ty km d a) s) ∧
    writes (fun q i => p q (active q i).length) (exec (.vexpd h ty km d a) s)

/-- 11 R211-R215: the words that widen, narrow, convert and unpack. A widening word writes a group of registers, flat element n from element n of its
sources; a narrowing one reads a group; `vcvt` takes or gives part p of a register, and leaves the rest; `vunpk` looks its codes up in the
table of 16 bytes that two scalars hold. -/
def Obligations.VectorConversions : Prop :=
  ∀ (s : State) (h : EHead) (x : Entry) (ty ty2 : Ty) (rnd : Rnd) (sat : Bool) (km : KReg) (d a b c : Reg) (part : BitVec 2),
    Issues s .c h x →
    let w := ty.width
    let w2 := ty2.width
    let env := FEnv.of x.mode rnd
    let int := fun (n : Nat) => if ty2.isSigned ∧ 2 ^ (w2 - 1) ≤ n then (n : Int) - 2 ^ w2 else n
    let flt := fun (n : Nat) => (tyFmt ty2).opd env n
    let p := fun (q : Seq) (i : Nat) => velem w2 (q.vr a) i
    let r := fun (q : Seq) (i : Nat) => velem w2 (q.vr b) i
    let conv := fun (n : Nat) => (((convert env sat ty ty2 n).1 : Int), (convert env sat ty ty2 n).2)
    let wide := fun (v : Val → Val → Val × Nat) (i : Int → Int → Int) (q : Seq) (n : Nat) =>
      if ty.isFloat then vecResult ty env sat (v (flt (p q n)) (flt (r q n))) 0 else (i (int (p q n)) (int (r q n)), 0)
    GroupWrites s h x w 2 km d (wide (Val.add env.rm) (· + ·)) (exec (.vwadd h ty ty2 rnd sat km d a b) s) ∧
    GroupWrites s h x w 2 km d (wide Val.mul (· * ·)) (exec (.vwmul h ty ty2 rnd sat km d a b) s) ∧
    (w2 ≤ w → GroupWrites s h x w (w / w2) km d (fun q n => conv (p q n)) (exec (.vwcvt h ty ty2 rnd sat km d a) s)) ∧
    (w ≤ w2 → VecWrites s h x w km d (fun q i =>
        let n := velem w2 (q.vr (a + BitVec.ofNat 5 (i % (w2 / w)))) (i / (w2 / w))
        conv n)
      (exec (.vnar h ty ty2 rnd sat km d a) s)) ∧
    VecWrites s h x w km d (fun q i =>
        let m := part.toNat * (4096 / w2)
        if w2 ≤ w then conv (p q (part.toNat * (4096 / w) + i))
        else if m ≤ i ∧ i < m + 4096 / w2 then conv (p q (i - m))
        else (velem w (q.vr d) i, 0))
      (exec (.vcvt h ty ty2 rnd sat km d a part) s) ∧
    GroupWrites s h x 8 2 km d (fun q n =>
        let k := velem 4 (q.vr a) n
        (((if k < 8 then (x.ops.getD 0 0).toNat / 2 ^ (8 * k) else (x.ops.getD 1 0).toNat / 2 ^ (8 * (k - 8))) % 256 : Nat), 0))
      (exec (.vunpk h ty ty2 km d a b c) s)

/-- 11 R216, R217: reductions. Element j of vD is the result of segment j of 2^L elements of vA, and every element above the segments is 0. An integer
sum is exact before its one narrowing; an integer extreme is the extreme of the active elements, or the identity; a float reduction goes over
the active leaves in the fixed tree. That the result of a tree, one that has a single active leaf too, is flushed and flagged as a result once at the
end is the model's reading (assumption 26). -/
def Obligations.VectorReductions : Prop :=
  ∀ (s : State) (h : EHead) (x : Entry) (ty ty2 : Ty) (rnd : Rnd) (sat : Bool) (km : KReg) (d a : Reg) (l : BitVec 4), Issues s .c h x →
    let w := ty.width
    let env := FEnv.of x.mode rnd
    let dyn := FEnv.of x.mode .dyn
    let f := tyFmt ty
    let int := fun (t : Ty) (n : Nat) => if t.isSigned ∧ 2 ^ (t.width - 1) ≤ n then (n : Int) - 2 ^ t.width else n
    let element := fun (t : Ty) (q : Seq) (j i : Nat) => velem t.width (q.vr a) (j * 2 ^ l.toNat + i)
    let active := fun (q : Seq) (j i : Nat) => (q.kr km).getLsbD (j * 2 ^ l.toNat + i)
    let sum := fun (t : Ty) (q : Seq) (j : Nat) =>
      ((List.range (2 ^ l.toNat)).map fun i => if active q j i then int t (element t q j i) else 0).sum
    let ints := fun (q : Seq) (j : Nat) => ((List.range (2 ^ l.toNat)).filter (active q j)).map fun i => int ty (element ty q j i)
    let leaves := fun (leaf : Nat → Nat) (t : Ty) (q : Seq) (j : Nat) =>
      (List.range (2 ^ l.toNat)).map fun i => if active q j i then some (leaf (element t q j i)) else none
    let tree := fun (op : Nat → Nat → Nat × Nat) (leaf : Nat → Nat) (t : Ty) (e : FEnv) (none : Nat) (q : Seq) (j : Nat) =>
      let r := combineTree op l.toNat (leaves leaf t q j)
      let last := r.1.map fun v => f.ofVal { e with daz := false } false (f.val v)
      ((((last.map (·.1)).getD none : Nat) : Int), r.2 ||| (last.map (·.2)).getD 0)
    let add := f.add { env with daz := false } false
    let exact := fun (t : Ty) (e : FEnv) (n : Nat) => (f.ofVal {} false ((tyFmt t).opd e n)).1
    let reduces := fun (t : Ty) (val : Seq → Nat → Int × Nat) (o : Host.Outcome State Fault Refusal) =>
      let n := 4096 / t.width / 2 ^ l.toNat
      ∃ f : Seq → Seq, VecEnds s h x f o ∧ ∀ q, ∃ v,
        f q = { q with
          v := vput q.v d.toNat v
          fps := q.fps ||| BitVec.ofNat 64 ((List.range n).foldl (fun a j => a ||| (val q j).2) 0) } ∧
        ∀ j < 4096 / w, (velem w v j : Int) = if j < n then (val q j).1 % 2 ^ w else 0
    (ty.isFloat = false →
      reduces ty (fun q j => vecInt ty sat (sum ty q j)) (exec (.vsum h ty rnd sat km d a l) s) ∧
      (Instr.wf (.vsumw h ty ty2 rnd sat km d a l) = true →
        reduces ty2 (fun q j => vecInt ty sat (sum ty2 q j)) (exec (.vsumw h ty ty2 rnd sat km d a l) s)) ∧
      reduces ty (fun q j => ((ints q j).max?.getD (if ty.isSigned then -(2 ^ (w - 1)) else 0), 0)) (exec (.vmaxr h ty km d a l) s) ∧
      reduces ty (fun q j => ((ints q j).min?.getD (if ty.isSigned then 2 ^ (w - 1) - 1 else 2 ^ w - 1), 0)) (exec (.vminr h ty km d a l) s)) ∧
    (ty.isFlt = true →
      reduces ty (tree add (exact ty env) ty env 0) (exec (.vsum h ty rnd sat km d a l) s) ∧
      (Instr.wf (.vsumw h ty ty2 rnd sat km d a l) = true →
        reduces ty2 (tree add (exact ty2 env) ty2 env 0) (exec (.vsumw h ty ty2 rnd sat km d a l) s)) ∧
      reduces ty (tree (f.pick true {}) (exact ty dyn) ty dyn (f.ofVal {} false (.inf true)).1) (exec (.vmaxr h ty km d a l) s) ∧
      reduces ty (tree (f.pick false {}) (exact ty dyn) ty dyn (f.ofVal {} false (.inf false)).1) (exec (.vminr h ty km d a l) s))

/-- 11 R218-R221; 07 R152, R153: special functions and random numbers. A special function's value is rounded once to nearest even into FP32, and for
another format again into that, with no flag but IV, DZ and OF; its special inputs and exact cases are as listed. `vsqrt` is rounded once.
`vrand` depends on its two scalars and the element's number alone. That FZ acts on the FP32 result and again on the result in the type is the model's
reading (assumption 26). -/
def Obligations.VectorFunctions : Prop :=
  ∀ (s : State) (h : EHead) (x : Entry) (ty : Ty) (rnd : Rnd) (km : KReg) (d a b : Reg) (n : Bool) (m k : Nat) (e : Int), Issues s .c h x →
    let w := ty.width
    let env : FEnv := { rm := .rne, daz := x.mode.getLsbD 2, fz := x.mode.getLsbD 3 }
    let f := tyFmt ty
    let p := fun (q : Seq) (i : Nat) => velem w (q.vr a) i
    let writes := fun (val : Seq → Nat → Int × Nat) (o : Host.Outcome State Fault Refusal) => VecWrites s h x w km d val o
    let special := fun (g : SpecialFn) (q : Seq) (i : Nat) =>
      let v := f.opd env (p q i)
      let once := ((tyFmt .fp32).ofVal env false (g.val v).1).1
      let twice := if ty = .fp32 then once else (f.ofVal env false ((tyFmt .fp32).val once)).1
      let isOver := (g = .exp ∨ g = .exp2) ∧ twice = f.maxBits + 1 ∧ ∃ n m e, v = .fin n m e
      ((twice : Int), fun (k : Nat) => (g.val v).2.testBit k = true ∨ (k = 2 ∧ isOver))
    let applies := fun (g : SpecialFn) (o : Host.Outcome State Fault Refusal) =>
      ∃ fl : Seq → Nat → Nat, (∀ q i k, (fl q i).testBit k = true ↔ (special g q i).2 k) ∧
        writes (fun q i => ((special g q i).1, fl q i)) o
    let hash := fun (x seed : W64) =>
      let h := x ^^^ (seed * 0x9E3779B97F4A7C15)
      let h := (h ^^^ (h >>> 30)) * 0xBF58476D1CE4E5B9
      let h := (h ^^^ (h >>> 27)) * 0x94D049BB133111EB
      h ^^^ (h >>> 31)
    (applies .exp (exec (.vexp h ty km d a) s) ∧ applies .exp2 (exec (.vexp2 h ty km d a) s) ∧
      applies .log2 (exec (.vlog2 h ty km d a) s) ∧ applies .rcp (exec (.vrcp h ty km d a) s) ∧
      applies .rsqrt (exec (.vrsqrt h ty km d a) s) ∧ applies .sin (exec (.vsin h ty km d a) s) ∧
      applies .cos (exec (.vcos h ty km d a) s) ∧ applies .tanh (exec (.vtanh h ty km d a) s) ∧
      applies .sigm (exec (.vsigm h ty km d a) s)) ∧
    ((∀ g : SpecialFn, g.val .nan = (.nan, 0)) ∧
      SpecialFn.exp.val (.inf n) = (if n then .fin false 0 0 else .inf false, 0) ∧
      SpecialFn.exp2.val (.inf n) = (if n then .fin false 0 0 else .inf false, 0) ∧
      SpecialFn.log2.val (.inf false) = (.inf false, 0) ∧ SpecialFn.log2.val (.fin n 0 e) = (.inf true, flagDZ) ∧
      (m ≠ 0 → SpecialFn.log2.val (.fin true m e) = (.nan, flagIV) ∧ SpecialFn.rsqrt.val (.fin true m e) = (.nan, flagIV)) ∧
      SpecialFn.log2.val (.inf true) = (.nan, flagIV) ∧ SpecialFn.rsqrt.val (.inf true) = (.nan, flagIV) ∧
      SpecialFn.rcp.val (.fin n 0 e) = (.inf n, flagDZ) ∧ SpecialFn.rsqrt.val (.fin n 0 e) = (.inf n, flagDZ) ∧
      SpecialFn.rcp.val (.inf n) = (.fin n 0 0, 0) ∧ SpecialFn.rsqrt.val (.inf false) = (.fin false 0 0, 0) ∧
      SpecialFn.sin.val (.inf n) = (.nan, flagIV) ∧ SpecialFn.cos.val (.inf n) = (.nan, flagIV) ∧
      SpecialFn.tanh.val (.inf n) = (.fin n 1 0, 0) ∧ SpecialFn.sigm.val (.inf n) = (if n then .fin false 0 0 else .fin false 1 0, 0) ∧
      SpecialFn.exp.val (.fin n 0 e) = (.fin false 1 0, 0) ∧ SpecialFn.sin.val (.fin n 0 e) = (.fin n 0 0, 0) ∧
      SpecialFn.cos.val (.fin n 0 e) = (.fin false 1 0, 0) ∧ SpecialFn.tanh.val (.fin n 0 e) = (.fin n 0 0, 0) ∧
      SpecialFn.sigm.val (.fin n 0 e) = (.fin false 1 (-1), 0) ∧
      (m ≤ 1024 → SpecialFn.exp2.val (.fin n m 0) = (.fin false 1 (if n then -(m : Int) else m), 0)) ∧
      SpecialFn.log2.val (.fin false (2 ^ k) e) = (.fin (decide (e + k < 0)) (e + k).natAbs 0, 0)) ∧
    (ty.isFlt = true → writes (fun q i =>
        vecResult ty (FEnv.of x.mode rnd) false ((f.opd (FEnv.of x.mode rnd) (p q i)).sqrt f.guardBits) 0)
      (exec (.vsqrt h ty rnd km d a) s)) ∧
    (ty.isInt = true ∨ ty.isFlt = true → writes (fun _ i =>
        let z := (hash (x.ops.getD 0 0 + BitVec.ofNat 64 i) (x.ops.getD 1 0)).toNat
        let bits : Nat := if ty = .fp32 then 24 else if ty = .bf16 then 8 else 11
        if ty.isInt then ((z / 2 ^ (64 - w) : Nat), 0) else ((f.ofVal {} false (.fin false (z / 2 ^ (64 - bits)) (-(bits : Int)))).1, 0))
      (exec (.vrand h ty km d a b) s))

/-- 11 R222-R224; 13 R228; 15 R256: vector loads and stores. With every byte that it accesses in the direct region and awake, and for a store no byte of
it still to be read in the array, a word issues and completes: a load writes vD alone from the bytes as they stand, a store the bytes of its
active elements alone, the later of two that overlap remaining. A misaligned access, or one outside the direct region, faults at the entry,
and a word with no active chunk or element accesses nothing. A store goes once no earlier command of its queue in the array still reads its bytes
(13 R228). Which ADDR a fault of a strided or indexed word names (assumption 58: sA where misaligned, else the start of the first active chunk or
element out of range) is the model's choice. -/
def Obligations.VectorMemory : Prop :=
  ∀ (s : State) (h : EHead) (x : Entry) (ty : Ty) (km : KReg) (d a b : Reg) (imm : BitVec 36), Issues s .c h x →
    let i := s.who
    let c := s.core i.pkg i.core
    let w := ty.width
    let base : Int := (x.ops.getD 0 0).toNat + imm.toInt
    let chunk := fun (j : Nat) => ((x.ops.getD 0 0).toNat : Int) + j * (x.ops.getD 1 0).toInt
    let active := fun (k : Core) (e : Nat) => ((k.seq i.seq).kr km).getLsbD e
    let chunks := ((List.range 8).filter fun j => (List.range (512 / w)).any fun p => active c (j * (512 / w) + p)).map fun j => (chunk j, 64)
    let index := fun (k : Core) (e : Nat) => (x.ops.getD 0 0).toNat + velem w ((k.seq i.seq).vr b) e * (w / 8)
    let elements := ((List.range (4096 / w)).filter (active c)).map fun e => ((index c e : Int), w / 8)
    let may := fun (acc : List (Int × Nat)) => ∀ r ∈ acc, 0 ≤ r.1 ∧ r.1.toNat + r.2 ≤ directEnd c.carve ∧ c.wakingAt r.1.toNat r.2 = false
    let firstOut := fun (acc : List (Int × Nat)) => acc.find? fun r => decide (r.1 < 0) || decide (directEnd c.carve < r.1.toNat + r.2)
    let free := fun (acc : List (Int × Nat)) => c.stillReads i.seq (acc.map fun r => (r.1.toNat, r.2)) = false
    let byte := fun (k : Core) (o : Nat) => (memGet zeroByte k.spad o).toNat
    let nib := fun (m : Memory) (o n : Nat) => (memGet zeroByte m o).toNat / 16 ^ n % 16
    let number := fun (k : Core) (o n : Nat) => leNat (memBytes zeroByte k.spad o n)
    let loads := SpadLoads s h x d
    let stores := SpadStores s h x
    let governs := fun (val : Core → Nat → Nat) (k : Core) (v : Vec) =>
      ∀ e < 4096 / w, velem w v e = if active k e then val k e else velem w ((k.seq i.seq).vr d) e
    let faults := fun (code : Nat) (addr : Int) =>
      Host.Outcome.next (φ := Fault) (ρ := Refusal) (takeFault i { code := code, addr := BitVec.ofInt 64 addr, queue := 2, caddr := x.caddr } s)
    (base % 64 = 0 →
      (may [(base, 512)] →
        loads (fun k v => ∀ o < 512, velem 8 v o = byte k (base.toNat + o)) (exec (.vld h d a imm) s) ∧
        (free [(base, 512)] → stores (fun k m => ∀ o, (memGet zeroByte m o).toNat =
            if base.toNat ≤ o ∧ o < base.toNat + 512 then velem 8 ((k.seq i.seq).vr d) (o - base.toNat) else byte k o)
          (exec (.vst h d a imm) s))) ∧
      (may [(base, 64)] → loads (fun k v => ∀ o < 512, velem 8 v o = byte k (base.toNat + o % 64)) (exec (.vldb h d a imm) s)) ∧
      (base < 0 ∨ directEnd c.carve < base.toNat + 512 → exec (.vld h d a imm) s = faults 0x08 base ∧ exec (.vst h d a imm) s = faults 0x08 base) ∧
      (base < 0 ∨ directEnd c.carve < base.toNat + 64 → exec (.vldb h d a imm) s = faults 0x08 base)) ∧
    (base % 64 ≠ 0 →
      exec (.vld h d a imm) s = faults 0x04 base ∧ exec (.vst h d a imm) s = faults 0x04 base ∧ exec (.vldb h d a imm) s = faults 0x04 base) ∧
    (chunks ≠ [] → ((x.ops.getD 0 0).toNat % 64 ≠ 0 ∨ (x.ops.getD 1 0).toNat % 64 ≠ 0) →
      exec (.vlds h ty km d a b) s = faults 0x04 (x.ops.getD 0 0).toNat ∧ exec (.vsts h ty km d a b) s = faults 0x04 (x.ops.getD 0 0).toNat) ∧
    ((x.ops.getD 0 0).toNat % 64 = 0 → (x.ops.getD 1 0).toNat % 64 = 0 → ∀ r, firstOut chunks = some r →
      exec (.vlds h ty km d a b) s = faults 0x08 r.1 ∧ exec (.vsts h ty km d a b) s = faults 0x08 r.1) ∧
    ((chunks ≠ [] → (x.ops.getD 0 0).toNat % 64 = 0 ∧ (x.ops.getD 1 0).toNat % 64 = 0) → may chunks →
      loads (governs fun k e => number k (chunk (e / (512 / w))).toNat 64 / 2 ^ (w * (e % (512 / w))) % 2 ^ w) (exec (.vlds h ty km d a b) s) ∧
      (free chunks → stores (fun k m => ∀ o n, n < 2 →
          let writes := fun (j : Nat) => (chunk j).toNat ≤ o ∧ o < (chunk j).toNat + 64 ∧
            active k (j * (512 / w) + (2 * (o - (chunk j).toNat) + n) * 4 / w) = true
          ((∀ j < 8, ¬ writes j) → nib m o n = nib k.spad o n) ∧
          ∀ j < 8, writes j → (∀ l < 8, j < l → ¬ writes l) →
            nib m o n = velem 4 ((k.seq i.seq).vr d) (j * 128 + 2 * (o - (chunk j).toNat) + n))
        (exec (.vsts h ty km d a b) s))) ∧
    (w % 8 = 0 → elements ≠ [] → (x.ops.getD 0 0).toNat % (w / 8) ≠ 0 →
      exec (.vldx h ty km d a b) s = faults 0x04 (x.ops.getD 0 0).toNat ∧ exec (.vstx h ty km d a b) s = faults 0x04 (x.ops.getD 0 0).toNat) ∧
    (w % 8 = 0 → (x.ops.getD 0 0).toNat % (w / 8) = 0 → ∀ r, firstOut elements = some r →
      exec (.vldx h ty km d a b) s = faults 0x08 r.1 ∧ exec (.vstx h ty km d a b) s = faults 0x08 r.1) ∧
    (w % 8 = 0 → (elements ≠ [] → (x.ops.getD 0 0).toNat % (w / 8) = 0) → may elements →
      loads (governs fun k e => number k (index k e) (w / 8)) (exec (.vldx h ty km d a b) s) ∧
      (free elements → stores (fun k m => ∀ o,
          let writes := fun (e : Nat) => active k e = true ∧ index k e ≤ o ∧ o < index k e + w / 8
          ((∀ e < 4096 / w, ¬ writes e) → memGet zeroByte m o = memGet zeroByte k.spad o) ∧
          ∀ e < 4096 / w, writes e → (∀ l < 4096 / w, e < l → ¬ writes l) →
            (memGet zeroByte m o).toNat = velem w ((k.seq i.seq).vr d) e / 256 ^ (o - index k e) % 256)
        (exec (.vstx h ty km d a b) s)))

/-! ## The matrix array and the buses -/

/-- 13 R226-R251; 03 R76, R77; 07 R139-R151: the matrix words, and the numbers that they give. A tile command whose checks pass enters the array, pops its format word and completes with its
tile written whole: `mmul` element (x, y) with the dot product of row x of A and column y of B, `mld` with the source element or the sum,
`mzero` with 0, `mslice` its group with the folded pairs; `mst` with the readout stored line by line and the tile as it was. `msow` arms its
panel, and an `mmul` that takes an operand from a bus waits in the array. `mlease` completes with the lease held, and `mrel` ends it. Then
where an element of a line and its scale stand; the sum that each group of products leads to, and the integer sum; the scale, the digits, the
passes and the folds of a slice product; and what a readout rounds. That DAZ acts on hi and lo of a pair each for itself and on no tensor scale
is the model's choice (assumption 56). -/
def Obligations.MatrixCommands : Prop :=
  (∀ (s : State) (h : EHead) (x : Entry) (t r1 r2 r3 r4 : Reg) (ar br acc : Bool) (kf : BitVec 12) (sl : BitVec 4) (f : Fmtw),
    Issues s .c h x → t.toNat < 30 →
    let c := s.core s.who.pkg s.who.core
    let q := s.seq s.who
    let n := t.toNat
    let k := 8 * (kf.toNat + 1)
    let y := vget {} c.tilesAhead n
    let aw := (tyOf f.at_).width
    let bw := (tyOf f.bt).width
    let ow := (tyOf f.ot).width
    let pairA := (x.opd 0, x.opd 1)
    let pairB := (x.opd 2, x.opd 3)
    let zero := fun (k : Core) => acc = false ∨ (k.tile n).kind = .zero
    let old := fun (c : Core) (i : Nat) => if zero c then 0 else ((c.tile n).el i).toNat
    let chunks := fun (p : W64 × W64) (lines w k : Nat) => operandChunks p.1 p.2 lines k w
    let bits := fun (c : Core) (p : W64 × W64) (w k i : Nat) => c.lineBits p.1 p.2 k w i
    let scaled := fun (c : Core) (b : Bool) (area code i : Nat) => if b then some (c.lineScales area (blocksOf code k) i) else none
    let reads := mmulReads f x ar br k
    let sides := (if ar then [] else [pairA]) ++ (if br then [] else [pairB])
    let ends := fun (g : Core → Core) (o : Host.Outcome State Fault Refusal) =>
      o = .next (s.modCore s.who.pkg s.who.core g)
    (c.holder = some s.who.seq → exec (.mlease h) s =
      .next (s.modSeq s.who fun q => (q.started .c h x).complete .c x.id)) ∧
    ends (fun k => (k.modSeq s.who.seq fun q => q.started .c h x).dropLease s.who.seq |>.modSeq s.who.seq fun q => q.complete .c x.id)
      (exec (.mrel h) s) ∧
    (MayEnter s [] [] [] →
      TileWrites s h x false n .zero (fun _ => (0x3F800000, 0x3F800000)) (fun _ _ => (0, 0)) (exec (.mzero h t) s)) ∧
    (q.fq.head? = some f → f.clean = true →
      (pairOk f.at_ f.bt = true → operandOk f.at_ f.abs k = true → operandOk f.bt f.bbs k = true →
        (acc = true → y.kind ≠ .zero → y.kind = mmulKind f ∧ y.ta = f.ta ∧ y.tb = f.tb) → MayEnter s sides reads [] →
        (ar = false → br = false →
          TileWrites s h x true n (mmulKind f) (fun c => scalesAfter acc (c.tile n) f) (fun c i =>
            let a := bits c pairA aw k (i / 128)
            let b := bits c pairB bw k (i % 128)
            if isI8 f.at_ = true then (intDot (tyOf f.at_) (tyOf f.bt) a b (old c i), 0)
            else groupDot (groupLen f.at_ f.bt) (scaledLine (tyOf f.at_) a (scaled c f.abs f.asca f.at_ (i / 128)))
              (scaledLine (tyOf f.bt) b (scaled c f.bbs f.bsca f.bt (i % 128))) (old c i))
            (exec (.mmul h t r1 r2 r3 r4 ar br acc kf) s)) ∧
        (ar = true ∨ br = true →
          ends (fun c => { c.countLease.modSeq s.who.seq fun q => (q.started .c h x).popFmt with
              array := c.array ++ [{ seq := s.who.seq, entry := x.id, fmt := f, fromRow := ar, fromCol := br, reads := reads }] })
            (exec (.mmul h t r1 r2 r3 r4 ar br acc kf) s))) ∧
      (f.at_ = f.bt → f.at_ = 21 ∨ f.at_ = 22 → f.abs = false → f.bbs = false → k ≤ 8192 → q.sliceRec x.id = none →
        (let w := if f.at_ = 21 then 2 else 4
         n % w = 0 ∧ n + w ≤ 30) →
        (acc = true → y.kind = sliceKind f ∨ ∀ m ∈ sliceGroup f n, (vget {} c.tilesAhead m).kind = .zero) →
        (acc = true → y.kind ≠ .zero → y.ta = f.ta ∧ y.tb = f.tb) →
        MayEnter s [pairA, pairB] (chunks pairA 256 aw k ++ chunks pairB 128 aw k) [] →
        let lines := fun (c : Core) (p : W64 × W64) (m : Nat) =>
          (List.range m).map fun i => (bits c p aw k i).map (tyVal (tyOf f.at_))
        let result := fun (c : Core) =>
          slicePasses n 1 (lines c pairA 256) (lines c pairB 128) (sl.toNat * (sl.toNat + 1) / 2)
            (slicePre (lines c pairA 256) (lines c pairB 128) sl.toNat { entry := x.id, fmt := f }, markSlice n acc f c.tiles)
        (exec (.mslice h t r1 r2 r3 r4 acc sl kf) s = .next (s.modCore s.who.pkg s.who.core fun c =>
          { c.countLease.modSeq s.who.seq fun q => (({ (q.started .c h x).popFmt with msrec := none } : Seq).orFps
              (flagWord (result c).1.flags)).complete .c x.id with
            tiles := (result c).2 }))) ∧
      (f.ot = 21 ∨ f.ot = 19 ∨ f.ot = 20 ∨ f.ot = 7 → (acc = true → y.kind ≠ .zero → y.kind = mldKind f) →
        MayEnter s [pairA] (chunks pairA 256 ow 128) [] →
        TileWrites s h x true n (if f.ot = 7 then .i32 else .f32)
          (fun c => if acc then ((c.tile n).ta, (c.tile n).tb) else (0x3F800000, 0x3F800000)) (fun c i =>
            let v := (bits c pairA ow 128 (i / 128)).getD (i % 128) 0
            let wide := if f.ot = 21 then v else ((tyFmt .fp32).ofVal {} false ((tyFmt (tyOf f.ot)).val v)).1
            let sum := (tyFmt .fp32).add {} false (old c i) wide
            if f.ot = 7 then (if acc then (old c i + v) % 2 ^ 32 else v, 0)
            else if acc then (sum.1, sum.2 &&& (flagIV + flagOF)) else (wide, 0))
          (exec (.mld h t r1 r2 acc) s)) ∧
      (f.rnd ≤ 4 → y.kind ≠ .member → f.ot ∈ readoutTypes y.kind → (isIntCode f.ot = true → unitScale y = true) →
        MayEnter s [pairA] [] (chunks pairA 256 ow 128) →
        let element := fun (c : Core) (i : Nat) => mstElement f (x.env (Rnd.ofCode (BitVec.ofNat 3 f.rnd))) c.tiles n i
        ∃ g : Core → Memory × Nat, (∀ c,
            (g c).1 = (writeLines (x.opd 0) (x.opd 1) ow ((List.range 256).map fun i => (List.range 128).map fun j =>
              (element c (128 * i + j)).1) c).spad ∧
            (∀ o, (∀ r ∈ chunks pairA 256 ow 128, ¬ (r.1 ≤ o ∧ o < r.1 + r.2)) → memGet zeroByte (g c).1 o = memGet zeroByte c.spad o) ∧
            ∀ b, (g c).2.testBit b = true ↔ ∃ i < 32768, (element c i).2.testBit b = true) ∧
          exec (.mst h t r1 r2) s = .next (s.modCore s.who.pkg s.who.core fun c =>
            { c.entered s.who.seq h x true (g c).2 with spad := (g c).1 })) ∧
      (operandOk f.ot f.abs k = true → MayEnter s [pairA] (panelReads f x ar k) [] →
        ∃ p : Panel, p.who = s.who ∧ p.entry = x.id ∧ p.col = ar ∧ p.line = busLine ar s.who.core ∧ p.otype = f.ot ∧ p.kext = k ∧
          p.abs = f.abs ∧ p.base = x.opd 0 ∧ p.pitch = x.opd 1 ∧ p.area = f.asca ∧ p.dctx = q.dctx.toNat ∧ p.vteam = q.vteam.toNat ∧
          exec (.msow h r1 r2 ar kf) s = .next ((s.modCore s.who.pkg s.who.core fun c =>
              { c.countLease.modSeq s.who.seq fun q => (q.started .c h x).popFmt with
                array := c.array ++ [{ seq := s.who.seq, entry := x.id, fmt := f, reads := panelReads f x ar k }] }).modDie s.who.pkg
            (dieOf s.who.core) fun d => { d with panels := armPanel p d.panels })))) ∧
  (∀ (c : Core) (base pitch : W64) (n w i j area nb : Nat) (t : Ty) (xs bs : List Nat), w ∈ [4, 8, 16, 32, 64] →
    let a := base.toNat % 2 ^ 23 + i * (pitch.toNat % 2 ^ 23) + j / (512 / w) * (pitch.toNat / 2 ^ 32 % 2 ^ 23)
    let o := chunkAt base pitch i (j / (512 / w))
    (o % 64 = a % 64 ∧ o / 4096 = a / 4096 ∧ o / 64 % 64 = (a / 64 % 64 + base.toNat / 2 ^ 24 % 16 * (i % 64)) % 64) ∧
    (j < n → (c.lineBits base pitch n w i).getD j 0 = leNat (memBytes zeroByte c.spad o 64) / 2 ^ (w * (j % (512 / w))) % 2 ^ w) ∧
    (j < nb → (c.lineScales area nb i).getD j 0 = (memGet zeroByte c.spad (area + i * nb + j)).toNat) ∧
    (scaledLine t xs none).vals = xs.map (tyVal t) ∧ ((scaledLine t xs none).nan = true ↔ ∃ v ∈ xs, tyVal t v = .nan) ∧
    (j < xs.length → j / (if t = .e2m1 then 16 else 32) < bs.length → (scaledLine t xs (some bs)).vals.getD j .nan =
      ((tyVal t (xs.getD j 0)).mul (tyVal .e4m3 (bs.getD (j / (if t = .e2m1 then 16 else 32)) 0))).1) ∧
    ((scaledLine t xs (some bs)).nan = true ↔ (∃ v ∈ xs, tyVal t v = .nan) ∨ ∃ v ∈ bs, tyVal .e4m3 v = .nan)) ∧
  (∀ (g : Nat) (a b : Line) (s0 : Nat) (ta tb : Ty) (u v : List Nat), 0 < g →
    let nan := fun (n : Nat) => (tyFmt .fp32).val n = .nan
    (∃ fl, GroupsLead g (List.zipWith (fun x y => (x.mul y).1) a.vals b.vals) s0 (groupDot g a b s0).1 fl ∧
      (nan (groupDot g a b s0).1 → a.nan = false → b.nan = false → ¬ nan s0 → (groupDot g a b s0).2 = fl ||| flagIV) ∧
      (¬ (nan (groupDot g a b s0).1 ∧ a.nan = false ∧ b.nan = false ∧ ¬ nan s0) → (groupDot g a b s0).2 = fl)) ∧
    (intDot ta tb u v s0 : Int) =
      (s0 + (List.zipWith (fun x y => intOf ta.width ta.isSigned x * intOf tb.width tb.isSigned y) u v).sum) % 2 ^ 32) ∧
  (∀ (vs : List Val) (e ea eb : Int) (m n i j hi lo : Nat) (neg : Bool) (x k d : Int) (a b : List Val) (f : FFmt),
    (∀ top, TopOf top vs → lineScale vs = top + 1) ∧ ((∀ top, ¬ TopOf top vs) → lineScale vs = 0) ∧
    (k ≤ x → k ≤ e - 7 * n → m * 2 ^ (x - k).toNat < 2 ^ (e - k).toNat →
      (∀ i, (sliceDigit e i (.fin neg m x)).natAbs ≤ 127 ∧ (if neg then sliceDigit e i (.fin neg m x) ≤ 0 else 0 ≤ sliceDigit e i (.fin neg m x))) ∧
      ∃ rest : Nat, rest < 2 ^ (e - 7 * n - k).toNat ∧ (Val.fin neg m x).units k =
        ((List.range n).map fun i => sliceDigit e (i + 1) (.fin neg m x) * 2 ^ (e - 7 * (i + 1) - k).toNat).sum +
          (if neg then -1 else 1) * rest) ∧
    sliceDigit e i .nan = 0 ∧ sliceDigit e i (.inf neg) = 0 ∧
    slicePass ea eb i j a b = (List.zipWith (fun x y => sliceDigit ea i x * sliceDigit eb j y) a b).sum ∧
    ((f.val hi).Number → (f.val lo).Number → ∃ k k' : Int, UnitOf k [f.val hi, f.val lo] ∧ k ≤ e - 7 * m ∧ k' ≤ k ∧
      let sum := fun (k : Int) => (f.val hi).units k + (f.val lo).units k + d * 2 ^ (e - 7 * m - k).toNat
      let h := (f.ofVal {} false (Val.ofInt false (sum k) k)).1
      (¬ (f.val h).Number → sliceFold f e m d hi lo = (h, 0, flagOF)) ∧
      ((f.val h).Number → UnitOf k' [f.val h] ∧
        sliceFold f e m d hi lo = (h, (f.ofVal {} false (Val.ofInt false (sum k' - (f.val h).units k') k')).1, 0))) ∧
    (¬ (f.val hi).Number → sliceFold f e m d hi lo = ((f.ofVal {} false (f.val hi)).1, 0, 0))) ∧
  (∀ (t sl : Nat) (la lb : List (List Val)) (r : MsRec) (ts : Vector Tile 30), la.length = 256 → lb.length = 128 →
    let f := tyFmt (tyOf r.fmt.at_)
    let unsplit := fun (l : List Val) => ∃ v ∈ l, ¬ v.Number
    let sum := fun (i : Nat) => r.acc.getD i 0 + slicePass (r.scales.getD (i / 128) 0) (r.scales.getD (256 + i % 128) 0) r.nextI
      (r.nextM - r.nextI) (la.getD (i / 128) []) (lb.getD (i % 128) [])
    let p := slicePassStep t la lb (r, ts)
    let fold := fun (i : Nat) => sliceFold f (r.scales.getD (i / 128) 0 + r.scales.getD (256 + i % 128) 0) r.nextM (sum i)
      (pairAt r.fmt ts t i).1 (pairAt r.fmt ts t i).2
    slicePre la lb sl r = { r with
      scales := la.map lineScale ++ lb.map lineScale, nextM := sl + 1, nextI := 1, acc := [], flags := (slicePre la lb sl r).flags } ∧
    ((∃ l ∈ la ++ lb, unsplit l) → (slicePre la lb sl r).flags = r.flags ||| flagIV) ∧
    ((∀ l ∈ la ++ lb, ¬ unsplit l) → (slicePre la lb sl r).flags = r.flags) ∧
    (r.nextI + 1 < r.nextM → p = ({ r with acc := p.1.acc, nextI := r.nextI + 1 }, ts) ∧ ∀ i < 32768, p.1.acc.getD i 0 = sum i) ∧
    (r.nextM ≤ r.nextI + 1 → t + (if r.fmt.at_ = 21 then 2 else 4) ≤ 30 → r.fmt.at_ = 21 ∨ r.fmt.at_ = 22 →
      p.1 = { r with acc := [], nextM := r.nextM - 1, nextI := 1, flags := p.1.flags } ∧
      ∀ i < 32768,
        (unsplit (la.getD (i / 128) []) ∨ unsplit (lb.getD (i % 128) []) → pairAt r.fmt p.2 t i = (f.nanBits, 0)) ∧
        (¬ (unsplit (la.getD (i / 128) []) ∨ unsplit (lb.getD (i % 128) [])) →
          pairAt r.fmt p.2 t i = ((fold i).1 % 2 ^ f.w, (fold i).2.1 % 2 ^ f.w) ∧
          ((fold i).2.2.testBit 2 = true → p.1.flags.testBit 2 = true)))) ∧
  (∀ (f : Fmtw) (env : FEnv) (ts : Vector Tile 30) (t i : Nat),
    let y := vget {} ts t
    let el := fun (n : Nat) => ((vget {} ts n).el i).toNat
    let o := tyFmt (tyOf f.ot)
    let f32 := tyFmt .fp32
    let pair := fun (acc hi lo : Val) => (hi.Number → lo.Number → ∃ k, UnitOf k [acc, hi, lo] ∧ acc.Number ∧
        acc.units k = hi.units k + lo.units k) ∧ (hi = .nan → acc = .nan) ∧ (∀ n, hi = .inf n → lo.Number → acc = .inf n)
    (isIntCode f.ot = true → mstElement f env ts t i = convert env f.sat (tyOf f.ot) .i32 (el t)) ∧
    (isIntCode f.ot = false → ∃ acc, mstElement f env ts t i =
        floatToFloat env f.sat o ((acc.mul (f32.val y.ta.toNat)).1.mul (f32.val y.tb.toNat)).1 ∧
      (y.kind = .f32 ∨ y.kind = .zero → acc = f32.opd env (el t)) ∧
      (y.kind = .i32 → acc.Number ∧ UnitOf 0 [acc] ∧ acc.units 0 = ((vget {} ts t).el i).toInt) ∧
      (y.kind = .p32 → pair acc (f32.opd env (el t)) (f32.opd env (el (t + 1)))) ∧
      (y.kind = .p64 → pair acc ((tyFmt .fp64).opd env (el t + 2 ^ 32 * el (t + 1))) ((tyFmt .fp64).opd env (el (t + 2) + 2 ^ 32 * el (t + 3))))) ∧
    (∀ n m e, floatToFloat env f.sat o (.fin n m e) = o.ofVal env f.sat (.fin n m e)) ∧
    (∀ ty sat n, ty.isFloat = true → let g := tyFmt ty
      floatToFloat env sat g .nan = (if ty = .e2m1 then (0, flagIV) else (g.nanBits, 0)) ∧
      floatToFloat env sat g (.inf n) =
        if ty = .e2m1 then (g.signed n g.maxBits, if sat then 0 else flagIV)
        else if ty = .e4m3 then (if sat then (g.signed n g.maxBits, 0) else (g.nanBits, flagIV))
        else (g.signed n (if sat then g.maxBits else g.maxBits + 1), 0)))

/-- 13 R231, R236-R238, R242: `mfmt` sends its format word and scales to the harrow, from which they reach the queue, waits for room that a tile command
can make, and faults where none can; the check at the array's entry; and STREAM_BEGIN, which starts the panel of a bus once every member
of its team presents a receiver: each member's product takes the sender's lines, all complete, and the panel ends. A receiver that does not
match raises "bus extent" against the sender's context. Which tile commands count as ones that can make room for `mfmt` is the model's reading
(assumption 26). -/
def Obligations.FormatWordsAndStreams : Prop :=
  ∀ (s : State) (g : Guard) (a : Reg) (i : Sid) (e : Entry) (j : Instr) (p d : Nat) (x : Panel),
    let q := s.seq s.who
    let w := q.sr a
    let ta := bitsOf w.toNat 42 38
    let tb := bitsOf w.toNat 37 33
    let scale := fun (q : Seq) (n : Nat) => if n = 0 then 0x3F800000#32 else (q.sr (BitVec.ofNat 5 n)).setWidth 32
    let members := panelMembers s p x
    let receiver := fun (c : Nat) => ∃ r, (s.core p c).receiver? = some r ∧ r.from x.col = true ∧ r.from (!x.col) = false
    (Ready s g [a, BitVec.ofNat 5 ta, BitVec.ofNat 5 tb] →
      (q.fmtCount < 8 → exec (.mfmt g a) s = .next (s.modSeq s.who fun q =>
        { q.adv 8 with wait := none, harrow := q.harrow ++ [.fmt ⟨w, scale q ta, scale q tb⟩ s.ck] })) ∧
      (8 ≤ q.fmtCount → q.tileCommandWaits = true → exec (.mfmt g a) s = .next (s.modSeq s.who fun q => { q with wait := some .fmt })) ∧
      (8 ≤ q.fmtCount → q.tileCommandWaits = false →
        exec (.mfmt g a) s = .next (takeFault s.who { code := 0x13, caddr := q.pc } s))) ∧
    (s.has i = true → (s.core i.pkg i.core).holder = some i.seq → (s.seq i).st ≠ .halt → (s.seq i).headOf .c = some e →
      e.compared = true → e.guard = true → e.instr? = some j →
      (entryCheckFault j e (s.seq i) (s.core i.pkg i.core).tilesAhead = none → exec (.arrayEntryCheck i) s = .next s) ∧
      (∀ code, entryCheckFault j e (s.seq i) (s.core i.pkg i.core).tilesAhead = some code →
        exec (.arrayEntryCheck i) s = .next (takeFault i { code := code, queue := 2, caddr := e.caddr } s))) ∧
    (((s.pkg p).die d).panels = [x] → x.bad = false → (∀ c ∈ members, receiver c) →
      ((∀ c ∈ members, mismatch s p x c = false) →
        exec (.streamBegin p d x.col x.line) s = .next (endPanel p x (members.eraseDups.foldl (fun t c => receive s p [x] c t) s))) ∧
      ((∃ c ∈ members, mismatch s p x c = true) →
        exec (.streamBegin p d x.col x.line) s = .next (deferFault (s.seq x.who).ident { code := 0x22, queue := 2, caddr := x.caddr }
          (s.modDie p d fun k => { k with panels := k.panels.map fun y => if y == x then { y with bad := true } else y }))))

/-! ## Copies -/

/-- 15 R273-R278; 17 R297-R301: the copy words and `ksig`. With its record read and its checks passed, a copy word takes its tokens and its copy
is in progress; any check that fails is a precise fault at its queue, and the record's address is checked first: for its form, as a global
address of this package, and for its alignment to 256 B. `ksig`, its earlier entries complete, sends its request with the next serial; a
target that is no window word in place faults. -/
def Obligations.CopyCommands : Prop :=
  ∀ (s t u : State) (i : Instr) (e : EQ) (h : EHead) (x : Entry) (pat : List Byte) (f : FaultRec) (cx : CX) (set : Bool) (p pa : Nat) (pl : Place),
    let q := s.seq s.who
    let va := x.opd 0
    let copy : Copy := { id := x.id, q := e, word := x.word, caddr := x.caddr, ops := x.ops, pat := pat }
    let faults := fun (e : EQ) (f : FaultRec) (t : State) =>
      Host.Outcome.next (φ := Fault) (ρ := Refusal) (takeFault s.who { f with queue := eqNum e, caddr := x.caddr } t)
    (copyOf i = some (e, h) → Issues s e h x → q.copies.length < Config.maxCopies →
      (readRecord s.who va 256 s = (.go pat, t) → patternFault s.who copy t = none → (t.seq s.who).canTake e h = true →
        exec i s = .next (t.modSeq s.who fun q =>
          let q := q.started e h x
          { q with copies := q.copies ++ [copy] })) ∧
      (readRecord s.who va 256 s = (.go pat, t) → patternFault s.who copy t = some f → exec i s = faults e f t) ∧
      (2 ^ 57 ≤ va.toNat → exec i s = faults e { code := 0x01, addr := va, reason := 3 } s) ∧
      (va.toNat < 2 ^ 57 → isWindow va = true → exec i s = faults e { code := 0x09, addr := va } s) ∧
      (va.toNat < 2 ^ 57 → isWindow va = false → translate s.who.pkg q.dctx.toNat s.who va false true s = (.ok p pa, t) →
        (va.toNat % 256 ≠ 0 → exec i s = faults e { code := 0x04, addr := va } t) ∧
        (va.toNat % 256 = 0 → p ≠ s.who.pkg → exec i s = faults e { code := 0x09, addr := va } t) ∧
        (va.toNat % 256 = 0 → p = s.who.pkg →
          readRecord s.who va 256 s = (.go ((List.range 256).map fun k => (t.pkg p).byte (pa + k)), t)))) ∧
    (Issues s .s h x → q.earlierDone x.id = true →
      let va := x.opd 0 + x.opd 1;
      (va.toNat < 2 ^ 57 → resolve s.who va 8 .sig s = (.ok pl, t) → (t.seq s.who).canIssue = true → (t.seq s.who).canTake .s h = true →
        issueReq s.who (.sig set (x.opd 2)) pl va x.caddr (.entry .s x.id) true true 0 (t.modSeq s.who fun q => q.started .s h x) = some u →
        exec (.ksig h cx set) s = .next u) ∧
      (va.toNat < 2 ^ 57 → resolve s.who va 8 .sig s = (.fault f, t) → exec (.ksig h cx set) s = faults .s f t) ∧
      (2 ^ 57 ≤ va.toNat → exec (.ksig h cx set) s = faults .s { code := 0x05, addr := va } s))

/-- 15 R264, R269, R274-R280, R283, R284; 17 R298: the copy engine. COPY_PIECE_REQUEST takes the next piece in turn among the sequencers of a core: of a
`cpy` from memory it sends the request to the own die's slices that the address names, block by block, and the reads stand in the station's list;
of a `cpyo` to memory it sends the bytes as they stand, and of a piece between scratchpads the bytes fly at once; a piece of a `cget` goes out as a
request to the one package that all its pieces reach, and one that reaches another is "copy space" (that R298 speaks of the whole copy is the
model's reading, assumption 46); a fault stops the copy at that piece. PIECE_PERFORMED judges the destination by the
addressed core's carve of now, writes the bytes there, counts them, and ends the copy with its last piece, once no earlier piece to the line is outstanding (which names of a line are one is assumption 40). -/
def Obligations.CopyPieces : Prop :=
  ∀ (s t u x : State) (p c d n cid pa : Nat) (i : Sid) (k : Copy) (pc : Piece) (f : FaultRec) (fl : Flight) (pl : Place) (b off : Nat),
    let turn := fun (m : Nat) => (⟨p, c, ((s.core p c).rr + 1 + m) % 4⟩ : Sid)
    let k2 := readIndex i { k with next := k.nextUp } s
    let blocks := (List.range ((pa + pc.len - 1) / 256 - pa / 256 + 1)).map fun m => (pa / 256 + m) * 256
    let flying := fun (s : State) (dst : Place) (bytes : Option (List Byte)) (far : Option Nat) => s.modSeq i fun q => q.modCopy k.id fun d =>
      { d with flight := d.flight ++ [{ n := n, ready := bytes.isSome, bytes := bytes.getD [], dst := some dst }]
               next := n + 1, idx := k.idx, far := far }
    let sends := fun (w : Option (List Byte)) => u.modDie i.pkg (i.core / 48) fun d => { d with reqs := d.reqs ++
      [{ who := i, cid := k.id, piece := n, slices := blocks.map fun b => d.map.getD (sliceIndex b) 0, gen := d.gen, pa := pa, bytes := pc.len
         write := w, na := copyOpt k.word, since := u.ck }] }
    let reads := (sends none).modCore i.pkg i.core fun c => { c with reads := c.reads ++ blocks.map fun b =>
      { seq := i.seq, cid := k.id, piece := n, block := b, off := max pa b - b, len := min (pa + pc.len) (b + 256) - max pa b, at_ := max pa b - pa } }
    let source := pieceSide i (srcKind (copyKind k.word)) .copySrc pc.src pc.len s
    let dest := pieceSide i (dstKind (copyKind k.word)) .copyDst pc.dst pc.len t
    let performed := fun (t : State) => finishCopy i cid (t.modSeq i fun q => q.modCopy cid fun c => c.perform n)
    (d < 4 → (∀ m < d, askNext (turn m) s = none) → askNext (turn d) s = some t →
      exec (.copyPieceRequest p c) s = .next (t.modCore p c fun k => { k with rr := (turn d).seq })) ∧
    ((∀ m < 4, (s.seq (turn m)).copies.find? Copy.wants = none) → exec (.copyPieceRequest p c) s = .next s) ∧
    ((s.seq i).copies.find? Copy.wants = some k → copyPiece k2 k2.next = some pc →
      (askPiece i k2 k2.next pc s = .done t → askNext i s = some t) ∧
      (askPiece i k2 k2.next pc s = .fault f t → askNext i s = some (stopCopy i k.id k2.next f t))) ∧
    (k.wants = true → k.stop = none ∧ k.listed = false ∧ k.nextUp ≤ k.low + 63) ∧
    (source = (.go (.mem i.pkg pa), t) → dest = (.go pl, u) → copyKind k.word = .cpy → askPiece i k n pc s = .done (flying reads pl none k.far)) ∧
    (source = (.go (.spad i.pkg b off), t) → dest = (.go pl, u) → copyKind k.word = .cpy →
      askPiece i k n pc s = .done (flying u pl (some (readPlace u pc.len (.spad i.pkg b off))) k.far)) ∧
    (source = (.go pl, t) → dest = (.go (.mem i.pkg pa), u) → copyKind k.word = .cpyo →
      askPiece i k n pc s = .done (flying (sends (some (readPlace u pc.len pl))) (.mem i.pkg pa) none k.far)) ∧
    (source = (.go (.mem b off), t) → dest = (.go pl, u) → copyKind k.word = .cget →
      (k.far = none ∨ k.far = some b → issueReq i (.get pc.len) (.mem b off) pc.src k.caddr (.piece k.id n) (k.counter = 0) false 0 u = some x →
        askPiece i k n pc s = .done (flying x pl none (some b))) ∧
      (∀ m, k.far = some m → m ≠ b → askPiece i k n pc s = .fault { code := 0x09, addr := pc.src } u)) ∧
    (source = (.fault f, t) → askPiece i k n pc s = .fault f t) ∧
    (s.has i = true → (s.seq i).copies.find? (fun c => c.id == cid) = some k → k.flight.find? (fun f => f.n == n) = some fl →
      copyPiece k n = some pc → fl.ready = true → fl.bytes ≠ [] → earlierSameLine (s.seq i) k n fl.dst = false → (∀ m, k.stop = some m → n < m) →
      copyKind k.word = .cpy ∨ copyKind k.word = .cgat → resolveWindow i pc.dst pc.len .copyDst s = .ok pl → placeWaking s pc.len pl = false →
      let written := writePlace fl.bytes pl s
      (k.counter = 0 → exec (.piecePerformed i cid n) s = .next (performed written)) ∧
      (k.counter ≠ 0 → resolveWindow i k.counter 8 .counter written = .ok (.win b i.core off) →
        exec (.piecePerformed i cid n) s = .next (performed (writePlace (leBytes 8
          (((written.core b i.core).winWord off) + BitVec.ofNat 64 pc.len).toNat) (.win b i.core off) written))))

/-- 15 R263-R270, R281; 01 R21, R28, R37, R38: slices and the ring. A request whose messages have come over the ring reaches the own die's slices: of a home
in this die a write is performed there and its acknowledgement formed, and a read's block is delivered, merged into a waiting delivery of the block
where R270 allows it; a request of the other die's memory is forwarded to the slice that the home die's map names. A delivery that reaches the next
station of its mask, or an acknowledgement, is taken there, with every read of the station that it satisfies, and the last station ends it; a
slice that has given up its lines answers REHOME, and the request goes on to the new map; and a slice is retired in three steps. A die with fewer
than 12 slices goes offline, and so does a core by itself: its sequencers stop and its context takes the fault "core offline" (that they stand in
HALT until the checkpoint releases the core is the model's reading of 03 R81, assumption 61). -/
def Obligations.SlicesAndRing : Prop :=
  ∀ (s : State) (p d k m n j st : Nat) (r : SliceReq) (v : Delivery) (map : List Nat) (bs : List Byte) (a : Sid × Nat × Nat) (at_ : Nat × Nat)
    (ys : List (Nat × Nat × Nat × Nat × Nat)) (die2 : Die) (c : Copy) (f : Flight) (pc : Piece) (b : BlockRead),
    let die := (s.pkg p).die d
    let state := fun (m : Nat) => die.slices.getD m .off
    let ask := r.who.core / 48
    let blocks := (List.range ((r.pa + r.bytes - 1) / 256 - r.pa / 256 + 1)).map fun m => (r.pa / 256 + m) * 256
    let free := (∀ x ∈ die.reqs.take k, x.who.core = r.who.core → ∀ b ∈ ringBlocks x.pa x.bytes, b ∉ blocks) ∧
      (r.again = true ∨ ∀ b ∈ blocks, b ∉ (s.core p r.who.core).rehomed)
    let bits : BitVec 48 := 1#48 <<< (r.who.core % 48)
    (die.reqs[k]? = some r → free → (∀ m ∈ r.slices, state m = .serving ∨ state m = .retiring) → reqSlots (s.pkg p) die s.ck r = some ys →
      let t := s.modDie p d fun x => { x.tookReq r s.ck ys with reqs := x.reqs.eraseIdx k }
      let home := (s.pkg p).homeDie r.pa
      let held := if r.na then t else t.modDie p home fun x => (linesOf r.pa r.bytes).foldl (fun x l => x.allocate l false) x
      let delivers := fun (h : List Delivery → List Delivery) => held.modDie p ask fun x => { x with deliv := h x.deliv }
      (home = d → r.write = some bs → r.mask = [] → exec (.sliceRequest p d k) s =
        .next ((t.modPkg p fun x => x.writeAt (!r.na) r.pa bs).modDie p ask fun x => { x with deliv := x.deliv ++
          [{ slice := (r.fwd.getD r.slices).getD 0 0, pa := r.pa / 256 * 256, mask := bits, ack := some (r.who, r.cid, r.piece) }] })) ∧
      (home = d → r.write = none → r.mask = [] → blocks = [n] → r.fwd.getD r.slices = [m] → ∃ h : List Delivery → List Delivery,
        (∀ l, (∀ v ∈ l, mergeable r m n v = false) →
          h l = l ++ [{ slice := m, pa := n, bytes := (held.pkg p).bytes n 256, lines := linesOf r.pa r.bytes, mask := bits }]) ∧
        (∀ pre post, (∀ w ∈ pre, mergeable r m n w = false) → mergeable r m n v = true →
          h (pre ++ v :: post) = pre ++ { v with mask := v.mask ||| bits } :: post) ∧
        exec (.sliceRequest p d k) s = .next (delivers h)) ∧
      (home ≠ d → r.write = some bs → exec (.sliceRequest p d k) s = .next (t.modDie p home fun x => { x with reqs := x.reqs ++
        [{ r with slices := blocks.map fun b => x.map.getD (sliceIndex b) 0, gen := x.gen, fwd := some r.slices }] }))) ∧
    (mergeable r m n v = true ↔ v.sent = none ∧ v.ack = none ∧ v.slice = m ∧ v.pa = n ∧ v.fresh = true ∧
      (∀ l ∈ reqLines r n, l ∈ v.lines) ∧ ((List.range 48).filter fun e => v.mask.getLsbD e).length < 48) ∧
    (die.reqs[k]? = some r → (∃ m ∈ r.slices, state m = .rehoming ∨ state m = .off) →
      exec (.rehome p d k) s = .next ((s.modDie p d fun x =>
        { x with reqs := x.reqs.modify k fun r =>
            { r with slices := blocks.map fun b => x.map.getD (sliceIndex b) 0, gen := x.gen, since := s.ck, again := true } }).modCore p r.who.core
          fun c => { c with rehomed := (blocks ++ c.rehomed).eraseDups }) ∧
      exec (.sliceRequest p d k) s = .next s) ∧
    ((nextStations d die)[k]? = some (j, st) → die.deliv[j]? = some v → (∀ w ∈ die.deliv.take j, w.pa = v.pa → st ∉ w.stations d) →
      v.side = [] → die.arrive (s.pkg p) d s.ck v st = some (die2, at_) →
      let takes := fun (x : BlockRead) => x.block = v.pa ∧ ∀ l ∈ linesOf (x.block + x.off) x.len, l ∈ v.lines
      let w := { v with mask := v.mask &&& ~~~(1#48 <<< (st % 48)), sent := some at_ }
      let clears := fun (g : BlockRead → Bool) => (s.modDie p d fun _ =>
          { die2 with deliv := if w.mask = 0 then die2.deliv.eraseIdx j else die2.deliv.set j w }).modCore p st fun c =>
        { c with reads := c.reads.filter fun x => !g x, rehomed := c.rehomed.filter (· ≠ v.pa) }
      (v.ack = some a → exec (.ringDelivery p d k) s = .next (landPiece a.1 a.2.1 a.2.2 [] (clears fun _ => false))) ∧
      (v.ack = none → ∃ g : BlockRead → Bool, (∀ x ∈ (s.core p st).reads, g x = true ↔ takes x) ∧ exec (.ringDelivery p d k) s =
        .next (((s.core p st).reads.filter g).foldl (fun t r => takeRead p st v r t) (clears g)))) ∧
    (flightOf s ⟨p, st, b.seq⟩ b.cid b.piece = some (c, f, pc) → copyKind c.word = .cpy → f.parts = [] → b.at_ = 0 → b.len = pc.len →
      b.off + b.len ≤ v.bytes.length →
      let bytes := (v.bytes.drop b.off).take b.len
      takeRead p st v b s = landPiece ⟨p, st, b.seq⟩ b.cid b.piece bytes (landPart ⟨p, st, b.seq⟩ b.cid b.piece st 0 bytes s)) ∧
    (state k = .serving →
      let t := s.modDie p d fun x => { x with slices := x.slices.set k .retiring }
      let left := (((t.pkg p).die d).slices.filter (· == .serving)).length
      (12 ≤ left → exec (.sliceRetire p d k map) s = .next t) ∧
      (left < 12 → exec (.sliceRetire p d k map) s = .next (takeOffline p (dieCores d) t))) ∧
    (state k = .retiring → (∃ l ∈ die.lines, l.slice = k ∧ l.dirty = true) →
      exec (.sliceRetire p d k map) s = .next (s.modDie p d fun x =>
        { x with lines := x.lines.map fun l => if l.slice = k then { l with dirty := false } else l })) ∧
    (state k = .retiring → (∀ l ∈ die.lines, l.slice = k → l.dirty = false) → map.length = 64 → (∀ m ∈ map, m < 24 ∧ m ≠ k ∧ state m = .serving) →
      exec (.sliceRetire p d k map) s = .next (s.modDie p d fun x =>
        { x with map := map, gen := (x.gen + 1) % 65536, slices := x.slices.set k .rehoming
                 lines := x.lines.filter fun l => map.getD (sliceIndex (128 * l.line)) 0 == l.slice })) ∧
    (state k = .rehoming → (∀ r ∈ die.reqs, k ∉ r.slices) →
      exec (.slicePowerDown p d k) s = .next (s.modDie p d fun x => { x with slices := x.slices.set k .off })) ∧
    ((s.core p k).offline = false →
      let off := s.modCore p k fun c => { c with offline := true }
      ((s.core p k).bound = none → exec (.coreOffline p k) s = .next off) ∧
      ((s.core p k).bound ≠ none →
        let halted := off.modCore p k fun c => { c with seqs := c.seqs.map fun q =>
          if q.st = .unbound ∨ q.st = .halt then q else { q.dropWait with st := .halt, idleStop := q.st == .idle } }
        exec (.coreOffline p k) s = .next (takeFault ⟨p, k, 0⟩
          { code := 0x33, caddr := (halted.seq ⟨p, k, 0⟩).pc, aux := BitVec.ofNat 64 k } halted)))

/-! ## Remote operations and the fabric -/

/-- 17 R294-R296, R301, R303, R305-R307, R309: the events of requests and answers. A request of an unordered stream enters its destination's mesh at
once, and one of an ordered stream in the order of its FSEQ, which brings in what was held behind it; its owner answers it; a result ends it,
moves SERA.ACK on and reaches what issued it, and a fault that the owner answers is precise at a word or entry that waits; a NACK sets the time
of the next send, and so does a silence of 64 µs, 16 of which are "fabric unreachable"; a packet is discarded 48 µs after its send, and a
reply-cache entry freed when its timer has reached 4 ms. AUX of "fabric unreachable" is a location that the spec gives no form (assumption 2). -/
def Obligations.RemoteEvents : Prop :=
  ∀ (s t : State) (i : Sid) (p k n d : Nat) (x y : Packet) (r : Req) (a : Ans) (m : MeshReq) (o : Out) (e : Reply) (f : FaultRec) (q : EQ),
    let dropped := { s with net := s.net.filter fun y => y.id ≠ x.id }
    let enters := fun (s : State) => s.modPkg x.dst fun k => { k with mesh := k.mesh ++ [⟨r, x.src, s.ck⟩] }
    let flow := ((s.pkg x.dst).flowsRx.find? fun f => f.dctx == r.id.dctx && f.src == x.src).getD { dctx := r.id.dctx, src := x.src }
    let sends := fun (count : Bool) => resend i o count s
    (s.net[k]? = some x → x.at_ = x.dst → x.port = none → x.held = false → s.hasPkg x.dst = true → s.ck < x.sent + 48 * 3000 →
      (x.body = .ans r a →
        exec (.remotePacketArrival k) s = .next (dropped.modPkg x.dst fun p => { p with answers := p.answers ++ [(r, a)] })) ∧
      (x.body = .req r → r.fseq = none → exec (.remotePacketArrival k) s = .next (enters dropped)) ∧
      (x.body = .req r → r.fseq = some n → r.inc = (s.pkg x.dst).inc → fseqBefore n flow.next = false → n ≠ flow.next →
        exec (.remotePacketArrival k) s =
          .next { s with net := s.net.map fun y => if y.id = x.id then { y with held := true } else y }) ∧
      (x.body = .req r → r.fseq = some n → r.inc ≠ (s.pkg x.dst).inc ∨ fseqBefore n flow.next = true →
        exec (.remotePacketArrival k) s = .next (enters dropped)) ∧
      (x.body = .req r → r.fseq = some flow.next → r.inc = (s.pkg x.dst).inc → exec (.remotePacketArrival k) s =
        .next (issueHeld x.dst r.id.dctx x.src dropped.net.length (enters (dropped.modPkg x.dst fun k =>
          { k with flowsRx :=
              { flow with next := (flow.next + 1) % 65536 } :: (k.flowsRx.filter fun g => !(g.dctx == flow.dctx && g.src == flow.src)) }))))) ∧
    (s.net[k]? = some x → x.at_ = x.dst → x.port = none → x.held = false → s.hasPkg x.dst = true → x.sent + 48 * 3000 ≤ s.ck →
      exec (.remotePacketArrival k) s = .next dropped) ∧
    (let turn := fun (y : Packet) => y.held && y.dst == x.dst && y.src == x.src &&
        (match y.body with | .req z => z.id.dctx == r.id.dctx && z.fseq == some flow.next | _ => false)
     (s.net.find? turn = none → issueHeld x.dst r.id.dctx x.src (n + 1) s = s) ∧
     (s.net.find? turn = some y → ∀ z, y.body = .req z →
       let without := { s with net := s.net.filter fun k => k.id ≠ y.id }
       (y.sent + 48 * 3000 ≤ s.ck → issueHeld x.dst r.id.dctx x.src (n + 1) s = without) ∧
       (s.ck < y.sent + 48 * 3000 → issueHeld x.dst r.id.dctx x.src (n + 1) s = issueHeld x.dst r.id.dctx x.src n
         ((without.modPkg x.dst fun k => { k with flowsRx :=
            { flow with next := (flow.next + 1) % 65536 } :: (k.flowsRx.filter fun g => !(g.dctx == flow.dctx && g.src == flow.src)) }).modPkg x.dst fun k =>
              { k with mesh := k.mesh ++ [⟨z, x.src, s.ck⟩] })))) ∧
    ((s.pkg p).mesh[k]? = some m → (∀ e ∈ (s.pkg p).mesh.take k, sameLocation e m = false) →
      (∀ a b c, m.req.op ≠ .arrive a b c ∧ m.req.op ≠ .release a b c) →
      (own p m s = .answer a t → exec (.remoteOperation p k) s =
        .next (answerReq p m a (t.modPkg p fun x => { x with mesh := x.mesh.eraseIdx k }))) ∧
      (own p m s = .wait t → exec (.remoteOperation p k) s = .next t)) ∧
    ((s.pkg p).answers[k]? = some (r, a) →
      exec (.answerArrival p k) s = .next (receiveAnswer p r a (s.modPkg p fun x => { x with answers := x.answers.eraseIdx k }))) ∧
    (r.origin ≠ .unit → r.fseq = none → s.findSeq r.id = some i → (s.seq i).out.find? (fun o => o.matches r) = some o →
      let upd := fun (f : Out → Out) => s.modSeq i fun q => { q with out := q.out.map fun x => if x.matches r then f x else x }
      (a = .nackFull ∨ a = .nackAbsent → receiveAnswer i.pkg r a s = upd fun o =>
        { o with nacks := o.nacks + 1, lastSend := s.ck, resendAt := some (s.ck + 3000 * min (2 ^ o.nacks) 32) }) ∧
      (∀ v, a = .result v → receiveAnswer i.pkg r a s = deliver i o a (s.modSeq i fun q =>
        let q := { q with out := q.out.filter fun x => !x.matches r }
        { q with ack := q.ackPoint })) ∧
      (∀ b, a = .nackSeed b → receiveAnswer i.pkg r a s = upd fun o => { o with refused := true, lastSend := s.ck, resendAt := some (s.ck + 64 * 2 ^ b) })) ∧
    (let named := { f with addr := o.req.addr, caddr := o.req.caddr }
     (∀ id, o.req.origin = .entry q id →
       (∀ v, deliver i o (.result v) s = s.modSeq i fun k => k.complete q id) ∧
       deliver i o (.fault f) s = takeFault i { named with queue := eqNum q } (s.modSeq i fun k => k.unissue q id)) ∧
     (o.req.origin = .front → ∀ d n, (s.seq i).wait = some (.reply d n none) →
       (∀ v, deliver i o (.result v) s = s.modSeq i fun k => { k with wait := some (.reply d n (some v)) }) ∧
       deliver i o (.fault f) s = takeFault i named (s.modSeq i fun k => { k with pc := o.req.caddr, wait := none })) ∧
     (o.req.origin = .posted → (∀ v, deliver i o (.result v) s = s) ∧ ((∀ ws, o.req.op ≠ .push ws) →
       deliver i o (.fault f) s = deferFault (s.seq i).ident named s))) ∧
    (i.core < 96 → (s.seq i).out[k]? = some o → s.has i = true → o.resendAt = none → o.lastSend + 64 * 3000 ≤ s.ck →
      (o.attempts < 16 → exec (.resendTimeout i k) s = .next (sends true)) ∧
      (16 ≤ o.attempts → exec (.resendTimeout i k) s = .next (machineCheck i 0x31 (Config.checkLocation 0x31 i.pkg i.core i.seq) s))) ∧
    (i.core = 96 → (s.pkg i.pkg).unitOut[k]? = some o → o.resendAt = none → o.lastSend + 64 * 3000 ≤ s.ck → o.attempts < 16 →
      exec (.resendTimeout i k) s = .next (launch o.req (s.modPkg i.pkg fun k' =>
        { k' with unitOut := k'.unitOut.modify k fun o => { o with attempts := o.attempts + 1, lastSend := s.ck } }))) ∧
    ((s.seq i).out[k]? = some o → s.has i = true → o.resendAt = some d → o.refused = false → d ≤ s.ck →
      exec (.nackBackoffResend i k) s = .next (sends false)) ∧
    (s.net[k]? = some x →
      (x.sent + 48 * 3000 ≤ s.ck → exec (.packetExpiry k) s = .next dropped) ∧
      (s.ck < x.sent + 48 * 3000 → exec (.packetExpiry k) s = .next s)) ∧
    ((s.core p n).replies[k]? = some e →
      (4000 * 3000 ≤ e.hold → exec (.replyCacheExpiry p n k) s = .next (s.modCore p n fun x => { x with replies := x.replies.eraseIdx k })) ∧
      (e.hold < 4000 * 3000 → exec (.replyCacheExpiry p n k) s = .next s))

/-- 17 R301, R305; 03 R55, R62; 15 R276: what the owner does with an operation that has a serial, in the order of its checks: acknowledged entries
leave its reply cache; an operation that it holds is answered from there and performed no more; another incarnation's is orphaned; a fault
that the owner finds is answered and leaves no entry; without a free entry it is refused, and so is a push to a full queue; and it is performed,
with its entry, in one step: an atomic, an addition to a counter, a signal, a join decrement, a push, or a counted piece with its addition. -/
def Obligations.ExactlyOnce : Prop :=
  ∀ (s : State) (p c off n : Nat) (m : MeshReq) (e : Reply) (f : FaultRec) (k : Atom) (b x : W64) (pl : Place) (ws : List W64) (bs : List Byte),
    let r := m.req
    let t := s.modCore p c fun k => { k with replies := k.replies.filter fun e => !(e.id == r.id && serLE e.serial r.ack) }
    let held := (t.core p c).replies.find? fun e => e.id == r.id && e.serial == n
    let word := fun (n : Nat) => wordLE ((t.core p c).winBytes off n)
    let counted := fun (n : Nat) (u : State) => u.modCore p c fun k => k.setWin off (leBytes 8 (wordLE ((u.core p c).winBytes off 8) + BitVec.ofNat 64 n).toNat)
    let stores := fun (v : W64) (u : State) => Owned.answer (.result v) (u.modCore p c fun k =>
      { k with replies := { id := r.id, serial := n, result := v } :: k.replies })
    let writes := fun (n : Nat) (w : W64) => t.modCore p c fun k => k.setWin off (leBytes n w.toNat)
    let fits := (t.core p c).replies.length < 4096
    let queue := bitsOf (ws.headD 0).toNat 63 62
    r.serial = some n → ((s.pkg p).ctx? r.id.dctx).isSome = true → teamServes s p m (ownerPlace r) = true → teamServes s p m r.place = true →
    hereOf s p r (ownerPlace r) = some pl → pl = .win p c off ∨ pl = .spad p c off →
    (held = some e → own p m s = .answer (.result e.result) (t.modCore p c fun k =>
      { k with replies := k.replies.map fun y => if y.id = r.id ∧ y.serial = n then { y with hold := 0 } else y })) ∧
    (held = none → r.inc ≠ (t.pkg p).inc → own p m s = .answer .orphaned t) ∧
    (held = none → r.inc = (t.pkg p).inc →
      ((∀ ws, r.op ≠ .push ws) → (∀ bs w z, r.op ≠ .put bs (some w) z) → ownerFault t p r.op pl = some f → own p m s = .answer (.fault f) t) ∧
      ((∀ ws, r.op ≠ .push ws) → (∀ bs w z, r.op ≠ .put bs (some w) z) → ownerFault t p r.op pl = none →
        (¬ fits → own p m s = .answer .nackFull t) ∧
        (fits → pl = .win p c off →
          (r.op = .atomic k b x → own p m s = stores (word (atomSize k)) (writes (atomSize k) (atomNew k (word (atomSize k)) b x))) ∧
          (∀ d, r.op = .count d → own p m s = stores 0 (counted d t)) ∧
          (∀ set v, r.op = .sig set v → own p m s = stores (word 8) (writes 8 (if set then v else word 8 + v))) ∧
          (r.op = .joinDec →
            (∀ u, joinDecrement p c off r.id r.addr r.caddr t = some u → own p m s = stores 0 u) ∧
            (joinDecrement p c off r.id r.addr r.caddr t = none → own p m s = .wait t)))) ∧
      (r.op = .push ws →
        (recordBad t p c ws = true → own p m s = .answer (.fault { code := 0x0D }) t) ∧
        (recordBad t p c ws = false → (t.core p c).queueBad queue = true → own p m s = .answer (.fault { code := 0x0C }) t) ∧
        (recordBad t p c ws = false → (t.core p c).queueBad queue = false →
          (¬ fits → own p m s = .answer .nackFull t) ∧
          (fits → (t.core p c).queueFull queue false = true → own p m s = .answer (.nackSeed ((t.core p c).backoff queue)) t) ∧
          (fits → (t.core p c).queueFull queue false = false →
            own p m s = stores 0 (t.modCore p c fun k => k.push queue s.ck (withCont false ws))))) ∧
      (∀ ctr z home, r.op = .put bs (some ctr) z → off + 8 ≤ 0x30000 → hereOf t p r r.place = some home →
        (ownerFault t p r.op home = some f → own p m s = .answer (.fault f) t) ∧
        (ownerFault t p r.op home = none → placeWaking t bs.length home = false →
          (¬ fits → own p m s = .answer .nackFull t) ∧
          (fits → own p m s = stores 0 (counted bs.length (writePlace bs home t))))))

/-- 01 R29, R30; 17 R310-R318: lanes, links and routes. A lane that falls fallow leaves both ends of its link, which is retired with fewer than
two lanes left; a change of lanes sends a control flit; a good flit in sequence is acknowledged, and the last of a packet brings it to the
router; a bad one has the sender replay what is not acknowledged, and a lane with more than 1,024 corrected errors falls fallow; the outputs
of minimal paths and of detours, their cost, and what the source and the later routers choose from; a packet takes a legal port with room,
credit and a turn on the next channel, or moves to the headland channel, whose tree is switched once it has drained. Which hops a later
router allows (assumption 37), that Q of a cost counts the unsent flits (assumption 50), the way of management's packets (assumption 51), and
that the epoch is common to all routers after a package's reset too (assumption 52), are the model's choices. -/
def Obligations.LinksAndRouting : Prop :=
  ∀ (s : State) (p port lane g q m k n dst vc : Nat) (f : Flit) (rest : List Flit) (x : Packet),
    let both := fun (h : Port → Port) (s : State) => (s.modPort p port h).modPort q m h
    let here := (s.pkg p).port port
    let there := (s.pkg q).port m
    let lanes := fun (on : Bool) => both (fun t =>
        { t with
          lanes := if on then t.lanes ||| (1#8 <<< lane) else t.lanes &&& ~~~(1#8 <<< lane)
          change := t.change || t.lanes.getLsbD lane != on, errs := t.errs.filter fun e => e.1 ≠ lane })
      ((s.modPkg p fun k => { k with reports := k.reports ++ [.lane port lane on (((k.port port).errs.filter fun e => e.1 == lane).length)] }).modPkg q
        fun k => { k with reports := k.reports ++ [.lane m lane on (((k.port m).errs.filter fun e => e.1 == lane).length)] })
    (peerOf s p port = some (q, m) → lane < 8 → port ≤ 30 →
      (2 ≤ (((lanes false).pkg p).port port).active → exec (.laneFallow p port lane) s = .next (lanes false)) ∧
      ((((lanes false).pkg p).port port).active < 2 → exec (.laneFallow p port lane) s = .next (retireLink p port (lanes false))) ∧
      exec (.laneRetrain p port lane) s = .next (lanes true) ∧
      (here.retired = true →
        exec (.linkReturn p port) s = .next (both (fun t => { t.trained with retired := false }) s))) ∧
    (p % 24 = 23 → 23 ≤ port → port ≤ 30 → g < 184 → ((s.pkg (p / 24 * 24 + g / 8)).port (23 + g % 8)).retired = true →
      exec (.spareLinkAssign p port g) s = .next (s.modPort p port fun t => { t with gindex := some g })) ∧
    (peerOf s p port = some (q, m) → there.change = true →
      exec (.flitReceive p port true) s = .next (s.modPort q m fun t => { t with change := false, stripe := t.lanes, lane := 0 }) ∧
      exec (.flitReceive p port false) s = .next s) ∧
    (peerOf s p port = some (q, m) → there.change = false → there.toSend = f :: rest → ∀ good : Bool,
      let on := there.nextLane
      let drawn := (s.modPort q m fun t => { t with toSend := rest, lane := on + 1 }).drawBool
      let t := drawn.2.modPort p port fun t =>
        { t with
          rxCount := t.rxCount + 1
          errs := if good && drawn.1 then (on, t.rxCount) :: t.errs.filter (fun e => decide (t.rxCount < e.2 + 2 ^ 30))
            else t.errs.filter fun e => decide (t.rxCount < e.2 + 2 ^ 30) }
      let taken := (t.modPort p port fun t => { t with rxSeq := (t.rxSeq + 1) % 4096 }).modPort q m fun t =>
        { t with replay := t.replay.filter fun x => x.seq ≠ f.seq }
      let u := if f.seq ≠ ((t.pkg p).port port).rxSeq then t
        else if good = false then t.modPort q m fun t => { t with nak := true }
        else if f.last then
          { taken with net := taken.net.map fun k =>
              if k.id = f.pkt then { k with at_ := p, port := none, via := port, want := none, since := taken.ck } else k }
        else taken
      let bad := (((u.pkg p).port port).errs.filter fun e => e.1 == on).length
      ((∃ n < 8, there.stripe.getLsbD n = true) → on < 8 ∧ there.stripe.getLsbD on = true) ∧
      (bad ≤ 1024 → exec (.flitReceive p port good) s = .next u) ∧
      (1024 < bad → exec (.flitReceive p port good) s = .next (fallow p port on u))) ∧
    (here.nak = true → exec (.flitReplay p port) s = .next (s.modPort p port fun t => { t with nak := false, toSend := t.replay })) ∧
    ((n ≤ 22 → s.hasPkg (p / 24 * 24 + (p % 24 + n + 1) % 24) = true →
        peerOf s p n = some (p / 24 * 24 + (p % 24 + n + 1) % 24, 22 - n)) ∧
      ((n, q) ∈ neighbours s p ↔ n ≤ 30 ∧ ∃ m, peerOf s p n = some (q, m) ∧ ((s.pkg p).port n).retired = false ∧
        ((s.pkg q).port m).retired = false ∧ 2 ≤ ((s.pkg p).port n).active ∧ 2 ≤ ((s.pkg q).port m).active) ∧
      (0 < here.active → portCost s p port * here.active = here.toSend.length * 8 * 840) ∧
      (n ∈ minimalPorts s p dst ↔ ∃ q, (n, q) ∈ neighbours s p ∧ if p / 24 = dst / 24 then q = dst
        else q / 24 = dst / 24 ∨ (q / 24 = p / 24 ∧ ∃ l b, (l, b) ∈ neighbours s q ∧ 23 ≤ l ∧ b / 24 = dst / 24)) ∧
      (n ∈ detourPorts s p dst ↔ ∃ q g l, (n, q) ∈ neighbours s p ∧ g ≠ p / 24 ∧ g ≠ dst / 24 ∧
        (if q / 24 = p / 24 then ∃ b, (l, b) ∈ neighbours s q ∧ 23 ≤ l ∧ b / 24 = g else q / 24 = g) ∧
        ∃ m < 24, s.hasPkg (g * 24 + m) = true ∧ ∃ j b, (j, b) ∈ neighbours s (g * 24 + m) ∧ 23 ≤ j ∧ b / 24 = dst / 24) ∧
      (minimalPorts s p dst = [] → sourcePorts s p dst = detourPorts s p dst) ∧
      (∀ a, LeastCost s p (minimalPorts s p dst) a →
        (∀ b, LeastCost s p (detourPorts s p dst) b → 2 * b + 64 * 840 < a → sourcePorts s p dst = detourPorts s p dst) ∧
        ((∀ b, LeastCost s p (detourPorts s p dst) b → a ≤ 2 * b + 64 * 840) →
          (n ∈ sourcePorts s p dst ↔ n ∈ minimalPorts s p dst ∧ portCost s p n = a))) ∧
      (n ∈ laterPorts s p dst vc ↔ vc < 4 ∧
        let leads := fun (n : Nat) => ∃ q, (n, q) ∈ neighbours s p ∧ Within s (3 - vc) q dst
        leads n ∧ ∀ l, leads l → portCost s p n ≤ portCost s p l) ∧
      dragonPorts s x = if x.fresh then sourcePorts s x.at_ x.dst else laterPorts s x.at_ x.dst x.vc) ∧
    (s.net[k]? = some x → x.port = none → x.held = false → x.at_ ≠ x.dst →
      let free := fun (n : Nat) => portRoom s x.at_ n x = true ∧ hasCredit s n x = true ∧ hasTurn s n x = true
      (x.vc < 5 → x.want = none → port ∈ dragonPorts s x →
        (free port → exec (.packetRoute k port) s = .next (takePort x port (if x.fresh then 0 else x.vc + 1) s)) ∧
        (¬ free port → exec (.packetRoute k port) s =
          .next { s with net := s.net.map fun y => if y.id = x.id then { x with want := some port } else y })) ∧
      (rivals s port x = [] → hasTurn s port x = true) ∧
      (∀ y ∈ rivals s port x, nextVc s y = 7 → nextVc s x ≠ 7 → hasTurn s port x = false) ∧
      (∀ y ∈ rivals s port x, nextVc s y = nextVc s x → nextVc s x ≠ 6 → y.since < x.since → hasTurn s port x = false) ∧
      (x.vc < 5 → s.drainAt = none → dragonPorts s x = [] ∨ x.since + 4096 ≤ s.ck →
        exec (.headlandMove k) s = .next { s with net := s.net.map fun y =>
          if y.id = x.id then { y with vc := 5, want := none, epoch := (s.pkg x.at_).epoch } else y }) ∧
      (x.vc = 5 → treeHop s x.at_ x.dst = some q → x.epoch = (s.pkg x.at_).epoch → (m, q) ∈ neighbours s x.at_ →
        (∀ n ∈ neighbours s x.at_, n.2 = q → n = (m, q)) → free m →
        exec (.packetRoute k port) s = .next (takePort x m 5 s))) ∧
    exec .treeDrain s = .next { s with drainAt := some s.ck } ∧
    (s.drainAt = some m → (∀ k ∈ s.net, k.vc = 5 → k.at_ = k.dst) ∨ m + 40 * 3000 ≤ s.ck →
      let next := (s.treeEpoch + 1) % 65536
      exec .treeSwitch s = .next { s with
        net := s.net.filter (fun k => !(k.vc == 5 && k.at_ ≠ k.dst)), drainAt := none, tree := buildTree s, treeEpoch := next
        pkgs := s.pkgs.map fun p => { p with epoch := next } })


/-! ## Page-major attention -/

/-- 19 R326-R328, R332, R333, R336: the attention words. `asub` whose checks pass makes its block live, activates its layer or joins the active one,
counts toward it and appends its entries to the pages of its table, main entries before the main pass and gleaning entries from then on;
`aunsub` removes the entries that the sower has not served and frees the block; `amerge` puts its partial at a position of the block within the
window, and discards it where no such position is left; `await` ends when the page is there, and `afin` frees the page's slot. A layer of which
a block is live is not retired with those that have none. How an unreadable descriptor is named and how the lists are looked up
(assumption 10), and that `await` and `afin` judge the slot by its header (assumption 11), are the model's choices. -/
def Obligations.AttentionWords : Prop :=
  ∀ (s t u : State) (h : EHead) (tag : BitVec 6) (notag : Bool) (r a b : Reg) (x : Entry) (rec d : List Byte) (ls : List (Nat × PageList))
    (k p : Nat) (blk : Block) (sl : PageSlot) (l : Layer) (f : FaultRec),
    let i := s.who
    let q := s.seq i
    let off := x.opd 0
    let core := s.core i.pkg i.core
    let die := fun (s : State) => (s.pkg i.pkg).die (dieOf i.core)
    let faults := fun (e : EQ) (code : Nat) (a : W64) (t : State) =>
      Host.Outcome.next (φ := Fault) (ρ := Refusal) (takeFault i { code := code, addr := a, queue := eqNum e, caddr := x.caddr } t)
    let started := fun (e : EQ) (s : State) => s.modSeq i fun q => q.started e h x
    let ends := fun (e : EQ) (s : State) => Host.Outcome.next (φ := Fault) (ρ := Refusal) (s.modSeq i fun q => q.complete e x.id)
    (Issues s .s h x → recordCheck x s = (.go (rec, d), t) →
      let live := liveBlock i (qbLidx rec) t
      (live.isSome = true → exec (.asub h tag notag r) s = faults .s 0x1A off t) ∧
      (live = none → 512 ≤ (die t).blocks.length → exec (.asub h tag notag r) s = .next t) ∧
      (live = none → (die t).blocks.length < 512 → (die t).layer? (t.seq i).dctx.toNat (qbLayer rec) = none → (die t).layers.length < 16 →
        readTable i rec d off t = (.go (.ok ls), u) → (u.seq i).canTake .s h = true →
        let q := t.seq i
        let b : Block := { dctx := q.dctx.toNat, vteam := q.vteam.toNat, vcore := q.vcore.toNat, core := i.core, record := rec,
                           table := ls.map (·.1), m := List.replicate (qbQ rec) negInf, l := List.replicate (qbQ rec) 0,
                           by_ := q.ident, caddr := x.caddr, addr := off }
        let l : Layer := { desc := BitVec.ofNat 64 (qbLayer rec), bytes := d, dctx := q.dctx.toNat, by_ := q.ident, caddr := x.caddr,
                           since := s.ck, subs := 1 }
        let u' := (((started .s u).modPkg i.pkg fun k =>
              ls.foldl (fun (k : Package) (y : Nat × PageList) => y.2.write (y.2.main k ++ [entryOf b]) (y.2.glean k) k) k).modDie
            i.pkg (dieOf i.core) fun k =>
              { k with blocks := k.blocks ++ [b]
                       layers := k.layers ++ [if lySubn d ≤ 1 then { l with phase := .main, started := s.ck } else l] }).modSeq i fun q => q.complete .s x.id
        exec (.asub h tag notag r) s = .next (if qbNb rec = 0 then completeBlock i.pkg (dieOf i.core) b u' else u')) ∧
      (live = none → (die t).blocks.length < 512 → (die t).layer? (t.seq i).dctx.toNat (qbLayer rec) = some l → l.phase ≠ .ending →
        readTable i rec l.bytes off t = (.go (.ok ls), u) → (u.seq i).canTake .s h = true →
        let q := t.seq i
        let b : Block := { dctx := q.dctx.toNat, vteam := q.vteam.toNat, vcore := q.vcore.toNat, core := i.core, record := rec,
                           table := ls.map (·.1), m := List.replicate (qbQ rec) negInf, l := List.replicate (qbQ rec) 0,
                           late := l.phase == .glean, by_ := q.ident, caddr := x.caddr, addr := off }
        let l' := if l.phase = .hold ∧ lySubn l.bytes ≤ l.subs + 1 then { l with subs := l.subs + 1, phase := .main, started := s.ck }
          else { l with subs := l.subs + 1 }
        let u' := (((started .s u).modPkg i.pkg fun k => ls.foldl (fun (k : Package) (y : Nat × PageList) =>
                if l.phase = .hold then y.2.write (y.2.main k ++ [entryOf b]) (y.2.glean k) k
                else y.2.write (y.2.main k) (y.2.glean k ++ [entryOf b]) k) k).modDie i.pkg (dieOf i.core) fun k =>
              { k with blocks := k.blocks ++ [b], layers := k.layers.map fun y => if y = l then l' else y }).modSeq i fun q => q.complete .s x.id
        exec (.asub h tag notag r) s = .next (if qbNb rec = 0 then completeBlock i.pkg (dieOf i.core) b u' else u')) ∧
      (live = none → (die t).blocks.length < 512 → (die t).layer? (t.seq i).dctx.toNat (qbLayer rec) = some l → l.phase ≠ .ending →
        readTable i rec l.bytes off t = (.go (.bad f), u) → (u.seq i).canTake .s h = true →
        exec (.asub h tag notag r) s = .next (deferFault (t.seq i).ident { f with queue := eqNum .s, caddr := x.caddr } (started .s u))) ∧
      (live = none → exec (.aunsub h tag notag r) s = faults .s 0x1A off t) ∧
      (live = some (k, blk) → (die t).layers.find? blk.inLayer = none → (t.seq i).canTake .s h = true → exec (.aunsub h tag notag r) s =
        ends .s (retireLayers i.pkg (dieOf i.core) ((started .s t).modDie i.pkg (dieOf i.core) fun x =>
          { x with blocks := x.blocks.eraseIdx k }))) ∧
      (live = some (k, blk) → (die t).layers.find? blk.inLayer = some l → findLists i blk.dctx l.bytes true blk.table t = (.go ls, u) →
        (u.seq i).canTake .s h = true → exec (.aunsub h tag notag r) s =
        ends .s (retireLayers i.pkg (dieOf i.core) (((started .s u).modPkg i.pkg fun k =>
          ls.foldl (fun (k : Package) (y : Nat × PageList) =>
            let others := fun (es : List Nat) => es.filter fun e => e ≠ entryOf blk
            y.2.write (if l.phase = .hold ∨ (l.phase = .main ∧ l.rank ≤ y.1) then others (y.2.main k) else y.2.main k)
              (others (y.2.glean k)) k) k).modDie i.pkg (dieOf i.core) fun x => { x with blocks := x.blocks.eraseIdx k })))) ∧
    (∀ c, l ∈ ((s.pkg c).die k).layers → (∃ b ∈ ((s.pkg c).die k).blocks, b.inLayer l = true) →
      l ∈ (((retireLayers c k s).pkg c).die k).layers) ∧
    (Issues s .s h x →
      let live := liveBlock i (x.opd 1).toNat s
      (off.toNat % 64 ≠ 0 → exec (.amerge h tag notag r a b) s = faults .s 0x04 off s) ∧
      (off.toNat % 64 = 0 → directEnd core.carve < off.toNat + 8320 → exec (.amerge h tag notag r a b) s = faults .s 0x08 off s) ∧
      (off.toNat % 64 = 0 → off.toNat + 8320 ≤ directEnd core.carve →
        (64 ≤ (x.opd 1).toNat → exec (.amerge h tag notag r a b) s = faults .s 0x1A 0 s) ∧
        ((x.opd 1).toNat < 64 →
          (live = none → exec (.amerge h tag notag r a b) s = ends .s (started .s s)) ∧
          (live = some (k, blk) →
            (blk.pos? (x.opd 2).toNat = none → exec (.amerge h tag notag r a b) s = ends .s (started .s s)) ∧
            (blk.pos? (x.opd 2).toNat = some p →
              (p < blk.head → exec (.amerge h tag notag r a b) s = ends .s (started .s s)) ∧
              (blk.head + 8 ≤ p → exec (.amerge h tag notag r a b) s = .next s) ∧
              (blk.head < p → p < blk.head + 8 → blk.reserved.contains p = false → (die s).poolFree = 0 →
                exec (.amerge h tag notag r a b) s = .next s) ∧
              (blk.head ≤ p → p < blk.head + 8 → p = blk.head ∨ blk.reserved.contains p = true ∨ 0 < (die s).poolFree →
                core.wakingAt off.toNat 8320 = false → exec (.amerge h tag notag r a b) s =
                ends .s (modBlock i.pkg (dieOf i.core) k
                  (fun b => { b with held := (p, core.spadBytes off.toNat 8320) :: b.held.filter (fun x => x.1 ≠ p)
                                     reserved := if p = b.head || b.reserved.contains p then b.reserved else p :: b.reserved })
                  (started .s s)))))))) ∧
    (Issues s .l h x → core.argSlot off = some sl →
      ((die s).landing i.core sl = false → exec (.await h tag notag r) s = ends .l (started .l s)) ∧
      ((die s).landing i.core sl = true → exec (.await h tag notag r) s = .next s)) ∧
    (Issues s .l h x → core.argSlot off = none → exec (.await h tag notag r) s = faults .l 0x1B 0 s) ∧
    (Issues s .s h x → core.argSlot off = none → exec (.afin h tag notag r) s = faults .s 0x1B 0 s) ∧
    (Issues s .s h x → core.argSlot off = some sl →
      (q.earlierDone x.id = false → exec (.afin h tag notag r) s = .next s) ∧
      (q.earlierDone x.id = true → exec (.afin h tag notag r) s = .next (s.modCore i.pkg i.core fun c =>
        { c.modSeq i.seq fun q => (q.started .s h x).complete .s x.id with
          pages := c.pages.map fun y => if y.slot = sl.slot then { y with held := false } else y })))

/-- 19 R327, R329, R337-R339: the sower and the merge units. A layer's main pass begins at the end of its hold; the sower takes the oldest layer that has a
page it may serve; a gleaning pass begins between passes, where a running team has an entry left; the partial at HEAD of a running team's block
merges into its rows, of which an empty partial changes nothing and the first is taken bit for bit; and after its last position the block
completes: its results and the rows' (M, L) are written in order, its join is decremented, and its slots and LIDX are free. How a list is looked up
(assumption 10), that merging waits for a running team (assumption 11), and that a fault of a write frees the block too (assumption 48), are
the model's choices. -/
def Obligations.AttentionUnits : Prop :=
  ∀ (s t u : State) (p d k n : Nat) (l : Layer) (ls : List Layer) (b : Block) (bs : List Byte) (M L m w : BitVec 32) (O o : List (BitVec 32)),
    let die := (s.pkg p).die d
    let f := tyFmt .fp32
    let num := fun (x : BitVec 32) => f.val x.toNat
    (die.layers[k]? = some l →
      (l.phase = .hold → l.since + 1024 * lyHold l.bytes ≤ s.ck → exec (.mainPassHoldExpiry p d k) s =
        .next (modLayer p d l.dctx l.desc (fun l => { l with phase := .main, started := s.ck }) s)) ∧
      (l.phase = .hold → s.ck < l.since + 1024 * lyHold l.bytes → exec (.mainPassHoldExpiry p d k) s = .next s) ∧
      (l.phase = .rest → layerGleans p l (fun b => b.runs (s.pkg p)) die (die.ranksOf l) s = (true, t) →
        exec (.gleaningPassStart p d k) s =
        .next ((modLayer p d l.dctx l.desc (fun l => { l with phase := .glean, rank := 0 }) t).modDie p d fun x =>
          { x with blocks := x.blocks.map fun b => if b.inLayer l then { b with late := false } else b }))) ∧
    ((∀ l ∈ die.layers, l.phase ≠ .ending) →
      (die.walking = [] → exec (.sowerServePage p d) s = .next s) ∧
      (die.walking = l :: ls →
        (passStep p d l s = .done t → exec (.sowerServePage p d) s = .next t) ∧
        (passStep p d l s = .later t → exec (.sowerServePage p d) s = .next (firstServed p d ls t)))) ∧
    (die.blocks[k]? = some b → d < 2 → s.hasPkg p = true →
      (b.runs (s.pkg p) = false → exec (.sheafMerge p d k) s = .next s) ∧
      (b.runs (s.pkg p) = true → (b.held.find? fun x => x.1 == b.head) = some (b.head, bs) →
        let merged := modBlock p d k (fun b => b.mergePartial bs) s
        (b.head + 1 < b.table.length → exec (.sheafMerge p d k) s = .next merged) ∧
        (b.table.length ≤ b.head + 1 → exec (.sheafMerge p d k) s = .next (completeBlock p d (b.mergePartial bs) merged))) ∧
      (b.runs (s.pkg p) = true → (b.held.find? fun x => x.1 == b.head) = none → b.table.length ≤ b.head →
        exec (.sheafMerge p d k) s = .next (completeBlock p d b s))) ∧
    (let i := unitSid p b.by_ s
     let here := fun (y : Block) => y.named b.dctx b.vteam b.vcore (qbLidx b.record)
     let paused := fun (n : Nat) (t : State) => t.modDie p d fun x =>
       { x with blocks := x.blocks.map fun y => if here y then { y with written := n } else y }
     let freed := fun (t : State) => retireLayers p d (t.modDie p d fun x => { x with blocks := x.blocks.filter fun y => !here y })
     (completionWrites i b (b.writes.drop b.written) b.written s = (.wait n, t) → completeBlock p d b s = paused n t) ∧
     (completionWrites i b (b.writes.drop b.written) b.written s = (.fault, t) → completeBlock p d b s = freed t) ∧
     (completionWrites i b (b.writes.drop b.written) b.written s = (.all, t) →
       (qbJoin b.record = 0 → completeBlock p d b s = freed t) ∧
       (qbJoin b.record ≠ 0 → ∀ q c off, resolveWindow i (qbJoin b.record) 64 .atomic t = .ok (.win q c off) →
         (joinDecrement q c off b.by_ (qbJoin b.record) b.caddr t = some u → completeBlock p d b s = freed u) ∧
         (joinDecrement q c off b.by_ (qbJoin b.record) b.caddr t = none → completeBlock p d b s = paused b.writes.length t)))) ∧
    (b.writes = ((List.range (qbQ b.record)).map fun q =>
        ((List.range (qbH b.record)).map fun c =>
          let size := (qbFmt b.record).w / 8
          let v := if b.m.getD q 0xFF800000 = 0xFF800000 then 0
            else ((qbFmt b.record).ofVal {} false ((num (cellGet 0 b.o (128 * q + c))).div 64 (num (b.l.getD q 0))).1).1
          (qbDest b.record + BitVec.ofNat 64 (q * qbPitch b.record + c * size), leBytes size v)) ++
        if qbLsea b.record = 0 then []
        else [(qbLsea b.record + BitVec.ofNat 64 (8 * q), leBytes 4 (b.m.getD q 0xFF800000).toNat ++ leBytes 4 (b.l.getD q 0).toNat)]).flatten) ∧
    (let c := b.mergePartial bs
     c.head = b.head + 1 ∧ c.held = b.held.filter (fun x => x.1 ≠ b.head) ∧ ∀ q < qbQ b.record,
       let r := mergeRow (b.m.getD q 0xFF800000) (b.l.getD q 0) ((List.range (qbH b.record)).map fun c => cellGet 0 b.o (128 * q + c))
         (f32At bs (4 * q)) (f32At bs (64 + 4 * q)) ((List.range (qbH b.record)).map fun c => f32At bs (128 + 512 * q + 4 * c))
       c.m.getD q 0xFF800000 = r.1 ∧ c.l.getD q 0 = r.2.1 ∧ ∀ j < qbH b.record, cellGet 0 c.o (128 * q + j) = r.2.2.getD j 0) ∧
    (f32Nan m = true ∨ f32Nan L = true ∨ f32Nan M = true ∨ m = 0x7F800000 →
      mergeRow M L O m w o = (0x7FC00000, 0x7FC00000, O.map fun _ => 0x7FC00000)) ∧
    (f32Nan L = false → f32Nan M = false →
      mergeRow M L O 0xFF800000 w o = (M, L, O) ∧
      (f32Nan m = false → m ≠ 0x7F800000 → m ≠ 0xFF800000 →
        mergeRow 0xFF800000 L O m w o = (m, w, o) ∧
        (M ≠ 0xFF800000 →
          let N : BitVec 32 := if (num M).less (num m) then BitVec.ofNat 32 (f.ofVal {} false (num m)).1 else BitVec.ofNat 32 (f.ofVal {} false (num M)).1
          let exp2 := fun (x : BitVec 32) => BitVec.ofNat 32 (SpecialFn.exp2.apply .fp32 0 (f.sub {} false x.toNat N.toNat).1).1
          let two := fun (x y : BitVec 32) =>
            BitVec.ofNat 32 (f.ofVal {} false (((num x).mul (num (exp2 M))).1.add .rne ((num y).mul (num (exp2 m))).1).1).1
          mergeRow M L O m w o = (N, two L w, List.zipWith two O o))))

/-! ## Collectives -/

/-- 21 R344, R346-R351: the steps of a collective. A step that moves a chunk starts, with the chunk and the numbers that its word and the loop counters
name, and the other steps act at once; the engine moves the chunk of a step in progress by pieces of 64 B, each read and each write waiting for
what an earlier step has still to do to the same bytes; what a step writes is what it has read, what it has received, or their sum; and a packet
whose pieces are all moved goes on. That a step takes its packets from staging piece by piece, and the numbers of packets (assumption 12), and
the grain of one piece per turn (assumption 9), are the model's choices. -/
def Obligations.CollectiveSteps : Prop :=
  ∀ (s t : State) (p e k j c : Nat) (ps x : Bool) (mr m0 m1 : Coef) (v : BitVec 20) (r : StepRun) (pk : Nat × CollPkt) (bs : List Byte)
    (rs : List (Nat × Nat)) (a b : Nat) (va : W64) (f : FaultRec) (nan ovf : Bool), s.whoEntry = (p, e) → s.hasPkg p = true → e < 64 →
    let w := s.work p e
    let rec_ := w.record
    let sets := fun (f : Work → Work) => Host.Outcome.next (φ := Fault) (ρ := Refusal) (s.modWork p e f)
    let coef := fun (c : Coef) => (match c with | .zero => 0 | .plus => 1 | .minus => -1 : Int)
    let chunk := ((coef mr * wkRank rec_ + coef m0 * w.i0 + coef m1 * w.i1 + v.toInt) % (wkNc rec_ : Int)).toNat
    let run := fun (src dst : Option Nat) => ({ idx := w.pc, word := w.steps.getD w.pc 0, chunk := chunk, src := src, dst := dst
                                                rbase := counterOf w.recvNext (src.getD 0), sbase := counterOf w.sendSeq (dst.getD 0) } : StepRun)
    let starts := fun (src dst : Option Nat) => Host.Outcome.next (φ := Fault) (ρ := Refusal) (s.modWork p e fun w =>
      { w with pc := w.pc + 1, runs := w.runs ++ [run src dst]
               recvNext := bump w.recvNext src w.pieces, sendSeq := bump w.sendSeq dst w.pieces })
    let runs := fun (f : StepRun → StepRun) (s : State) => s.modWork p e fun w => { w with runs := w.runs.modify k f }
    let code := fun (f : FaultRec) => if f.code = 0x01 then 1 else if f.code = 0x03 then 3 else 2
    let cell := fun (bs : List Byte) (u : Nat) => (bs.drop (64 * (u % 4))).take 64
    let mine := fun (u : Nat) => ((r.read.find? fun x => x.1 == u).map (·.2)).getD []
    (exec (.send ps x mr m0 m1 v) s = starts none (w.peer ps) ∧
      exec (.recv ps x mr m0 m1 v) s = starts (w.peer ps) (if x then w.peer (!ps) else none) ∧
      exec (.rrs ps x mr m0 m1 v) s = starts (w.peer ps) (w.peer (!ps)) ∧
      exec (.copy mr m0 m1 v) s = starts none none) ∧
    (∀ y, sigRead (s.pkg p) w (wkWsig rec_) = some y →
      (v.toNat + w.g * wkWinc rec_ ≤ y.toNat → exec (.wait v) s = sets fun w => { w with pc := w.pc + 1 }) ∧
      (y.toNat < v.toNat + w.g * wkWinc rec_ → exec (.wait v) s = .next s)) ∧
    (let count := fun (w : Work) => (if x then (wkNr w.record : Int) - v.toNat else v.toNat : Int)
     let past := fun (j : Bool) (w : Work) => w.findStep (w.pc + 1) (fun i => match i with | .endl k => k == j | _ => false) + 1
     exec (.loop false x v) s = sets (fun w =>
       if count w ≤ 0 then { w with i0 := 0, n0 := none, pc := past false w }
       else { w with i0 := 0, n0 := some (count w).toNat, pc := w.pc + 1 }) ∧
     exec (.loop true x v) s = sets (fun w =>
       if count w ≤ 0 then { w with i1 := 0, n1 := none, pc := past true w }
       else { w with i1 := 0, n1 := some (count w).toNat, pc := w.pc + 1 })) ∧
    (exec (.endl false) s = sets (fun w =>
        if w.i0 + 1 < w.n0.getD 0 then { w with i0 := w.i0 + 1, n0 := some (w.n0.getD 0), pc := w.openAt w.pc false + 1 }
        else { w with i0 := w.i0 + 1, n0 := none, pc := w.pc + 1 }) ∧
      exec (.endl true) s = sets (fun w =>
        if w.i1 + 1 < w.n1.getD 0 then { w with i1 := w.i1 + 1, n1 := some (w.n1.getD 0), pc := w.openAt w.pc true + 1 }
        else { w with i1 := w.i1 + 1, n1 := none, pc := w.pc + 1 })) ∧
    (let peer := fun (w : Work) => (((wkRank w.record : Int) + v.toInt) % (wkNr w.record : Int)).toNat
     exec (.peer false v) s = sets (fun w => { w with pa := some (peer w), pc := w.pc + 1 }) ∧
     exec (.peer true v) s = sets (fun w => { w with pb := some (peer w), pc := w.pc + 1 })) ∧
    (w.runs ≠ [] → exec .halt s = .next s) ∧
    (let ended := fun (w : Work) => if w.dispend then w.freed else
       { w with g := w.g + 1, st := if wkNarm w.record ≠ 0 ∧ wkNarm w.record ≤ w.g + 1 then .done else .waittrig
                sendSeq := w.sendSeq.filter (fun x => decide (x.1 ≥ msgKey 0)), recvNext := []
                recvSeq := w.recvSeq.filter (fun x => decide (x.1 ≥ msgKey 0)), runs := [] }
     w.runs = [] →
      (wkDsig rec_ = 0 → exec .halt s = sets ended) ∧
      (wkDsig rec_ ≠ 0 → sigAdd p w (wkDsig rec_) s = some t → exec .halt s = .next (t.modWork p e ended)) ∧
      (wkDsig rec_ ≠ 0 → sigAdd p w (wkDsig rec_) s = none → exec .halt s = .next s)) ∧
    (w.pieceAt false c j = BitVec.ofInt 64 (wkSbase rec_ + w.g * wkSstr rec_ + c * wkChunk rec_ + 64 * j) ∧
      w.pieceAt true c j = BitVec.ofInt 64 (wkDbase rec_ + w.g * wkDstr rec_ + c * wkChunk rec_ + 64 * j)) ∧
    (w.st = .run → w.runs[k]? = some r → j < w.cells →
      (w.readsAt r j = some va → r.hasRead j = false → pieceHeld p w (w.runs.take k) r j false s = false →
        (readPiece p w va 64 s = (.go bs, t) →
          movePiece p e k j false s = advanceRuns p e (runs (fun r => { r with read := (j, bs) :: r.read }) t)) ∧
        (readPiece p w va 64 s = (.fault f, t) → movePiece p e k j false s = faultEntry p e (code f) t)) ∧
      (w.writesAt r j = some va → r.hasWritten j = false → (w.readsAt r j = none ∨ r.hasRead j = true) →
        pieceHeld p w (w.runs.take k) r j true s = false →
        (w.madeCell r j = .bytes bs nan ovf → workPlaces p w va 64 true s = (.go rs, t) → movePiece p e k j true s =
          advanceRuns p e (runs (fun r => { r with wrote := j :: r.wrote }) (t.modPkg p fun x => writeRuns x rs bs))) ∧
        (w.madeCell r j = .mismatch → movePiece p e k j true s = faultEntry p e 4 s)) ∧
      (∀ wr, pieceHeld p w (w.runs.take k) r j wr s = true → movePiece p e k j wr s = s)) ∧
    (r.src = none → w.madeCell r j = .bytes (mine j) false false ∧
      w.made r j = .bytes ((((List.range w.cells).filter fun u => u / 4 == j).map mine).flatten) false false) ∧
    (r.src ≠ none → w.packetFor r (j / 4) = some pk →
      (w.mismatch r (j / 4) pk.2 = true → w.madeCell r j = .mismatch) ∧
      (w.mismatch r (j / 4) pk.2 = false → (∀ y, r.kind = .recv y → w.madeCell r j = .bytes (cell pk.2.bytes j) false false) ∧
        ∀ y, r.kind = .rrs y → let sum := sumPiece (wkDtype rec_) (cell pk.2.bytes j) (mine j)
          w.madeCell r j = .bytes sum.1 sum.2.1 sum.2.2)) ∧
    (w.st = .run → w.runs[k]? = some r → r.got.contains j = false →
      (∀ u < w.cells, u / 4 = j → (w.readsAt r u = none ∨ r.hasRead u = true) ∧ (w.writesAt r u = none ∨ r.hasWritten u = true)) →
      let ends := fun (s : State) => runs (fun r =>
          { r with got := j :: r.got, read := r.read.filter fun x => x.1 / 4 ≠ j, wrote := r.wrote.filter fun u => u / 4 ≠ j })
        ((sendPiece p e r j bs s).modWork p e fun w => { w with nan := w.nan || nan, ovf := w.ovf || ovf })
      (w.made r j = .mismatch → endPacket p e k j s = faultEntry p e 4 s) ∧
      (w.made r j = .bytes bs nan ovf → w.packetFor r j = none → endPacket p e k j s = ends s) ∧
      (w.made r j = .bytes bs nan ovf → w.packetFor r j = some pk → endPacket p e k j s = ends (takePacket p e pk s))) ∧
    sumElem 2 a b = ((a + b) % 2 ^ 32, false, false) ∧
    (sumElem 0 a b).1 = ((tyFmt .fp32).add {} false a b).1 ∧ (sumElem 1 a b).1 = ((tyFmt .bf16).add {} false a b).1

/-- 21 R349, R352-R358: the engine's events. A trigger that is met starts a generation, also where the write that met it was made in the
generation before; a data packet is staged for its step, discarded as a duplicate, or refused where no entry is armed for it, as a message is;
an answer ends its packet's wait, or has it sent again after 1 µs; 64 µs without an answer has it sent again, and after the 16th send the
entry faults with code 7, but for an ABORT; the step timer faults it with code 5, an ABORT with code 6; SUSPEND and RESUME go around the ring and
end where they began. The numbers of packets (assumption 12) and that the saved state of a suspended entry is what the entry holds
(assumption 49) are the model's choices. -/
def Obligations.CollectiveEvents : Prop :=
  ∀ (s : State) (p e k n origin : Nat) (x : Packet) (c : CollPkt) (o : CollOut) (w : Work) (y : W64) (refused : Bool),
    let entry := s.work p e
    let right := fun (w : Work) => (wkRank w.record + 1) % wkNr w.record
    let faults := fun (code : Nat) (s : State) => Host.Outcome.next (φ := Fault) (ρ := Refusal) (faultEntry p e code s)
    let answered := fun (refused : Bool) => addPacket p x.src 0 true (.collAck c refused) (dropPacket x.id s)
    (entry.st = .waittrig → sigRead (s.pkg p) entry (wkTsig entry.record) = some y →
      let bound := (wkTthr entry.record + entry.g * wkTinc entry.record) % 2 ^ 64
      (bound ≤ y.toNat ∨ entry.trig = true → exec (.workEntryTrigger p e) s = .next (s.modWork p e fun w =>
        { w with st := .run, pc := 0, i0 := 0, i1 := 0, n0 := none, n1 := none, pa := none, pb := none, runs := [], timer := 0, trig := false })) ∧
      (y.toNat < bound → entry.trig = false → exec (.workEntryTrigger p e) s = .next s)) ∧
    (entry.st = .run → entry.trig = false → sigRead (s.pkg p) entry (wkTsig entry.record) = some y →
      ((wkTthr entry.record + (entry.g + 1) * wkTinc entry.record) % 2 ^ 64 ≤ y.toNat →
        entry.watchTrigger (s.pkg p) = { entry with trig := true }) ∧
      (y.toNat < (wkTthr entry.record + (entry.g + 1) * wkTinc entry.record) % 2 ^ 64 → entry.watchTrigger (s.pkg p) = entry)) ∧
    (collHere p k s = some x → x.body = .coll c →
      (∀ ch nc size dt off bs, c.kind = .data ch nc size dt off bs →
        (collTarget (s.pkg p) c = none → exec (.collPacketArrival p k) s = .next (answered true)) ∧
        (collTarget (s.pkg p) c = some (n, w) → c.g < w.g → exec (.collPacketArrival p k) s = .next (answered false)) ∧
        (collTarget (s.pkg p) c = some (n, w) → w.g < c.g → w.staged = [] → w.st = .run → stagingFree (s.pkg p) w x.via = true →
          exec (.collPacketArrival p k) s = .next (advanceRuns p n ((answered false).modWork p n fun w =>
            { w with staged := w.staged ++ [(x.via, c)], timer := 0 })))) ∧
      (c.kind = .abort →
        (collTarget (s.pkg p) c = none → exec (.abortReceived p k) s = .next (answered true)) ∧
        (collTarget (s.pkg p) c = some (e, w) → ((answered false).work p e).recvSeq.contains (msgKey c.src, c.seq) = false →
          exec (.abortReceived p k) s = faults 6 ((answered false).modWork p e fun w =>
            { w with recvSeq := (msgKey c.src, c.seq) :: w.recvSeq }))) ∧
      (collTarget (s.pkg p) c = none →
        (c.kind = .suspend origin → exec (.collSuspendMessage p k) s = .next (answered true)) ∧
        (c.kind = .resume origin → exec (.collResumeMessage p k) s = .next (answered true))) ∧
      (c.kind = .suspend origin → collTarget (s.pkg p) c = some (n, w) →
        (wkRank w.record = origin → exec (.collSuspendMessage p k) s = .next (answered false)) ∧
        (wkRank w.record ≠ origin → ((answered false).work p n).recvSeq.contains (msgKey c.src, c.seq) = false →
          exec (.collSuspendMessage p k) s = .next (suspendEntry p n origin ((answered false).modWork p n fun w =>
            { w with recvSeq := (msgKey c.src, c.seq) :: w.recvSeq })))) ∧
      (c.kind = .resume origin → collTarget (s.pkg p) c = some (n, w) →
        (w.st = .susp → w.restored = false → exec (.collResumeMessage p k) s = .next (answered true)) ∧
        (w.restored = true → ((answered false).work p n).recvSeq.contains (msgKey c.src, c.seq) = false →
          let t := (answered false).modWork p n fun w => { w with recvSeq := (msgKey c.src, c.seq) :: w.recvSeq }
          (wkRank w.record ≠ origin → exec (.collResumeMessage p k) s = .next (sendMessage p n (right w) (.resume origin) t)) ∧
          (wkRank w.record = origin → w.st = .susp → exec (.collResumeMessage p k) s = .next (advanceRuns p n (t.modWork p n fun w =>
            { w with st := w.before, holding := false, passed := [], pass := [], restored := false, trig := w.trig && w.before == .run })))))) ∧
    (s.net.length ≤ k → (s.pkg p).susp = 0 → k < s.net.length + 64 →
      let here := k - s.net.length
      (s.work p here).st = .susp → (s.work p here).restored = false → (s.pkg p).isVp (s.work p here).dctx (s.work p here).by_.vp = true →
      exec (.collResumeMessage p k) s = .next (sendMessage p here (right (s.work p here)) (.resume (wkRank (s.work p here).record))
        (s.modWork p here fun w => { w with restored := true }))) ∧
    (let begins := s.modWork p e fun w => { w with passed := origin :: w.passed }
     (entry.passed.contains origin = true → suspendEntry p e origin s = s) ∧
     (entry.passed.contains origin = false → entry.st = .waittrig → suspendEntry p e origin s =
       sendMessage p e (right entry) (.suspend origin) (begins.modWork p e fun w => { w with st := .susp, before := .waittrig, holding := true })) ∧
     (entry.passed.contains origin = false → entry.st = .run → suspendEntry p e origin s =
       settleHold p e (begins.modWork p e fun w => { w with holding := true, pass := w.pass ++ [origin] })) ∧
     (entry.st = .run → entry.holding = true → mustEnd p entry s [] entry.runs = false → settleHold p e s =
       entry.pass.foldl (fun s o => sendMessage p e (right entry) (.suspend o) s) (s.modWork p e fun w => { w with st := .susp, before := .run, pass := [] })) ∧
     (entry.st = .run → entry.holding = true → mustEnd p entry s [] entry.runs = true → settleHold p e s = s)) ∧
    (collHere p k s = some x → x.body = .collAck c refused → collSender ((dropPacket x.id s).pkg p) c = some n →
      exec (.collPacketArrival p k) s = .next (if refused then (dropPacket x.id s).modWork p n fun w =>
          { w with outs := w.outs.map fun o => if o.pkt = c then { o with resendAt := some (s.ck + 3000), lastSend := s.ck } else o }
        else advanceRuns p n ((dropPacket x.id s).modWork p n fun w => { w with outs := w.outs.filter (fun o => o.pkt ≠ c), timer := 0 }))) ∧
    (entry.outs[k]? = some o →
      let sent := fun (n : Nat) => launchColl p o.dpkg o.pkt (s.modWork p e fun w =>
        { w with outs := w.outs.modify k fun o => { o with lastSend := s.ck, resendAt := none, attempts := n } })
      (∀ t, o.resendAt = some t → t ≤ s.ck → exec (.collPacketResend p e k) s = .next (sent o.attempts)) ∧
      (o.resendAt = none → o.lastSend + 64 * 3000 ≤ s.ck →
        (o.attempts < 16 → exec (.collPacketResend p e k) s = .next (sent (o.attempts + 1))) ∧
        (16 ≤ o.attempts → o.pkt.kind ≠ .abort →
          exec (.collPacketResend p e k) s = faults 7 (s.modWork p e fun w => { w with outs := w.outs.eraseIdx k })) ∧
        (16 ≤ o.attempts → o.pkt.kind = .abort →
          exec (.collPacketResend p e k) s = .next (s.modWork p e fun w => { w with outs := w.outs.eraseIdx k })))) ∧
    (entry.st = .run →
      (2 ^ 32 ≤ entry.timer → exec (.stepTimeout p e) s = faults 5 s) ∧ (entry.timer < 2 ^ 32 → exec (.stepTimeout p e) s = .next s)) ∧
    (entry.st = .run ∨ entry.st = .waittrig ∨ entry.st = .susp → faultEntry p e n s =
      deferFault entry.by_ { code := 0x25, caddr := entry.caddr, aux := BitVec.ofNat 64 (entry.ve + n * 256) }
        (sendAborts p e (s.modWork p e fun w =>
          { w with st := .fault, fcode := n, runs := [], staged := [], outs := [], holding := false, pass := [] })))

/-! ## Faults and pre-emption -/

/-- 23 R363, R365-R367: taking a fault. The sequencer writes its fault record, unless it holds one, and stops with its program counter where it stood; its
context starts to stop, for reason 3 where the fault is a machine check and 2 otherwise, and no memory changes. A deferred fault is taken at
the instruction boundary. A corrected error is counted; an uncorrectable one is the machine check of its structure, which ends the lease that its
sequencer holds, and has a line of the instruction cache filled again. That the codes 0x26 to 0x2F, which no fault has, count as machine checks
(assumption 28) is the model's choice. -/
def Obligations.TakingAFault : Prop :=
  ∀ (s : State) (i j : Sid) (f g : FaultRec) (fs : List FaultRec) (loc : W64) (p d n m : Nat) (site : EccSite) (c : Context),
    let q := s.seq i
    let t := takeFault i f s
    (s.has i = true →
      (q.frec = none → (t.seq i).frec = some { f with cyc := if f.deferred then f.cyc else BitVec.ofNat 64 (s.ck - (s.pkg i.pkg).resetCk)
                                                      resumable := faultResumable f.code f.deferred }) ∧
      (q.frec = some g → (t.seq i).frec = some g) ∧
      (t.seq i).st = .halt ∧ (t.seq i).pc = q.pc ∧ (t.seq i).s = q.s ∧ (t.seq i).ql = q.ql ∧ (t.seq i).qc = q.qc ∧ (t.seq i).qs = q.qs ∧
      (j ≠ i → t.seq j = s.seq j) ∧ SameMemory s t ∧
      (t.core i.pkg i.core).holder = (if 0x25 < f.code ∧ (s.core i.pkg i.core).holder = some i.seq then none else (s.core i.pkg i.core).holder) ∧
      ((s.pkg p).ctx? q.dctx.toNat = some c → (t.pkg p).ctx? q.dctx.toNat =
        some { c with stopping := some (c.stopping.getD (if 0x25 < f.code then 3 else 2)) })) ∧
    (s.has i = true → q.deferred = f :: fs → q.st = .run ∨ q.st = .idle ∨ q.st = .drain →
      exec (.deferredFaultDelivery i) s = .next (takeFault i f (s.modSeq i fun q => { q with deferred := fs }))) ∧
    exec (.secdedError p site false) s = .next (s.modPkg p fun k => { k with corrected := k.corrected + 1 }) ∧
    (s.has i = true → q.st ≠ .unbound → exec (.secdedError p (.context i loc) true) s =
      .next (takeFault i { code := 0x32, caddr := q.pc, aux := loc } (s.modSeq i fun q =>
        { q with ql := q.ql.filter (·.issued), qc := q.qc.filter (·.issued), qs := q.qs.filter (·.issued)
                 harrow := q.harrow.filter fun h => match h with | .store _ _ => true | _ => false, aband := true }))) ∧
    exec (.secdedError p (.icacheLine d n m) true) s =
      .next (s.modCore p d fun k => { k with icache := k.icache.filter fun x => !(x.1 == n && x.2.1 == m) }) ∧
    exec (.secdedError p (.replyCache n) true) s = .next (takeOffline p [n] s) ∧
    exec (.secdedError p (.dieMap d) true) s = .next (takeOffline p (dieCores d) s) ∧
    exec (.secdedError p .blightMap true) s =
      .next (takeOffline p (dieCores 0 ++ dieCores 1) (s.modPkg p fun k => { k with offline := true }))

/-- 23 R369-R375, R381: pre-emption. The policy drains an invocation that is soon done, kills one that may start again and is far below the newcomer, and
otherwise has it checkpointed, as a drain is that takes too long. A team that is to stop closes; once it is quiet its image is written and
its cores are released; and a saved team is restored on cores of its shape, on any package that its context's package map gives its VP. That the
package map names that package, and that a head timer starts anew (assumption 30), and what a stopped invocation's entry completes with
(assumption 32), are the model's choices. -/
def Obligations.Preemption : Prop :=
  ∀ (s : State) (p a b m dctx vteam sb die row col : Nat) (n v : Invocation) (t : Team) (passes : List Nat) (g : Package),
    let k := s.pkg p
    let decides := fun (d : Decision) (s : State) => s.modPkg p fun k => k.modInv v.id fun v => { v with decision := d }
    (k.invs.find? (fun v => v.id == a) = some n → k.invs.find? (fun v => v.id == b) = some v → considers k n v = true →
      let free := ∀ g ∈ s.pkgs, (∀ w ∈ g.works.toList, w.st ≠ .free → w.dctx ≠ ivDctx v.bytes) ∧
        (∀ d ∈ g.dies.toList, ∀ b ∈ d.blocks, b.dctx ≠ ivDctx v.bytes) ∧ ∀ t ∈ g.teams, t.dctx = ivDctx v.bytes →
          (t.placed = true → ∀ i ∈ t.sids g.num, (s.seq i).serials = []) ∧ ∀ c ∈ t.saved, ∀ q ∈ c.seqs.toList, q.serials = []
      let cheap := ivRestart v.bytes = true ∧ ivTokens v.bytes + k.settings.killGap ≤ ivTokens n.bytes ∧ free
      (v.remaining s.ck ≤ k.settings.drainLimit → exec (.preemptionDecision p a b) s = .next (decides (.drain s.ck) s)) ∧
      (k.settings.drainLimit < v.remaining s.ck → cheap → k.invTeam? v = some t → exec (.preemptionDecision p a b) s =
        .next ((t.sids p).foldl (fun s i => s.modSeq i Seq.killed) (closeTeam p t 5 [] (decides .kill s)))) ∧
      (k.settings.drainLimit < v.remaining s.ck → ¬ cheap → exec (.preemptionDecision p a b) s = .next (decides .checkpoint s))) ∧
    (k.invs.find? (fun v => v.id == b) = some v → v.decision = .drain m →
      (v.ended = false → m + 2 * k.settings.drainLimit ≤ s.ck → exec (.drainExpiry p b) s =
        .next (s.modPkg p fun g => g.modInv b fun v => { v with decision := .checkpoint })) ∧
      (v.ended = true ∨ s.ck < m + 2 * k.settings.drainLimit → exec (.drainExpiry p b) s = .next s)) ∧
    (k.team? dctx vteam = some t → t.st = .running →
      (stopReason k t = none → exec (.checkpoint p dctx vteam passes) s = .next s) ∧
      (stopReason k t = some m → exec (.checkpoint p dctx vteam passes) s = .next (closeTeam p t m passes s))) ∧
    (k.team? dctx vteam = some t → t.st = .closing → t.reason < 5 → teamQuiet s p t = true → saveOk k sb (saveSize t.size) = true →
      let reason := ((k.ctx? dctx).bind (·.stopping)).getD t.reason
      let stopped := reason == 2 || reason == 3
      let settled := t.cores.foldl (fun s c =>
        s.modCore p c fun k => { k with gather := [], leaseWait := [], seqs := k.seqs.map Seq.settle }) s
      let written := settled.modPkg p fun k =>
        { k.setImage sb (saveSize t.size) (imageParts settled p reason t) with routerCopies := k.routerCopies ++ orderedOuts s p t }
      let saved := freeCores p t (written.modPkg p fun k => k.modTeam dctx vteam fun x =>
        { x with st := if stopped then .stopped else .saved, reason := reason, save := sb, saved := t.cores.map (written.core p) })
      exec (.checkpointImage p dctx vteam sb) s = .next (if stopped then reportStopped t sb saved else saved)) ∧
    (k.team? dctx vteam = some t → t.st = .closing → teamQuiet s p t = false → exec (.checkpointImage p dctx vteam sb) s = .next s) ∧
    (k.team? dctx vteam = some t → savedAt s p dctx vteam = some (k, t)) ∧
    (k.team? dctx vteam = none → g ∈ s.pkgs → g.team? dctx vteam = some t → t.st = .saved → k.isVp dctx t.vp = true →
      (∀ x ∈ s.pkgs, x ≠ g → x.team? dctx vteam = none) → savedAt s p dctx vteam = some (g, t)) ∧
    (savedAt s p dctx vteam = some (g, t) → t.st = .saved → stopReason { k with invs := [] } t = none → k.susp = 0 →
      rectOk k true die row col t.rows t.cols = true → t.holdsDie g = false ∨ (t.die = die ∧ g.num = p) →
      (∀ o ∈ g.routerCopies, ¬ (o.req.id.dctx = dctx ∧ o.req.id.vt = vteam)) → (∀ c ∈ t.saved, ∀ q ∈ c.seqs.toList, q.barsResume = false) →
      let u : Team := { t with st := .running, die := die, row := row, col := col, saved := [] }
      let lctx := ((k.ctx? dctx).map (·.lctx)).getD 0
      let moved := if g.num = p then s.modPkg p fun k => k.modTeam dctx vteam fun _ => u
        else (s.modPkg g.num fun k => { k with teams := k.teams.filter fun x => !(x.dctx == dctx && x.vteam == vteam) }).modPkg p fun k =>
          { k with teams := k.teams ++ [u] }
      let placed := t.saved.zipIdx.foldl (fun s (x : Core × Nat) => s.modCore p (u.coreOf x.2) fun _ => resumeCore g t lctx x.2 s.ck x.1)
        (moved.modPkg t.home fun k => k.modInv t.inv fun v => { v with decision := .none })
      exec (.teamResume p dctx vteam die row col) s = .next (settleTdm p ((u.sids p).foldl (fun s i =>
        sendLoads i ((s.seq i).fe.foldl (fun s e => performPending i e s) (s.modSeq i fun q => { q with fe := [] }))) placed)))

/-! ## The command front end, the host and power -/

/-- 25 R392, R394, R397-R399, R405; 21 R355: the command queues. A write of WIX or WAKE is stored and is an event; the record of a queue that no slot holds may
be written; the entry at RIX is taken into the journal, or the queue is in OVERRUN; the queue that asks first is mapped to a free slot, and
gives it up when idle, to be fair, or without allowance; a watch that is met, or was met at a write, wakes its queue; and an event stands in the
queue's ring. The bytes of an event, and that the ring's next place is counted from the queue's first event, are the model's choices
(assumptions 31, 33). -/
def Obligations.CommandQueues : Prop :=
  ∀ (s : State) (p q dctx a : Nat) (v : BitVec 32) (x : BitVec 64) (bytes : List (BitVec 8)) (y : W64) (ev : Event) (e : Posted),
    let k := s.pkg p
    let rix := k.rix q
    let pending := (k.wix q + 2 ^ 32 - rix) % 2 ^ 32
    let entry := k.bytes (k.qcbase q + 256 * (rix % k.qdepth q)) 256
    let frees := (List.range 64).filter fun n => !k.slotsUsed.contains n
    let registered := fun (off n : Nat) => ∃ r ∈ k.settings.hostRanges, r.1 ≤ k.qrec q + off ∧ k.qrec q + off + n ≤ r.1 + r.2
    (q < 4096 → k.susp < 6 →
      (registered 0 4 → exec (.wixWrite p q v) s =
        .next (noteAsk p q (s.modPkg p fun k => ((k.setBytes (k.qrec q) (leBytes 4 v.toNat)).modCq q id).event q .wix))) ∧
      (¬ registered 0 4 → exec (.wixWrite p q v) s = .next s) ∧
      (registered 8 8 → exec (.wakeWrite p q x) s =
        .next (wakeQueue p q .wake (s.modPkg p fun k => (k.setBytes (k.qrec q + 8) (leBytes 8 x.toNat)).modCq q id))) ∧
      (¬ registered 8 8 → exec (.wakeWrite p q x) s = .next s) ∧
      (registered 16 32 → k.qstate q = 0 ∨ k.qstate q = 4 ∨ k.qstate q = 5 → exec (.queueRecordWrite p q bytes) s =
        .next (recordWritten p q (s.modPkg p fun k => k.setBytes (k.qrec q + 16) (bytes.take 32)))) ∧
      (¬ registered 16 32 ∨ k.qstate q = 1 ∨ k.qstate q = 2 ∨ k.qstate q = 3 → exec (.queueRecordWrite p q bytes) s = .next s)) ∧
    (let noted := s.modPkg p fun k => k.event q ev
     ((noted.pkg p).qstate q = 3 → wakeQueue p q ev s = noted.modPkg p fun k => k.setWpend q true) ∧
     ((noted.pkg p).qstate q ≠ 3 → wakeQueue p q ev s =
       noteAsk p q (noted.modPkg p fun k => k.modCq q fun c => { c with wake := c.wake || decide (k.qstate q ≠ 1) }))) ∧
    (k.qstate q = 1 → k.susp = 0 → k.exhausted q = false → k.turnOf q = true → k.wix q ≠ rix →
      (k.qdepth q < pending ∨ fieldAt entry 0 2 ≠ rix % 65536 → exec (.entryAccept p q) s =
        .next (postEvent p q (.overrun q rix) (s.modPkg p fun k => (k.handled q).giveSlot q 4))) ∧
      (pending ≤ k.qdepth q → fieldAt entry 0 2 = rix % 65536 → exec (.entryAccept p q) s =
        .next (s.modPkg p fun k => ((k.handled q).modCq q fun c =>
          { c with entries := c.entries.filter (fun e => e.st ≠ .done) ++ [{ idx := rix, bytes := entry }], busyAt := s.ck }).qset q 4 4
            ((rix + 1) % 2 ^ 32)))) ∧
    (k.wix q = rix ∨ k.exhausted q = true → exec (.entryAccept p q) s = .next s) ∧
    (let n := (k.cq q).events
     let stood := post p e (s.modPkg p fun k =>
       (k.engineWrite (k.evbase q + 32 * (n % 64)) ((List.range 32).map (Config.eventByte e.says))).modCq q fun c => { c with events := n + 1 })
     ((stood.pkg p).evqp q = 0 → postEvent p q e s = stood) ∧
     ((stood.pkg p).evqp q ≠ 0 → postEvent p q e s = post p (.notified q ((stood.pkg p).evqp q)) stood)) ∧
    (k.asks q = true → k.susp = 0 → frees ≠ [] → (∀ c ∈ k.queues, c.num ≠ q → k.asks c.num = true → k.asksBefore c.num q = false) →
      exec (.slotMap p q) s = .next (s.drawNat.2.modPkg p fun k =>
        ((((k.handled q).qset q 52 1 (frees.getD (s.drawNat.1 % frees.length) 0)).setQstate q 1).modCq q fun c =>
          { c with wake := c.wake && c.waiting, askedAt := none, mappedAt := s.ck, busyAt := s.ck }))) ∧
    (k.asks q = false → exec (.slotMap p q) s = .next s) ∧
    (k.qstate q = 1 → k.wix q = rix → (k.cq q).unstarted = false →
      ((k.cq q).busyAt + 10 * 3000 ≤ s.ck → exec (.slotUnmapIdle p q) s = .next (s.modPkg p fun k => k.giveSlot q 0)) ∧
      (s.ck < (k.cq q).busyAt + 10 * 3000 → exec (.slotUnmapIdle p q) s = .next s)) ∧
    (k.qstate q = 1 → (k.cq q).mappedAt + 1000 * 3000 ≤ s.ck →
      (∃ c ∈ k.queues, c.num ≠ q ∧ k.asks c.num = true ∧ k.qprio q ≤ k.qprio c.num) → exec (.slotUnmapFairness p q) s =
        .next (noteAsk p q (s.modPkg p fun k => (k.giveSlot q 0).modCq q fun c => { c with wake := true }))) ∧
    (k.qstate q = 1 →
      (k.exhausted q = true → exec (.allowanceExhausted p q) s = .next (s.modPkg p fun k => k.giveSlot q 0)) ∧
      (k.exhausted q = false → exec (.allowanceExhausted p q) s = .next s)) ∧
    ((k.cq q).watch = some (a, y) → k.susp < 6 →
      ((k.cq q).seen = false → k.signal a < y.toNat → exec (.watchSatisfied p q) s = .next s) ∧
      ((k.cq q).seen = true ∨ y.toNat ≤ k.signal a →
        exec (.watchSatisfied p q) s = .next (wakeQueue p q .satisfied (s.modPkg p fun k => k.modCq q fun c =>
          { c with watch := none
                   seen := false
                   entries := c.entries.map fun e =>
                     if e.st == .started && fieldAt e.bytes 2 1 == 4 then { e with step := e.step % 8 + 8 } else e })))) ∧
    (∀ c : CQueue, c.watch = some (a, y) →
      (y.toNat ≤ k.signal a → c.watched k = { c with seen := true }) ∧ (k.signal a < y.toNat → c.watched k = c)) ∧
    reportPackage p s =
      noteAsks p ((k.woken.foldl (fun s q => wakeQueue p q .wake s) s).modPkg p fun k =>
        { k with woken := [], queues := k.queues.map (CQueue.watched k), works := k.works.map (Work.watchTrigger k) }) ∧
    exec (.contextEviction p dctx) s = .next (suspendWorks p (fun w => w.dctx == dctx) s)

/-- 25 R393, R395, R396, R399, R400, R402, R403, R412, R413; 03 R65-R67: the commands. An entry that may start, with a sound header, has the effect of its
operation and is STARTED; one with a bad field completes with BAD_ENTRY alone. An invocation is placed on a free rectangle, and its team
is released once it has ended and is at rest. A completion writes the status word and the SIG addition, and then posts its event. Where an
object comes to lie, what a killed invocation leaves, how a waiting INVOKE stands among the invocations, which replays and steps a takeover loses
and the free values among them are the model's choices (assumptions 7, 25, 32, 33, 44, 55). -/
def Obligations.Commands : Prop :=
  ∀ (s t : State) (p q j n m die row col vteam : Nat) (e : JEntry) (o : Nat × Nat) (d : Node) (v : Invocation) (c : Context) (tm : Team),
    let k := s.pkg p
    let h := s.modPkg p fun k => k.handled q
    let g := h.pkg p
    let b := e.bytes
    let image := g.bytes (ivQtab b) 256
    let starts := fun (opc : Nat) => k.jentry? q j = some e ∧ k.mayStart q j = true ∧ opcOf b = opc ∧ badHeader b = none
    let goesOn := fun (opc : Nat) => k.jentry? q j = some e ∧ e.st = .started ∧ e.outcome = none ∧ opcOf b = opc
    let begins := fun (t : State) => Host.Outcome.next (φ := Fault) (ρ := Refusal) (markStarted p q j none t)
    let done := fun (o : Nat × Nat) (t : State) => begins (outcome p q j none o t)
    let dctx := fieldAt b 64 2
    let object := g.bytes (fieldAt b 72 8) (fieldAt b 80 8)
    (starts 0 → exec (.cmdNop p q j) s = done (0, 0) h) ∧
    (∀ off, k.jentry? q j = some e → k.mayStart q j = true → opcOf b = 0 → badHeader b = some off → exec (.cmdNop p q j) s = done (9, off) h) ∧
    (starts 1 →
      (loadFault g b object = some o → exec (.loadslot p q j) s = done o h) ∧
      (loadFault g b object = none →
        let sl := slotOfObject g object (fieldAt b 104 8) (fieldAt b 112 8)
        let body := object.drop 256
        exec (.loadslot p q j) s = done (0, 0) (h.modPkg p fun k =>
          let k := k.setBytes sl.base (List.replicate (sl.codePages + sl.dataPages) 0)
          let k := (k.setBytes sl.base (body.take sl.codesz)).setBytes (sl.base + sl.codePages) ((body.drop sl.codesz).take sl.datasz)
          { k with slots := vput k.slots (fieldAt b 64 1) sl, mlog := k.mlog ++ [shake256 object 64] }))) ∧
    (starts 2 →
      let n := fieldAt b 64 1
      (63 < n → exec (.freeslot p q j) s = done (9, 64) h) ∧
      (n ≤ 63 → slotBusy g n = true → exec (.freeslot p q j) s = done (6, n) h) ∧
      (n ≤ 63 → slotBusy g n = false →
        exec (.freeslot p q j) s = done (0, 0) (h.modPkg p fun k => { k with slots := vput k.slots n {} }))) ∧
    (starts 3 →
      (∀ off, invokeBad b image = some off → exec (.invoke p q j) s = done (9, off) h) ∧
      (invokeBad b image = none →
        (g.liveCtx? (ivDctx b) = none → exec (.invoke p q j) s = done (12, ivDctx b) h) ∧
        ((g.liveCtx? (ivDctx b)).isSome = true →
          ((vget {} g.slots (ivSlot b)).loaded = false → exec (.invoke p q j) s = done (4, ivSlot b) h) ∧
          ((vget {} g.slots (ivSlot b)).loaded = true →
            ((g.team? (ivDctx b) (ivVteam b)).isSome = true → exec (.invoke p q j) s = done (4, 0x200) h) ∧
            (g.team? (ivDctx b) (ivVteam b) = none →
              (baseBad p (ivDctx b) b (List.range 16) h = (.go (some n), t) → exec (.invoke p q j) s = done (4, 0x100 + n) t) ∧
              (baseBad p (ivDctx b) b (List.range 16) h = (.go none, t) →
                let fits := rectSome g false (ivDie b) (ivRows b) (ivCols b)
                (fits = false → exec (.invoke p q j) s = done (5, 0) t) ∧
                (fits = true → exec (.invoke p q j) s = begins (t.modPkg p fun k =>
                  { k with nextInv := k.nextInv + 1
                           invs := k.invs ++ [{ id := k.nextInv, q := q, idx := j, node := none, bytes := b ++ image
                                                estimate := ivEstimate b }] })))))))) ∧
    (starts 4 → signalWord (fieldAt b 64 8) = true →
      exec (.cmdWait p q j) s = begins (setStep p q j 1 (h.modPkg p fun k => k.setQstate q 3))) ∧
    (goesOn 4 → k.susp < 6 →
      let met := 8 ≤ e.step ∨ (k.cq q).seen = true ∨ fieldAt b 72 8 ≤ k.signal (fieldAt b 64 8)
      let finish := outcome p q j none (0, 0) (s.modPkg p fun k => (k.setQstate q 1).modCq q fun c =>
        { c with watch := none, seen := false, wake := false, busyAt := s.ck })
      let sets := fun (n : Nat) (t : State) => Host.Outcome.next (φ := Fault) (ρ := Refusal) (setStep p q j n t)
      (e.step % 8 = 1 → met → exec (.cmdWait p q j) s = .next finish) ∧
      (e.step % 8 = 1 → ¬ met → exec (.cmdWait p q j) s = sets 2 (s.modPkg p fun k => k.modCq q fun c =>
        { c with watch := some (fieldAt b 64 8, BitVec.ofNat 64 (fieldAt b 72 8)) })) ∧
      (e.step % 8 = 2 → exec (.cmdWait p q j) s = sets 3 s) ∧
      (e.step % 8 = 3 → k.wpend q = false → exec (.cmdWait p q j) s = sets 4 (s.modPkg p fun k => k.giveSlot q 2)) ∧
      (e.step % 8 = 3 → k.wpend q = true → exec (.cmdWait p q j) s = sets 4 (noteAsk p q (s.modPkg p fun k =>
        ((k.setWpend q false).giveSlot q 0).modCq q fun c => { c with wake := true }))) ∧
      (e.step % 8 = 4 → k.qstate q ≠ 1 → exec (.cmdWait p q j) s = .next s) ∧
      (e.step % 8 = 4 → k.qstate q = 1 → met → exec (.cmdWait p q j) s = .next finish) ∧
      (e.step % 8 = 4 → k.qstate q = 1 → ¬ met → exec (.cmdWait p q j) s =
        sets 1 (s.modPkg p fun k => (k.setQstate q 3).modCq q fun c => { c with wake := false }))) ∧
    (starts 5 →
      let a := fieldAt b 64 8
      (signalWord a = false → exec (.signal p q j) s = done (9, 64) h) ∧
      (signalWord a = true → exec (.signal p q j) s = done (0, 0) (h.modPkg p fun k => k.engineWrite a (leBytes 8
        ((if (fieldAt b 80 1).testBit 0 then fieldAt b 72 8 else k.signal a + fieldAt b 72 8) % 2 ^ 64))))) ∧
    (starts 6 →
      let a := fieldAt b 64 8
      let nn := g.num' a 4
      (nn = 0 ∨ 4096 < nn → exec (.replay p q j) s = done (9, 64) h) ∧
      (1 ≤ nn → nn ≤ 4096 → exec (.replay p q j) s = begins (h.modPkg p fun k => k.modJ q j fun e =>
        { e with nodes := (List.range nn).map fun n => planNode k (a + 64 + 320 * n) }))) ∧
    (k.jentry? q j = some e → e.st = .started → k.susp = 0 → k.exhausted q = false → e.nodes[n]? = some d → d.st = .accepted → d.status = none →
      ((∃ m ∈ d.preds, ∃ x, e.nodes[m]? = some x ∧ x.st = .done ∧ ∃ o, x.status = some o ∧ o.1 ≠ 0) →
        exec (.replayNodeStart p q j n) s = .next (markStarted p q j (some n) (outcome p q j (some n) (10, 0) s))) ∧
      ((∀ m ∈ d.preds, ∃ x, e.nodes[m]? = some x ∧ x.st = .done ∧ ∃ o, x.status = some o ∧ o.1 = 0) →
        exec (.replayNodeStart p q j n) s = .next (startWith p q j (some n) d.bytes (doNode p q j n d.bytes) s))) ∧
    (starts 7 → 1 ≤ fieldAt b 66 2 → fieldAt b 66 2 ≤ 576 →
      let vps := ctxTable g b
      let root := fieldAt b 80 8
      let lctxs := (List.range 64).filter fun x => !g.ctxs.any fun c => c.lctx == x
      (∀ x ∈ vps, x ≤ 575) → vps.eraseDups.length = fieldAt b 66 2 → vps.contains p = true → root % 4096 = 0 → g.populated root = true →
        ((g.ctx? dctx).isSome = true → exec (.ctxnew p q j) s = done (11, dctx) h) ∧
        (g.ctx? dctx = none → lctxs = [] → exec (.ctxnew p q j) s = done (13, 0) h) ∧
        (g.ctx? dctx = none → lctxs ≠ [] →
          let lctx := lctxs.getD (h.drawNat.1 % lctxs.length) 0
          exec (.ctxnew p q j) s = done (0, lctx) ((freshFlows p dctx h.drawNat.2).modPkg p fun k =>
            { k with ctxs := k.ctxs ++ [{ dctx := dctx, lctx := lctx, root := root, vps := vps.map fun v => (v, (h.drawNat.2.pkg v).inc) }] }))) ∧
    (starts 8 →
      (g.liveCtx? dctx = none → exec (.ctxend p q j) s = done (12, dctx) h) ∧
      ((g.liveCtx? dctx).isSome = true → exec (.ctxend p q j) s = begins (endStep p q j none b (beginEnd p dctx h)))) ∧
    (goesOn 8 → (∀ t ∈ k.teams, t.dctx = dctx → t.placed = true → teamQuiet s p t = true) →
      exec (.ctxend p q j) s = .next (outcome p q j none (0, 0) (finishEnd p dctx s))) ∧
    (starts 9 →
      (g.liveCtx? dctx = none → exec (.ctxresume p q j) s = done (12, dctx) h) ∧
      (g.liveCtx? dctx = some c →
        let teams := g.teams.filter fun t => t.dctx == dctx && t.st == .stopped
        let bars := resumeBars h dctx c
        (c.stopping = none ∨ ∀ t ∈ g.teams, t.dctx = dctx → t.st = .stopped) →
          (teams ≠ [] → bars ≠ [] → exec (.ctxresume p q j) s = done (8, barsDetail bars) h) ∧
          (teams = [] ∨ bars = [] →
            let resumed := fun (v : Invocation) => !v.ended && teams.any fun t => t.inv == v.id
            let t := h.modPkg p fun k =>
              { k.modCtx dctx fun c => { c with stopping := none } with
                teams := k.teams.map fun t => if t.dctx = dctx ∧ t.st = .stopped then { t with st := .saved } else t
                invs := k.invs.map fun v => if resumed v then { v with resumer := some (q, j, none), start := some h.ck } else v }
            ((∃ v ∈ g.invs, resumed v = true) → exec (.ctxresume p q j) s = begins t) ∧
            ((∀ v ∈ g.invs, resumed v = false) → exec (.ctxresume p q j) s = done (0, 0) t)))) ∧
    (k.invs.find? (fun v => v.id == n) = some v → k.liveCtx? (ivDctx v.bytes) = some c →
      v.start = none → v.ended = false → k.susp = 0 → v.resumer.isSome = true ∨ rectSome k false (ivDie v.bytes) (ivRows v.bytes) (ivCols v.bytes) = true →
      k.exhausted v.q = false → c.stopping = none → k.team? c.dctx (ivVteam v.bytes) = none →
      ivDie v.bytes = 2 ∨ ivDie v.bytes = die → rectOk k true die row col (ivRows v.bytes) (ivCols v.bytes) = true →
      let tm : Team := { dctx := c.dctx, vteam := ivVteam v.bytes, st := .running, die := die, row := row, col := col, rows := ivRows v.bytes,
                         cols := ivCols v.bytes, slot := ivSlot v.bytes, inv := n, home := p
                         bars := (Vector.replicate 16 {}).set 0 { expect := 4 * (ivRows v.bytes * ivCols v.bytes) } }
      let serials := firstSerials k v (4 * tm.size) s
      let s1 := serials.2.modPkg p fun g =>
        { g.modInv n fun v => { v with start := some serials.2.ck, decision := .none } with
          teams := g.teams ++ [tm], killed := g.killed.filter fun y => !(y.q == v.q && y.idx == v.idx && y.node == v.node) }
      exec (.placement p n die row col) s = .next (settleTdm p ((List.range tm.size).foldl (fun s v' =>
        s.modCore p (tm.coreOf v') fun _ => placedCore k c tm v.bytes v' s.ck serials.1) s1))) ∧
    (k.invs.find? (fun v => v.id == n) = some v → (k.liveCtx? (ivDctx v.bytes)).isSome = true → v.start = none → v.ended = false → v.resumer = none →
      k.susp = 0 → rectSome k false (ivDie v.bytes) (ivRows v.bytes) (ivCols v.bytes) = false →
      exec (.placement p n die row col) s =
        .next (outcome p v.q v.idx v.node (5, 0) (s.modPkg p fun k => { k with invs := k.invs.filter fun x => x.id ≠ v.id }))) ∧
    (k.team? m vteam = some tm →
      (tm.st = .running → teamIdle s p tm = false → exec (.teamRelease p m vteam) s = .next s) ∧
      (tm.st = .running → s.invOf tm = some v → v.ended = true → teamIdle s p tm = true → exec (.teamRelease p m vteam) s =
        .next (dropTeam p tm (s.modPkg tm.home fun k => { k with invs := k.invs.filter fun v => v.id ≠ tm.inv }))) ∧
      (tm.st = .closing → tm.reason = 5 → teamQuiet s p tm = true → s.invOf tm = some v → exec (.teamRelease p m vteam) s =
        .next (dropTeam p tm (s.modPkg tm.home fun k =>
          (k.runAgain v).keepSerials { q := v.q, idx := v.idx, node := v.node, serials := runSerials s p tm })))) ∧
    (v.resumer = none → v.node = none → k.runAgain v =
      { k.modJ v.q v.idx (fun e => { e with st := .accepted }) with invs := k.invs.filter fun x => x.id ≠ v.id }) ∧
    (k.jentry? q j = some e → e.st = .started → k.susp < 6 →
      (e.nodes = [] → e.outcome = some o → exec (.commandCompletion p q j) s = .next (noteAsks p (postEvent p q (.completed q j o.1 o.2) (s.modPkg p fun k =>
        ((writeStatus b o k).modJ q j fun e => { e with st := .done }).event q .completion)))) ∧
      (opcOf b = 6 → e.outcome = none → e.nodes ≠ [] → (∀ d ∈ e.nodes, d.st = .done) →
        exec (.commandCompletion p q j) s = .next (outcome p q j none (replayOutcome e) s))) ∧
    (k.jentry? q j = some e →
      (e.st ≠ .started → exec (.rolernisTakeover p q j) s = .next s) ∧
      (e.st = .started → s.drawBool.1 = false → exec (.rolernisTakeover p q j) s = .next s.drawBool.2) ∧
      (e.st = .started → s.drawBool.1 = true →
        let waits := fun (n : Option Nat) (v : Invocation) => v.q == q && v.idx == j && v.node == n && v.start.isNone && v.resumer.isNone
        let lose := fun (n : Option Nat) (f : JEntry → JEntry) (k : Package) =>
          let k := k.modJ q j f
          { k with invs := k.invs.filter fun v => !waits n v }
        (e.nodes = [] → (opcOf b = 8 → e.outcome.isSome = true) → opcOf b ≠ 4 ∨ e.outcome.isSome = true →
          exec (.rolernisTakeover p q j) s = .next (s.drawBool.2.modPkg p (lose none fun e => { e with outcome := some (8, 0) }))) ∧
        (e.nodes = [] → opcOf b = 4 → e.outcome = none →
          exec (.rolernisTakeover p q j) s =
            .next (s.drawBool.2.modPkg p fun k => (lose none (fun e => { e with outcome := some (8, 0) }) k).leaveWait q)) ∧
        (e.nodes = [] → opcOf b = 8 → e.outcome = none → exec (.rolernisTakeover p q j) s = .next s.drawBool.2) ∧
        (e.nodes.findIdx? (fun d => d.st == .started && (d.status.isSome || opcOf d.bytes ≠ 8)) = some n →
          exec (.rolernisTakeover p q j) s = .next (s.drawBool.2.modPkg p (lose (some n) fun e =>
            { e with nodes := e.nodes.modify n fun d => { d with status := some (8, 0) } })))))

/-- 25 R405-R411; 00 R8; 17 R309; 23 R390: energy, the suspend of the domain, reset, the host's accesses and firmware. A suspending package takes its steps in order and
acknowledges within 4.5 s, or the suspend is abandoned; retention loses what stands outside memory; a reset package keeps only what fuses
and management set and takes the next incarnation; the host reaches its ranges alone; and firmware runs only under a valid signature and a
version not below the rollback count. What retention loses, what a reset keeps, that an access of the host is one event, that time runs ahead of
the stretched clock by a free value and that the clock waits for a send that is due are the model's choices (assumptions 34, 35, 36, 45, 52). -/
def Obligations.HostAndPower : Prop :=
  ∀ (s : State) (p d a n m uj version : Nat) (on : Bool) (x : Byte) (image key sig msg : List (BitVec 8)),
    let k := s.pkg p
    let hash := shake256 key 64
    let genuine := decide (hash = k.settings.bootKeyHash) && Config.falconVerify key image sig && decide (k.rollback ≤ version)
    let lost := fun (x : Packet) => x.at_ = p ∨ ∃ n q, x.port = some n ∧ peerOf s x.at_ n = some q ∧ q.1 = p
    let retrain := fun (s : State) => (List.range 31).foldl (fun s n =>
      modLink p n (fun t =>
        { t with replay := [], toSend := [], txSeq := 0, rxSeq := 0, nak := false, change := false, stripe := t.lanes, lane := 0 }) s) s
    let clean := fun (a n : Nat) => (List.range (n / 4096 + 2)).all fun i => decide (a + n ≤ a / 4096 * 4096 + 4096 * i) || !k.blighted (a + 4096 * i)
    (k.susp < 6 →
      (k.periodAt + k.settings.period ≤ s.ck → exec (.allowancePeriodEnd p) s = .next (noteAsks p (s.modPkg p fun k =>
        { (List.range 4096).foldl refillQueue k with periodAt := s.ck }))) ∧
      (s.ck < k.periodAt + k.settings.period → exec (.allowancePeriodEnd p) s = .next s) ∧
      exec (.measurementRequest p) s = .next (post p (.log k.mlog.flatten (Config.falconSign p k.mlog.flatten)) s) ∧
      (0 < n → k.hostRange a n = true → k.populated a = true → k.populated (a + n - 1) = true →
        (clean a n = true → exec (.rdmaRead p a n) s = .next (post p (.read (k.bytes a n)) s)) ∧
        (clean a n = false → exec (.rdmaRead p a n) s = .next s)) ∧
      (k.hostRange a n = false → exec (.rdmaRead p a n) s = .next s) ∧
      (k.hostRange a msg.length = false → exec (.rdmaWrite p a msg) s = .next s) ∧
      (k.hostRange a 1 = true → k.populated a = true → a < k.settings.qtbase ∨ k.settings.qtbase + 128 * 4096 ≤ a →
        (k.frameOpen a = true → exec (.rdmaWrite p a [x]) s = .next (s.modPkg p fun k => { k.write a [x] with woken := k.woken })) ∧
        (k.frameOpen a = false → exec (.rdmaWrite p a [x]) s = .next s))) ∧
    (k.susp < 6 → m < 4096 → a = k.qrec m + n → n < 128 → k.hostRange a 1 = true → k.populated a = true →
      (3 < n ∧ n < 8 ∨ 47 < n ∨ 15 < n ∧ n < 48 ∧ k.recordOpen m = false → exec (.rdmaWrite p a [x]) s = .next s) ∧
      (k.frameOpen a = false → exec (.rdmaWrite p a [x]) s = .next s) ∧
      (k.frameOpen a = true →
        let w := s.modPkg p fun k => { k.write a [x] with woken := k.woken }
        (n < 4 → exec (.rdmaWrite p a [x]) s = .next (noteAsk p m (w.modPkg p fun k => (k.modCq m id).event m .wix))) ∧
        (7 < n → n < 16 → exec (.rdmaWrite p a [x]) s = .next (wakeQueue p m .wake (w.modPkg p fun k => k.modCq m id))) ∧
        (15 < n → n < 48 → k.recordOpen m = true → exec (.rdmaWrite p a [x]) s = .next (recordWritten p m w)))) ∧
    exec (.rdmaSend p msg) s = .next s ∧
    exec (.droopStretch p d on) s = .next (s.modDie p d fun x => { x with stretched := on }) ∧
    (let goes := fun (n : Nat) (s : State) => s.modPkg p fun k => { k with susp := n }
     (k.susp = 0 → exec (.domainSuspend p) s = .next (goes 1 { s with suspendAt := some (s.suspendAt.getD s.time) })) ∧
     (k.susp = 1 → exec (.domainSuspend p) s = .next (goes 2 s)) ∧
     (k.susp = 2 → (∃ t ∈ k.teams, t.placed = true) → exec (.domainSuspend p) s = .next s) ∧
     (k.susp = 2 → (∀ t ∈ k.teams, t.placed = false) → exec (.domainSuspend p) s = .next (suspendWorks p (fun _ => true) (goes 3 s))) ∧
     (k.susp = 3 → (∃ w ∈ k.works.toList, w.st = .run ∨ w.st = .waittrig) → exec (.domainSuspend p) s = .next s) ∧
     (k.susp = 3 → (∀ w ∈ k.works.toList, w.st ≠ .run ∧ w.st ≠ .waittrig) → exec (.domainSuspend p) s = .next (goes 4 s)) ∧
     (k.susp = 4 → exec (.domainSuspend p) s =
       .next (goes 5 (s.modPkg p fun k => { k with dies := k.dies.map fun d => d.writeBack fun _ => true }))) ∧
     (k.susp = 5 → s.suspendAt = some m →
       (s.time ≤ m + 4500000 * 3000 → exec (.domainSuspend p) s = .next (s.modPkg p fun k => { k with suspAck := true })) ∧
       (m + 4500000 * 3000 < s.time → exec (.domainSuspend p) s = .next s))) ∧
    (s.suspendAt = some m → (∃ k ∈ s.pkgs, k.suspAck = false) →
      (s.time < m + 4500000 * 3000 → exec .suspendAbandon s = .next s) ∧
      (m + 4500000 * 3000 ≤ s.time → (∀ k ∈ s.pkgs, k.susp ≠ 2) → exec .suspendAbandon s = .next (reopenAll s))) ∧
    (s.suspendAt = some m → (∀ k ∈ s.pkgs, k.susp = 5 ∧ k.suspAck = true) → exec .retentionEntry s = .next { s with
      net := []
      pkgs := s.pkgs.map fun k =>
        { k with susp := 6, tlb := [], walk := [], crit := []
                 ports := k.ports.map fun t =>
                   { t with replay := [], toSend := [], txSeq := 0, rxSeq := 0, nak := false, change := false, stripe := t.lanes, lane := 0 } } }) ∧
    ((∃ k ∈ s.pkgs, k.suspAck = false) → exec .retentionEntry s = .next s) ∧
    (k.susp = 6 → exec (.domainResume p) s = .next (reopenAll s)) ∧
    (∃ net : List Packet, (∀ x, x ∈ net ↔ x ∈ s.net ∧ ¬ lost x) ∧
      exec (.packageReset p) s = .next ((retrain { s with net := net }).modPkg p fun k =>
        { num := k.num, inc := (k.inc + 1) % 65536, resetCk := s.ck, periodAt := s.ck, lpddr := k.lpddr, settings := k.settings, ports := k.ports
          rollback := k.rollback, unitNext := k.unitNext, posted := k.posted })) ∧
    exec (.firmwareBoot p image key sig version) s = .next (if genuine then s.modPkg p fun k =>
      { k with fwVersion := version, mlog := k.mlog ++ [shake256 image 64] } else s) ∧
    (n < 4096 → k.susp < 6 → takeTurn (.charge p n uj) s = .next (s.modPkg p fun k =>
      (k.modCq n id).qset n 56 8 (min (k.spent n + uj) (2 ^ 64 - 1)))) ∧
    ((∀ k ∈ s.pkgs, ∀ d ∈ k.dies.toList, d.stretched = false) →
      advanceClock n s = { s with ck := s.ck + n, time := s.time + n, pkgs := s.pkgs.map (tickPackage s n) }) ∧
    ((∃ k ∈ s.pkgs, ∃ d ∈ k.dies.toList, d.stretched = true) →
      advanceClock n s = { s.drawNat.2 with ck := s.ck + n, time := s.time + n + s.drawNat.1, pkgs := s.pkgs.map (tickPackage s.drawNat.2 n) }) ∧
    (sendsDue n s = true → tick n s = s) ∧ (sendsDue n s = false → tick n s = advanceClock n s)

/-! ## The machine as a whole -/

/-- The state after reset: package 0 alone, at ck 0 (01 R16; 09 R189, CYC), with no work under way. Every flag, tag, count and state register with
a reset value in the tables of 07 R126, R127 and 09 R189 holds it, the token FIFOs are empty (03 R45), no reply-cache entry is valid (17 R304),
tiles stand at ZERO and (1.0, 1.0) (13 R239), the slice maps at I mod 24 with GEN 0 (15 R264), and every queue record at the values of 25 R392.
That general registers, vectors, masks and predicates read 0, that a tile's words and memory that nothing has written read 0, that package 0
stands alone, and that an unbound sequencer shows these values before placement are the model's choices (assumptions 3, 4 and 5). -/
def Obligations.ResetState : Prop :=
  let s := State.reset
  (∀ p, s.hasPkg p = decide (p = 0)) ∧ s.ck = 0 ∧ s.net = [] ∧ s.memWf = true ∧
    (∀ i : Sid, let q := s.seq i
      (∀ g : Sys2Proof.Guard, q.guard g = ((g.pg == 0) != g.pn)) ∧ (∀ r, q.sr r = 0) ∧
      q.fpc = 0 ∧ q.fps = 0 ∧ q.tags = 0 ∧ q.tagi = 0 ∧ q.lc0 = 0 ∧ q.lc1 = 0 ∧ q.lmax = 63 ∧ q.fq = [] ∧ q.out = [] ∧
      q.lc = 0 ∧ q.cl = 0 ∧ q.cs = 0 ∧ q.sc = 0 ∧ q.ql = [] ∧ q.qc = [] ∧ q.qs = [] ∧ q.st = .unbound) ∧
    (∀ p c, let x := s.core p c
      x.replies = [] ∧ x.holder = none ∧ x.leaseIssued = 0 ∧ x.bound = none ∧
      (∀ t, let y := vget {} x.tiles t
        y.kind = .zero ∧ y.ta = 0x3F800000 ∧ y.tb = 0x3F800000 ∧ ∀ e, y.data.find? (fun z => z.1 == e) = none)) ∧
    (∀ d n, d < 2 → n < 64 → (vget {} (s.pkg 0).dies d).map[n]? = some (n % 24)) ∧ (∀ d, (vget {} (s.pkg 0).dies d).gen = 0) ∧
    (∀ p a, (s.pkg p).byte a =
      if (s.pkg p).settings.qtbase ≤ a ∧ a < (s.pkg p).settings.qtbase + 4096 * 128 ∧ (a - (s.pkg p).settings.qtbase) % 128 = 52 then 0xFF else 0) ∧
    (∀ q, q < 4096 → let k := s.pkg 0
      k.wix q = 0 ∧ k.rix q = 0 ∧ k.qvalid q = false ∧ k.qstate q = 0 ∧ k.qget q 52 1 = 0xFF ∧ k.wpend q = false ∧ k.spent q = 0) ∧
    (∀ e, (s.work 0 e).st = .free)

/-- 03 R40, R42, R44; 05 R105; 21 R348; 23 R363: a step runs what the agent whose turn it is decodes. A running front end runs the F word that its
instruction cache holds at the program counter, as exec of the decoded instruction, and dispatches a word of another route; an engine queue issues
the decoded entry at its head once that has passed the compare; a work entry starts the decoded step at its position; and any other agent's step is
exec of it. A fetch outside the code faults, a line that is not in the cache is awaited, and deferred faults and waits come first. A step ends
with the report of what it wrote. Which agent acts, and that the report is part of the step, are the model's choices (assumptions 1, 31). -/
def Obligations.StepRunsDecoded : Prop :=
  ∀ (s : State) (i : Sid) (e : EQ) (p n : Nat) (x : Entry) (rest : List Turn) (w ext : W64) (sw : BitVec 32) (j : Instr)
      (j' u : Nat) (wr : Bool),
    let q := s.seq i
    let c := s.core i.pkg i.core
    let base := (vget {} (s.pkg i.pkg).slots q.slotN.toNat).base
    let goes := { s with tape := rest, who := i }
    let free := q.wait = none ∨ (∃ e, q.wait = some (.dispatch e)) ∨ q.wait = some .fmt ∨ ∃ k, q.wait = some (.sow k)
    (s.tape = .front i :: rest → s.has i = true → q.st = .run → teamStops s i = false →
      (q.deferred ≠ [] → step s = reported (exec (.deferredFaultDelivery i) goes)) ∧
      (q.deferred = [] → ¬ free → step s = reported (.next goes)) ∧
      (q.deferred = [] → free →
        (¬ GoodTarget s i q.pc → step s = reported (.next (wordFault i fcFetchRange q.pc { s with tape := rest }))) ∧
        (GoodTarget s i q.pc → (s.pkg i.pkg).blighted (base + q.pc.toNat) = true →
          step s = reported (.next (wordFault i fcBlight q.pc { s with tape := rest }))) ∧
        (GoodTarget s i q.pc → (s.pkg i.pkg).blighted (base + q.pc.toNat) = false →
          (c.codeWord? q.slotN.toNat q.pc.toNat = none → step s = reported (.next goes)) ∧
          (c.codeWord? q.slotN.toNat q.pc.toNat = some w →
            (twoWord w = true → c.codeWord? q.slotN.toNat (q.pc.toNat + 8) = some ext) → (twoWord w = false → ext = 0) →
            (decodeWord w ext = .ok j → (Raw.ofWord w).q = 0 → step s = reported (exec j goes)) ∧
            (decodeWord w ext = .ok j → (Raw.ofWord w).q ≠ 0 → step s = reported (exec (.dispatch w) goes)) ∧
            (∀ r, decodeWord w ext = .error r → step s = .refused (.illegalWord w)))))) ∧
    (s.tape = .issue i e :: rest → s.has i = true → (q.st = .run ∨ q.st = .idle ∨ q.st = .drain) → teamStops s i = false → q.headOf e = some x →
      (x.compared = false → step s = reported (.next goes)) ∧
      (x.compared = true → decodeWord x.word 0 = .ok j → step s = reported (exec j goes))) ∧
    (let k := s.work p n
     s.tape = .windrow p n :: rest → s.hasPkg p = true → k.st = .run → k.holding = false → k.runs.length < 4 → k.steps[k.pc]? = some sw →
      decodeStep sw = some j → step s = reported (exec j { s with tape := rest, whoEntry := (p, n) })) ∧
    (s.tape = .unit j :: rest → encode j = .none → (∀ w, j ≠ .dispatch w) → step s = reported (exec j { s with tape := rest })) ∧
    (s.tape = .piece p n j' u wr :: rest → step s = reported (.next (movePiece p n j' u wr { s with tape := rest }))) ∧
    (s.tape = .tick n :: rest → step s = reported (.next (tick n { s with tape := rest }))) ∧
    (s.tape = .charge p n u :: rest → step s = reported (.next (chargeQueue p n u { s with tape := rest }))) ∧
    (s.tape = [] → step s = reported (takeTurn (Config.nextTurn s.free) { s with free := s.free + 1 }))

/-- 05 R84-R93; 06; 09 R187; 11 R212; 13 R231, R246, R251; 15 R273; 17 R297, R301; 19 R325, R332, R333, R336; 21 R345, R346, R359: the words that the
chapters write out decode to the instructions that they stand for. -/
def Obligations.DecodeWords : Prop :=
  let g : Sys2Proof.Guard := ⟨0, false⟩
  let h : EHead := ⟨false, false, false, false, g⟩
  decodeWord 0x0060042FFFFFFFFF 0 = .ok (.addi g 2 2 (-1)) ∧
    decodeWord 0x0120042001200004 0 = .ok (.cmp g .i64 .gt 2 2 0) ∧
    decodeWord 0x014101FFFFFFFFFE 0 = .ok (.br ⟨2, false⟩ (-2)) ∧
    decodeWord 0x01E40C9502A00000 0 = .ok (.afadd g 6 9 10) ∧
    decodeWord 0x0180254000000000 0 = .ok (.sow g 18 20) ∧
    decodeWord 0x01B40AB300000800 0 = .ok (.wcnt g .dom 5 11 6) ∧
    decodeWord 0x0244007000000000 0 = .ok (.mfmt g 7) ∧
    decodeWord 0x02600A6380000000 0 = .ok (.karm g 5 6 7) ∧
    decodeWord 0x80B4081100A30000 0 = .ok (.vwmul h .i16 .i8 .dyn false 0 4 1 2) ∧
    decodeWord 0x8094294226A00000 0 = .ok (.vslide h .fp32 0 20 20 4 9) ∧
    decodeWord 0x83080600001C0007 0 = .ok (.mmul h 3 0 0 0 0 true true true 7) ∧
    decodeWord 0x831C814A80001007 0 = .ok (.msow { h with g := ⟨1, false⟩ } 20 21 false 7) ∧
    decodeWord 0x400C005000D40000 0 = .ok (.cmc h ⟨0, 10, 0, 0, 13, .team, false⟩ false) ∧
    decodeWord 0xE00800501A080000 0 = .ok (.cput { h with gl := true } ⟨0, 10, 0, 13, 0, .dom, false⟩ false) ∧
    decodeWord 0xC00C004000990000 0 = .ok (.ksig h ⟨0, 8, 0, 0, 9, .dom, true⟩ false) ∧
    decodeWord 0xC01805635C000000 0 = .ok (.amerge h 5 false 12 13 14) ∧
    decodeWord 0xE01C001000010000 0 = .ok (.afin { h with gl := true } 0 true 2) ∧
    decodeWord 0x0860042FFFFFFFFF 0 = .error .token ∧
    decodeWord 0x0120442001200006 0 = .error .select ∧
    decodeStep 0x3D000001 = some (.rrs true true .plus .zero .zero 1) ∧
    decodeStep 0x39CFFFFF = some (.rrs true false .plus .minus .zero (-1)) ∧
    decodeStep 0x64000002 = some (.loop false true 2) ∧
    decodeStep 0x880FFFFF = some (.peer true (-1)) ∧
    decodeStep 0xF0000000 = some .halt

/-- 05 R84-R101, 21 R345: decoding and encoding agree. For every well-formed instruction, with every operand at every value, the decoder reads it
back from its word, word pair or step, and takes exactly the two-word forms to have a second word. -/
def Obligations.DecodeEncode : Prop :=
  ∀ (i : Instr) (ext : W64), i.wf = true →
    (∀ w, encode i = .word w → decodeWord w ext = .ok i ∧ twoWord w = false) ∧
    (∀ w x, encode i = .pair w x → decodeWord w x = .ok i ∧ twoWord w = true) ∧
    (∀ w, encode i = .step w → decodeStep w = some i)

/-- Every step keeps the canonical form of every memory: package memory, scratchpads, atomic windows and tiles, those in the images of saved teams
too (assumption 4). -/
def Obligations.StepKeepsMemoryForm : Prop :=
  ∀ s t : State, s.memWf = true → step s = .next t → t.memWf = true
end

