-- ==== Sys2Proof/Laws/Encoding.lean ====
section
/-! SUPPORT. Lemmas about encodings (05 R84-R93, 21 R345): the fields of a word that is put together from them, that each format's
fields read back, that codes read back, and what one instruction of each format needs so that the decoder reads it back. -/
set_option linter.unusedSimpArgs false
set_option linter.unusedVariables false
namespace Sys2Proof.Laws
theorem extract_app_lo {a b n : Nat} (x : BitVec a) (y : BitVec b) (l : Nat) (h : l + n ≤ b) : (x ++ y).extractLsb' l n = y.extractLsb' l n := by
  apply BitVec.eq_of_getLsbD_eq; intro i hi
  simp [BitVec.getLsbD_extractLsb', BitVec.getLsbD_append, hi]; omega
theorem extract_app_hi {a b n : Nat} (x : BitVec a) (y : BitVec b) (l : Nat) (h : b ≤ l) : (x ++ y).extractLsb' l n = x.extractLsb' (l - b) n := by
  apply BitVec.eq_of_getLsbD_eq; intro i hi
  have : ¬ (l + i < b) := by omega
  have : l + i - b = l - b + i := by omega
  simp [BitVec.getLsbD_extractLsb', BitVec.getLsbD_append, hi, *]
theorem get_app_lo {a b : Nat} (x : BitVec a) (y : BitVec b) (l : Nat) (h : l < b) : (x ++ y).getLsbD l = y.getLsbD l := by
  simp [BitVec.getLsbD_append, h]
theorem get_app_hi {a b : Nat} (x : BitVec a) (y : BitVec b) (l : Nat) (h : b ≤ l) : (x ++ y).getLsbD l = x.getLsbD (l - b) := by
  have : ¬ l < b := by omega
  simp [BitVec.getLsbD_append, this]
theorem extract_full {n : Nat} (x : BitVec n) : x.extractLsb' 0 n = x := by
  apply BitVec.eq_of_getLsbD_eq; intro i hi
  simp [BitVec.getLsbD_extractLsb', hi]
theorem bit1_get (b : Bool) : (bit1 b).getLsbD 0 = b := by cases b <;> rfl

theorem raw_fields (q : BitVec 2) (gl : Bool) (gr : Bool) (pl : Bool) (pr : Bool) (op : BitVec 8) (pg : BitVec 3) (pn : Bool) (body : BitVec 46) :
    (q ++ bit1 gl ++ bit1 gr ++ bit1 pl ++ bit1 pr ++ op ++ pg ++ bit1 pn ++ body).extractLsb' 62 2 = q ∧
    (q ++ bit1 gl ++ bit1 gr ++ bit1 pl ++ bit1 pr ++ op ++ pg ++ bit1 pn ++ body).getLsbD 61 = gl ∧
    (q ++ bit1 gl ++ bit1 gr ++ bit1 pl ++ bit1 pr ++ op ++ pg ++ bit1 pn ++ body).getLsbD 60 = gr ∧
    (q ++ bit1 gl ++ bit1 gr ++ bit1 pl ++ bit1 pr ++ op ++ pg ++ bit1 pn ++ body).getLsbD 59 = pl ∧
    (q ++ bit1 gl ++ bit1 gr ++ bit1 pl ++ bit1 pr ++ op ++ pg ++ bit1 pn ++ body).getLsbD 58 = pr ∧
    (q ++ bit1 gl ++ bit1 gr ++ bit1 pl ++ bit1 pr ++ op ++ pg ++ bit1 pn ++ body).extractLsb' 50 8 = op ∧
    (q ++ bit1 gl ++ bit1 gr ++ bit1 pl ++ bit1 pr ++ op ++ pg ++ bit1 pn ++ body).extractLsb' 47 3 = pg ∧
    (q ++ bit1 gl ++ bit1 gr ++ bit1 pl ++ bit1 pr ++ op ++ pg ++ bit1 pn ++ body).getLsbD 46 = pn ∧
    (q ++ bit1 gl ++ bit1 gr ++ bit1 pl ++ bit1 pr ++ op ++ pg ++ bit1 pn ++ body).extractLsb' 0 46 = body := by
  refine ⟨?_, ?_, ?_, ?_, ?_, ?_, ?_, ?_, ?_⟩ <;>
    simp (disch := omega) only [extract_app_lo, extract_app_hi, get_app_lo, get_app_hi, bit1_get, extract_full, Nat.sub_self, Nat.reduceSub]

theorem raw_round (r : Raw) : Raw.ofWord (Raw.toWord r) = r := by
  cases r
  simp only [Raw.ofWord, Raw.toWord, Raw.mk.injEq]
  exact raw_fields _ _ _ _ _ _ _ _ _

theorem rrr_fields (d : BitVec 5) (a : BitVec 5) (b : BitVec 5) (c : BitVec 5) (ty : BitVec 5) (ty2 : BitVec 5) (rnd : BitVec 3) (sat : Bool) (scope : BitVec 3) (km : BitVec 3) (opx : BitVec 6) :
    (d ++ a ++ b ++ c ++ ty ++ ty2 ++ rnd ++ bit1 sat ++ scope ++ km ++ opx).extractLsb' 41 5 = d ∧
    (d ++ a ++ b ++ c ++ ty ++ ty2 ++ rnd ++ bit1 sat ++ scope ++ km ++ opx).extractLsb' 36 5 = a ∧
    (d ++ a ++ b ++ c ++ ty ++ ty2 ++ rnd ++ bit1 sat ++ scope ++ km ++ opx).extractLsb' 31 5 = b ∧
    (d ++ a ++ b ++ c ++ ty ++ ty2 ++ rnd ++ bit1 sat ++ scope ++ km ++ opx).extractLsb' 26 5 = c ∧
    (d ++ a ++ b ++ c ++ ty ++ ty2 ++ rnd ++ bit1 sat ++ scope ++ km ++ opx).extractLsb' 21 5 = ty ∧
    (d ++ a ++ b ++ c ++ ty ++ ty2 ++ rnd ++ bit1 sat ++ scope ++ km ++ opx).extractLsb' 16 5 = ty2 ∧
    (d ++ a ++ b ++ c ++ ty ++ ty2 ++ rnd ++ bit1 sat ++ scope ++ km ++ opx).extractLsb' 13 3 = rnd ∧
    (d ++ a ++ b ++ c ++ ty ++ ty2 ++ rnd ++ bit1 sat ++ scope ++ km ++ opx).getLsbD 12 = sat ∧
    (d ++ a ++ b ++ c ++ ty ++ ty2 ++ rnd ++ bit1 sat ++ scope ++ km ++ opx).extractLsb' 9 3 = scope ∧
    (d ++ a ++ b ++ c ++ ty ++ ty2 ++ rnd ++ bit1 sat ++ scope ++ km ++ opx).extractLsb' 6 3 = km ∧
    (d ++ a ++ b ++ c ++ ty ++ ty2 ++ rnd ++ bit1 sat ++ scope ++ km ++ opx).extractLsb' 0 6 = opx := by
  refine ⟨?_, ?_, ?_, ?_, ?_, ?_, ?_, ?_, ?_, ?_, ?_⟩ <;>
    simp (disch := omega) only [extract_app_lo, extract_app_hi, get_app_lo, get_app_hi, bit1_get, extract_full, Nat.sub_self, Nat.reduceSub]

theorem rrr_round (r : RRR) : RRR.ofBits (RRR.toBits r) = r := by
  cases r
  simp only [RRR.ofBits, RRR.toBits, RRR.mk.injEq]
  exact rrr_fields _ _ _ _ _ _ _ _ _ _ _

theorem rri_fields (d : BitVec 5) (a : BitVec 5) (imm : BitVec 36) :
    (d ++ a ++ imm).extractLsb' 41 5 = d ∧
    (d ++ a ++ imm).extractLsb' 36 5 = a ∧
    (d ++ a ++ imm).extractLsb' 0 36 = imm := by
  refine ⟨?_, ?_, ?_⟩ <;>
    simp (disch := omega) only [extract_app_lo, extract_app_hi, get_app_lo, get_app_hi, bit1_get, extract_full, Nat.sub_self, Nat.reduceSub]

theorem rri_round (r : RRI) : RRI.ofBits (RRI.toBits r) = r := by
  cases r
  simp only [RRI.ofBits, RRI.toBits, RRI.mk.injEq]
  exact rri_fields _ _ _

theorem ri_fields (d : BitVec 5) (imm : BitVec 41) :
    (d ++ imm).extractLsb' 41 5 = d ∧
    (d ++ imm).extractLsb' 0 41 = imm := by
  refine ⟨?_, ?_⟩ <;>
    simp (disch := omega) only [extract_app_lo, extract_app_hi, get_app_lo, get_app_hi, bit1_get, extract_full, Nat.sub_self, Nat.reduceSub]

theorem ri_round (r : RI) : RI.ofBits (RI.toBits r) = r := by
  cases r
  simp only [RI.ofBits, RI.toBits, RI.mk.injEq]
  exact ri_fields _ _

theorem xx_fields (d : BitVec 5) (a : BitVec 5) (rest : BitVec 36) :
    (d ++ a ++ rest).extractLsb' 41 5 = d ∧
    (d ++ a ++ rest).extractLsb' 36 5 = a ∧
    (d ++ a ++ rest).extractLsb' 0 36 = rest := by
  refine ⟨?_, ?_, ?_⟩ <;>
    simp (disch := omega) only [extract_app_lo, extract_app_hi, get_app_lo, get_app_hi, bit1_get, extract_full, Nat.sub_self, Nat.reduceSub]

theorem xx_round (r : XX) : XX.ofBits (XX.toBits r) = r := by
  cases r
  simp only [XX.ofBits, XX.toBits, XX.mk.injEq]
  exact xx_fields _ _ _

theorem mx_fields (t : BitVec 5) (ab : BitVec 5) (ap : BitVec 5) (bb : BitVec 5) (bp : BitVec 5) (asrc : Bool) (bsrc : Bool) (acc : Bool) (s : BitVec 4) (bus : BitVec 2) (kf : BitVec 12) :
    (t ++ ab ++ ap ++ bb ++ bp ++ bit1 asrc ++ bit1 bsrc ++ bit1 acc ++ s ++ bus ++ kf).extractLsb' 41 5 = t ∧
    (t ++ ab ++ ap ++ bb ++ bp ++ bit1 asrc ++ bit1 bsrc ++ bit1 acc ++ s ++ bus ++ kf).extractLsb' 36 5 = ab ∧
    (t ++ ab ++ ap ++ bb ++ bp ++ bit1 asrc ++ bit1 bsrc ++ bit1 acc ++ s ++ bus ++ kf).extractLsb' 31 5 = ap ∧
    (t ++ ab ++ ap ++ bb ++ bp ++ bit1 asrc ++ bit1 bsrc ++ bit1 acc ++ s ++ bus ++ kf).extractLsb' 26 5 = bb ∧
    (t ++ ab ++ ap ++ bb ++ bp ++ bit1 asrc ++ bit1 bsrc ++ bit1 acc ++ s ++ bus ++ kf).extractLsb' 21 5 = bp ∧
    (t ++ ab ++ ap ++ bb ++ bp ++ bit1 asrc ++ bit1 bsrc ++ bit1 acc ++ s ++ bus ++ kf).getLsbD 20 = asrc ∧
    (t ++ ab ++ ap ++ bb ++ bp ++ bit1 asrc ++ bit1 bsrc ++ bit1 acc ++ s ++ bus ++ kf).getLsbD 19 = bsrc ∧
    (t ++ ab ++ ap ++ bb ++ bp ++ bit1 asrc ++ bit1 bsrc ++ bit1 acc ++ s ++ bus ++ kf).getLsbD 18 = acc ∧
    (t ++ ab ++ ap ++ bb ++ bp ++ bit1 asrc ++ bit1 bsrc ++ bit1 acc ++ s ++ bus ++ kf).extractLsb' 14 4 = s ∧
    (t ++ ab ++ ap ++ bb ++ bp ++ bit1 asrc ++ bit1 bsrc ++ bit1 acc ++ s ++ bus ++ kf).extractLsb' 12 2 = bus ∧
    (t ++ ab ++ ap ++ bb ++ bp ++ bit1 asrc ++ bit1 bsrc ++ bit1 acc ++ s ++ bus ++ kf).extractLsb' 0 12 = kf := by
  refine ⟨?_, ?_, ?_, ?_, ?_, ?_, ?_, ?_, ?_, ?_, ?_⟩ <;>
    simp (disch := omega) only [extract_app_lo, extract_app_hi, get_app_lo, get_app_hi, bit1_get, extract_full, Nat.sub_self, Nat.reduceSub]

theorem mx_round (r : MX) : MX.ofBits (MX.toBits r) = r := by
  cases r
  simp only [MX.ofBits, MX.toBits, MX.mk.injEq]
  exact mx_fields _ _ _ _ _ _ _ _ _ _ _

theorem cxb_fields (tag : BitVec 6) (p : BitVec 5) (a : BitVec 5) (b : BitVec 5) (c : BitVec 5) (scope : BitVec 3) (notag : Bool) (opx : BitVec 16) :
    (tag ++ p ++ a ++ b ++ c ++ scope ++ bit1 notag ++ opx).extractLsb' 40 6 = tag ∧
    (tag ++ p ++ a ++ b ++ c ++ scope ++ bit1 notag ++ opx).extractLsb' 35 5 = p ∧
    (tag ++ p ++ a ++ b ++ c ++ scope ++ bit1 notag ++ opx).extractLsb' 30 5 = a ∧
    (tag ++ p ++ a ++ b ++ c ++ scope ++ bit1 notag ++ opx).extractLsb' 25 5 = b ∧
    (tag ++ p ++ a ++ b ++ c ++ scope ++ bit1 notag ++ opx).extractLsb' 20 5 = c ∧
    (tag ++ p ++ a ++ b ++ c ++ scope ++ bit1 notag ++ opx).extractLsb' 17 3 = scope ∧
    (tag ++ p ++ a ++ b ++ c ++ scope ++ bit1 notag ++ opx).getLsbD 16 = notag ∧
    (tag ++ p ++ a ++ b ++ c ++ scope ++ bit1 notag ++ opx).extractLsb' 0 16 = opx := by
  refine ⟨?_, ?_, ?_, ?_, ?_, ?_, ?_, ?_⟩ <;>
    simp (disch := omega) only [extract_app_lo, extract_app_hi, get_app_lo, get_app_hi, bit1_get, extract_full, Nat.sub_self, Nat.reduceSub]

theorem cxb_round (r : CXB) : CXB.ofBits (CXB.toBits r) = r := by
  cases r
  simp only [CXB.ofBits, CXB.toBits, CXB.mk.injEq]
  exact cxb_fields _ _ _ _ _ _ _ _
theorem cxw (r : CXW) : CXW.ofB r.toB = r := by
  cases r with | mk f o => cases f with | mk t p a b c s n => cases s <;> rfl


/-- The decoder reads `i` back from its word, from its pair of words, or from its step, and knows which forms have a second word. -/
def ReadsBack (i : Instr) : Prop := ∀ ext : W64,
    (∀ w, encode i = .word w → decodeWord w ext = .ok i ∧ twoWord w = false) ∧
    (∀ w x, encode i = .pair w x → decodeWord w x = .ok i ∧ twoWord w = true) ∧
    (∀ w, encode i = .step w → decodeStep w = some i)

theorem rt_word {i : Instr} {w : W64} (he : encode i = .word w) (h1 : scanWord w = none) (h2 : ∀ x, buildWord w x = some i) (h3 : twoWord w = false) :
    ReadsBack i := by
  intro ext
  refine ⟨fun w' h => ?_, fun w' x h => ?_, fun w' h => ?_⟩ <;> rw [he] at h <;> cases h
  exact ⟨by simp [decodeWord, h1, h2], h3⟩

theorem rt_pair {i : Instr} {w x : W64} (he : encode i = .pair w x) (h1 : scanWord w = none) (h2 : buildWord w x = some i) (h3 : twoWord w = true) :
    ReadsBack i := by
  intro ext
  refine ⟨fun w' h => ?_, fun w' x h => ?_, fun w' h => ?_⟩ <;> rw [he] at h <;> cases h
  exact ⟨by simp [decodeWord, h1, h2], h3⟩

theorem hd_ofWord_f (g : Sys2Proof.Guard) (op body) : Raw.ofWord ((Hd.f g).word op body) =
    { q := 0, op := op, pg := g.pg, pn := g.pn, body := body } := raw_round _
theorem hd_ofWord_e (q) (h : EHead) (op body) : Raw.ofWord ((Hd.e q h).word op body) =
    { q := q, gl := h.gl, gr := h.gr, pl := h.pl, pr := h.pr, op := op, pg := h.g.pg, pn := h.g.pn, body := body } := raw_round _

theorem fmt0 : ∀ op : BitVec 8, (fmtOf 0 op = .x) ↔ (op == 0x23 || op == 0x24) = true := by decide
@[simp] theorem firstBad_nil : firstBad [] = none := rfl
@[simp] theorem firstBad_cons (b : Bool) (r l) : firstBad ((b, r) :: l) = none ↔ b = true ∧ firstBad l = none := by cases b <;> simp [firstBad]

theorem rt_rrrF {i : Instr} {g : Sys2Proof.Guard} {op} {r : RRR} (he : encode i = .word ((Hd.f g).word op r.toBits)) (hf : fmtOf 0 op = .rrr)
    (hc : checkRrr { q := 0, op := op, pg := g.pg, pn := g.pn, body := r.toBits } r (needF op r) = none) (hb : buildF op g r = some i) : ReadsBack i := by
  refine rt_word he ?_ (fun x => ?_) ?_
  · simp only [scanWord, hd_ofWord_f, hf, rrr_round]; exact hc
  · simp only [buildWord, hd_ofWord_f, hf, rrr_round]; exact hb
  · have := (not_congr (fmt0 op)).1 (by rw [hf]; decide)
    simpa [twoWord, hd_ofWord_f] using this
theorem rt_rrrC {i : Instr} {h : EHead} {op} {r : RRR} (he : encode i = .word ((Hd.e 2 h).word op r.toBits)) (hf : fmtOf 2 op = .rrr)
    (hc : checkRrr { q := 2, gl := h.gl, gr := h.gr, pl := h.pl, pr := h.pr, op := op, pg := h.g.pg, pn := h.g.pn, body := r.toBits } r (needC op r) = none)
    (hb : buildC op h r = some i) : ReadsBack i := by
  refine rt_word he ?_ (fun x => ?_) ?_
  · simp only [scanWord, hd_ofWord_e, hf, rrr_round]; exact hc
  · simp only [buildWord, hd_ofWord_e, hf, rrr_round]; exact hb
  · simp [twoWord, hd_ofWord_e]
theorem rt_rriF {i : Instr} {g : Sys2Proof.Guard} {op} {r : RRI} (he : encode i = .word ((Hd.f g).word op r.toBits)) (hf : fmtOf 0 op = .rri)
    (hc : checkImm { q := 0, op := op, pg := g.pg, pn := g.pn, body := r.toBits } r.d r.a true (needRri op r) = none) (hb : buildRri op g r = some i) : ReadsBack i := by
  refine rt_word he ?_ (fun x => ?_) ?_
  · simp only [scanWord, hd_ofWord_f, hf, rri_round]; exact hc
  · simp only [buildWord, hd_ofWord_f, hf, rri_round]; exact hb
  · have := (not_congr (fmt0 op)).1 (by rw [hf]; decide)
    simpa [twoWord, hd_ofWord_f] using this
theorem rt_riF {i : Instr} {g : Sys2Proof.Guard} {op} {r : RI} (he : encode i = .word ((Hd.f g).word op r.toBits)) (hf : fmtOf 0 op = .ri)
    (hc : checkImm { q := 0, op := op, pg := g.pg, pn := g.pn, body := r.toBits } r.d 0 true (needRi op r) = none) (hb : buildRi op g r = some i) : ReadsBack i := by
  refine rt_word he ?_ (fun x => ?_) ?_
  · simp only [scanWord, hd_ofWord_f, hf, ri_round]; exact hc
  · simp only [buildWord, hd_ofWord_f, hf, ri_round]; exact hb
  · have := (not_congr (fmt0 op)).1 (by rw [hf]; decide)
    simpa [twoWord, hd_ofWord_f] using this
theorem rt_xF {i : Instr} {g : Sys2Proof.Guard} {op} {r : XX} {x : W64} (he : encode i = .pair ((Hd.f g).word op r.toBits) x) (hf : fmtOf 0 op = .x)
    (hc : checkImm { q := 0, op := op, pg := g.pg, pn := g.pn, body := r.toBits } r.d r.a (r.rest == 0) (needX op r) = none) (hb : buildX op g r x = some i) : ReadsBack i := by
  refine rt_pair he ?_ ?_ ?_
  · simp only [scanWord, hd_ofWord_f, hf, xx_round]; exact hc
  · simp only [buildWord, hd_ofWord_f, hf, xx_round]; exact hb
  · have := (fmt0 op).1 hf
    simpa [twoWord, hd_ofWord_f] using this
theorem rt_rriC {i : Instr} {h : EHead} {op} {r : RRI} (he : encode i = .word ((Hd.e 2 h).word op r.toBits)) (hf : fmtOf 2 op = .rri)
    (hc : checkImm { q := 2, gl := h.gl, gr := h.gr, pl := h.pl, pr := h.pr, op := op, pg := h.g.pg, pn := h.g.pn, body := r.toBits } r.d r.a true (needRriC op r) = none)
    (hb : buildRriC op h r = some i) : ReadsBack i := by
  refine rt_word he ?_ (fun x => ?_) ?_
  · simp only [scanWord, hd_ofWord_e, hf, rri_round]; exact hc
  · simp only [buildWord, hd_ofWord_e, hf, rri_round]; exact hb
  · simp [twoWord, hd_ofWord_e]
theorem rt_mxC {i : Instr} {h : EHead} {op} {r : MX} (he : encode i = .word ((Hd.e 2 h).word op r.toBits)) (hf : fmtOf 2 op = .mx)
    (hc : checkMx { q := 2, gl := h.gl, gr := h.gr, pl := h.pl, pr := h.pr, op := op, pg := h.g.pg, pn := h.g.pn, body := r.toBits } r = none)
    (hb : buildMx op h r = some i) : ReadsBack i := by
  refine rt_word he ?_ (fun x => ?_) ?_
  · simp only [scanWord, hd_ofWord_e, hf, mx_round]; exact hc
  · simp only [buildWord, hd_ofWord_e, hf, mx_round]; exact hb
  · simp [twoWord, hd_ofWord_e]
theorem rt_cxL {i : Instr} {h : EHead} {op} {r : CXW} (he : encode i = .word ((Hd.e 1 h).word op r.toB.toBits))
    (hc : checkCx { q := 1, gl := h.gl, gr := h.gr, pl := h.pl, pr := h.pr, op := op, pg := h.g.pg, pn := h.g.pn, body := r.toB.toBits } r.toB = none)
    (hb : buildL op h r = some i) : ReadsBack i := by
  refine rt_word he ?_ (fun x => ?_) ?_
  · simp only [scanWord, hd_ofWord_e, fmtOf, cxb_round]; exact hc
  · simp only [buildWord, hd_ofWord_e, fmtOf, cxb_round, cxw]; exact hb
  · simp [twoWord, hd_ofWord_e]
theorem rt_cxS {i : Instr} {h : EHead} {op} {r : CXW} (he : encode i = .word ((Hd.e 3 h).word op r.toB.toBits))
    (hc : checkCx { q := 3, gl := h.gl, gr := h.gr, pl := h.pl, pr := h.pr, op := op, pg := h.g.pg, pn := h.g.pn, body := r.toB.toBits } r.toB = none)
    (hb : buildS op h r = some i) : ReadsBack i := by
  refine rt_word he ?_ (fun x => ?_) ?_
  · simp only [scanWord, hd_ofWord_e, fmtOf, cxb_round]; exact hc
  · simp only [buildWord, hd_ofWord_e, fmtOf, cxb_round, cxw]; exact hb
  · simp [twoWord, hd_ofWord_e]

@[simp] theorem ty_ofCode?_code (t : Ty) : Ty.ofCode? t.code = some t := by cases t <;> rfl
@[simp] theorem ty_ofCode_code (t : Ty) : Ty.ofCode t.code = t := by cases t <;> rfl
@[simp] theorem ity_ofCode_code (t : ITy) : ITy.ofCode t.code = t := by cases t <;> rfl
@[simp] theorem fty_ofCode_code (t : FTy) : FTy.ofCode t.code = t := by cases t <;> rfl
@[simp] theorem ity_code_ok (t : ITy) : t.code = 9#5 ∨ t.code = 10#5 := by cases t <;> simp [ITy.code]
@[simp] theorem fty_code_ok (t : FTy) : t.code = 21#5 ∨ t.code = 22#5 := by cases t <;> simp [FTy.code]
@[simp] theorem rnd_ofCode_code (t : Rnd) : Rnd.ofCode t.code = t := by cases t <;> rfl
@[simp] theorem rnd_code_le (t : Rnd) : t.code ≤ 4#3 := by cases t <;> decide
@[simp] theorem rnd_code_zero (t : Rnd) : t.code = 0#3 ↔ t = .dyn := by cases t <;> simp [Rnd.code]
@[simp] theorem scope_ofCode_code (t : Scope) : Scope.ofCode t.code = t := by cases t <;> rfl
@[simp] theorem scope_code_le (t : Scope) : t.code ≤ 4#3 := by cases t <;> decide
@[simp] theorem cond_ofCode_code (t : Cond) : Cond.ofCode t.code = t := by cases t <;> rfl
@[simp] theorem set3 (x : BitVec 3) : (x.setWidth 5).setWidth 3 = x := by revert x; decide
@[simp] theorem set3le (x : BitVec 3) : x.setWidth 5 ≤ 7#5 := by revert x; decide
@[simp] theorem set36 (x : BitVec 3) : (x.setWidth 6).setWidth 3 = x := by revert x; decide
@[simp] theorem set46 (x : BitVec 4) : (x.setWidth 6).setWidth 4 = x := by revert x; decide
@[simp] theorem set46le (x : BitVec 4) : x.setWidth 6 ≤ 15#6 := by revert x; decide
@[simp] theorem set26 (x : BitVec 2) : (x.setWidth 6).setWidth 2 = x := by revert x; decide
@[simp] theorem set26le (x : BitVec 2) : x.setWidth 6 ≤ 3#6 := by revert x; decide
@[simp] theorem set3le7 (x : BitVec 3) : x.setWidth 6 ≤ 7#6 := by revert x; decide
@[simp] theorem bits1 (a : Bool) : (bit 0 a : BitVec 6) ≤ 1#6 := by revert a; decide
@[simp] theorem bits1g (a : Bool) : (bit 0 a : BitVec 6).getLsbD 0 = a := by revert a; decide
@[simp] theorem bits2 (a b : Bool) : (bit 0 a ||| bit 1 b : BitVec 6) ≤ 3#6 := by revert a b; decide
@[simp] theorem bits2a (a b : Bool) : (bit 0 a ||| bit 1 b : BitVec 6).getLsbD 0 = a := by revert a b; decide
@[simp] theorem bits2b (a b : Bool) : (bit 0 a ||| bit 1 b : BitVec 6).getLsbD 1 = b := by revert a b; decide
@[simp] theorem le63 (x : BitVec 36) : x ≤ 63#36 ↔ x.toNat ≤ 63 := Iff.rfl
@[simp] theorem le29 (x : BitVec 5) : x ≤ 29#5 ↔ x.toNat ≤ 29 := Iff.rfl
@[simp] theorem le28 (x : BitVec 5) : x ≤ 28#5 ↔ x.toNat ≤ 28 := Iff.rfl
@[simp] theorem bits1e (a : Bool) : (bit 0 a : BitVec 6)[0] = a := by revert a; decide
@[simp] theorem bits2ae (a b : Bool) : (bit 0 a : BitVec 6)[0] = a ∧ (bit 1 b : BitVec 6)[0] = false := by revert a b; decide
@[simp] theorem bits2be (a b : Bool) : (bit 0 a : BitVec 6)[1] = false ∧ (bit 1 b : BitVec 6)[1] = b := by revert a b; decide
@[simp] theorem naLe (b : Bool) : (if b = true then 1#16 else 0#16) ≤ 1#16 := by revert b; decide
@[simp] theorem naEq (b : Bool) : ((if b = true then 1#16 else 0#16) == 1#16) = b := by revert b; decide
@[simp] theorem lEq (b : Bool) : ((if b = true then 1#5 else 0#5) == 1#5) = b := by revert b; decide
@[simp] theorem lLe (b : Bool) : (if b = true then 1#5 else 0#5) ≤ 1#5 := by revert b; decide
@[simp] theorem busEq (b : Bool) : ((if b = true then 2#2 else 1#2) == 2#2) = b := by revert b; decide
@[simp] theorem busOk (b : Bool) : (if b = true then 2#2 else 1#2) = 1#2 ∨ (if b = true then 2#2 else 1#2) = 2#2 := by revert b; decide
@[simp] theorem scopeSeq : Scope.seq.code = 0#3 := rfl
@[simp] theorem bit3e (a : Bool) : (bit 3 a : BitVec 6)[3] = a := by revert a; decide
@[simp] theorem condle (c : Cond) (a : Bool) : c.code.setWidth 6 ||| bit 3 a ≤ 15#6 := by cases c <;> revert a <;> decide
@[simp] theorem condand (c : Cond) (a : Bool) : ((c.code.setWidth 6 ||| bit 3 a) &&& 7#6 ≤ 5#6) ↔ c ≠ .uo ∧ c ≠ .ord := by cases c <;> revert a <;> decide
@[simp] theorem condof (c : Cond) (a : Bool) : Cond.ofCode (c.code ||| (bit 3 a : BitVec 6).setWidth 3) = c := by cases c <;> revert a <;> decide
@[simp] theorem condle5 (c : Cond) : (c.code.setWidth 6 ≤ 5#6) ↔ c ≠ .uo ∧ c ≠ .ord := by cases c <;> decide
@[simp] theorem qf1 (a b c d : Bool) : 1#6 ≤ (bit 0 a ||| bit 1 b ||| bit 2 c ||| bit 3 d : BitVec 6) ↔ (((a = true ∨ b = true) ∨ c = true) ∨ d = true) := by revert a b c d; decide
@[simp] theorem qf2 (a b c d : Bool) : (bit 0 a ||| bit 1 b ||| bit 2 c ||| bit 3 d : BitVec 6) ≤ 15#6 := by revert a b c d; decide
@[simp] theorem sregRound (n : SReg) : SReg.ofNum? n.num = some n := by
  cases n with
  | base n => revert n; decide
  | _ => rfl
@[simp] theorem sregRound' (n : SReg) : SReg.ofNum n.num = n := by simp [SReg.ofNum]
@[simp] theorem wr0 : SReg.writable 0#36 = true := rfl
@[simp] theorem wr1 : SReg.writable 1#36 = true := rfl
@[simp] theorem wr2 : SReg.writable 2#36 = true := rfl
@[simp] theorem wr6 : SReg.writable 6#36 = true := rfl
@[simp] theorem wr7 : SReg.writable 7#36 = true := rfl
@[simp] theorem wr8 : SReg.writable 8#36 = true := rfl
@[simp] theorem wr45 (n : Bool) : SReg.writable (if n = true then 5#36 else 4#36) = true := by cases n <;> rfl
@[simp] theorem wrb (n : BitVec 4) : SReg.writable (32#36 ||| n.setWidth 36) = true := by revert n; decide
theorem vf2 (a b : Bool) : ((bit 1 b : BitVec 6)[0] = true → a = true) ∧ ((bit 0 a : BitVec 6)[1] || (bit 1 b : BitVec 6)[1]) = b := by revert a b; decide
@[simp] theorem m64 (x : BitVec 2) : x.toNat % 64 = x.toNat := Nat.mod_eq_of_lt (by omega)
@[simp] theorem m64' (x : BitVec 4) : x.toNat % 64 = x.toNat := Nat.mod_eq_of_lt (by omega)
@[simp] theorem s1 (x : BitVec 4) : 1#4 ≤ x ↔ 1 ≤ x.toNat := Iff.rfl
@[simp] theorem s10 (x : BitVec 4) : x ≤ 10#4 ↔ x.toNat ≤ 10 := Iff.rfl
theorem coefRound (c : Coef) : Coef.ofCode? c.code = some c := by cases c <;> rfl
theorem step_fields (op : BitVec 4) (ps x : Bool) (mr m0 m1 : BitVec 2) (v : BitVec 20) :
    let w := op ++ bit1 ps ++ bit1 x ++ mr ++ m0 ++ m1 ++ v
    w.getLsbD 27 = ps ∧ w.getLsbD 26 = x ∧ w.extractLsb' 24 2 = mr ∧ w.extractLsb' 22 2 = m0 ∧ w.extractLsb' 20 2 = m1 ∧ w.extractLsb' 0 20 = v ∧
    w.extractLsb' 28 4 = op := by
  refine ⟨?_, ?_, ?_, ?_, ?_, ?_, ?_⟩ <;>
    simp (disch := omega) only [extract_app_lo, extract_app_hi, get_app_lo, get_app_hi, bit1_get, extract_full, Nat.sub_self, Nat.reduceSub]
theorem step_rt {i : Instr} {op ps x mr m0 m1 v} (he : encode i = .step (stepBits op ps x mr m0 m1 v))
    (h : ∀ w : BitVec 32, w.getLsbD 27 = ps → w.getLsbD 26 = x → w.extractLsb' 24 2 = mr.code → w.extractLsb' 22 2 = m0.code →
      w.extractLsb' 20 2 = m1.code → w.extractLsb' 0 20 = v → w.extractLsb' 28 4 = op → decodeStep w = some i) : ReadsBack i := by
  intro ext
  refine ⟨fun w' h' => ?_, fun w' x h' => ?_, fun w' h' => ?_⟩ <;> rw [he] at h' <;> cases h'
  obtain ⟨h1, h2, h3, h4, h5, h6, h7⟩ := step_fields op ps x mr.code m0.code m1.code v
  exact h _ h1 h2 h3 h4 h5 h6 h7

end Sys2Proof.Laws
end

