-- ==== Sys2Proof/Laws/State.lean ====
section
/-! SUPPORT. What each update of the state changes and what it leaves: vectors, packages, cores, sequencers, registers and
memories. -/

namespace Sys2Proof.Machine

/-! ## Vectors -/

@[simp] theorem vget_vmod_self {α : Type} {n : Nat} (d : α) (v : Vector α n) (i : Nat) (f : α → α) (h : i < n) :
    vget d (vmod v i f) i = f (vget d v i) := by simp [vget, vmod, h]

@[simp] theorem vget_vmod_ne {α : Type} {n : Nat} (d : α) (v : Vector α n) (i j : Nat) (f : α → α) (h : i ≠ j) :
    vget d (vmod v i f) j = vget d v j := by
  unfold vget vmod
  by_cases hj : j < n <;> by_cases hi : i < n <;> simp [hi, hj, h]

@[simp] theorem vget_vput_self {α : Type} {n : Nat} (d : α) (v : Vector α n) (i : Nat) (x : α) (h : i < n) :
    vget d (vput v i x) i = x := by simp [vput, h]

@[simp] theorem vget_vput_ne {α : Type} {n : Nat} (d : α) (v : Vector α n) (i j : Nat) (x : α) (h : i ≠ j) :
    vget d (vput v i x) j = vget d v j := by simp [vput, h]

theorem vmod_ge {α : Type} {n : Nat} (v : Vector α n) (i : Nat) (f : α → α) (h : ¬ i < n) : vmod v i f = v := by simp [vmod, h]

@[simp] theorem vmod_vmod {α : Type} {n : Nat} (v : Vector α n) (i : Nat) (f g : α → α) :
    vmod (vmod v i f) i g = vmod v i (fun x => g (f x)) := by
  unfold vmod; split <;> simp_all

@[simp] theorem vmod_id {α : Type} {n : Nat} (v : Vector α n) (i : Nat) : vmod v i (fun x => x) = v := by
  unfold vmod; split <;> simp

/-! ## Packages of the state -/

/-- A change of a package that keeps its number. -/
def KeepsNum (f : Package → Package) : Prop := ∀ k, (f k).num = k.num

theorem State.find_modPkg (s : State) (n m : Nat) (f : Package → Package) (hf : KeepsNum f) :
    (s.modPkg n f).pkgs.find? (fun p => p.num == m) =
      (s.pkgs.find? fun p => p.num == m).map fun p => if p.num = n then f p else p := by
  simp only [State.modPkg]
  induction s.pkgs with
  | nil => rfl
  | cons a r ih =>
    have ha : (if a.num = n then f a else a).num = a.num := by split <;> simp [hf a]
    simp only [List.map_cons, List.find?_cons, ha]
    split
    · rfl
    · exact ih

@[simp] theorem State.hasPkg_modPkg (s : State) (n m : Nat) (f : Package → Package) (hf : KeepsNum f) :
    (s.modPkg n f).hasPkg m = s.hasPkg m := by
  simp only [State.hasPkg, State.modPkg, List.any_map]
  congr 1; funext p; simp only [Function.comp]; split <;> simp [hf p]

theorem State.pkg_modPkg_self (s : State) (n : Nat) (f : Package → Package) (hf : KeepsNum f) (h : s.hasPkg n = true) :
    (s.modPkg n f).pkg n = f (s.pkg n) := by
  obtain ⟨p, hp, hn⟩ : ∃ p, (s.pkgs.find? fun p => p.num == n) = some p ∧ p.num = n := by
    cases hq : s.pkgs.find? fun p => p.num == n with
    | none => simp [State.hasPkg] at h; simp at hq; obtain ⟨x, hx, hx'⟩ := h; exact absurd hx' (hq x hx)
    | some p => exact ⟨p, rfl, by simpa using List.find?_some hq⟩
  simp [State.pkg, State.find_modPkg s n n f hf, hp, hn]

theorem State.pkg_modPkg_ne (s : State) (n m : Nat) (f : Package → Package) (hf : KeepsNum f) (h : n ≠ m) :
    (s.modPkg n f).pkg m = s.pkg m := by
  rw [State.pkg, State.find_modPkg s n m f hf, State.pkg]
  cases hq : s.pkgs.find? fun p => p.num == m with
  | none => rfl
  | some p =>
    have : p.num = m := by simpa using List.find?_some hq
    simp [this, Ne.symm h]

theorem State.pkg_modPkg_absent (s : State) (n m : Nat) (f : Package → Package) (hf : KeepsNum f) (h : s.hasPkg n = false) :
    (s.modPkg n f).pkg m = s.pkg m := by
  by_cases hm : n = m
  · subst hm
    have hq : s.pkgs.find? (fun p => p.num == n) = none := by
      simp only [State.hasPkg, List.any_eq_false] at h
      simpa using h
    simp [State.pkg, State.find_modPkg s n n f hf, hq]
  · exact State.pkg_modPkg_ne s n m f hf hm

@[simp] theorem State.modPkg_modPkg (s : State) (n : Nat) (f g : Package → Package) (hf : KeepsNum f) :
    (s.modPkg n f).modPkg n g = s.modPkg n fun p => g (f p) := by
  simp only [State.modPkg, List.map_map, State.mk.injEq, true_and, and_true]
  apply List.map_congr_left
  intro p _
  by_cases h : p.num = n <;> simp [h, hf p]

@[simp] theorem State.modPkg_tape (s : State) (n f) : (s.modPkg n f).tape = s.tape := rfl
@[simp] theorem State.modPkg_free (s : State) (n f) : (s.modPkg n f).free = s.free := rfl
@[simp] theorem State.modPkg_who (s : State) (n f) : (s.modPkg n f).who = s.who := rfl
@[simp] theorem State.modPkg_whoEntry (s : State) (n f) : (s.modPkg n f).whoEntry = s.whoEntry := rfl
@[simp] theorem State.modPkg_ck (s : State) (n f) : (s.modPkg n f).ck = s.ck := rfl
@[simp] theorem State.modPkg_net (s : State) (n f) : (s.modPkg n f).net = s.net := rfl
@[simp] theorem State.modPkg_nextPkt (s : State) (n f) : (s.modPkg n f).nextPkt = s.nextPkt := rfl
@[simp] theorem State.modPkg_suspendAt (s : State) (n f) : (s.modPkg n f).suspendAt = s.suspendAt := rfl
@[simp] theorem State.modPkg_drainAt (s : State) (n f) : (s.modPkg n f).drainAt = s.drainAt := rfl
@[simp] theorem State.modPkg_tree (s : State) (n f) : (s.modPkg n f).tree = s.tree := rfl

theorem State.modPkg_congr (s : State) (n : Nat) (f g : Package → Package) (h : ∀ k, f k = g k) : s.modPkg n f = s.modPkg n g := by
  rw [show f = g from funext h]

/-- A package after a change: the changed one where it is the package of that number and is there. -/
theorem State.pkg_modPkg (s : State) (n m : Nat) (f : Package → Package) (hf : KeepsNum f) :
    (s.modPkg n f).pkg m = if m = n ∧ s.hasPkg n = true then f (s.pkg m) else s.pkg m := by
  by_cases h : s.hasPkg n = true
  · by_cases hm : m = n
    · subst hm; simp [h, State.pkg_modPkg_self s m f hf h]
    · simp [hm, State.pkg_modPkg_ne s n m f hf (Ne.symm hm)]
  · simp [h, State.pkg_modPkg_absent s n m f hf (by simpa using h)]

/-- A field of a package that a change leaves as it is. -/
theorem State.modPkg_field {α : Type} (s : State) (n m : Nat) (f : Package → Package) (hf : KeepsNum f) (g : Package → α)
    (h : ∀ k, g (f k) = g k) : g ((s.modPkg n f).pkg m) = g (s.pkg m) := by
  rw [State.pkg_modPkg s n m f hf]; split
  · exact h _
  · rfl

/-! ## Cores and sequencers -/

theorem keepsNum_modCore (c : Nat) (f : Core → Core) : KeepsNum (fun k => k.modCore c f) := fun _ => rfl

@[simp] theorem Package.modCore_modCore (p : Package) (c : Nat) (f g : Core → Core) :
    (p.modCore c f).modCore c g = p.modCore c fun k => g (f k) := by simp [Package.modCore]

@[simp] theorem Package.core_modCore_self (p : Package) (c : Nat) (f : Core → Core) (h : c < 96) :
    (p.modCore c f).core c = f (p.core c) := by simp [Package.modCore, Package.core, h]

@[simp] theorem Package.core_modCore_ne (p : Package) (c d : Nat) (f : Core → Core) (h : c ≠ d) :
    (p.modCore c f).core d = p.core d := by simp [Package.modCore, Package.core, h]

@[simp] theorem Core.seq_modSeq_self (c : Core) (q : Nat) (f : Seq → Seq) (h : q < 4) : (c.modSeq q f).seq q = f (c.seq q) := by
  simp [Core.modSeq, Core.seq, h]

@[simp] theorem Core.seq_modSeq_ne (c : Core) (q r : Nat) (f : Seq → Seq) (h : q ≠ r) : (c.modSeq q f).seq r = c.seq r := by
  simp [Core.modSeq, Core.seq, h]

@[simp] theorem Core.modSeq_modSeq (c : Core) (q : Nat) (f g : Seq → Seq) :
    (c.modSeq q f).modSeq q g = c.modSeq q fun x => g (f x) := by simp [Core.modSeq]

@[simp] theorem State.modCore_modCore (s : State) (p c : Nat) (f g : Core → Core) :
    (s.modCore p c f).modCore p c g = s.modCore p c fun k => g (f k) := by
  simp [State.modCore, State.modPkg_modPkg _ _ _ _ (keepsNum_modCore c f)]

@[simp] theorem State.modSeq_modSeq (s : State) (i : Sid) (f g : Seq → Seq) :
    (s.modSeq i f).modSeq i g = s.modSeq i fun q => g (f q) := by simp [State.modSeq]

@[simp] theorem State.hasPkg_modCore (s : State) (p c m : Nat) (f : Core → Core) : (s.modCore p c f).hasPkg m = s.hasPkg m :=
  State.hasPkg_modPkg s p m _ (keepsNum_modCore c f)

@[simp] theorem State.hasPkg_modSeq (s : State) (i : Sid) (m : Nat) (f : Seq → Seq) : (s.modSeq i f).hasPkg m = s.hasPkg m :=
  State.hasPkg_modCore s _ _ _ _

@[simp] theorem State.has_modCore (s : State) (p c : Nat) (f : Core → Core) (i : Sid) : (s.modCore p c f).has i = s.has i := by
  simp [State.has]

@[simp] theorem State.has_modSeq (s : State) (i j : Sid) (f : Seq → Seq) : (s.modSeq i f).has j = s.has j := by simp [State.has]

theorem Package.core_modCore_ge (p : Package) (c d : Nat) (f : Core → Core) (h : ¬ c < 96) : (p.modCore c f).core d = p.core d := by
  simp [Package.modCore, Package.core, vmod_ge _ _ _ h]

theorem State.core_modCore_self (s : State) (p c : Nat) (f : Core → Core) (h : s.hasPkg p = true) (hc : c < 96) :
    (s.modCore p c f).core p c = f (s.core p c) := by
  simp [State.core, State.modCore, State.pkg_modPkg_self s p _ (keepsNum_modCore c f) h, hc]

theorem State.core_modCore_ne (s : State) (p c q d : Nat) (f : Core → Core) (h : ¬ (p = q ∧ c = d)) :
    (s.modCore p c f).core q d = s.core q d := by
  simp only [State.core, State.modCore, State.pkg_modPkg s p q _ (keepsNum_modCore c f)]
  split
  · rename_i hq
    obtain ⟨rfl, _⟩ := hq
    exact Package.core_modCore_ne _ _ _ _ (fun hc => h ⟨rfl, hc⟩)
  · rfl

theorem State.has_iff (s : State) (i : Sid) : s.has i = true ↔ s.hasPkg i.pkg = true ∧ i.core < 96 ∧ i.seq < 4 := by
  simp [State.has, and_assoc]

/-- The sequencer that a change names is changed. -/
theorem State.seq_modSeq_self (s : State) (i : Sid) (f : Seq → Seq) (h : s.has i = true) : (s.modSeq i f).seq i = f (s.seq i) := by
  obtain ⟨hp, hc, hq⟩ := (State.has_iff s i).1 h
  simp [State.seq, State.modSeq, State.core_modCore_self s _ _ _ hp hc, hq]

/-- Every other sequencer stays as it is. -/
theorem State.seq_modSeq_ne (s : State) (i j : Sid) (f : Seq → Seq) (h : i ≠ j) : (s.modSeq i f).seq j = s.seq j := by
  unfold State.seq State.modSeq
  by_cases hc : i.pkg = j.pkg ∧ i.core = j.core
  · obtain ⟨hp, hc⟩ := hc
    have hs : i.seq ≠ j.seq := fun hs => h (by cases i; cases j; simp_all)
    rw [hp, hc]
    by_cases hk : s.hasPkg j.pkg = true
    · by_cases h96 : j.core < 96
      · rw [State.core_modCore_self s _ _ _ hk h96]; simp [hs]
      · simp only [State.core, State.modCore, State.pkg_modPkg_self s _ _ (keepsNum_modCore _ _) hk, Package.core_modCore_ge _ _ _ _ h96]
    · simp [State.core, State.modCore, State.pkg_modPkg_absent s _ _ _ (keepsNum_modCore _ _) (by simpa using hk)]
  · rw [State.core_modCore_ne _ _ _ _ _ _ hc]

@[simp] theorem State.modCore_ck (s : State) (p c f) : (s.modCore p c f).ck = s.ck := rfl
@[simp] theorem State.modCore_net (s : State) (p c f) : (s.modCore p c f).net = s.net := rfl
@[simp] theorem State.modCore_who (s : State) (p c f) : (s.modCore p c f).who = s.who := rfl
@[simp] theorem State.modCore_free (s : State) (p c f) : (s.modCore p c f).free = s.free := rfl
@[simp] theorem State.modCore_tape (s : State) (p c f) : (s.modCore p c f).tape = s.tape := rfl
@[simp] theorem State.modSeq_ck (s : State) (i f) : (s.modSeq i f).ck = s.ck := rfl
@[simp] theorem State.modSeq_net (s : State) (i f) : (s.modSeq i f).net = s.net := rfl
@[simp] theorem State.modSeq_who (s : State) (i f) : (s.modSeq i f).who = s.who := rfl
@[simp] theorem State.modSeq_free (s : State) (i f) : (s.modSeq i f).free = s.free := rfl
@[simp] theorem State.modSeq_tape (s : State) (i f) : (s.modSeq i f).tape = s.tape := rfl

/-- A field of a package that no core holds is not changed with a core. -/
theorem State.modCore_field {α : Type} (s : State) (p c m : Nat) (f : Core → Core) (g : Package → α)
    (h : ∀ k, g (k.modCore c f) = g k) : g ((s.modCore p c f).pkg m) = g (s.pkg m) :=
  State.modPkg_field s p m _ (keepsNum_modCore c f) g h

@[simp] theorem State.modSeq_mem (s : State) (i : Sid) (f : Seq → Seq) (m : Nat) : ((s.modSeq i f).pkg m).mem = (s.pkg m).mem :=
  State.modCore_field s _ _ m _ (·.mem) fun _ => rfl
@[simp] theorem State.modSeq_settings (s : State) (i : Sid) (f : Seq → Seq) (m : Nat) :
    ((s.modSeq i f).pkg m).settings = (s.pkg m).settings := State.modCore_field s _ _ m _ (·.settings) fun _ => rfl
@[simp] theorem State.modSeq_slots (s : State) (i : Sid) (f : Seq → Seq) (m : Nat) : ((s.modSeq i f).pkg m).slots = (s.pkg m).slots :=
  State.modCore_field s _ _ m _ (·.slots) fun _ => rfl
@[simp] theorem State.modSeq_teams (s : State) (i : Sid) (f : Seq → Seq) (m : Nat) : ((s.modSeq i f).pkg m).teams = (s.pkg m).teams :=
  State.modCore_field s _ _ m _ (·.teams) fun _ => rfl
@[simp] theorem State.modSeq_ctxs (s : State) (i : Sid) (f : Seq → Seq) (m : Nat) : ((s.modSeq i f).pkg m).ctxs = (s.pkg m).ctxs :=
  State.modCore_field s _ _ m _ (·.ctxs) fun _ => rfl

/-- A byte of package memory is not changed with a sequencer. -/
@[simp] theorem State.modSeq_byte (s : State) (i : Sid) (f : Seq → Seq) (m a : Nat) :
    ((s.modSeq i f).pkg m).byte a = (s.pkg m).byte a := State.modCore_field s _ _ m _ (·.byte a) fun _ => rfl

/-- A field of a core that no sequencer holds is not changed with a sequencer. -/
theorem State.modSeq_coreField {α : Type} (s : State) (i : Sid) (p c : Nat) (f : Seq → Seq) (g : Core → α)
    (h : ∀ k, g (k.modSeq i.seq f) = g k) : g ((s.modSeq i f).core p c) = g (s.core p c) := by
  unfold State.modSeq
  by_cases hc : i.pkg = p ∧ i.core = c
  · obtain ⟨rfl, rfl⟩ := hc
    by_cases hk : s.hasPkg i.pkg = true
    · by_cases h96 : i.core < 96
      · rw [State.core_modCore_self s _ _ _ hk h96]; exact h _
      · simp only [State.core, State.modCore, State.pkg_modPkg_self s _ _ (keepsNum_modCore _ _) hk, Package.core_modCore_ge _ _ _ _ h96]
    · simp [State.core, State.modCore, State.pkg_modPkg_absent s _ _ _ (keepsNum_modCore _ _) (by simpa using hk)]
  · rw [State.core_modCore_ne _ _ _ _ _ _ hc]

@[simp] theorem State.modSeq_spad (s : State) (i : Sid) (f : Seq → Seq) (p c : Nat) :
    ((s.modSeq i f).core p c).spad = (s.core p c).spad := State.modSeq_coreField s i p c f (·.spad) fun _ => rfl
@[simp] theorem State.modSeq_win (s : State) (i : Sid) (f : Seq → Seq) (p c : Nat) :
    ((s.modSeq i f).core p c).win = (s.core p c).win := State.modSeq_coreField s i p c f (·.win) fun _ => rfl
@[simp] theorem State.modSeq_tiles (s : State) (i : Sid) (f : Seq → Seq) (p c : Nat) :
    ((s.modSeq i f).core p c).tiles = (s.core p c).tiles := State.modSeq_coreField s i p c f (·.tiles) fun _ => rfl
@[simp] theorem State.modSeq_carve (s : State) (i : Sid) (f : Seq → Seq) (p c : Nat) :
    ((s.modSeq i f).core p c).carve = (s.core p c).carve := State.modSeq_coreField s i p c f (·.carve) fun _ => rfl
@[simp] theorem State.modSeq_holder (s : State) (i : Sid) (f : Seq → Seq) (p c : Nat) :
    ((s.modSeq i f).core p c).holder = (s.core p c).holder := State.modSeq_coreField s i p c f (·.holder) fun _ => rfl

/-- A field of a core that a change of cores leaves as it is. -/
theorem State.modCore_coreField {α : Type} (s : State) (p c q d : Nat) (f : Core → Core) (g : Core → α) (h : ∀ k, g (f k) = g k) :
    g ((s.modCore p c f).core q d) = g (s.core q d) := by
  by_cases hc : p = q ∧ c = d
  · obtain ⟨rfl, rfl⟩ := hc
    by_cases hk : s.hasPkg p = true
    · by_cases h96 : c < 96
      · rw [State.core_modCore_self s _ _ _ hk h96]; exact h _
      · simp only [State.core, State.modCore, State.pkg_modPkg_self s _ _ (keepsNum_modCore _ _) hk, Package.core_modCore_ge _ _ _ _ h96]
    · simp [State.core, State.modCore, State.pkg_modPkg_absent s _ _ _ (keepsNum_modCore _ _) (by simpa using hk)]
  · rw [State.core_modCore_ne _ _ _ _ _ _ hc]

/-- A change of a core that keeps its sequencers keeps every sequencer. -/
theorem State.seq_modCore (s : State) (p c : Nat) (f : Core → Core) (i : Sid) (h : ∀ k, (f k).seqs = k.seqs) :
    (s.modCore p c f).seq i = s.seq i :=
  State.modCore_coreField s p c _ _ f (fun k => k.seq i.seq) fun k => by simp [Core.seq, h]

/-- A change of a package that keeps its cores keeps every core. -/
theorem State.core_modPkg (s : State) (p q c : Nat) (f : Package → Package) (hn : KeepsNum f) (h : ∀ k, (f k).cores = k.cores) :
    (s.modPkg p f).core q c = s.core q c :=
  State.modPkg_field s p q f hn (fun k => k.core c) fun k => by simp [Package.core, h]

/-- A change of a package that keeps its cores keeps every sequencer. -/
theorem State.seq_modPkg (s : State) (p : Nat) (i : Sid) (f : Package → Package) (hn : KeepsNum f) (h : ∀ k, (f k).cores = k.cores) :
    (s.modPkg p f).seq i = s.seq i := by rw [State.seq, State.core_modPkg s _ _ _ _ hn h, State.seq]

/-- A change of a sequencer and then of its core, made together. -/
theorem State.modCore_modSeq (s : State) (i : Sid) (f : Seq → Seq) (g : Core → Core) :
    (s.modSeq i f).modCore i.pkg i.core g = s.modCore i.pkg i.core fun c => g (c.modSeq i.seq f) := by simp [State.modSeq]

end Sys2Proof.Machine
end

