-- ==== Sys2Proof/Laws/Front.lean ====
section
/-! SUPPORT. What front-end words do (05 R86; 09 R154, R165), and the registers of a sequencer. -/

namespace Sys2Proof.Machine

/-! ## Front-end words -/

/-- A word that is ready has its effect. -/
theorem frontWord_ready {s : State} {g : Guard} {rs : List Reg} (h : Ready s g rs) (n : Nat) (body : Seq → State → State) :
    frontWord n g rs body s = .next (body (s.seq s.who) s) := by
  simp [frontWord, h.has, h.guard, h.data]

/-- A register word that is ready changes its sequencer and moves on. -/
theorem regWord_ready {s : State} {g : Guard} {rs : List Reg} (h : Ready s g rs) (n : Nat) (f : Seq → Seq) :
    regWord n g rs f s = .next (s.modSeq s.who fun q => (f q).adv n) := by
  simp [regWord, frontWord_ready h]

/-- A word with a false guard only moves on (05 R86). -/
theorem frontWord_skip (s : State) (n : Nat) (g : Guard) (rs : List Reg) (body : Seq → State → State) (h : s.has s.who = true)
    (hg : (s.seq s.who).guard g = false) : frontWord n g rs body s = .next (s.modSeq s.who fun q => q.adv n) := by
  simp [frontWord, h, hg]

/-- Everything that a front-end word can come to. -/
theorem frontWord_next {s t : State} {n : Nat} {g : Guard} {rs : List Reg} {body : Seq → State → State}
    (h : frontWord n g rs body s = .next t) :
    (t = s.modSeq s.who fun q => q.adv n) ∨ t = s ∨ (Ready s g rs ∧ t = body (s.seq s.who) s) := by
  unfold frontWord at h
  split at h
  · cases h
  · rename_i hh
    dsimp only at h
    split at h
    · exact .inl (by cases h; rfl)
    · rename_i hg
      split at h
      · exact .inr (.inl (by cases h; rfl))
      · rename_i hd
        exact .inr (.inr ⟨⟨by simpa using hh, by simpa using hg, by simpa using hd⟩, by cases h; rfl⟩)

/-- Everything that a register word can come to: it has changed its sequencer alone. -/
theorem regWord_next {s t : State} {n : Nat} {g : Guard} {rs : List Reg} {f : Seq → Seq} (h : regWord n g rs f s = .next t) :
    t = s ∨ t = (s.modSeq s.who fun q => q.adv n) ∨ t = s.modSeq s.who fun q => (f q).adv n := by
  rcases frontWord_next h with h | h | h
  · exact .inr (.inl h)
  · exact .inl h
  · exact .inr (.inr h.2)

/-! ## Frames -/

theorem SameMemory.refl (s : State) : SameMemory s s := ⟨fun _ _ => rfl, fun _ _ _ => rfl, fun _ _ _ => rfl, fun _ _ => rfl⟩

theorem SameMemory.trans {s t u : State} (a : SameMemory s t) (b : SameMemory t u) : SameMemory s u :=
  ⟨fun p x => (b.mem p x).trans (a.mem p x), fun p c x => (b.spad p c x).trans (a.spad p c x),
   fun p c x => (b.win p c x).trans (a.win p c x), fun p c => (b.tiles p c).trans (a.tiles p c)⟩

theorem OnlySeq.refl (s : State) (i : Sid) : OnlySeq s s i :=
  ⟨.refl s, fun _ _ => rfl, fun _ _ => rfl, fun _ _ => rfl, fun _ _ => rfl, fun _ => rfl, fun _ => rfl, fun _ => rfl, rfl, rfl⟩

/-- A change of one sequencer leaves what stands outside it as it was. -/
theorem onlySeq_modSeq (s : State) (i : Sid) (f : Seq → Seq) : OnlySeq s (s.modSeq i f) i where
  memory := ⟨by simp, by simp, by simp, by simp⟩
  others j hj := State.seq_modSeq_ne s i j f (Ne.symm hj)
  carve := by simp
  holder := by simp
  bars p c := State.modSeq_coreField s i p c f (·.bars) fun _ => rfl
  ctxs := by simp
  teams := by simp
  works p := State.modCore_field s _ _ p _ (·.works) fun _ => rfl
  net := rfl
  ck := rfl

/-! ## Registers -/

@[simp] theorem Seq.sr_zero (q : Seq) : q.sr 0 = 0 := rfl
@[simp] theorem Seq.setS_zero (q : Seq) (v : W64) : q.setS 0 v = q := rfl
@[simp] theorem Seq.setP_zero (q : Seq) (v : Bool) : q.setP 0 v = q := rfl

/-- A register write as a change of the register file alone. -/
theorem Seq.setS_eq (q : Seq) (d : Reg) (v : W64) : q.setS d v = { q with s := if d = 0 then q.s else vput q.s d.toNat v } := by
  by_cases h : d = 0 <;> simp only [Seq.setS, h, if_true, if_false]

/-- A predicate write as a change of the predicates alone. -/
theorem Seq.setP_eq (q : Seq) (d : PReg) (v : Bool) :
    q.setP d v = { q with p := if d = 0 then q.p else (q.p &&& ~~~(1#8 <<< d.toNat)) ||| (if v then 1#8 <<< d.toNat else 0) } := by
  by_cases h : d = 0 <;> simp only [Seq.setP, h, if_true, if_false]

/-- A mask write as a change of the masks alone. -/
theorem Seq.setK_eq (q : Seq) (d : KReg) (v : Msk) : q.setK d v = { q with k := if d = 0 then q.k else vput q.k d.toNat v } := by
  by_cases h : d = 0 <;> simp only [Seq.setK, h, if_true, if_false]

theorem Seq.sr_setS (q : Seq) (d r : Reg) (v : W64) : (q.setS d v).sr r = if r = d ∧ d ≠ 0 then v else q.sr r := by
  by_cases hd : d = 0
  · subst hd; rw [Seq.setS_zero, if_neg (fun h => h.2 rfl)]
  · by_cases hrd : r = d
    · subst hrd
      rw [if_pos (And.intro rfl hd), Seq.sr, Seq.setS, if_neg hd, if_neg hd]
      exact vget_vput_self _ _ _ _ r.isLt
    · have hn : d.toNat ≠ r.toNat := fun h => hrd (BitVec.eq_of_toNat_eq h.symm)
      rw [if_neg (fun h => hrd h.1), Seq.sr, Seq.setS, if_neg hd, vget_vput_ne _ _ _ _ _ hn, Seq.sr]

/-- A bit of a word with a single one. -/
theorem getLsbD_bit8 (d n : Nat) (hn : n < 8) : (1#8 <<< d).getLsbD n = decide (n = d) := by
  rw [BitVec.getLsbD_shiftLeft]
  by_cases h : n = d
  · subst h; simp [hn]
  · rcases Nat.lt_or_gt_of_ne h with h1 | h1
    · simp [hn, h1, h]
    · have : n - d ≠ 0 := by omega
      simp [h, this]

/-- Predicates as they read after a write (09 R154). -/
theorem Seq.pr_setP (q : Seq) (d r : PReg) (v : Bool) : (q.setP d v).pr r = if r = d ∧ d ≠ 0 then v else q.pr r := by
  by_cases hd : d = 0
  · subst hd; rw [Seq.setP_zero, if_neg (fun h => h.2 rfl)]
  · have hr8 : r.toNat < 8 := r.isLt
    have hbit : (q.setP d v).p.getLsbD r.toNat = if r = d then v else q.p.getLsbD r.toNat := by
      rw [Seq.setP, if_neg hd]
      simp only [BitVec.getLsbD_or, BitVec.getLsbD_and, BitVec.getLsbD_not, getLsbD_bit8 _ _ hr8]
      by_cases hrd : r = d
      · subst hrd; cases v <;> simp [hr8]
      · have hn : r.toNat ≠ d.toNat := fun h => hrd (BitVec.eq_of_toNat_eq h)
        cases v
        · simp [hr8, hn, hrd]
        · simp only [getLsbD_bit8 _ _ hr8, if_true, hn, hrd, if_false]; simp [hr8]
    rw [Seq.pr, hbit]
    by_cases hrd : r = d
    · subst hrd
      have hz : (r == 0) = false := beq_eq_false_iff_ne.2 hd
      rw [if_pos rfl, if_pos (And.intro rfl hd), hz]; rfl
    · rw [if_neg hrd, if_neg (fun h => hrd h.1), Seq.pr]

end Sys2Proof.Machine
end

