-- ==== Sys2Proof/Laws/FrontForm.lean ====
section
/-! SUPPORT. Which words of the instruction set are front-end words, and that exec runs them as such (05 R86; 09 R154, R165). -/

namespace Sys2Proof.Machine

/-- Every front-end word of frontOf runs as one: its guard, its length and its registers are those of frontOf. -/
theorem exec_front {i : Instr} {g : Guard} {n : Nat} {rs : List Reg} (h : frontOf i = some (g, n, rs)) :
    ∃ body : Seq → State → State, ∀ s, exec i s = frontWord n g rs body s := by
  cases i <;> cases h
  all_goals
    delta exec
    dsimp only
    delta execAdd execSub execMul execMulh execDiv execRem execAnd execOr execXor execShl execShr execSra execMin execMax execSel
      execClz execCtz execPopc execAddi execAndi execOri execXori execShli execShri execSrai execMuli execMovi execMovhi
      execLea execLeal execMovl execLd8 execLd16 execLd32 execLd64 execLd8s execLd16s execLd32s execSt8 execSt16 execSt32
      execSt64 execFadd execFsub execFmul execFdiv execFmin execFmax execFfma execFsqrt execFcvt execCmp execFcmp execPand
      execPor execPxor execPnot execBr execLend execReap execBar execBard execBarj execQfence execRel execAcq execTfence
      execTlbia execJr execRet execLset execTokset execTagclr execSsetFpc execSsetFps execSsetTags execSsetLease execSsetPrio
      execSsetMemb execSsetLc execSsetBase execCall execTokget execSget execCallr execWtany execWtall execWtff execWcnt
      execAadd execAfadd execAmin execAmax execAand execAor execAxor execAswap execAcas execPchg execTlbi execBlclr execBlq
      execSow execSysNop execSysDtime execSysHostevent execSysAllowance execSysEstimate execSysCtxinfo execSysNoService
      execKarm execKstat execKdis
    try delta regWord loadWord storeWord atomicWord barrierWord sysWord
    exact ⟨_, fun _ => rfl⟩

end Sys2Proof.Machine
end

