-- ==== Sys2Proof/Laws/Memory.lean ====
section
/-! SUPPORT. Memories and tiles: what reads after a write, and that every memory operation keeps the canonical form. -/

namespace Sys2Proof.Machine

/-! ## Sparse stores -/

theorem cellGet_ins_self {α : Type} (d : α) (m : Cells α) (k : Nat) (v : α) : cellGet d (cellIns k v m) k = v := by
  induction m with
  | nil => simp [cellIns, cellGet]
  | cons e r ih =>
    obtain ⟨a, b⟩ := e
    unfold cellIns
    split
    · simp [cellGet]
    · split
      · simp [cellGet]
      · rename_i h _; simp [cellGet, h, ih]

theorem cellGet_ins_ne {α : Type} (d : α) (m : Cells α) (k j : Nat) (v : α) (h : j ≠ k) :
    cellGet d (cellIns k v m) j = cellGet d m j := by
  induction m with
  | nil => simp [cellIns, cellGet, Ne.symm h]
  | cons e r ih =>
    obtain ⟨a, b⟩ := e
    unfold cellIns
    split
    · rename_i ha; subst ha; simp [cellGet, Ne.symm h]
    · split
      · simp [cellGet, Ne.symm h]
      · simp only [cellGet, ih]

theorem cellGet_filter_self {α : Type} (d : α) (m : Cells α) (k : Nat) :
    cellGet d (m.filter fun e => !decide (e.1 = k)) k = d := by
  induction m with
  | nil => rfl
  | cons e r ih =>
    obtain ⟨a, b⟩ := e
    by_cases h : a = k <;> simp [h, cellGet, ih]

theorem cellGet_filter_ne {α : Type} (d : α) (m : Cells α) (k j : Nat) (h : j ≠ k) :
    cellGet d (m.filter fun e => !decide (e.1 = k)) j = cellGet d m j := by
  induction m with
  | nil => rfl
  | cons e r ih =>
    obtain ⟨a, b⟩ := e
    by_cases ha : a = k
    · subst ha; simp [cellGet, ih, Ne.symm h]
    · simp [cellGet, ih, ha]

/-- The entry written reads back. -/
@[simp] theorem cellGet_put_self {α : Type} [DecidableEq α] (d : α) (m : Cells α) (k : Nat) (v : α) :
    cellGet d (cellPut d m k v) k = v := by
  unfold cellPut
  split
  · subst_vars; exact cellGet_filter_self _ _ _
  · exact cellGet_ins_self _ _ _ _

/-- Every other entry reads as before. -/
theorem cellGet_put_ne {α : Type} [DecidableEq α] (d e : α) (m : Cells α) (k j : Nat) (v : α) (h : j ≠ k) :
    cellGet e (cellPut d m k v) j = cellGet e m j := by
  unfold cellPut
  split
  · exact cellGet_filter_ne _ _ _ _ h
  · exact cellGet_ins_ne _ _ _ _ _ h

/-! ## The canonical form -/

theorem cellSorted_cons {α : Type} (lo : Option Nat) (k : Nat) (v : α) (m : Cells α) :
    cellSorted lo ((k, v) :: m) = true ↔ (∀ b, lo = some b → b < k) ∧ cellSorted (some k) m = true := by
  cases lo <;> simp [cellSorted]

theorem cellSorted_weaken {α : Type} (lo lo' : Option Nat) (m : Cells α) (h : cellSorted lo m = true)
    (hl : ∀ b, lo' = some b → ∃ c, lo = some c ∧ b ≤ c) : cellSorted lo' m = true := by
  cases m with
  | nil => rfl
  | cons e r =>
    obtain ⟨a, b⟩ := e
    rw [cellSorted_cons] at h ⊢
    refine ⟨fun x hx => ?_, h.2⟩
    obtain ⟨c, hc, hle⟩ := hl x hx
    exact Nat.lt_of_le_of_lt hle (h.1 c hc)

theorem cellSorted_filter {α : Type} (lo : Option Nat) (m : Cells α) (p : Nat × α → Bool) (h : cellSorted lo m = true) :
    cellSorted lo (m.filter p) = true := by
  induction m generalizing lo with
  | nil => rfl
  | cons e r ih =>
    obtain ⟨a, b⟩ := e
    rw [cellSorted_cons] at h
    rw [List.filter_cons]
    split
    · rw [cellSorted_cons]; exact ⟨h.1, ih _ h.2⟩
    · refine ih _ (cellSorted_weaken _ _ _ h.2 fun b hb => ⟨a, rfl, Nat.le_of_lt (h.1 b hb)⟩)

theorem cellSorted_ins {α : Type} (lo : Option Nat) (m : Cells α) (k : Nat) (v : α) (h : cellSorted lo m = true)
    (hk : ∀ b, lo = some b → b < k) : cellSorted lo (cellIns k v m) = true := by
  induction m generalizing lo with
  | nil => rw [cellIns, cellSorted_cons]; exact ⟨hk, rfl⟩
  | cons e r ih =>
    obtain ⟨a, b⟩ := e
    rw [cellSorted_cons] at h
    unfold cellIns
    split
    · rename_i ha; subst ha; rw [cellSorted_cons]; exact h
    · split
      · rename_i hlt; rw [cellSorted_cons, cellSorted_cons]
        exact ⟨hk, fun b hb => by cases hb; exact hlt, h.2⟩
      · rw [cellSorted_cons]
        exact ⟨h.1, ih _ h.2 fun b hb => by cases hb; omega⟩

theorem cellSorted_put {α : Type} [DecidableEq α] (d : α) (m : Cells α) (k : Nat) (v : α) (h : cellSorted none m = true) :
    cellSorted none (cellPut d m k v) = true := by
  unfold cellPut
  split
  · exact cellSorted_filter _ _ _ h
  · exact cellSorted_ins _ _ _ _ h fun b hb => nomatch hb

theorem mem_cellIns {α : Type} {m : Cells α} {k : Nat} {v : α} {e : Nat × α} (h : e ∈ cellIns k v m) : e = (k, v) ∨ e ∈ m := by
  induction m with
  | nil => left; simpa [cellIns] using h
  | cons x r ih =>
    obtain ⟨a, b⟩ := x
    unfold cellIns at h
    split at h
    · rcases List.mem_cons.1 h with h | h
      · exact .inl h
      · exact .inr (List.mem_cons_of_mem _ h)
    · split at h
      · rcases List.mem_cons.1 h with h | h
        · exact .inl h
        · exact .inr h
      · rcases List.mem_cons.1 h with h | h
        · exact .inr (h ▸ List.mem_cons_self)
        · exact (ih h).imp id (List.mem_cons_of_mem _)

/-- A write of one byte keeps the canonical form. -/
theorem wf_memPut (dflt : Nat → Byte) (m : Memory) (a : Nat) (v : Byte) (h : Memory.wf dflt m = true) :
    Memory.wf dflt (memPut dflt m a v) = true := by
  unfold Memory.wf at *
  rw [Bool.and_eq_true] at *
  refine ⟨cellSorted_put _ _ _ _ h.1, ?_⟩
  rw [List.all_eq_true] at *
  intro e he
  unfold memPut cellPut at he
  split at he
  · exact h.2 e (List.mem_filter.1 he).1
  · rename_i hv
    rcases mem_cellIns he with rfl | hm
    · simpa using hv
    · exact h.2 e hm

/-- A write of bytes keeps the canonical form. -/
theorem wf_memSet (dflt : Nat → Byte) (bs : List Byte) (m : Memory) (a : Nat) (h : Memory.wf dflt m = true) :
    Memory.wf dflt (memSet dflt m a bs) = true := by
  induction bs generalizing m a with
  | nil => exact h
  | cons b r ih => exact ih _ _ (wf_memPut _ _ _ _ h)

/-- Entries taken out of a canonical memory leave one. -/
theorem wf_filter (dflt : Nat → Byte) (m : Memory) (p : Host.Cell → Bool) (h : Memory.wf dflt m = true) :
    Memory.wf dflt (m.filter p) = true := by
  unfold Memory.wf at *
  rw [Bool.and_eq_true] at *
  refine ⟨cellSorted_filter _ _ _ h.1, ?_⟩
  rw [List.all_eq_true] at *
  exact fun e he => h.2 e (List.mem_filter.1 he).1

@[simp] theorem wf_nil (dflt : Nat → Byte) : Memory.wf dflt [] = true := rfl

/-! ## Reading after a write -/

@[simp] theorem memGet_put_self (dflt : Nat → Byte) (m : Memory) (a : Nat) (v : Byte) : memGet dflt (memPut dflt m a v) a = v := by
  simp [memGet, memPut]

theorem memGet_put_ne (dflt : Nat → Byte) (m : Memory) (a x : Nat) (v : Byte) (h : x ≠ a) :
    memGet dflt (memPut dflt m a v) x = memGet dflt m x := cellGet_put_ne _ _ _ _ _ _ h

/-- Bytes outside those written read as before. -/
theorem memGet_set_out (dflt : Nat → Byte) (bs : List Byte) (m : Memory) (a x : Nat) (h : ¬ (a ≤ x ∧ x < a + bs.length)) :
    memGet dflt (memSet dflt m a bs) x = memGet dflt m x := by
  induction bs generalizing m a with
  | nil => rfl
  | cons b r ih =>
    have hx : x ≠ a := by simp only [List.length_cons] at h; omega
    rw [memSet, ih _ _ (by simp only [List.length_cons] at h; omega), memGet_put_ne _ _ _ _ _ hx]

/-- The bytes written read back. -/
theorem memBytes_set (dflt : Nat → Byte) (bs : List Byte) (m : Memory) (a : Nat) :
    memBytes dflt (memSet dflt m a bs) a bs.length = bs := by
  induction bs generalizing m a with
  | nil => rfl
  | cons b r ih =>
    have h1 : memGet dflt (memSet dflt (memPut dflt m a b) (a + 1) r) a = b := by
      rw [memGet_set_out _ _ _ _ _ (by omega), memGet_put_self]
    have h2 := ih (memPut dflt m a b) (a + 1)
    simp only [memBytes, memSet, List.length_cons, List.range_succ_eq_map, List.map_cons, List.map_map, Nat.add_zero, h1] at h2 ⊢
    refine congrArg (b :: ·) (Eq.trans (List.map_congr_left fun i _ => ?_) h2)
    simp only [Function.comp, Nat.succ_eq_add_one]
    rw [Nat.add_assoc, Nat.add_comm 1 i]

/-- A byte among those written. -/
theorem memGet_set_in (dflt : Nat → Byte) (bs : List Byte) (m : Memory) (a x : Nat) (h : a ≤ x ∧ x < a + bs.length) :
    memGet dflt (memSet dflt m a bs) x = bs.getD (x - a) 0 := by
  induction bs generalizing m a with
  | nil => simp only [List.length_nil] at h; omega
  | cons b r ih =>
    by_cases hx : x = a
    · subst hx; rw [memSet, memGet_set_out _ _ _ _ _ (by omega), memGet_put_self]; simp
    · rw [memSet, ih _ _ (by simp only [List.length_cons] at h; omega)]
      have : x - a = x - (a + 1) + 1 := by omega
      rw [this]; rfl

/-! ## Little-endian numbers -/

@[simp] theorem length_leBytes (n v : Nat) : (leBytes n v).length = n := by
  induction n generalizing v with
  | zero => rfl
  | succ n ih => rw [leBytes, List.length_cons, ih]

theorem getD_leBytes (n v k : Nat) (h : k < n) : ((leBytes n v).getD k 0).toNat = v / 256 ^ k % 256 := by
  induction n generalizing v k with
  | zero => omega
  | succ n ih =>
    cases k with
    | zero => simp [leBytes]
    | succ k =>
      have := ih (v / 256) k (by omega)
      rw [leBytes, List.getD_cons_succ, this, Nat.div_div_eq_div_mul, Nat.pow_succ, Nat.mul_comm]

theorem leNat_digit (bs : List Byte) (k : Nat) : leNat bs / 256 ^ k % 256 = (bs.getD k 0).toNat := by
  induction bs generalizing k with
  | nil => simp [leNat]
  | cons b r ih =>
    have hb := b.isLt
    cases k with
    | zero => simp only [leNat, Nat.pow_zero, Nat.div_one, List.getD_cons_zero]; omega
    | succ k =>
      rw [leNat, Nat.pow_succ, Nat.mul_comm (256 ^ k), ← Nat.div_div_eq_div_mul, List.getD_cons_succ, ← ih k]
      congr 2; omega

theorem getD_memBytes (dflt : Nat → Byte) (m : Memory) (a n k : Nat) (h : k < n) : (memBytes dflt m a n).getD k 0 = memGet dflt m (a + k) := by
  simp only [memBytes, List.getD_eq_getElem?_getD, List.getElem?_map, List.getElem?_range h, Option.map_some, Option.getD_some]

/-! ## Many writes, one after the other -/

/-- What a run of updates leaves of a place: the value of the last that writes it, or what was there. -/
theorem foldl_last {α β γ : Type} (F : α → β → α) (get : α → γ) (W : β → Prop) (val : β → γ) (h1 : ∀ m j, W j → get (F m j) = val j)
    (h2 : ∀ m j, ¬ W j → get (F m j) = get m) (l : List β) (m : α) :
    ((∀ j ∈ l, ¬ W j) → get (l.foldl F m) = get m) ∧
      ∀ l1 j l2, l = l1 ++ j :: l2 → W j → (∀ k ∈ l2, ¬ W k) → get (l.foldl F m) = val j := by
  have key : ∀ (l : List β) (m : α), (∀ j ∈ l, ¬ W j) → get (l.foldl F m) = get m := by
    intro l
    induction l with
    | nil => intro m _; rfl
    | cons a r ih =>
      intro m h
      rw [List.foldl_cons, ih _ fun j hj => h j (List.mem_cons_of_mem _ hj), h2 _ _ (h a (List.mem_cons_self ..))]
  refine ⟨key l m, ?_⟩
  rintro l1 j l2 rfl hj hl
  rw [List.foldl_append, List.foldl_cons, key _ _ hl, h1 _ _ hj]

/-- The members below n of a filtered range, split at one of them. -/
theorem range_filter_split (p : Nat → Bool) (n j : Nat) (hj : j < n) (hp : p j = true) :
    ∃ l1 l2, (List.range n).filter p = l1 ++ j :: l2 ∧ ∀ k ∈ l2, j < k ∧ k < n := by
  induction n with
  | zero => omega
  | succ n ih =>
    rw [List.range_succ, List.filter_append]
    by_cases h : j = n
    · subst h
      exact ⟨(List.range j).filter p, [], by simp [hp], fun k hk => by simp at hk⟩
    · obtain ⟨l1, l2, h1, h2⟩ := ih (by omega)
      refine ⟨l1, l2 ++ [n].filter p, by rw [h1]; simp, fun k hk => ?_⟩
      rcases List.mem_append.1 hk with hk | hk
      · have := h2 k hk; omega
      · have := (List.mem_filter.1 hk).1; simp at this; omega

end Sys2Proof.Machine
end

