-- ==== Sys2Proof/Laws/Vector.lean ====
section
/-! SUPPORT. What issuing an engine entry does (03 R42-R47, 11 R201), and the elements of a vector register (11 R197, R198). -/

namespace Sys2Proof.Machine

/-! ## Issue -/

/-- An entry whose checks pass takes its tokens and has its effect. -/
theorem issueWith_go {α : Type} {s t : State} {e : EQ} {h : EHead} {x : Entry} (hi : Issues s e h x)
    {check : Entry → State → Check α × State} (body : α → Entry → State → State) {a : α} (hc : check x s = (.go a, t))
    (ht : (t.seq s.who).canTake e h = true) :
    issueWith e h check body s = .next (body a x (t.modSeq s.who fun q => q.started e h x)) := by
  simp only [issueWith, hi.has, hi.head, hi.compared, hi.guard, hc, ht, Bool.not_true, Bool.false_eq_true, if_false, if_true]
  rfl

/-- An entry whose checks find a fault takes it. -/
theorem issueWith_fault {α : Type} {s t : State} {e : EQ} {h : EHead} {x : Entry} (hi : Issues s e h x)
    {check : Entry → State → Check α × State} (body : α → Entry → State → State) {f : FaultRec} (hc : check x s = (.fault f, t)) :
    issueWith e h check body s = .next (takeFault s.who { f with queue := eqNum e, caddr := x.caddr } t) := by
  simp only [issueWith, hi.has, hi.head, hi.compared, hi.guard, hc, Bool.not_true, Bool.false_eq_true, if_false]

/-- An entry whose checks must wait stays. -/
theorem issueWith_wait {α : Type} {s t : State} {e : EQ} {h : EHead} {x : Entry} (hi : Issues s e h x)
    {check : Entry → State → Check α × State} (body : α → Entry → State → State) (hc : check x s = (.wait, t)) :
    issueWith e h check body s = .next t := by
  simp only [issueWith, hi.has, hi.head, hi.compared, hi.guard, hc, Bool.not_true, Bool.false_eq_true, if_false]

/-- An entry whose gate is open takes its tokens and has its effect. -/
theorem issueEntry_go {s t : State} {e : EQ} {h : EHead} {x : Entry} (hi : Issues s e h x) {gate : Entry → State → Gate × State}
    (body : Entry → State → State) (hc : gate x s = (.go, t)) (ht : (t.seq s.who).canTake e h = true) :
    issueEntry e h gate body s = .next (body x (t.modSeq s.who fun q => q.started e h x)) :=
  issueWith_go hi _ (a := ()) (by simp only [hc]) ht

/-- An entry whose gate finds a fault takes it. -/
theorem issueEntry_fault {s t : State} {e : EQ} {h : EHead} {x : Entry} (hi : Issues s e h x) {gate : Entry → State → Gate × State}
    (body : Entry → State → State) {code : Nat} {a : W64} (hc : gate x s = (.fault code a, t)) :
    issueEntry e h gate body s = .next (takeFault s.who { code := code, addr := a, queue := eqNum e, caddr := x.caddr } t) :=
  issueWith_fault hi _ (f := { code := code, addr := a }) (by simp only [hc])

/-- Taking tokens and issuing leaves the names of the sequencer. -/
@[simp] theorem Seq.started_dctx (q : Seq) (e : EQ) (h : EHead) (x : Entry) : (q.started e h x).dctx = q.dctx := by
  cases e <;> simp only [Seq.started, Seq.take, Seq.modEntry, Seq.setQueue] <;> split <;> rfl
@[simp] theorem Seq.started_vteam (q : Seq) (e : EQ) (h : EHead) (x : Entry) : (q.started e h x).vteam = q.vteam := by
  cases e <;> simp only [Seq.started, Seq.take, Seq.modEntry, Seq.setQueue] <;> split <;> rfl
@[simp] theorem Seq.started_vcore (q : Seq) (e : EQ) (h : EHead) (x : Entry) : (q.started e h x).vcore = q.vcore := by
  cases e <;> simp only [Seq.started, Seq.take, Seq.modEntry, Seq.setQueue] <;> split <;> rfl
@[simp] theorem Seq.started_ident (q : Seq) (e : EQ) (h : EHead) (x : Entry) : (q.started e h x).ident = q.ident := by
  cases e <;> simp only [Seq.started, Seq.take, Seq.modEntry, Seq.setQueue] <;> split <;> rfl

/-- A die is not changed with a sequencer. -/
@[simp] theorem State.modSeq_die (s : State) (i : Sid) (f : Seq → Seq) (m d : Nat) : ((s.modSeq i f).pkg m).die d = (s.pkg m).die d :=
  State.modCore_field s _ _ m _ (·.die d) fun _ => rfl

/-- A change of no package changes nothing. -/
@[simp] theorem State.modPkg_same (s : State) (n : Nat) : (s.modPkg n fun k => k) = s := by simp [State.modPkg]

/-- A vector word issues and has its whole effect. -/
theorem vecWord_ends {s : State} {h : EHead} {x : Entry} (hi : Issues s .c h x) (f : Entry → Seq → Seq × Nat) :
    VecEnds s h x (fun q => (f x q).1.orFps (flagWord (f x q).2)) (vecWord h f s) := by
  simp only [VecEnds, vecWord]
  rw [issueEntry_go hi _ rfl hi.tokens]
  simp only [State.modSeq_modSeq, State.modSeq_who]

/-- A word that sets no flag leaves FPS as it is. -/
@[simp] theorem Seq.orFps_zero (q : Seq) : q.orFps 0 = q := by simp [Seq.orFps]

/-! ## Elements -/

theorem vpack_lt (w : Nat) (xs : List Nat) : xs.foldr (fun x acc => x % 2 ^ w + 2 ^ w * acc) 0 < 2 ^ (w * xs.length) := by
  induction xs with
  | nil => simp
  | cons x r ih =>
    have h1 : x % 2 ^ w < 2 ^ w := Nat.mod_lt _ (Nat.two_pow_pos w)
    have h2 : 2 ^ (w * (x :: r).length) = 2 ^ w * 2 ^ (w * r.length) := by
      rw [← Nat.pow_add, List.length_cons, Nat.mul_succ, Nat.add_comm]
    rw [h2, List.foldr_cons]
    calc x % 2 ^ w + 2 ^ w * _ < 2 ^ w * 1 + 2 ^ w * r.foldr (fun x acc => x % 2 ^ w + 2 ^ w * acc) 0 := by omega
      _ = 2 ^ w * (1 + r.foldr (fun x acc => x % 2 ^ w + 2 ^ w * acc) 0) := by rw [Nat.mul_add]
      _ ≤ _ := Nat.mul_le_mul_left _ (by omega)

theorem vpack_div (w : Nat) (xs : List Nat) (i : Nat) :
    xs.foldr (fun x acc => x % 2 ^ w + 2 ^ w * acc) 0 / 2 ^ (w * i) % 2 ^ w = (xs.getD i 0) % 2 ^ w := by
  induction xs generalizing i with
  | nil => simp
  | cons x r ih =>
    cases i with
    | zero => simp
    | succ i =>
      have h1 : x % 2 ^ w < 2 ^ w := Nat.mod_lt _ (Nat.two_pow_pos w)
      rw [List.foldr_cons, Nat.mul_succ, Nat.add_comm (w * i) w, Nat.pow_add, ← Nat.div_div_eq_div_mul,
        Nat.add_mul_div_left _ _ (Nat.two_pow_pos w), Nat.div_eq_of_lt h1, Nat.zero_add, ih]
      rfl

theorem vpack_fits (w : Nat) (xs : List Nat) (n : Nat) (h : w * xs.length ≤ n) :
    xs.foldr (fun x acc => x % 2 ^ w + 2 ^ w * acc) 0 < 2 ^ n :=
  Nat.lt_of_lt_of_le (vpack_lt w xs) (Nat.pow_le_pow_right Nat.two_pos h)

/-- An element of a register that is built from a list of elements. -/
theorem velem_vpack (w : Nat) (xs : List Nat) (i : Nat) (h : w * xs.length ≤ 4096) :
    velem w (vpack w xs) i = xs.getD i 0 % 2 ^ w := by
  rw [velem, vpack, BitVec.toNat_ofNat, Nat.mod_eq_of_lt (vpack_fits w xs _ h), vpack_div]

theorem velem_lt (w : Nat) (v : Vec) (i : Nat) : velem w v i < 2 ^ w := Nat.mod_lt _ (Nat.two_pow_pos w)

/-- The elements of every type fill a register. -/
theorem width_elems (ty : Ty) : 0 < ty.width ∧ ty.width * (4096 / ty.width) = 4096 := by cases ty <;> decide

theorem flagsOf_append (xs : List (Nat × Nat)) (n : Nat) :
    xs.foldl (fun a r => a ||| r.2) n = n ||| xs.foldl (fun a r => a ||| r.2) 0 := by
  induction xs generalizing n with
  | nil => simp
  | cons x r ih => simp only [List.foldl_cons]; rw [ih, ih (0 ||| x.2)]; simp [Nat.or_assoc]

theorem flagsOf_map {α : Type} (l : List α) (f : α → Nat × Nat) (n : Nat) :
    (l.map f).foldl (fun a r => a ||| r.2) n = l.foldl (fun a i => a ||| (f i).2) n := by
  rw [List.foldl_map]

/-- An element of a register that is written where the mask is set. -/
theorem governed_elem (w : Nat) (m : Msk) (old : Vec) (f : Nat → Nat × Nat) (e : Nat) (hw : w * (4096 / w) ≤ 4096) (he : e < 4096 / w) :
    velem w (governed w m old f).1 e = if m.getLsbD e then (f e).1 % 2 ^ w else velem w old e := by
  rw [governed]
  dsimp only
  rw [velem_vpack _ _ _ (by simpa [elems] using hw)]
  simp only [List.getD_eq_getElem?_getD, List.getElem?_map, elems, List.getElem?_range he, Option.map_some, Option.getD_some]
  split
  · rfl
  · rw [Nat.mod_eq_of_lt (velem_lt _ _ _)]

/-- What `vecElems` writes. -/
theorem vecElems_writes {s : State} {h : EHead} {x : Entry} (hi : Issues s .c h x) (w : Nat) (km : KReg) (d : Reg)
    (f : Entry → Seq → Nat → Nat × Nat) (hw : w * (4096 / w) ≤ 4096) (val : Seq → Nat → Int × Nat)
    (hv : ∀ q i, ((f x q i).1 % 2 ^ w : Nat) = ((val q i).1 % 2 ^ w : Int) ∧ (f x q i).2 = (val q i).2) :
    VecWrites s h x w km d val (vecElems h w km d f s) := by
  refine ⟨_, vecWord_ends hi _, fun q => ?_⟩
  refine ⟨(governed w (q.kr km) (q.vr d) (f x q)).1, ?_, fun i hlt => ?_⟩
  rotate_left
  · rw [governed_elem w _ _ _ _ hw hlt]
    split
    · exact (hv q i).1
    · rfl
  · dsimp only
    simp only [Seq.orFps, Seq.setV, flagWord]
    congr 3
    simp only [governed, flagsOf, flagsOf_map, elems]
    congr 1; funext a i
    split
    · rw [(hv q i).2]
    · rfl

/-! ## Groups of registers -/

theorem Seq.vr_setV (q : Seq) (d r : Reg) (v : Vec) : (q.setV d v).vr r = if r = d then v else q.vr r := by
  by_cases h : r = d
  · subst h; simp [Seq.setV, Seq.vr, r.isLt]
  · have : d.toNat ≠ r.toNat := fun hh => h (BitVec.eq_of_toNat_eq hh.symm)
    simp [Seq.setV, Seq.vr, this, h]

theorem regPlus_inj {d : Reg} {a b : Nat} (ha : a < 32) (hb : b < 32) (h : regPlus d a = regPlus d b) : a = b := by
  have h1 : BitVec.ofNat 5 a = BitVec.ofNat 5 b := by
    have := congrArg (fun x => x - d) h
    simpa [regPlus, BitVec.add_comm d, BitVec.add_sub_cancel] using this
  have h2 := congrArg BitVec.toNat h1
  rw [BitVec.toNat_ofNat, BitVec.toNat_ofNat, Nat.mod_eq_of_lt ha, Nat.mod_eq_of_lt hb] at h2
  exact h2

theorem testBit_orAll {α : Type} (l : List α) (f : α → Nat) (n k : Nat) :
    (l.foldl (fun a i => a ||| f i) n).testBit k = (n.testBit k || l.any fun i => (f i).testBit k) := by
  induction l generalizing n with
  | nil => simp
  | cons x r ih => rw [List.foldl_cons, ih, Nat.testBit_or, List.any_cons, Bool.or_assoc]

/-- What `setFlat` writes: the flat elements, no other register, and the flags. -/
theorem setFlat_spec (q : Seq) (w g : Nat) (m : Msk) (d : Reg) (f : Nat → Nat × Nat) (hw : w * (4096 / w) ≤ 4096) (hg : g ≤ 32) :
    ∃ v, (q.setFlat w g m d f).1 = { q with v := v } ∧
      (∀ r < g, ∀ e < 4096 / w, velem w ({ q with v := v }.vr (regPlus d r)) e =
        if m.getLsbD (e * g + r) then (f (e * g + r)).1 % 2 ^ w else velem w (q.vr (regPlus d r)) e) ∧
      (∀ r : Reg, (∀ k < g, r ≠ regPlus d k) → { q with v := v }.vr r = q.vr r) ∧
      ∀ k, (q.setFlat w g m d f).2.testBit k = true ↔
        ∃ r < g, ∃ e < 4096 / w, m.getLsbD (e * g + r) = true ∧ (f (e * g + r)).2.testBit k = true := by
  have key : ∀ j ≤ g, ∃ v n, ((List.range j).foldl (fun acc r =>
      let rs := (List.range (elems w)).map fun e =>
        let n := e * g + r
        if m.getLsbD n then f n else (velem w (q.vr (regPlus d r)) e, 0)
      (acc.1.setV (regPlus d r) (vpack w (rs.map (·.1))), acc.2 ||| flagsOf rs)) (q, 0)) = ({ q with v := v }, n) ∧
      (∀ r < j, ∀ e < 4096 / w, velem w ({ q with v := v }.vr (regPlus d r)) e =
        if m.getLsbD (e * g + r) then (f (e * g + r)).1 % 2 ^ w else velem w (q.vr (regPlus d r)) e) ∧
      (∀ r : Reg, (∀ k < j, r ≠ regPlus d k) → { q with v := v }.vr r = q.vr r) ∧
      ∀ k, n.testBit k = true ↔ ∃ r < j, ∃ e < 4096 / w, m.getLsbD (e * g + r) = true ∧ (f (e * g + r)).2.testBit k = true := by
    intro j
    induction j with
    | zero => intro _; exact ⟨q.v, 0, rfl, fun r h => absurd h (Nat.not_lt_zero _), fun _ _ => rfl, fun k => by simp⟩
    | succ j ih =>
      intro hj
      obtain ⟨v, n, h1, h2, h3, h4⟩ := ih (by omega)
      rw [List.range_succ, List.foldl_append, h1]
      refine ⟨_, _, rfl, fun r hr e he => ?_, fun r hr => ?_, fun k => ?_⟩
      · show velem w ((Seq.setV { q with v := v } (regPlus d j) _).vr (regPlus d r)) e = _
        rw [Seq.vr_setV]
        by_cases hrj : r = j
        · subst hrj
          rw [if_pos rfl, velem_vpack _ _ _ (by simpa [elems] using hw)]
          simp only [List.getD_eq_getElem?_getD, List.getElem?_map, elems, List.getElem?_range he, Option.map_some, Option.getD_some]
          split
          · rfl
          · rw [Nat.mod_eq_of_lt (velem_lt _ _ _)]
        · rw [if_neg (fun h => hrj (regPlus_inj (by omega) (by omega) h))]
          exact h2 r (by omega) e he
      · show (Seq.setV { q with v := v } (regPlus d j) _).vr r = _
        rw [Seq.vr_setV, if_neg (hr j (by omega))]
        exact h3 r fun k hk => hr k (by omega)
      · show (n ||| flagsOf _).testBit k = true ↔ _
        rw [Nat.testBit_or, Bool.or_eq_true, h4, flagsOf, flagsOf_map, testBit_orAll]
        simp only [Nat.zero_testBit, Bool.false_or, List.any_eq_true, List.mem_range, elems]
        constructor
        · rintro (⟨r, hr, hh⟩ | ⟨e, he, hh⟩)
          · exact ⟨r, by omega, hh⟩
          · refine ⟨j, by omega, e, he, ?_⟩
            split at hh
            · rename_i hm; exact ⟨hm, hh⟩
            · simp at hh
        · rintro ⟨r, hr, e, he, hm, hh⟩
          by_cases hrj : r = j
          · subst hrj; exact .inr ⟨e, he, by rw [if_pos hm]; exact hh⟩
          · exact .inl ⟨r, by omega, e, he, hm, hh⟩
  obtain ⟨v, n, h1, h2, h3, h4⟩ := key g (Nat.le_refl g)
  have h5 : q.setFlat w g m d f = ({ q with v := v }, n) := h1
  exact ⟨v, by rw [h5], h2, h3, fun k => by rw [h5]; exact h4 k⟩

/-- What a word that writes a group of registers does. -/
theorem setFlat_writes {s : State} {h : EHead} {x : Entry} (hi : Issues s .c h x) (w g : Nat) (km : KReg) (d : Reg)
    (f : Entry → Seq → Nat → Nat × Nat) (hw : w * (4096 / w) ≤ 4096) (hg : 0 < g) (hg' : g ≤ 32) (val : Seq → Nat → Int × Nat)
    (hv : ∀ q n, n < g * (4096 / w) → ((f x q n).1 % 2 ^ w : Nat) = ((val q n).1 % 2 ^ w : Int) ∧ (f x q n).2 = (val q n).2) :
    GroupWrites s h x w g km d val (vecWord h (fun x q => q.setFlat w g (q.kr km) d (f x q)) s) := by
  refine ⟨_, vecWord_ends hi _, fun q => ?_⟩
  obtain ⟨v, h1, h2, h3, h4⟩ := setFlat_spec q w g (q.kr km) d (f x q) hw hg'
  have flat : ∀ r < g, ∀ e < 4096 / w, e * g + r < g * (4096 / w) := fun r hr e he => by
    have : (e + 1) * g ≤ 4096 / w * g := Nat.mul_le_mul_right g he
    rw [Nat.mul_comm g]; rw [Nat.succ_mul] at this; omega
  refine ⟨?_, fun n hn => ?_, fun r hr => ?_, fun k hk => ?_⟩
  · simp only [h1, Seq.orFps]
  · have hr : n % g < g := Nat.mod_lt _ hg
    have he : n / g < 4096 / w := Nat.div_lt_of_lt_mul hn
    have hd : n / g * g + n % g = n := Nat.div_add_mod' n g
    have := h2 _ hr _ he
    rw [hd] at this
    show ((velem w (((q.setFlat w g (q.kr km) d (f x q)).1).vr (regPlus d (n % g))) (n / g) : Nat) : Int) = _
    rw [h1, this]
    show _ = if _ then _ else ((velem w (q.vr (regPlus d (n % g))) (n / g) : Nat) : Int)
    split
    · exact (hv q n hn).1
    · rfl
  · show ((q.setFlat w g (q.kr km) d (f x q)).1).vr r = _
    rw [h1]; exact h3 r hr
  · show ((q.setFlat w g (q.kr km) d (f x q)).1.fps ||| flagWord _).getLsbD k = true ↔ _
    rw [h1, BitVec.getLsbD_or, Bool.or_eq_true, flagWord, BitVec.getLsbD_ofNat]
    simp only [hk, decide_true, Bool.true_and]
    rw [h4]
    constructor
    · rintro (hh | ⟨r, hr, e, he, hm, hh⟩)
      · exact .inl hh
      · have := flat r hr e he
        exact .inr ⟨_, this, hm, (hv q _ this).2 ▸ hh⟩
    · rintro (hh | ⟨n, hn, hm, hh⟩)
      · exact .inl hh
      · refine .inr ⟨n % g, Nat.mod_lt _ hg, n / g, Nat.div_lt_of_lt_mul hn, ?_, ?_⟩
        · rw [Nat.div_add_mod' n g]; exact hm
        · rw [Nat.div_add_mod' n g, (hv q n hn).2]; exact hh

end Sys2Proof.Machine
end

