-- ==== Sys2Proof/Laws/Numbers.lean ====
section
/-! SUPPORT. Integer and float results of vector types as the rules of 07 give them, compares, and masks bit by bit. -/

namespace Sys2Proof.Machine

/-! ## Integers (07 R120, R122) -/

theorem wrapInt_cast (w : Nat) (x : Int) : (wrapInt w x : Int) = x % 2 ^ w := by
  have : (0:Int) < 2 ^ w := Int.pow_pos (by decide)
  rw [wrapInt, Int.toNat_of_nonneg (Int.emod_nonneg _ (by first | (simp; done) | (simp; omega)))]
  simp

theorem intResult_eq (ty : Ty) (sat : Bool) (x : Int) :
    (((intResult ty.width ty.isSigned sat x).1 % 2 ^ ty.width : Nat) : Int) = (vecInt ty sat x).1 % 2 ^ ty.width ∧
      (intResult ty.width ty.isSigned sat x).2 = (vecInt ty sat x).2 := by
  have hs : satInt ty.width ty.isSigned x = max (if ty.isSigned then -(2 ^ (ty.width - 1)) else 0) (min (if ty.isSigned then 2 ^ (ty.width - 1) - 1 else 2 ^ ty.width - 1) x) := by
    simp only [satInt, intMin, intMax]; cases ty.isSigned <;> simp
  cases sat
  · refine ⟨?_, rfl⟩
    simp only [intResult, vecInt, Bool.false_eq_true, if_false]
    rw [Int.natCast_emod, wrapInt_cast]; simp
  · simp only [intResult, vecInt, if_true, ← hs]
    refine ⟨?_, rfl⟩
    rw [Int.natCast_emod, wrapInt_cast]; simp

theorem intOf_eq (w : Nat) (sg : Bool) (n : Nat) (h : n < 2 ^ w) :
    intOf w sg n = if sg then (if 2 ^ (w - 1) ≤ n then (n : Int) - 2 ^ w else n) else n := by
  rw [intOf, Nat.mod_eq_of_lt h]
  cases sg <;> simp

theorem tyInt_eq (ty : Ty) (n : Nat) (h : n < 2 ^ ty.width) :
    tyInt ty n = if ty.isSigned ∧ 2 ^ (ty.width - 1) ≤ n then (n : Int) - 2 ^ ty.width else n := by
  rw [tyInt, intOf, Nat.mod_eq_of_lt h]
  simp only [Bool.and_eq_true, decide_eq_true_eq, ge_iff_le]
  split <;> simp

/-! ## Results of either kind -/

theorem arith_eq (ty : Ty) (env : FEnv) (sat : Bool) (fl : FFmt → Nat × Nat) (v : Val × Nat) (x : Int)
    (h : ty.isFloat = true → fl (tyFmt ty) = (tyFmt ty).finish env sat v) :
    (((arith ty sat fl x).1 % 2 ^ ty.width : Nat) : Int) = (vecResult ty env sat v x).1 % 2 ^ ty.width ∧
      (arith ty sat fl x).2 = (vecResult ty env sat v x).2 := by
  unfold arith vecResult
  cases hf : ty.isFloat
  · simp only [Bool.false_eq_true, if_false]; exact intResult_eq ty sat x
  · simp only [if_true, h hf, FFmt.finish]
    exact ⟨by simp, trivial⟩

theorem arithNF_eq (ty : Ty) (sat : Bool) (fl : FFmt → Nat × Nat) (v : Nat) (x : Int)
    (h : ty.isFloat = true → fl (tyFmt ty) = (v, 0)) :
    (((arith ty sat fl x).1 % 2 ^ ty.width : Nat) : Int) = (if ty.isFloat then ((v : Int), 0) else vecInt ty sat x).1 % 2 ^ ty.width ∧
      (arith ty sat fl x).2 = (if ty.isFloat then ((v : Int), 0) else vecInt ty sat x).2 := by
  unfold arith
  cases hf : ty.isFloat
  · simp only [Bool.false_eq_true, if_false]; exact intResult_eq ty sat x
  · simp only [if_true, h hf]
    exact ⟨by simp, trivial⟩

theorem fma_eq (f : FFmt) (env : FEnv) (sat np nc : Bool) (a b c : Nat) :
    f.fma env sat np nc a b c = f.finish env sat (
      let m := (f.opd env a).mul (f.opd env b)
      let z := (if np then m.1.neg else m.1).add env.rm (if nc then (f.opd env c).neg else f.opd env c)
      if (f.opd env c).isNan then (.nan, 0) else (z.1, m.2 ||| z.2)) := by
  unfold FFmt.fma
  dsimp only
  split <;> rfl

/-! ## Compares (05 R97, 07 R133) -/

theorem cond_eq (f : FFmt) (env : FEnv) (cond : Cond) (a b : Nat) : f.cond env cond a b =
    (let y := f.opd env a
     let z := f.opd env b
     if y.isNan || z.isNan then decide (cond = .ne ∨ cond = .uo)
     else
       match cond with
       | .eq => decide (y.cmp z = .eq) | .ne => decide (y.cmp z ≠ .eq) | .lt => decide (y.cmp z = .lt) | .le => decide (y.cmp z ≠ .gt)
       | .gt => decide (y.cmp z = .gt) | .ge => decide (y.cmp z ≠ .lt) | .uo => false | .ord => true) := by
  unfold FFmt.cond
  dsimp only
  generalize (f.opd env a).cmp (f.opd env b) = o
  cases ((f.opd env a).isNan || (f.opd env b).isNan)
  · cases o <;> cases cond <;> rfl
  · cases cond <;> rfl

theorem condInt_eq (cond : Cond) (y z : Int) : condInt cond y z = (match cond with
          | .eq => decide (y = z) | .ne => decide (y ≠ z) | .lt => decide (y < z) | .le => decide (y ≤ z)
          | .gt => decide (y > z) | .ge => decide (y ≥ z) | .uo => false | .ord => true) := by
  cases cond <;> simp [condInt, bne, Bool.beq_eq_decide_eq] <;> rfl

/-! ## Masks (11 R197) -/

theorem mskFold (l : List Bool) : ∀ i, (l.foldr (fun (b : Bool) (acc : Nat) => (if b then 1 else 0) + 2 * acc) 0).testBit i = l.getD i false := by
  induction l with
  | nil => intro i; simp
  | cons b r ih =>
    intro i
    cases i with
    | zero => cases b <;> simp [Nat.testBit_zero, Nat.add_mod]
    | succ i =>
      rw [Nat.testBit_succ, List.foldr_cons]
      have : ((if b then 1 else 0) + 2 * r.foldr (fun (b : Bool) (acc : Nat) => (if b then 1 else 0) + 2 * acc) 0) / 2 = r.foldr (fun (b : Bool) (acc : Nat) => (if b then 1 else 0) + 2 * acc) 0 := by
        cases b <;> simp <;> omega
      rw [this, ih]; rfl

theorem mskBuild_bit (n : Nat) (f : Nat → Bool) (i : Nat) (hi : i < 1024) : (mskBuild n f).getLsbD i = (decide (i < n) && f i) := by
  rw [mskBuild, BitVec.getLsbD_ofNat, mskFold]
  simp only [hi, decide_true, Bool.true_and, List.getD_eq_getElem?_getD, List.getElem?_map]
  by_cases h : i < n
  · simp [h]
  · simp [h]

theorem popBits_eq (m : Msk) : popBits m = ((List.range 1024).filter fun i => m.getLsbD i).length := by
  have : ∀ (l : List Nat) (n : Nat), l.foldl (fun n i => if m.getLsbD i then n + 1 else n) n = n + (l.filter fun i => m.getLsbD i).length := by
    intro l
    induction l with
    | nil => intro n; rfl
    | cons a r ih =>
      intro n; rw [List.foldl_cons, ih, List.filter_cons]; split <;> simp; omega
  rw [popBits, this]; simp

/-! ## Reductions (11 R217) -/

/-- What a reduction writes: the result of each segment, and 0 above. -/
theorem reduceWord_writes {α : Type} {s : State} {h : EHead} {x : Entry} (hi : Issues s .c h x) (wd ws : Nat) (km : KReg) (d a : Reg) (l : Nat)
    (leaf : FEnv → Nat → α) (f : FEnv → α → α → α × Nat) (final : FEnv → Option α → Nat × Nat) (r : Rnd)
    (hw : wd * (4096 / ws / 2 ^ l) ≤ 4096) (val : Seq → Nat → Int × Nat)
    (hv : ∀ q j, ∃ t, t = combineTree (f (x.env r)) l ((List.range (2 ^ l)).map fun i =>
        if (q.kr km).getLsbD (j * 2 ^ l + i) then some (leaf (x.env r) (velem ws (q.vr a) (j * 2 ^ l + i))) else none) ∧
      (((final (x.env r) t.1).1 % 2 ^ wd : Nat) : Int) = (val q j).1 % 2 ^ wd ∧ t.2 ||| (final (x.env r) t.1).2 = (val q j).2) :
    ∃ g : Seq → Seq, VecEnds s h x g (reduceWord h wd ws km d a l leaf f final r s) ∧ ∀ q, ∃ v,
      g q = { q with
        v := vput q.v d.toNat v
        fps := q.fps ||| BitVec.ofNat 64 ((List.range (4096 / ws / 2 ^ l)).foldl (fun a j => a ||| (val q j).2) 0) } ∧
      ∀ j < 4096 / wd, (velem wd v j : Int) = if j < 4096 / ws / 2 ^ l then (val q j).1 % 2 ^ wd else 0 := by
  refine ⟨_, vecWord_ends hi _, fun q => ⟨vpack wd (((List.range (elems ws / 2 ^ l)).map fun j =>
      let t := combineTree (f (x.env r)) l ((List.range (2 ^ l)).map fun i =>
        if (q.kr km).getLsbD (j * 2 ^ l + i) then some (leaf (x.env r) (velem ws (q.vr a) (j * 2 ^ l + i))) else none)
      ((final (x.env r) t.1).1, t.2 ||| (final (x.env r) t.1).2)).map (·.1)), ?_, fun j hj => ?_⟩⟩
  rotate_left
  · rw [velem_vpack _ _ _ (by simpa [elems] using hw)]
    simp only [List.getD_eq_getElem?_getD, List.getElem?_map, elems]
    by_cases hn : j < 4096 / ws / 2 ^ l
    · rw [List.getElem?_range hn, if_pos hn]
      simp only [Option.map_some, Option.getD_some]
      obtain ⟨t, ht, h1, _⟩ := hv q j
      rw [← ht]; exact h1
    · rw [if_neg hn, List.getElem?_eq_none (by simpa using hn)]; simp
  · dsimp only
    simp only [Seq.orFps, Seq.setV, flagWord, flagsOf, flagsOf_map, elems]
    congr 3
    congr 1; funext a j
    obtain ⟨t, ht, _, h2⟩ := hv q j
    rw [← ht, h2]

/-- Two leaves combined, an empty one taking no part. -/
def omerge {α : Type} (g : α → α → α) : Option α → Option α → Option α
  | none, y => y
  | x, none => x
  | some x, some y => some (g x y)

theorem omerge_assoc {α : Type} (g : α → α → α) (hg : ∀ a b c, g (g a b) c = g a (g b c)) (x y z : Option α) :
    omerge g (omerge g x y) z = omerge g x (omerge g y z) := by
  cases x <;> cases y <;> cases z <;> simp [omerge, hg]

theorem combineLevel_fold {α : Type} (g : α → α → α) (hg : ∀ a b c, g (g a b) c = g a (g b c)) (n : Nat) : ∀ xs : List (Option α),
    xs.length = 2 * n → (combineLevel (fun a b => (g a b, 0)) xs).1.foldr (omerge g) none = xs.foldr (omerge g) none ∧
      (combineLevel (fun a b => (g a b, 0)) xs).1.length = n ∧ (combineLevel (fun a b => (g a b, 0)) xs).2 = 0 := by
  induction n with
  | zero => intro xs h; obtain rfl := List.eq_nil_of_length_eq_zero h; exact ⟨rfl, rfl, rfl⟩
  | succ n ih =>
    intro xs h
    match xs, h with
    | x :: y :: r, h =>
      obtain ⟨h1, h2, h3⟩ := ih r (by simp at h; omega)
      cases x <;> cases y <;> refine ⟨?_, ?_, ?_⟩ <;>
        simp only [combineLevel, List.foldr_cons, List.length_cons, h1, h2, h3, Nat.or_zero, omerge]
      cases r.foldr (omerge g) none <;> simp [hg]

/-- The tree over an associative operation is its fold over the active leaves. -/
theorem combineTree_fold {α : Type} (g : α → α → α) (hg : ∀ a b c, g (g a b) c = g a (g b c)) (n : Nat) : ∀ xs : List (Option α),
    xs.length = 2 ^ n → combineTree (fun a b => (g a b, 0)) n xs = (xs.foldr (omerge g) none, 0) := by
  induction n with
  | zero =>
    intro xs h
    match xs, h with
    | [x], _ => cases x <;> rfl
  | succ n ih =>
    intro xs h
    obtain ⟨h1, h2, h3⟩ := combineLevel_fold g hg (2 ^ n) xs (by rw [h, Nat.pow_succ, Nat.mul_comm])
    rw [combineTree]
    simp only [ih _ h2, h1, h3, Nat.zero_or]

end Sys2Proof.Machine
end

