-- ==== Sys2Proof/Laws/Operands.lean ====
section
/-! SUPPORT. What finding the place of an address changes: translation caches, pending second reads and free values, and nothing
else (09 R163; 23 R382-R390). -/

namespace Sys2Proof.Machine

/-- Only the caches of translations, the pending second reads and the count of free values may differ. -/
structure OnlyCaches (s t : State) : Prop where
  who : t.who = s.who
  ck : t.ck = s.ck
  net : t.net = s.net
  tape : t.tape = s.tape
  has : ∀ p, t.hasPkg p = s.hasPkg p
  pkg : ∀ p, t.pkg p = { s.pkg p with tlb := (t.pkg p).tlb, walk := (t.pkg p).walk, crit := (t.pkg p).crit }

theorem OnlyCaches.refl (s : State) : OnlyCaches s s := ⟨rfl, rfl, rfl, rfl, fun _ => rfl, fun _ => rfl⟩

theorem OnlyCaches.trans {s t u : State} (h : OnlyCaches s t) (g : OnlyCaches t u) : OnlyCaches s u :=
  ⟨g.who.trans h.who, g.ck.trans h.ck, g.net.trans h.net, g.tape.trans h.tape, fun p => (g.has p).trans (h.has p), fun p => by
    rw [g.pkg p, h.pkg p]⟩

theorem OnlyCaches.free (s : State) (n : Nat) : OnlyCaches s { s with free := n } := ⟨rfl, rfl, rfl, rfl, fun _ => rfl, fun _ => rfl⟩

theorem OnlyCaches.modPkg (s : State) (n : Nat) (f : Package → Package)
    (hf : ∀ k, f k = { k with tlb := (f k).tlb, walk := (f k).walk, crit := (f k).crit }) : OnlyCaches s (s.modPkg n f) := by
  have hn : KeepsNum f := fun k => by rw [hf k]
  refine ⟨rfl, rfl, rfl, rfl, fun p => State.hasPkg_modPkg s n p f hn, fun p => ?_⟩
  rw [State.pkg_modPkg s n p f hn]
  split
  · exact hf _
  · rfl

theorem OnlyCaches.core {s t : State} (h : OnlyCaches s t) (p c : Nat) : t.core p c = s.core p c := by
  rw [State.core, h.pkg p]; rfl

theorem OnlyCaches.seq {s t : State} (h : OnlyCaches s t) (i : Sid) : t.seq i = s.seq i := by rw [State.seq, h.core]; rfl

theorem endWalk_caches {s t : State} {p v lvl : Nat} {cx : Context} {e : W64} {wr bl : Bool} {r : Tr} (h : endWalk p cx v e lvl wr bl s = (r, t)) :
    OnlyCaches s t := by
  unfold endWalk at h
  dsimp only at h
  cases h
  cases (lvl == 1 && e.getLsbD 11)
  · exact .modPkg _ _ _ fun _ => rfl
  · exact (OnlyCaches.free s _).trans (.modPkg _ _ _ fun _ => rfl)

/-- A translation changes caches, pending second reads and free values at most. -/
theorem translate_caches {p d : Nat} {i : Sid} {va : W64} {wr bl : Bool} {s t : State} {r : Tr}
    (h : translate p d i va wr bl s = (r, t)) : OnlyCaches s t := by
  unfold translate at h
  dsimp only at h
  split at h
  · cases h; exact .refl s
  split at h
  · split at h <;> (cases h; exact .refl s)
  split at h
  · split at h
    · cases h; exact .refl s
    · split at h
      · cases h; exact .modPkg _ _ _ fun k => rfl
      · exact (OnlyCaches.modPkg _ _ _ fun k => rfl).trans (endWalk_caches h)
  have hc : ∀ (c : Bool), OnlyCaches s (if c = true then (false, s) else s.drawBool).2 := by
    intro c; cases c
    · exact .free s _
    · exact .refl s
  have hd : ∀ (c : Bool) (u : State), OnlyCaches s u → OnlyCaches s (if c = true then u.drawNat else (0, u)).2 := by
    intro c u hu; cases c
    · exact hu
    · exact hu.trans (.free u _)
  have he : ∀ (c : Bool) (u : State), OnlyCaches s u → OnlyCaches s (if c = true then (0, u) else u.drawNat).2 := by
    intro c u hu; cases c
    · exact hu.trans (.free u _)
    · exact hu
  split at h
  · cases h; exact hd _ _ (hc _)
  generalize hq : (if (List.filter _ (s.pkg p).walk).isEmpty = true then _ else _ : Nat × State) = u at h
  have hu : OnlyCaches s u.2 := by rw [← hq]; exact he _ _ (hd _ _ (hc _))
  clear hq
  split at h
  · cases h; exact hu
  split at h
  · cases h; exact hu.trans (.modPkg _ _ _ fun k => rfl)
  · exact hu.trans (endWalk_caches h)

/-- Finding the place of an address changes no more. -/
theorem resolve_caches {i : Sid} {va : W64} {n : Nat} {k : Acc} {s t : State} {r : Res} (h : resolve i va n k s = (r, t)) : OnlyCaches s t := by
  unfold resolve at h
  split at h
  · cases h; exact .refl s
  split at h
  · split at h
    · cases h; exact .refl s
    · split at h <;> (cases h; exact .refl s)
  split at h
  · cases h; exact .refl s
  split at h
  · cases h; exact .refl s
  split at h <;> (rename_i hq; cases h; exact translate_caches hq)

/-- Reading a record changes no more. -/
theorem readRecord_caches {i : Sid} {va : W64} {n : Nat} {s t : State} {r : Check (List Byte)} (h : readRecord i va n s = (r, t)) : OnlyCaches s t := by
  unfold readRecord at h
  dsimp only at h
  split at h
  · cases h; exact .refl s
  split at h
  · cases h; exact .refl s
  split at h <;> rename_i hq <;> have hq := translate_caches hq
  · cases h; exact hq
  · cases h; exact hq
  · split at h
    · cases h; exact hq
    · split at h <;> (cases h; exact hq)

/-- Finding the place of a unit's access changes no more. -/
theorem unitPlace_caches {i : Sid} {dctx : Nat} {va : W64} {wr : Bool} {s t : State} {r : Check Nat} (h : unitPlace i dctx va wr s = (r, t)) :
    OnlyCaches s t := by
  unfold unitPlace at h
  dsimp only at h
  split at h
  · cases h; exact .refl s
  split at h
  · cases h; exact .refl s
  split at h <;> rename_i hq <;> have hq := translate_caches hq
  · cases h; exact hq
  · cases h; exact hq
  · split at h <;> (cases h; exact hq)

theorem unitPlaces_caches {i : Sid} {dctx : Nat} {wr : Bool} {vas : List W64} {s t : State} {r : Check (List Nat)}
    (h : unitPlaces i dctx wr vas s = (r, t)) : OnlyCaches s t := by
  induction vas generalizing s t r with
  | nil => cases h; exact .refl s
  | cons va l ih =>
    rw [unitPlaces] at h
    split at h <;> rename_i hq <;> have hq := unitPlace_caches hq
    · split at h
      · rename_i hl; cases h; exact hq.trans (ih hl)
      · exact hq.trans (ih h)
    · cases h; exact hq
    · cases h; exact hq

theorem findList_caches {i : Sid} {dctx n : Nat} {d : List Byte} {wr : Bool} {s t : State} {r : Check PageList}
    (h : findList i dctx d n wr s = (r, t)) : OnlyCaches s t := by
  unfold findList at h
  split at h <;> rename_i hq <;> (cases h; exact unitPlaces_caches hq)

theorem findLists_caches {i : Sid} {dctx : Nat} {d : List Byte} {wr : Bool} {ns : List Nat} {s t : State} {r : Check (List (Nat × PageList))}
    (h : findLists i dctx d wr ns s = (r, t)) : OnlyCaches s t := by
  induction ns generalizing s t r with
  | nil => cases h; exact .refl s
  | cons n l ih =>
    rw [findLists] at h
    split at h <;> rename_i hq <;> have hq := findList_caches hq
    · split at h
      · rename_i hl; cases h; exact hq.trans (ih hl)
      · exact hq.trans (ih h)
    · cases h; exact hq
    · cases h; exact hq

theorem recordCheck_caches {x : Entry} {s t : State} {r : Check (List Byte × List Byte)} (h : recordCheck x s = (r, t)) : OnlyCaches s t := by
  unfold recordCheck at h
  dsimp only at h
  split at h <;> rename_i hq <;> have hq := readRecord_caches hq
  · cases h; exact hq
  · cases h; exact hq
  · split at h
    · cases h; exact hq
    · split at h <;> rename_i hu <;> have hu := hq.trans (unitPlace_caches hu)
      · cases h; exact hu
      · cases h; exact hu
      · split at h <;> (cases h; exact hu)

theorem readTable_caches {i : Sid} {r d : List Byte} {v : W64} {s t : State} {x : Check TableRead} (h : readTable i r d v s = (x, t)) :
    OnlyCaches s t := by
  unfold readTable at h
  dsimp only at h
  split at h
  · cases h; exact .refl s
  split at h <;> rename_i hq <;> have hq := unitPlaces_caches hq
  · cases h; exact hq
  · cases h; exact hq
  · split at h
    · cases h; exact hq
    · split at h <;> rename_i hu <;> have hu := hq.trans (findLists_caches hu)
      · cases h; exact hu
      · cases h; exact hu
      · split at h <;> (cases h; exact hu)

end Sys2Proof.Machine
end

