-- ==== Sys2Proof/Laws/PerInstr.lean ====
section
/-! SUPPORT. Per-instruction laws of the syntax: the encoding of every word that the front end runs (03 R40; 05 R84, R102). -/

namespace Sys2Proof.Laws

open Sys2Proof.Machine

/-- A word that the front end runs itself is encoded under the F header with its own guard: it advances the program counter by 8 where that one word is its
encoding, and by 16 where a second word follows. -/
def FrontLength.Statement (i : Instr) : Prop :=
  ∀ g n rs, frontOf i = some (g, n, rs) → ∃ op body, (n = 8 ∧ encode i = .word ((Hd.f g).word op body)) ∨
    (n = 16 ∧ ∃ x, encode i = .pair ((Hd.f g).word op body) x)

theorem FrontLength.add : ∀ x0 x1 x2 x3 x4 x5, Statement (.add x0 x1 x2 x3 x4 x5) := by
  first | rintro x0 x1 x2 x3 x4 x5 _ _ _ ⟨⟩; done | (rintro x0 x1 x2 x3 x4 x5 _ _ _ ⟨⟩; first | exact ⟨_, _, .inl ⟨rfl, rfl⟩⟩ | exact ⟨_, _, .inr ⟨rfl, _, rfl⟩⟩)
theorem FrontLength.sub : ∀ x0 x1 x2 x3 x4 x5, Statement (.sub x0 x1 x2 x3 x4 x5) := by
  first | rintro x0 x1 x2 x3 x4 x5 _ _ _ ⟨⟩; done | (rintro x0 x1 x2 x3 x4 x5 _ _ _ ⟨⟩; first | exact ⟨_, _, .inl ⟨rfl, rfl⟩⟩ | exact ⟨_, _, .inr ⟨rfl, _, rfl⟩⟩)
theorem FrontLength.mul : ∀ x0 x1 x2 x3 x4 x5, Statement (.mul x0 x1 x2 x3 x4 x5) := by
  first | rintro x0 x1 x2 x3 x4 x5 _ _ _ ⟨⟩; done | (rintro x0 x1 x2 x3 x4 x5 _ _ _ ⟨⟩; first | exact ⟨_, _, .inl ⟨rfl, rfl⟩⟩ | exact ⟨_, _, .inr ⟨rfl, _, rfl⟩⟩)
theorem FrontLength.mulh : ∀ x0 x1 x2 x3 x4, Statement (.mulh x0 x1 x2 x3 x4) := by
  first | rintro x0 x1 x2 x3 x4 _ _ _ ⟨⟩; done | (rintro x0 x1 x2 x3 x4 _ _ _ ⟨⟩; first | exact ⟨_, _, .inl ⟨rfl, rfl⟩⟩ | exact ⟨_, _, .inr ⟨rfl, _, rfl⟩⟩)
theorem FrontLength.div : ∀ x0 x1 x2 x3 x4 x5, Statement (.div x0 x1 x2 x3 x4 x5) := by
  first | rintro x0 x1 x2 x3 x4 x5 _ _ _ ⟨⟩; done | (rintro x0 x1 x2 x3 x4 x5 _ _ _ ⟨⟩; first | exact ⟨_, _, .inl ⟨rfl, rfl⟩⟩ | exact ⟨_, _, .inr ⟨rfl, _, rfl⟩⟩)
theorem FrontLength.rem : ∀ x0 x1 x2 x3 x4, Statement (.rem x0 x1 x2 x3 x4) := by
  first | rintro x0 x1 x2 x3 x4 _ _ _ ⟨⟩; done | (rintro x0 x1 x2 x3 x4 _ _ _ ⟨⟩; first | exact ⟨_, _, .inl ⟨rfl, rfl⟩⟩ | exact ⟨_, _, .inr ⟨rfl, _, rfl⟩⟩)
theorem FrontLength.and : ∀ x0 x1 x2 x3 x4, Statement (.and x0 x1 x2 x3 x4) := by
  first | rintro x0 x1 x2 x3 x4 _ _ _ ⟨⟩; done | (rintro x0 x1 x2 x3 x4 _ _ _ ⟨⟩; first | exact ⟨_, _, .inl ⟨rfl, rfl⟩⟩ | exact ⟨_, _, .inr ⟨rfl, _, rfl⟩⟩)
theorem FrontLength.or : ∀ x0 x1 x2 x3 x4, Statement (.or x0 x1 x2 x3 x4) := by
  first | rintro x0 x1 x2 x3 x4 _ _ _ ⟨⟩; done | (rintro x0 x1 x2 x3 x4 _ _ _ ⟨⟩; first | exact ⟨_, _, .inl ⟨rfl, rfl⟩⟩ | exact ⟨_, _, .inr ⟨rfl, _, rfl⟩⟩)
theorem FrontLength.xor : ∀ x0 x1 x2 x3 x4, Statement (.xor x0 x1 x2 x3 x4) := by
  first | rintro x0 x1 x2 x3 x4 _ _ _ ⟨⟩; done | (rintro x0 x1 x2 x3 x4 _ _ _ ⟨⟩; first | exact ⟨_, _, .inl ⟨rfl, rfl⟩⟩ | exact ⟨_, _, .inr ⟨rfl, _, rfl⟩⟩)
theorem FrontLength.shl : ∀ x0 x1 x2 x3 x4 x5, Statement (.shl x0 x1 x2 x3 x4 x5) := by
  first | rintro x0 x1 x2 x3 x4 x5 _ _ _ ⟨⟩; done | (rintro x0 x1 x2 x3 x4 x5 _ _ _ ⟨⟩; first | exact ⟨_, _, .inl ⟨rfl, rfl⟩⟩ | exact ⟨_, _, .inr ⟨rfl, _, rfl⟩⟩)
theorem FrontLength.shr : ∀ x0 x1 x2 x3 x4, Statement (.shr x0 x1 x2 x3 x4) := by
  first | rintro x0 x1 x2 x3 x4 _ _ _ ⟨⟩; done | (rintro x0 x1 x2 x3 x4 _ _ _ ⟨⟩; first | exact ⟨_, _, .inl ⟨rfl, rfl⟩⟩ | exact ⟨_, _, .inr ⟨rfl, _, rfl⟩⟩)
theorem FrontLength.sra : ∀ x0 x1 x2 x3 x4, Statement (.sra x0 x1 x2 x3 x4) := by
  first | rintro x0 x1 x2 x3 x4 _ _ _ ⟨⟩; done | (rintro x0 x1 x2 x3 x4 _ _ _ ⟨⟩; first | exact ⟨_, _, .inl ⟨rfl, rfl⟩⟩ | exact ⟨_, _, .inr ⟨rfl, _, rfl⟩⟩)
theorem FrontLength.min : ∀ x0 x1 x2 x3 x4, Statement (.min x0 x1 x2 x3 x4) := by
  first | rintro x0 x1 x2 x3 x4 _ _ _ ⟨⟩; done | (rintro x0 x1 x2 x3 x4 _ _ _ ⟨⟩; first | exact ⟨_, _, .inl ⟨rfl, rfl⟩⟩ | exact ⟨_, _, .inr ⟨rfl, _, rfl⟩⟩)
theorem FrontLength.max : ∀ x0 x1 x2 x3 x4, Statement (.max x0 x1 x2 x3 x4) := by
  first | rintro x0 x1 x2 x3 x4 _ _ _ ⟨⟩; done | (rintro x0 x1 x2 x3 x4 _ _ _ ⟨⟩; first | exact ⟨_, _, .inl ⟨rfl, rfl⟩⟩ | exact ⟨_, _, .inr ⟨rfl, _, rfl⟩⟩)
theorem FrontLength.sel : ∀ x0 x1 x2 x3 x4 x5, Statement (.sel x0 x1 x2 x3 x4 x5) := by
  first | rintro x0 x1 x2 x3 x4 x5 _ _ _ ⟨⟩; done | (rintro x0 x1 x2 x3 x4 x5 _ _ _ ⟨⟩; first | exact ⟨_, _, .inl ⟨rfl, rfl⟩⟩ | exact ⟨_, _, .inr ⟨rfl, _, rfl⟩⟩)
theorem FrontLength.clz : ∀ x0 x1 x2 x3, Statement (.clz x0 x1 x2 x3) := by
  first | rintro x0 x1 x2 x3 _ _ _ ⟨⟩; done | (rintro x0 x1 x2 x3 _ _ _ ⟨⟩; first | exact ⟨_, _, .inl ⟨rfl, rfl⟩⟩ | exact ⟨_, _, .inr ⟨rfl, _, rfl⟩⟩)
theorem FrontLength.ctz : ∀ x0 x1 x2 x3, Statement (.ctz x0 x1 x2 x3) := by
  first | rintro x0 x1 x2 x3 _ _ _ ⟨⟩; done | (rintro x0 x1 x2 x3 _ _ _ ⟨⟩; first | exact ⟨_, _, .inl ⟨rfl, rfl⟩⟩ | exact ⟨_, _, .inr ⟨rfl, _, rfl⟩⟩)
theorem FrontLength.popc : ∀ x0 x1 x2 x3, Statement (.popc x0 x1 x2 x3) := by
  first | rintro x0 x1 x2 x3 _ _ _ ⟨⟩; done | (rintro x0 x1 x2 x3 _ _ _ ⟨⟩; first | exact ⟨_, _, .inl ⟨rfl, rfl⟩⟩ | exact ⟨_, _, .inr ⟨rfl, _, rfl⟩⟩)
theorem FrontLength.addi : ∀ x0 x1 x2 x3, Statement (.addi x0 x1 x2 x3) := by
  first | rintro x0 x1 x2 x3 _ _ _ ⟨⟩; done | (rintro x0 x1 x2 x3 _ _ _ ⟨⟩; first | exact ⟨_, _, .inl ⟨rfl, rfl⟩⟩ | exact ⟨_, _, .inr ⟨rfl, _, rfl⟩⟩)
theorem FrontLength.andi : ∀ x0 x1 x2 x3, Statement (.andi x0 x1 x2 x3) := by
  first | rintro x0 x1 x2 x3 _ _ _ ⟨⟩; done | (rintro x0 x1 x2 x3 _ _ _ ⟨⟩; first | exact ⟨_, _, .inl ⟨rfl, rfl⟩⟩ | exact ⟨_, _, .inr ⟨rfl, _, rfl⟩⟩)
theorem FrontLength.ori : ∀ x0 x1 x2 x3, Statement (.ori x0 x1 x2 x3) := by
  first | rintro x0 x1 x2 x3 _ _ _ ⟨⟩; done | (rintro x0 x1 x2 x3 _ _ _ ⟨⟩; first | exact ⟨_, _, .inl ⟨rfl, rfl⟩⟩ | exact ⟨_, _, .inr ⟨rfl, _, rfl⟩⟩)
theorem FrontLength.xori : ∀ x0 x1 x2 x3, Statement (.xori x0 x1 x2 x3) := by
  first | rintro x0 x1 x2 x3 _ _ _ ⟨⟩; done | (rintro x0 x1 x2 x3 _ _ _ ⟨⟩; first | exact ⟨_, _, .inl ⟨rfl, rfl⟩⟩ | exact ⟨_, _, .inr ⟨rfl, _, rfl⟩⟩)
theorem FrontLength.shli : ∀ x0 x1 x2 x3, Statement (.shli x0 x1 x2 x3) := by
  first | rintro x0 x1 x2 x3 _ _ _ ⟨⟩; done | (rintro x0 x1 x2 x3 _ _ _ ⟨⟩; first | exact ⟨_, _, .inl ⟨rfl, rfl⟩⟩ | exact ⟨_, _, .inr ⟨rfl, _, rfl⟩⟩)
theorem FrontLength.shri : ∀ x0 x1 x2 x3, Statement (.shri x0 x1 x2 x3) := by
  first | rintro x0 x1 x2 x3 _ _ _ ⟨⟩; done | (rintro x0 x1 x2 x3 _ _ _ ⟨⟩; first | exact ⟨_, _, .inl ⟨rfl, rfl⟩⟩ | exact ⟨_, _, .inr ⟨rfl, _, rfl⟩⟩)
theorem FrontLength.srai : ∀ x0 x1 x2 x3, Statement (.srai x0 x1 x2 x3) := by
  first | rintro x0 x1 x2 x3 _ _ _ ⟨⟩; done | (rintro x0 x1 x2 x3 _ _ _ ⟨⟩; first | exact ⟨_, _, .inl ⟨rfl, rfl⟩⟩ | exact ⟨_, _, .inr ⟨rfl, _, rfl⟩⟩)
theorem FrontLength.muli : ∀ x0 x1 x2 x3, Statement (.muli x0 x1 x2 x3) := by
  first | rintro x0 x1 x2 x3 _ _ _ ⟨⟩; done | (rintro x0 x1 x2 x3 _ _ _ ⟨⟩; first | exact ⟨_, _, .inl ⟨rfl, rfl⟩⟩ | exact ⟨_, _, .inr ⟨rfl, _, rfl⟩⟩)
theorem FrontLength.movi : ∀ x0 x1 x2, Statement (.movi x0 x1 x2) := by
  first | rintro x0 x1 x2 _ _ _ ⟨⟩; done | (rintro x0 x1 x2 _ _ _ ⟨⟩; first | exact ⟨_, _, .inl ⟨rfl, rfl⟩⟩ | exact ⟨_, _, .inr ⟨rfl, _, rfl⟩⟩)
theorem FrontLength.movhi : ∀ x0 x1 x2, Statement (.movhi x0 x1 x2) := by
  first | rintro x0 x1 x2 _ _ _ ⟨⟩; done | (rintro x0 x1 x2 _ _ _ ⟨⟩; first | exact ⟨_, _, .inl ⟨rfl, rfl⟩⟩ | exact ⟨_, _, .inr ⟨rfl, _, rfl⟩⟩)
theorem FrontLength.lea : ∀ x0 x1 x2 x3, Statement (.lea x0 x1 x2 x3) := by
  first | rintro x0 x1 x2 x3 _ _ _ ⟨⟩; done | (rintro x0 x1 x2 x3 _ _ _ ⟨⟩; first | exact ⟨_, _, .inl ⟨rfl, rfl⟩⟩ | exact ⟨_, _, .inr ⟨rfl, _, rfl⟩⟩)
theorem FrontLength.leal : ∀ x0 x1 x2 x3, Statement (.leal x0 x1 x2 x3) := by
  first | rintro x0 x1 x2 x3 _ _ _ ⟨⟩; done | (rintro x0 x1 x2 x3 _ _ _ ⟨⟩; first | exact ⟨_, _, .inl ⟨rfl, rfl⟩⟩ | exact ⟨_, _, .inr ⟨rfl, _, rfl⟩⟩)
theorem FrontLength.movl : ∀ x0 x1 x2, Statement (.movl x0 x1 x2) := by
  first | rintro x0 x1 x2 _ _ _ ⟨⟩; done | (rintro x0 x1 x2 _ _ _ ⟨⟩; first | exact ⟨_, _, .inl ⟨rfl, rfl⟩⟩ | exact ⟨_, _, .inr ⟨rfl, _, rfl⟩⟩)
theorem FrontLength.ld8 : ∀ x0 x1 x2 x3, Statement (.ld8 x0 x1 x2 x3) := by
  first | rintro x0 x1 x2 x3 _ _ _ ⟨⟩; done | (rintro x0 x1 x2 x3 _ _ _ ⟨⟩; first | exact ⟨_, _, .inl ⟨rfl, rfl⟩⟩ | exact ⟨_, _, .inr ⟨rfl, _, rfl⟩⟩)
theorem FrontLength.ld16 : ∀ x0 x1 x2 x3, Statement (.ld16 x0 x1 x2 x3) := by
  first | rintro x0 x1 x2 x3 _ _ _ ⟨⟩; done | (rintro x0 x1 x2 x3 _ _ _ ⟨⟩; first | exact ⟨_, _, .inl ⟨rfl, rfl⟩⟩ | exact ⟨_, _, .inr ⟨rfl, _, rfl⟩⟩)
theorem FrontLength.ld32 : ∀ x0 x1 x2 x3, Statement (.ld32 x0 x1 x2 x3) := by
  first | rintro x0 x1 x2 x3 _ _ _ ⟨⟩; done | (rintro x0 x1 x2 x3 _ _ _ ⟨⟩; first | exact ⟨_, _, .inl ⟨rfl, rfl⟩⟩ | exact ⟨_, _, .inr ⟨rfl, _, rfl⟩⟩)
theorem FrontLength.ld64 : ∀ x0 x1 x2 x3, Statement (.ld64 x0 x1 x2 x3) := by
  first | rintro x0 x1 x2 x3 _ _ _ ⟨⟩; done | (rintro x0 x1 x2 x3 _ _ _ ⟨⟩; first | exact ⟨_, _, .inl ⟨rfl, rfl⟩⟩ | exact ⟨_, _, .inr ⟨rfl, _, rfl⟩⟩)
theorem FrontLength.ld8s : ∀ x0 x1 x2 x3, Statement (.ld8s x0 x1 x2 x3) := by
  first | rintro x0 x1 x2 x3 _ _ _ ⟨⟩; done | (rintro x0 x1 x2 x3 _ _ _ ⟨⟩; first | exact ⟨_, _, .inl ⟨rfl, rfl⟩⟩ | exact ⟨_, _, .inr ⟨rfl, _, rfl⟩⟩)
theorem FrontLength.ld16s : ∀ x0 x1 x2 x3, Statement (.ld16s x0 x1 x2 x3) := by
  first | rintro x0 x1 x2 x3 _ _ _ ⟨⟩; done | (rintro x0 x1 x2 x3 _ _ _ ⟨⟩; first | exact ⟨_, _, .inl ⟨rfl, rfl⟩⟩ | exact ⟨_, _, .inr ⟨rfl, _, rfl⟩⟩)
theorem FrontLength.ld32s : ∀ x0 x1 x2 x3, Statement (.ld32s x0 x1 x2 x3) := by
  first | rintro x0 x1 x2 x3 _ _ _ ⟨⟩; done | (rintro x0 x1 x2 x3 _ _ _ ⟨⟩; first | exact ⟨_, _, .inl ⟨rfl, rfl⟩⟩ | exact ⟨_, _, .inr ⟨rfl, _, rfl⟩⟩)
theorem FrontLength.st8 : ∀ x0 x1 x2 x3, Statement (.st8 x0 x1 x2 x3) := by
  first | rintro x0 x1 x2 x3 _ _ _ ⟨⟩; done | (rintro x0 x1 x2 x3 _ _ _ ⟨⟩; first | exact ⟨_, _, .inl ⟨rfl, rfl⟩⟩ | exact ⟨_, _, .inr ⟨rfl, _, rfl⟩⟩)
theorem FrontLength.st16 : ∀ x0 x1 x2 x3, Statement (.st16 x0 x1 x2 x3) := by
  first | rintro x0 x1 x2 x3 _ _ _ ⟨⟩; done | (rintro x0 x1 x2 x3 _ _ _ ⟨⟩; first | exact ⟨_, _, .inl ⟨rfl, rfl⟩⟩ | exact ⟨_, _, .inr ⟨rfl, _, rfl⟩⟩)
theorem FrontLength.st32 : ∀ x0 x1 x2 x3, Statement (.st32 x0 x1 x2 x3) := by
  first | rintro x0 x1 x2 x3 _ _ _ ⟨⟩; done | (rintro x0 x1 x2 x3 _ _ _ ⟨⟩; first | exact ⟨_, _, .inl ⟨rfl, rfl⟩⟩ | exact ⟨_, _, .inr ⟨rfl, _, rfl⟩⟩)
theorem FrontLength.st64 : ∀ x0 x1 x2 x3, Statement (.st64 x0 x1 x2 x3) := by
  first | rintro x0 x1 x2 x3 _ _ _ ⟨⟩; done | (rintro x0 x1 x2 x3 _ _ _ ⟨⟩; first | exact ⟨_, _, .inl ⟨rfl, rfl⟩⟩ | exact ⟨_, _, .inr ⟨rfl, _, rfl⟩⟩)
theorem FrontLength.fadd : ∀ x0 x1 x2 x3 x4 x5, Statement (.fadd x0 x1 x2 x3 x4 x5) := by
  first | rintro x0 x1 x2 x3 x4 x5 _ _ _ ⟨⟩; done | (rintro x0 x1 x2 x3 x4 x5 _ _ _ ⟨⟩; first | exact ⟨_, _, .inl ⟨rfl, rfl⟩⟩ | exact ⟨_, _, .inr ⟨rfl, _, rfl⟩⟩)
theorem FrontLength.fsub : ∀ x0 x1 x2 x3 x4 x5, Statement (.fsub x0 x1 x2 x3 x4 x5) := by
  first | rintro x0 x1 x2 x3 x4 x5 _ _ _ ⟨⟩; done | (rintro x0 x1 x2 x3 x4 x5 _ _ _ ⟨⟩; first | exact ⟨_, _, .inl ⟨rfl, rfl⟩⟩ | exact ⟨_, _, .inr ⟨rfl, _, rfl⟩⟩)
theorem FrontLength.fmul : ∀ x0 x1 x2 x3 x4 x5, Statement (.fmul x0 x1 x2 x3 x4 x5) := by
  first | rintro x0 x1 x2 x3 x4 x5 _ _ _ ⟨⟩; done | (rintro x0 x1 x2 x3 x4 x5 _ _ _ ⟨⟩; first | exact ⟨_, _, .inl ⟨rfl, rfl⟩⟩ | exact ⟨_, _, .inr ⟨rfl, _, rfl⟩⟩)
theorem FrontLength.fdiv : ∀ x0 x1 x2 x3 x4 x5, Statement (.fdiv x0 x1 x2 x3 x4 x5) := by
  first | rintro x0 x1 x2 x3 x4 x5 _ _ _ ⟨⟩; done | (rintro x0 x1 x2 x3 x4 x5 _ _ _ ⟨⟩; first | exact ⟨_, _, .inl ⟨rfl, rfl⟩⟩ | exact ⟨_, _, .inr ⟨rfl, _, rfl⟩⟩)
theorem FrontLength.ffma : ∀ x0 x1 x2 x3 x4 x5 x6, Statement (.ffma x0 x1 x2 x3 x4 x5 x6) := by
  first | rintro x0 x1 x2 x3 x4 x5 x6 _ _ _ ⟨⟩; done | (rintro x0 x1 x2 x3 x4 x5 x6 _ _ _ ⟨⟩; first | exact ⟨_, _, .inl ⟨rfl, rfl⟩⟩ | exact ⟨_, _, .inr ⟨rfl, _, rfl⟩⟩)
theorem FrontLength.fsqrt : ∀ x0 x1 x2 x3 x4, Statement (.fsqrt x0 x1 x2 x3 x4) := by
  first | rintro x0 x1 x2 x3 x4 _ _ _ ⟨⟩; done | (rintro x0 x1 x2 x3 x4 _ _ _ ⟨⟩; first | exact ⟨_, _, .inl ⟨rfl, rfl⟩⟩ | exact ⟨_, _, .inr ⟨rfl, _, rfl⟩⟩)
theorem FrontLength.fmin : ∀ x0 x1 x2 x3 x4, Statement (.fmin x0 x1 x2 x3 x4) := by
  first | rintro x0 x1 x2 x3 x4 _ _ _ ⟨⟩; done | (rintro x0 x1 x2 x3 x4 _ _ _ ⟨⟩; first | exact ⟨_, _, .inl ⟨rfl, rfl⟩⟩ | exact ⟨_, _, .inr ⟨rfl, _, rfl⟩⟩)
theorem FrontLength.fmax : ∀ x0 x1 x2 x3 x4, Statement (.fmax x0 x1 x2 x3 x4) := by
  first | rintro x0 x1 x2 x3 x4 _ _ _ ⟨⟩; done | (rintro x0 x1 x2 x3 x4 _ _ _ ⟨⟩; first | exact ⟨_, _, .inl ⟨rfl, rfl⟩⟩ | exact ⟨_, _, .inr ⟨rfl, _, rfl⟩⟩)
theorem FrontLength.fcvt : ∀ x0 x1 x2 x3 x4 x5 x6, Statement (.fcvt x0 x1 x2 x3 x4 x5 x6) := by
  first | rintro x0 x1 x2 x3 x4 x5 x6 _ _ _ ⟨⟩; done | (rintro x0 x1 x2 x3 x4 x5 x6 _ _ _ ⟨⟩; first | exact ⟨_, _, .inl ⟨rfl, rfl⟩⟩ | exact ⟨_, _, .inr ⟨rfl, _, rfl⟩⟩)
theorem FrontLength.cmp : ∀ x0 x1 x2 x3 x4 x5, Statement (.cmp x0 x1 x2 x3 x4 x5) := by
  first | rintro x0 x1 x2 x3 x4 x5 _ _ _ ⟨⟩; done | (rintro x0 x1 x2 x3 x4 x5 _ _ _ ⟨⟩; first | exact ⟨_, _, .inl ⟨rfl, rfl⟩⟩ | exact ⟨_, _, .inr ⟨rfl, _, rfl⟩⟩)
theorem FrontLength.fcmp : ∀ x0 x1 x2 x3 x4 x5, Statement (.fcmp x0 x1 x2 x3 x4 x5) := by
  first | rintro x0 x1 x2 x3 x4 x5 _ _ _ ⟨⟩; done | (rintro x0 x1 x2 x3 x4 x5 _ _ _ ⟨⟩; first | exact ⟨_, _, .inl ⟨rfl, rfl⟩⟩ | exact ⟨_, _, .inr ⟨rfl, _, rfl⟩⟩)
theorem FrontLength.pand : ∀ x0 x1 x2 x3, Statement (.pand x0 x1 x2 x3) := by
  first | rintro x0 x1 x2 x3 _ _ _ ⟨⟩; done | (rintro x0 x1 x2 x3 _ _ _ ⟨⟩; first | exact ⟨_, _, .inl ⟨rfl, rfl⟩⟩ | exact ⟨_, _, .inr ⟨rfl, _, rfl⟩⟩)
theorem FrontLength.por : ∀ x0 x1 x2 x3, Statement (.por x0 x1 x2 x3) := by
  first | rintro x0 x1 x2 x3 _ _ _ ⟨⟩; done | (rintro x0 x1 x2 x3 _ _ _ ⟨⟩; first | exact ⟨_, _, .inl ⟨rfl, rfl⟩⟩ | exact ⟨_, _, .inr ⟨rfl, _, rfl⟩⟩)
theorem FrontLength.pxor : ∀ x0 x1 x2 x3, Statement (.pxor x0 x1 x2 x3) := by
  first | rintro x0 x1 x2 x3 _ _ _ ⟨⟩; done | (rintro x0 x1 x2 x3 _ _ _ ⟨⟩; first | exact ⟨_, _, .inl ⟨rfl, rfl⟩⟩ | exact ⟨_, _, .inr ⟨rfl, _, rfl⟩⟩)
theorem FrontLength.pnot : ∀ x0 x1 x2, Statement (.pnot x0 x1 x2) := by
  first | rintro x0 x1 x2 _ _ _ ⟨⟩; done | (rintro x0 x1 x2 _ _ _ ⟨⟩; first | exact ⟨_, _, .inl ⟨rfl, rfl⟩⟩ | exact ⟨_, _, .inr ⟨rfl, _, rfl⟩⟩)
theorem FrontLength.br : ∀ x0 x1, Statement (.br x0 x1) := by
  first | rintro x0 x1 _ _ _ ⟨⟩; done | (rintro x0 x1 _ _ _ ⟨⟩; first | exact ⟨_, _, .inl ⟨rfl, rfl⟩⟩ | exact ⟨_, _, .inr ⟨rfl, _, rfl⟩⟩)
theorem FrontLength.jr : ∀ x0 x1, Statement (.jr x0 x1) := by
  first | rintro x0 x1 _ _ _ ⟨⟩; done | (rintro x0 x1 _ _ _ ⟨⟩; first | exact ⟨_, _, .inl ⟨rfl, rfl⟩⟩ | exact ⟨_, _, .inr ⟨rfl, _, rfl⟩⟩)
theorem FrontLength.call : ∀ x0 x1 x2, Statement (.call x0 x1 x2) := by
  first | rintro x0 x1 x2 _ _ _ ⟨⟩; done | (rintro x0 x1 x2 _ _ _ ⟨⟩; first | exact ⟨_, _, .inl ⟨rfl, rfl⟩⟩ | exact ⟨_, _, .inr ⟨rfl, _, rfl⟩⟩)
theorem FrontLength.callr : ∀ x0 x1 x2, Statement (.callr x0 x1 x2) := by
  first | rintro x0 x1 x2 _ _ _ ⟨⟩; done | (rintro x0 x1 x2 _ _ _ ⟨⟩; first | exact ⟨_, _, .inl ⟨rfl, rfl⟩⟩ | exact ⟨_, _, .inr ⟨rfl, _, rfl⟩⟩)
theorem FrontLength.ret : ∀ x0 x1, Statement (.ret x0 x1) := by
  first | rintro x0 x1 _ _ _ ⟨⟩; done | (rintro x0 x1 _ _ _ ⟨⟩; first | exact ⟨_, _, .inl ⟨rfl, rfl⟩⟩ | exact ⟨_, _, .inr ⟨rfl, _, rfl⟩⟩)
theorem FrontLength.lset : ∀ x0 x1 x2 x3, Statement (.lset x0 x1 x2 x3) := by
  first | rintro x0 x1 x2 x3 _ _ _ ⟨⟩; done | (rintro x0 x1 x2 x3 _ _ _ ⟨⟩; first | exact ⟨_, _, .inl ⟨rfl, rfl⟩⟩ | exact ⟨_, _, .inr ⟨rfl, _, rfl⟩⟩)
theorem FrontLength.lend : ∀ x0 x1 x2, Statement (.lend x0 x1 x2) := by
  first | rintro x0 x1 x2 _ _ _ ⟨⟩; done | (rintro x0 x1 x2 _ _ _ ⟨⟩; first | exact ⟨_, _, .inl ⟨rfl, rfl⟩⟩ | exact ⟨_, _, .inr ⟨rfl, _, rfl⟩⟩)
theorem FrontLength.sow : ∀ x0 x1 x2, Statement (.sow x0 x1 x2) := by
  first | rintro x0 x1 x2 _ _ _ ⟨⟩; done | (rintro x0 x1 x2 _ _ _ ⟨⟩; first | exact ⟨_, _, .inl ⟨rfl, rfl⟩⟩ | exact ⟨_, _, .inr ⟨rfl, _, rfl⟩⟩)
theorem FrontLength.reap : ∀ x0, Statement (.reap x0) := by
  first | rintro x0 _ _ _ ⟨⟩; done | (rintro x0 _ _ _ ⟨⟩; first | exact ⟨_, _, .inl ⟨rfl, rfl⟩⟩ | exact ⟨_, _, .inr ⟨rfl, _, rfl⟩⟩)
theorem FrontLength.bar : ∀ x0 x1, Statement (.bar x0 x1) := by
  first | rintro x0 x1 _ _ _ ⟨⟩; done | (rintro x0 x1 _ _ _ ⟨⟩; first | exact ⟨_, _, .inl ⟨rfl, rfl⟩⟩ | exact ⟨_, _, .inr ⟨rfl, _, rfl⟩⟩)
theorem FrontLength.bard : ∀ x0 x1, Statement (.bard x0 x1) := by
  first | rintro x0 x1 _ _ _ ⟨⟩; done | (rintro x0 x1 _ _ _ ⟨⟩; first | exact ⟨_, _, .inl ⟨rfl, rfl⟩⟩ | exact ⟨_, _, .inr ⟨rfl, _, rfl⟩⟩)
theorem FrontLength.barj : ∀ x0 x1, Statement (.barj x0 x1) := by
  first | rintro x0 x1 _ _ _ ⟨⟩; done | (rintro x0 x1 _ _ _ ⟨⟩; first | exact ⟨_, _, .inl ⟨rfl, rfl⟩⟩ | exact ⟨_, _, .inr ⟨rfl, _, rfl⟩⟩)
theorem FrontLength.tokget : ∀ x0 x1, Statement (.tokget x0 x1) := by
  first | rintro x0 x1 _ _ _ ⟨⟩; done | (rintro x0 x1 _ _ _ ⟨⟩; first | exact ⟨_, _, .inl ⟨rfl, rfl⟩⟩ | exact ⟨_, _, .inr ⟨rfl, _, rfl⟩⟩)
theorem FrontLength.tokset : ∀ x0 x1, Statement (.tokset x0 x1) := by
  first | rintro x0 x1 _ _ _ ⟨⟩; done | (rintro x0 x1 _ _ _ ⟨⟩; first | exact ⟨_, _, .inl ⟨rfl, rfl⟩⟩ | exact ⟨_, _, .inr ⟨rfl, _, rfl⟩⟩)
theorem FrontLength.wtany : ∀ x0 x1 x2, Statement (.wtany x0 x1 x2) := by
  first | rintro x0 x1 x2 _ _ _ ⟨⟩; done | (rintro x0 x1 x2 _ _ _ ⟨⟩; first | exact ⟨_, _, .inl ⟨rfl, rfl⟩⟩ | exact ⟨_, _, .inr ⟨rfl, _, rfl⟩⟩)
theorem FrontLength.wtall : ∀ x0 x1 x2, Statement (.wtall x0 x1 x2) := by
  first | rintro x0 x1 x2 _ _ _ ⟨⟩; done | (rintro x0 x1 x2 _ _ _ ⟨⟩; first | exact ⟨_, _, .inl ⟨rfl, rfl⟩⟩ | exact ⟨_, _, .inr ⟨rfl, _, rfl⟩⟩)
theorem FrontLength.wtff : ∀ x0 x1 x2, Statement (.wtff x0 x1 x2) := by
  first | rintro x0 x1 x2 _ _ _ ⟨⟩; done | (rintro x0 x1 x2 _ _ _ ⟨⟩; first | exact ⟨_, _, .inl ⟨rfl, rfl⟩⟩ | exact ⟨_, _, .inr ⟨rfl, _, rfl⟩⟩)
theorem FrontLength.wcnt : ∀ x0 x1 x2 x3 x4, Statement (.wcnt x0 x1 x2 x3 x4) := by
  first | rintro x0 x1 x2 x3 x4 _ _ _ ⟨⟩; done | (rintro x0 x1 x2 x3 x4 _ _ _ ⟨⟩; first | exact ⟨_, _, .inl ⟨rfl, rfl⟩⟩ | exact ⟨_, _, .inr ⟨rfl, _, rfl⟩⟩)
theorem FrontLength.qfence : ∀ x0 x1 x2 x3 x4, Statement (.qfence x0 x1 x2 x3 x4) := by
  first | rintro x0 x1 x2 x3 x4 _ _ _ ⟨⟩; done | (rintro x0 x1 x2 x3 x4 _ _ _ ⟨⟩; first | exact ⟨_, _, .inl ⟨rfl, rfl⟩⟩ | exact ⟨_, _, .inr ⟨rfl, _, rfl⟩⟩)
theorem FrontLength.rel : ∀ x0 x1, Statement (.rel x0 x1) := by
  first | rintro x0 x1 _ _ _ ⟨⟩; done | (rintro x0 x1 _ _ _ ⟨⟩; first | exact ⟨_, _, .inl ⟨rfl, rfl⟩⟩ | exact ⟨_, _, .inr ⟨rfl, _, rfl⟩⟩)
theorem FrontLength.acq : ∀ x0 x1, Statement (.acq x0 x1) := by
  first | rintro x0 x1 _ _ _ ⟨⟩; done | (rintro x0 x1 _ _ _ ⟨⟩; first | exact ⟨_, _, .inl ⟨rfl, rfl⟩⟩ | exact ⟨_, _, .inr ⟨rfl, _, rfl⟩⟩)
theorem FrontLength.tagclr : ∀ x0 x1, Statement (.tagclr x0 x1) := by
  first | rintro x0 x1 _ _ _ ⟨⟩; done | (rintro x0 x1 _ _ _ ⟨⟩; first | exact ⟨_, _, .inl ⟨rfl, rfl⟩⟩ | exact ⟨_, _, .inr ⟨rfl, _, rfl⟩⟩)
theorem FrontLength.aadd : ∀ x0 x1 x2 x3, Statement (.aadd x0 x1 x2 x3) := by
  first | rintro x0 x1 x2 x3 _ _ _ ⟨⟩; done | (rintro x0 x1 x2 x3 _ _ _ ⟨⟩; first | exact ⟨_, _, .inl ⟨rfl, rfl⟩⟩ | exact ⟨_, _, .inr ⟨rfl, _, rfl⟩⟩)
theorem FrontLength.afadd : ∀ x0 x1 x2 x3, Statement (.afadd x0 x1 x2 x3) := by
  first | rintro x0 x1 x2 x3 _ _ _ ⟨⟩; done | (rintro x0 x1 x2 x3 _ _ _ ⟨⟩; first | exact ⟨_, _, .inl ⟨rfl, rfl⟩⟩ | exact ⟨_, _, .inr ⟨rfl, _, rfl⟩⟩)
theorem FrontLength.amin : ∀ x0 x1 x2 x3 x4, Statement (.amin x0 x1 x2 x3 x4) := by
  first | rintro x0 x1 x2 x3 x4 _ _ _ ⟨⟩; done | (rintro x0 x1 x2 x3 x4 _ _ _ ⟨⟩; first | exact ⟨_, _, .inl ⟨rfl, rfl⟩⟩ | exact ⟨_, _, .inr ⟨rfl, _, rfl⟩⟩)
theorem FrontLength.amax : ∀ x0 x1 x2 x3 x4, Statement (.amax x0 x1 x2 x3 x4) := by
  first | rintro x0 x1 x2 x3 x4 _ _ _ ⟨⟩; done | (rintro x0 x1 x2 x3 x4 _ _ _ ⟨⟩; first | exact ⟨_, _, .inl ⟨rfl, rfl⟩⟩ | exact ⟨_, _, .inr ⟨rfl, _, rfl⟩⟩)
theorem FrontLength.aand : ∀ x0 x1 x2 x3, Statement (.aand x0 x1 x2 x3) := by
  first | rintro x0 x1 x2 x3 _ _ _ ⟨⟩; done | (rintro x0 x1 x2 x3 _ _ _ ⟨⟩; first | exact ⟨_, _, .inl ⟨rfl, rfl⟩⟩ | exact ⟨_, _, .inr ⟨rfl, _, rfl⟩⟩)
theorem FrontLength.aor : ∀ x0 x1 x2 x3, Statement (.aor x0 x1 x2 x3) := by
  first | rintro x0 x1 x2 x3 _ _ _ ⟨⟩; done | (rintro x0 x1 x2 x3 _ _ _ ⟨⟩; first | exact ⟨_, _, .inl ⟨rfl, rfl⟩⟩ | exact ⟨_, _, .inr ⟨rfl, _, rfl⟩⟩)
theorem FrontLength.axor : ∀ x0 x1 x2 x3, Statement (.axor x0 x1 x2 x3) := by
  first | rintro x0 x1 x2 x3 _ _ _ ⟨⟩; done | (rintro x0 x1 x2 x3 _ _ _ ⟨⟩; first | exact ⟨_, _, .inl ⟨rfl, rfl⟩⟩ | exact ⟨_, _, .inr ⟨rfl, _, rfl⟩⟩)
theorem FrontLength.aswap : ∀ x0 x1 x2 x3, Statement (.aswap x0 x1 x2 x3) := by
  first | rintro x0 x1 x2 x3 _ _ _ ⟨⟩; done | (rintro x0 x1 x2 x3 _ _ _ ⟨⟩; first | exact ⟨_, _, .inl ⟨rfl, rfl⟩⟩ | exact ⟨_, _, .inr ⟨rfl, _, rfl⟩⟩)
theorem FrontLength.acas : ∀ x0 x1 x2 x3 x4, Statement (.acas x0 x1 x2 x3 x4) := by
  first | rintro x0 x1 x2 x3 x4 _ _ _ ⟨⟩; done | (rintro x0 x1 x2 x3 x4 _ _ _ ⟨⟩; first | exact ⟨_, _, .inl ⟨rfl, rfl⟩⟩ | exact ⟨_, _, .inr ⟨rfl, _, rfl⟩⟩)
theorem FrontLength.sget : ∀ x0 x1 x2, Statement (.sget x0 x1 x2) := by
  first | rintro x0 x1 x2 _ _ _ ⟨⟩; done | (rintro x0 x1 x2 _ _ _ ⟨⟩; first | exact ⟨_, _, .inl ⟨rfl, rfl⟩⟩ | exact ⟨_, _, .inr ⟨rfl, _, rfl⟩⟩)
theorem FrontLength.ssetFpc : ∀ x0 x1, Statement (.ssetFpc x0 x1) := by
  first | rintro x0 x1 _ _ _ ⟨⟩; done | (rintro x0 x1 _ _ _ ⟨⟩; first | exact ⟨_, _, .inl ⟨rfl, rfl⟩⟩ | exact ⟨_, _, .inr ⟨rfl, _, rfl⟩⟩)
theorem FrontLength.ssetFps : ∀ x0 x1, Statement (.ssetFps x0 x1) := by
  first | rintro x0 x1 _ _ _ ⟨⟩; done | (rintro x0 x1 _ _ _ ⟨⟩; first | exact ⟨_, _, .inl ⟨rfl, rfl⟩⟩ | exact ⟨_, _, .inr ⟨rfl, _, rfl⟩⟩)
theorem FrontLength.ssetTags : ∀ x0 x1, Statement (.ssetTags x0 x1) := by
  first | rintro x0 x1 _ _ _ ⟨⟩; done | (rintro x0 x1 _ _ _ ⟨⟩; first | exact ⟨_, _, .inl ⟨rfl, rfl⟩⟩ | exact ⟨_, _, .inr ⟨rfl, _, rfl⟩⟩)
theorem FrontLength.ssetLease : ∀ x0 x1, Statement (.ssetLease x0 x1) := by
  first | rintro x0 x1 _ _ _ ⟨⟩; done | (rintro x0 x1 _ _ _ ⟨⟩; first | exact ⟨_, _, .inl ⟨rfl, rfl⟩⟩ | exact ⟨_, _, .inr ⟨rfl, _, rfl⟩⟩)
theorem FrontLength.ssetPrio : ∀ x0 x1, Statement (.ssetPrio x0 x1) := by
  first | rintro x0 x1 _ _ _ ⟨⟩; done | (rintro x0 x1 _ _ _ ⟨⟩; first | exact ⟨_, _, .inl ⟨rfl, rfl⟩⟩ | exact ⟨_, _, .inr ⟨rfl, _, rfl⟩⟩)
theorem FrontLength.ssetMemb : ∀ x0 x1, Statement (.ssetMemb x0 x1) := by
  first | rintro x0 x1 _ _ _ ⟨⟩; done | (rintro x0 x1 _ _ _ ⟨⟩; first | exact ⟨_, _, .inl ⟨rfl, rfl⟩⟩ | exact ⟨_, _, .inr ⟨rfl, _, rfl⟩⟩)
theorem FrontLength.ssetLc : ∀ x0 x1 x2, Statement (.ssetLc x0 x1 x2) := by
  first | rintro x0 x1 x2 _ _ _ ⟨⟩; done | (rintro x0 x1 x2 _ _ _ ⟨⟩; first | exact ⟨_, _, .inl ⟨rfl, rfl⟩⟩ | exact ⟨_, _, .inr ⟨rfl, _, rfl⟩⟩)
theorem FrontLength.ssetBase : ∀ x0 x1 x2, Statement (.ssetBase x0 x1 x2) := by
  first | rintro x0 x1 x2 _ _ _ ⟨⟩; done | (rintro x0 x1 x2 _ _ _ ⟨⟩; first | exact ⟨_, _, .inl ⟨rfl, rfl⟩⟩ | exact ⟨_, _, .inr ⟨rfl, _, rfl⟩⟩)
theorem FrontLength.tfence : ∀ x0, Statement (.tfence x0) := by
  first | rintro x0 _ _ _ ⟨⟩; done | (rintro x0 _ _ _ ⟨⟩; first | exact ⟨_, _, .inl ⟨rfl, rfl⟩⟩ | exact ⟨_, _, .inr ⟨rfl, _, rfl⟩⟩)
theorem FrontLength.sysNop : ∀ x0 x1 x2, Statement (.sysNop x0 x1 x2) := by
  first | rintro x0 x1 x2 _ _ _ ⟨⟩; done | (rintro x0 x1 x2 _ _ _ ⟨⟩; first | exact ⟨_, _, .inl ⟨rfl, rfl⟩⟩ | exact ⟨_, _, .inr ⟨rfl, _, rfl⟩⟩)
theorem FrontLength.sysDtime : ∀ x0 x1 x2, Statement (.sysDtime x0 x1 x2) := by
  first | rintro x0 x1 x2 _ _ _ ⟨⟩; done | (rintro x0 x1 x2 _ _ _ ⟨⟩; first | exact ⟨_, _, .inl ⟨rfl, rfl⟩⟩ | exact ⟨_, _, .inr ⟨rfl, _, rfl⟩⟩)
theorem FrontLength.sysHostevent : ∀ x0 x1 x2, Statement (.sysHostevent x0 x1 x2) := by
  first | rintro x0 x1 x2 _ _ _ ⟨⟩; done | (rintro x0 x1 x2 _ _ _ ⟨⟩; first | exact ⟨_, _, .inl ⟨rfl, rfl⟩⟩ | exact ⟨_, _, .inr ⟨rfl, _, rfl⟩⟩)
theorem FrontLength.sysAllowance : ∀ x0 x1 x2, Statement (.sysAllowance x0 x1 x2) := by
  first | rintro x0 x1 x2 _ _ _ ⟨⟩; done | (rintro x0 x1 x2 _ _ _ ⟨⟩; first | exact ⟨_, _, .inl ⟨rfl, rfl⟩⟩ | exact ⟨_, _, .inr ⟨rfl, _, rfl⟩⟩)
theorem FrontLength.sysEstimate : ∀ x0 x1 x2, Statement (.sysEstimate x0 x1 x2) := by
  first | rintro x0 x1 x2 _ _ _ ⟨⟩; done | (rintro x0 x1 x2 _ _ _ ⟨⟩; first | exact ⟨_, _, .inl ⟨rfl, rfl⟩⟩ | exact ⟨_, _, .inr ⟨rfl, _, rfl⟩⟩)
theorem FrontLength.sysCtxinfo : ∀ x0 x1 x2, Statement (.sysCtxinfo x0 x1 x2) := by
  first | rintro x0 x1 x2 _ _ _ ⟨⟩; done | (rintro x0 x1 x2 _ _ _ ⟨⟩; first | exact ⟨_, _, .inl ⟨rfl, rfl⟩⟩ | exact ⟨_, _, .inr ⟨rfl, _, rfl⟩⟩)
theorem FrontLength.sysNoService : ∀ x0 x1 x2 x3, Statement (.sysNoService x0 x1 x2 x3) := by
  first | rintro x0 x1 x2 x3 _ _ _ ⟨⟩; done | (rintro x0 x1 x2 x3 _ _ _ ⟨⟩; first | exact ⟨_, _, .inl ⟨rfl, rfl⟩⟩ | exact ⟨_, _, .inr ⟨rfl, _, rfl⟩⟩)
theorem FrontLength.pchg : ∀ x0 x1, Statement (.pchg x0 x1) := by
  first | rintro x0 x1 _ _ _ ⟨⟩; done | (rintro x0 x1 _ _ _ ⟨⟩; first | exact ⟨_, _, .inl ⟨rfl, rfl⟩⟩ | exact ⟨_, _, .inr ⟨rfl, _, rfl⟩⟩)
theorem FrontLength.tlbi : ∀ x0 x1, Statement (.tlbi x0 x1) := by
  first | rintro x0 x1 _ _ _ ⟨⟩; done | (rintro x0 x1 _ _ _ ⟨⟩; first | exact ⟨_, _, .inl ⟨rfl, rfl⟩⟩ | exact ⟨_, _, .inr ⟨rfl, _, rfl⟩⟩)
theorem FrontLength.tlbia : ∀ x0, Statement (.tlbia x0) := by
  first | rintro x0 _ _ _ ⟨⟩; done | (rintro x0 _ _ _ ⟨⟩; first | exact ⟨_, _, .inl ⟨rfl, rfl⟩⟩ | exact ⟨_, _, .inr ⟨rfl, _, rfl⟩⟩)
theorem FrontLength.blclr : ∀ x0 x1, Statement (.blclr x0 x1) := by
  first | rintro x0 x1 _ _ _ ⟨⟩; done | (rintro x0 x1 _ _ _ ⟨⟩; first | exact ⟨_, _, .inl ⟨rfl, rfl⟩⟩ | exact ⟨_, _, .inr ⟨rfl, _, rfl⟩⟩)
theorem FrontLength.blq : ∀ x0 x1 x2, Statement (.blq x0 x1 x2) := by
  first | rintro x0 x1 x2 _ _ _ ⟨⟩; done | (rintro x0 x1 x2 _ _ _ ⟨⟩; first | exact ⟨_, _, .inl ⟨rfl, rfl⟩⟩ | exact ⟨_, _, .inr ⟨rfl, _, rfl⟩⟩)
theorem FrontLength.mfmt : ∀ x0 x1, Statement (.mfmt x0 x1) := by
  first | rintro x0 x1 _ _ _ ⟨⟩; done | (rintro x0 x1 _ _ _ ⟨⟩; first | exact ⟨_, _, .inl ⟨rfl, rfl⟩⟩ | exact ⟨_, _, .inr ⟨rfl, _, rfl⟩⟩)
theorem FrontLength.karm : ∀ x0 x1 x2 x3, Statement (.karm x0 x1 x2 x3) := by
  first | rintro x0 x1 x2 x3 _ _ _ ⟨⟩; done | (rintro x0 x1 x2 x3 _ _ _ ⟨⟩; first | exact ⟨_, _, .inl ⟨rfl, rfl⟩⟩ | exact ⟨_, _, .inr ⟨rfl, _, rfl⟩⟩)
theorem FrontLength.kstat : ∀ x0 x1 x2, Statement (.kstat x0 x1 x2) := by
  first | rintro x0 x1 x2 _ _ _ ⟨⟩; done | (rintro x0 x1 x2 _ _ _ ⟨⟩; first | exact ⟨_, _, .inl ⟨rfl, rfl⟩⟩ | exact ⟨_, _, .inr ⟨rfl, _, rfl⟩⟩)
theorem FrontLength.kdis : ∀ x0 x1 x2, Statement (.kdis x0 x1 x2) := by
  first | rintro x0 x1 x2 _ _ _ ⟨⟩; done | (rintro x0 x1 x2 _ _ _ ⟨⟩; first | exact ⟨_, _, .inl ⟨rfl, rfl⟩⟩ | exact ⟨_, _, .inr ⟨rfl, _, rfl⟩⟩)
theorem FrontLength.vadd : ∀ x0 x1 x2 x3 x4 x5 x6 x7 x8, Statement (.vadd x0 x1 x2 x3 x4 x5 x6 x7 x8) := by
  first | rintro x0 x1 x2 x3 x4 x5 x6 x7 x8 _ _ _ ⟨⟩; done | (rintro x0 x1 x2 x3 x4 x5 x6 x7 x8 _ _ _ ⟨⟩; first | exact ⟨_, _, .inl ⟨rfl, rfl⟩⟩ | exact ⟨_, _, .inr ⟨rfl, _, rfl⟩⟩)
theorem FrontLength.vsub : ∀ x0 x1 x2 x3 x4 x5 x6 x7 x8, Statement (.vsub x0 x1 x2 x3 x4 x5 x6 x7 x8) := by
  first | rintro x0 x1 x2 x3 x4 x5 x6 x7 x8 _ _ _ ⟨⟩; done | (rintro x0 x1 x2 x3 x4 x5 x6 x7 x8 _ _ _ ⟨⟩; first | exact ⟨_, _, .inl ⟨rfl, rfl⟩⟩ | exact ⟨_, _, .inr ⟨rfl, _, rfl⟩⟩)
theorem FrontLength.vmul : ∀ x0 x1 x2 x3 x4 x5 x6 x7 x8, Statement (.vmul x0 x1 x2 x3 x4 x5 x6 x7 x8) := by
  first | rintro x0 x1 x2 x3 x4 x5 x6 x7 x8 _ _ _ ⟨⟩; done | (rintro x0 x1 x2 x3 x4 x5 x6 x7 x8 _ _ _ ⟨⟩; first | exact ⟨_, _, .inl ⟨rfl, rfl⟩⟩ | exact ⟨_, _, .inr ⟨rfl, _, rfl⟩⟩)
theorem FrontLength.vmulh : ∀ x0 x1 x2 x3 x4 x5 x6, Statement (.vmulh x0 x1 x2 x3 x4 x5 x6) := by
  first | rintro x0 x1 x2 x3 x4 x5 x6 _ _ _ ⟨⟩; done | (rintro x0 x1 x2 x3 x4 x5 x6 _ _ _ ⟨⟩; first | exact ⟨_, _, .inl ⟨rfl, rfl⟩⟩ | exact ⟨_, _, .inr ⟨rfl, _, rfl⟩⟩)
theorem FrontLength.vfma : ∀ x0 x1 x2 x3 x4 x5 x6 x7 x8 x9 x10, Statement (.vfma x0 x1 x2 x3 x4 x5 x6 x7 x8 x9 x10) := by
  first | rintro x0 x1 x2 x3 x4 x5 x6 x7 x8 x9 x10 _ _ _ ⟨⟩; done | (rintro x0 x1 x2 x3 x4 x5 x6 x7 x8 x9 x10 _ _ _ ⟨⟩; first | exact ⟨_, _, .inl ⟨rfl, rfl⟩⟩ | exact ⟨_, _, .inr ⟨rfl, _, rfl⟩⟩)
theorem FrontLength.vfms : ∀ x0 x1 x2 x3 x4 x5 x6 x7 x8 x9 x10, Statement (.vfms x0 x1 x2 x3 x4 x5 x6 x7 x8 x9 x10) := by
  first | rintro x0 x1 x2 x3 x4 x5 x6 x7 x8 x9 x10 _ _ _ ⟨⟩; done | (rintro x0 x1 x2 x3 x4 x5 x6 x7 x8 x9 x10 _ _ _ ⟨⟩; first | exact ⟨_, _, .inl ⟨rfl, rfl⟩⟩ | exact ⟨_, _, .inr ⟨rfl, _, rfl⟩⟩)
theorem FrontLength.vfnma : ∀ x0 x1 x2 x3 x4 x5 x6 x7 x8 x9 x10, Statement (.vfnma x0 x1 x2 x3 x4 x5 x6 x7 x8 x9 x10) := by
  first | rintro x0 x1 x2 x3 x4 x5 x6 x7 x8 x9 x10 _ _ _ ⟨⟩; done | (rintro x0 x1 x2 x3 x4 x5 x6 x7 x8 x9 x10 _ _ _ ⟨⟩; first | exact ⟨_, _, .inl ⟨rfl, rfl⟩⟩ | exact ⟨_, _, .inr ⟨rfl, _, rfl⟩⟩)
theorem FrontLength.vabs : ∀ x0 x1 x2 x3 x4 x5, Statement (.vabs x0 x1 x2 x3 x4 x5) := by
  first | rintro x0 x1 x2 x3 x4 x5 _ _ _ ⟨⟩; done | (rintro x0 x1 x2 x3 x4 x5 _ _ _ ⟨⟩; first | exact ⟨_, _, .inl ⟨rfl, rfl⟩⟩ | exact ⟨_, _, .inr ⟨rfl, _, rfl⟩⟩)
theorem FrontLength.vneg : ∀ x0 x1 x2 x3 x4 x5, Statement (.vneg x0 x1 x2 x3 x4 x5) := by
  first | rintro x0 x1 x2 x3 x4 x5 _ _ _ ⟨⟩; done | (rintro x0 x1 x2 x3 x4 x5 _ _ _ ⟨⟩; first | exact ⟨_, _, .inl ⟨rfl, rfl⟩⟩ | exact ⟨_, _, .inr ⟨rfl, _, rfl⟩⟩)
theorem FrontLength.vmin : ∀ x0 x1 x2 x3 x4 x5 x6, Statement (.vmin x0 x1 x2 x3 x4 x5 x6) := by
  first | rintro x0 x1 x2 x3 x4 x5 x6 _ _ _ ⟨⟩; done | (rintro x0 x1 x2 x3 x4 x5 x6 _ _ _ ⟨⟩; first | exact ⟨_, _, .inl ⟨rfl, rfl⟩⟩ | exact ⟨_, _, .inr ⟨rfl, _, rfl⟩⟩)
theorem FrontLength.vmax : ∀ x0 x1 x2 x3 x4 x5 x6, Statement (.vmax x0 x1 x2 x3 x4 x5 x6) := by
  first | rintro x0 x1 x2 x3 x4 x5 x6 _ _ _ ⟨⟩; done | (rintro x0 x1 x2 x3 x4 x5 x6 _ _ _ ⟨⟩; first | exact ⟨_, _, .inl ⟨rfl, rfl⟩⟩ | exact ⟨_, _, .inr ⟨rfl, _, rfl⟩⟩)
theorem FrontLength.vabd : ∀ x0 x1 x2 x3 x4 x5 x6 x7 x8, Statement (.vabd x0 x1 x2 x3 x4 x5 x6 x7 x8) := by
  first | rintro x0 x1 x2 x3 x4 x5 x6 x7 x8 _ _ _ ⟨⟩; done | (rintro x0 x1 x2 x3 x4 x5 x6 x7 x8 _ _ _ ⟨⟩; first | exact ⟨_, _, .inl ⟨rfl, rfl⟩⟩ | exact ⟨_, _, .inr ⟨rfl, _, rfl⟩⟩)
theorem FrontLength.vclamp : ∀ x0 x1 x2 x3 x4 x5 x6 x7 x8, Statement (.vclamp x0 x1 x2 x3 x4 x5 x6 x7 x8) := by
  first | rintro x0 x1 x2 x3 x4 x5 x6 x7 x8 _ _ _ ⟨⟩; done | (rintro x0 x1 x2 x3 x4 x5 x6 x7 x8 _ _ _ ⟨⟩; first | exact ⟨_, _, .inl ⟨rfl, rfl⟩⟩ | exact ⟨_, _, .inr ⟨rfl, _, rfl⟩⟩)
theorem FrontLength.vdiv : ∀ x0 x1 x2 x3 x4 x5 x6 x7 x8, Statement (.vdiv x0 x1 x2 x3 x4 x5 x6 x7 x8) := by
  first | rintro x0 x1 x2 x3 x4 x5 x6 x7 x8 _ _ _ ⟨⟩; done | (rintro x0 x1 x2 x3 x4 x5 x6 x7 x8 _ _ _ ⟨⟩; first | exact ⟨_, _, .inl ⟨rfl, rfl⟩⟩ | exact ⟨_, _, .inr ⟨rfl, _, rfl⟩⟩)
theorem FrontLength.vand : ∀ x0 x1 x2 x3 x4 x5 x6, Statement (.vand x0 x1 x2 x3 x4 x5 x6) := by
  first | rintro x0 x1 x2 x3 x4 x5 x6 _ _ _ ⟨⟩; done | (rintro x0 x1 x2 x3 x4 x5 x6 _ _ _ ⟨⟩; first | exact ⟨_, _, .inl ⟨rfl, rfl⟩⟩ | exact ⟨_, _, .inr ⟨rfl, _, rfl⟩⟩)
theorem FrontLength.vor : ∀ x0 x1 x2 x3 x4 x5 x6, Statement (.vor x0 x1 x2 x3 x4 x5 x6) := by
  first | rintro x0 x1 x2 x3 x4 x5 x6 _ _ _ ⟨⟩; done | (rintro x0 x1 x2 x3 x4 x5 x6 _ _ _ ⟨⟩; first | exact ⟨_, _, .inl ⟨rfl, rfl⟩⟩ | exact ⟨_, _, .inr ⟨rfl, _, rfl⟩⟩)
theorem FrontLength.vxor : ∀ x0 x1 x2 x3 x4 x5 x6, Statement (.vxor x0 x1 x2 x3 x4 x5 x6) := by
  first | rintro x0 x1 x2 x3 x4 x5 x6 _ _ _ ⟨⟩; done | (rintro x0 x1 x2 x3 x4 x5 x6 _ _ _ ⟨⟩; first | exact ⟨_, _, .inl ⟨rfl, rfl⟩⟩ | exact ⟨_, _, .inr ⟨rfl, _, rfl⟩⟩)
theorem FrontLength.vnot : ∀ x0 x1 x2 x3 x4, Statement (.vnot x0 x1 x2 x3 x4) := by
  first | rintro x0 x1 x2 x3 x4 _ _ _ ⟨⟩; done | (rintro x0 x1 x2 x3 x4 _ _ _ ⟨⟩; first | exact ⟨_, _, .inl ⟨rfl, rfl⟩⟩ | exact ⟨_, _, .inr ⟨rfl, _, rfl⟩⟩)
theorem FrontLength.vshl : ∀ x0 x1 x2 x3 x4 x5 x6 x7, Statement (.vshl x0 x1 x2 x3 x4 x5 x6 x7) := by
  first | rintro x0 x1 x2 x3 x4 x5 x6 x7 _ _ _ ⟨⟩; done | (rintro x0 x1 x2 x3 x4 x5 x6 x7 _ _ _ ⟨⟩; first | exact ⟨_, _, .inl ⟨rfl, rfl⟩⟩ | exact ⟨_, _, .inr ⟨rfl, _, rfl⟩⟩)
theorem FrontLength.vshr : ∀ x0 x1 x2 x3 x4 x5 x6, Statement (.vshr x0 x1 x2 x3 x4 x5 x6) := by
  first | rintro x0 x1 x2 x3 x4 x5 x6 _ _ _ ⟨⟩; done | (rintro x0 x1 x2 x3 x4 x5 x6 _ _ _ ⟨⟩; first | exact ⟨_, _, .inl ⟨rfl, rfl⟩⟩ | exact ⟨_, _, .inr ⟨rfl, _, rfl⟩⟩)
theorem FrontLength.vsra : ∀ x0 x1 x2 x3 x4 x5 x6, Statement (.vsra x0 x1 x2 x3 x4 x5 x6) := by
  first | rintro x0 x1 x2 x3 x4 x5 x6 _ _ _ ⟨⟩; done | (rintro x0 x1 x2 x3 x4 x5 x6 _ _ _ ⟨⟩; first | exact ⟨_, _, .inl ⟨rfl, rfl⟩⟩ | exact ⟨_, _, .inr ⟨rfl, _, rfl⟩⟩)
theorem FrontLength.vrot : ∀ x0 x1 x2 x3 x4 x5 x6, Statement (.vrot x0 x1 x2 x3 x4 x5 x6) := by
  first | rintro x0 x1 x2 x3 x4 x5 x6 _ _ _ ⟨⟩; done | (rintro x0 x1 x2 x3 x4 x5 x6 _ _ _ ⟨⟩; first | exact ⟨_, _, .inl ⟨rfl, rfl⟩⟩ | exact ⟨_, _, .inr ⟨rfl, _, rfl⟩⟩)
theorem FrontLength.vcmp : ∀ x0 x1 x2 x3 x4 x5 x6 x7, Statement (.vcmp x0 x1 x2 x3 x4 x5 x6 x7) := by
  first | rintro x0 x1 x2 x3 x4 x5 x6 x7 _ _ _ ⟨⟩; done | (rintro x0 x1 x2 x3 x4 x5 x6 x7 _ _ _ ⟨⟩; first | exact ⟨_, _, .inl ⟨rfl, rfl⟩⟩ | exact ⟨_, _, .inr ⟨rfl, _, rfl⟩⟩)
theorem FrontLength.vsel : ∀ x0 x1 x2 x3 x4 x5 x6, Statement (.vsel x0 x1 x2 x3 x4 x5 x6) := by
  first | rintro x0 x1 x2 x3 x4 x5 x6 _ _ _ ⟨⟩; done | (rintro x0 x1 x2 x3 x4 x5 x6 _ _ _ ⟨⟩; first | exact ⟨_, _, .inl ⟨rfl, rfl⟩⟩ | exact ⟨_, _, .inr ⟨rfl, _, rfl⟩⟩)
theorem FrontLength.kand : ∀ x0 x1 x2 x3, Statement (.kand x0 x1 x2 x3) := by
  first | rintro x0 x1 x2 x3 _ _ _ ⟨⟩; done | (rintro x0 x1 x2 x3 _ _ _ ⟨⟩; first | exact ⟨_, _, .inl ⟨rfl, rfl⟩⟩ | exact ⟨_, _, .inr ⟨rfl, _, rfl⟩⟩)
theorem FrontLength.kor : ∀ x0 x1 x2 x3, Statement (.kor x0 x1 x2 x3) := by
  first | rintro x0 x1 x2 x3 _ _ _ ⟨⟩; done | (rintro x0 x1 x2 x3 _ _ _ ⟨⟩; first | exact ⟨_, _, .inl ⟨rfl, rfl⟩⟩ | exact ⟨_, _, .inr ⟨rfl, _, rfl⟩⟩)
theorem FrontLength.kxor : ∀ x0 x1 x2 x3, Statement (.kxor x0 x1 x2 x3) := by
  first | rintro x0 x1 x2 x3 _ _ _ ⟨⟩; done | (rintro x0 x1 x2 x3 _ _ _ ⟨⟩; first | exact ⟨_, _, .inl ⟨rfl, rfl⟩⟩ | exact ⟨_, _, .inr ⟨rfl, _, rfl⟩⟩)
theorem FrontLength.knot : ∀ x0 x1 x2, Statement (.knot x0 x1 x2) := by
  first | rintro x0 x1 x2 _ _ _ ⟨⟩; done | (rintro x0 x1 x2 _ _ _ ⟨⟩; first | exact ⟨_, _, .inl ⟨rfl, rfl⟩⟩ | exact ⟨_, _, .inr ⟨rfl, _, rfl⟩⟩)
theorem FrontLength.kmov : ∀ x0 x1 x2, Statement (.kmov x0 x1 x2) := by
  first | rintro x0 x1 x2 _ _ _ ⟨⟩; done | (rintro x0 x1 x2 _ _ _ ⟨⟩; first | exact ⟨_, _, .inl ⟨rfl, rfl⟩⟩ | exact ⟨_, _, .inr ⟨rfl, _, rfl⟩⟩)
theorem FrontLength.kmovS : ∀ x0 x1 x2 x3, Statement (.kmovS x0 x1 x2 x3) := by
  first | rintro x0 x1 x2 x3 _ _ _ ⟨⟩; done | (rintro x0 x1 x2 x3 _ _ _ ⟨⟩; first | exact ⟨_, _, .inl ⟨rfl, rfl⟩⟩ | exact ⟨_, _, .inr ⟨rfl, _, rfl⟩⟩)
theorem FrontLength.kpop : ∀ x0 x1 x2 x3, Statement (.kpop x0 x1 x2 x3) := by
  first | rintro x0 x1 x2 x3 _ _ _ ⟨⟩; done | (rintro x0 x1 x2 x3 _ _ _ ⟨⟩; first | exact ⟨_, _, .inl ⟨rfl, rfl⟩⟩ | exact ⟨_, _, .inr ⟨rfl, _, rfl⟩⟩)
theorem FrontLength.vperm : ∀ x0 x1 x2 x3 x4 x5, Statement (.vperm x0 x1 x2 x3 x4 x5) := by
  first | rintro x0 x1 x2 x3 x4 x5 _ _ _ ⟨⟩; done | (rintro x0 x1 x2 x3 x4 x5 _ _ _ ⟨⟩; first | exact ⟨_, _, .inl ⟨rfl, rfl⟩⟩ | exact ⟨_, _, .inr ⟨rfl, _, rfl⟩⟩)
theorem FrontLength.vrev : ∀ x0 x1 x2 x3 x4, Statement (.vrev x0 x1 x2 x3 x4) := by
  first | rintro x0 x1 x2 x3 x4 _ _ _ ⟨⟩; done | (rintro x0 x1 x2 x3 x4 _ _ _ ⟨⟩; first | exact ⟨_, _, .inl ⟨rfl, rfl⟩⟩ | exact ⟨_, _, .inr ⟨rfl, _, rfl⟩⟩)
theorem FrontLength.vzip : ∀ x0 x1 x2 x3 x4, Statement (.vzip x0 x1 x2 x3 x4) := by
  first | rintro x0 x1 x2 x3 x4 _ _ _ ⟨⟩; done | (rintro x0 x1 x2 x3 x4 _ _ _ ⟨⟩; first | exact ⟨_, _, .inl ⟨rfl, rfl⟩⟩ | exact ⟨_, _, .inr ⟨rfl, _, rfl⟩⟩)
theorem FrontLength.vunzip : ∀ x0 x1 x2 x3 x4, Statement (.vunzip x0 x1 x2 x3 x4) := by
  first | rintro x0 x1 x2 x3 x4 _ _ _ ⟨⟩; done | (rintro x0 x1 x2 x3 x4 _ _ _ ⟨⟩; first | exact ⟨_, _, .inl ⟨rfl, rfl⟩⟩ | exact ⟨_, _, .inr ⟨rfl, _, rfl⟩⟩)
theorem FrontLength.vslide : ∀ x0 x1 x2 x3 x4 x5 x6, Statement (.vslide x0 x1 x2 x3 x4 x5 x6) := by
  first | rintro x0 x1 x2 x3 x4 x5 x6 _ _ _ ⟨⟩; done | (rintro x0 x1 x2 x3 x4 x5 x6 _ _ _ ⟨⟩; first | exact ⟨_, _, .inl ⟨rfl, rfl⟩⟩ | exact ⟨_, _, .inr ⟨rfl, _, rfl⟩⟩)
theorem FrontLength.vbcast : ∀ x0 x1 x2 x3 x4, Statement (.vbcast x0 x1 x2 x3 x4) := by
  first | rintro x0 x1 x2 x3 x4 _ _ _ ⟨⟩; done | (rintro x0 x1 x2 x3 x4 _ _ _ ⟨⟩; first | exact ⟨_, _, .inl ⟨rfl, rfl⟩⟩ | exact ⟨_, _, .inr ⟨rfl, _, rfl⟩⟩)
theorem FrontLength.vbcastEl : ∀ x0 x1 x2 x3 x4 x5, Statement (.vbcastEl x0 x1 x2 x3 x4 x5) := by
  first | rintro x0 x1 x2 x3 x4 x5 _ _ _ ⟨⟩; done | (rintro x0 x1 x2 x3 x4 x5 _ _ _ ⟨⟩; first | exact ⟨_, _, .inl ⟨rfl, rfl⟩⟩ | exact ⟨_, _, .inr ⟨rfl, _, rfl⟩⟩)
theorem FrontLength.vext : ∀ x0 x1 x2 x3 x4, Statement (.vext x0 x1 x2 x3 x4) := by
  first | rintro x0 x1 x2 x3 x4 _ _ _ ⟨⟩; done | (rintro x0 x1 x2 x3 x4 _ _ _ ⟨⟩; first | exact ⟨_, _, .inl ⟨rfl, rfl⟩⟩ | exact ⟨_, _, .inr ⟨rfl, _, rfl⟩⟩)
theorem FrontLength.vins : ∀ x0 x1 x2 x3 x4, Statement (.vins x0 x1 x2 x3 x4) := by
  first | rintro x0 x1 x2 x3 x4 _ _ _ ⟨⟩; done | (rintro x0 x1 x2 x3 x4 _ _ _ ⟨⟩; first | exact ⟨_, _, .inl ⟨rfl, rfl⟩⟩ | exact ⟨_, _, .inr ⟨rfl, _, rfl⟩⟩)
theorem FrontLength.vmov : ∀ x0 x1 x2 x3 x4, Statement (.vmov x0 x1 x2 x3 x4) := by
  first | rintro x0 x1 x2 x3 x4 _ _ _ ⟨⟩; done | (rintro x0 x1 x2 x3 x4 _ _ _ ⟨⟩; first | exact ⟨_, _, .inl ⟨rfl, rfl⟩⟩ | exact ⟨_, _, .inr ⟨rfl, _, rfl⟩⟩)
theorem FrontLength.vcmpr : ∀ x0 x1 x2 x3 x4, Statement (.vcmpr x0 x1 x2 x3 x4) := by
  first | rintro x0 x1 x2 x3 x4 _ _ _ ⟨⟩; done | (rintro x0 x1 x2 x3 x4 _ _ _ ⟨⟩; first | exact ⟨_, _, .inl ⟨rfl, rfl⟩⟩ | exact ⟨_, _, .inr ⟨rfl, _, rfl⟩⟩)
theorem FrontLength.vexpd : ∀ x0 x1 x2 x3 x4, Statement (.vexpd x0 x1 x2 x3 x4) := by
  first | rintro x0 x1 x2 x3 x4 _ _ _ ⟨⟩; done | (rintro x0 x1 x2 x3 x4 _ _ _ ⟨⟩; first | exact ⟨_, _, .inl ⟨rfl, rfl⟩⟩ | exact ⟨_, _, .inr ⟨rfl, _, rfl⟩⟩)
theorem FrontLength.vwadd : ∀ x0 x1 x2 x3 x4 x5 x6 x7 x8, Statement (.vwadd x0 x1 x2 x3 x4 x5 x6 x7 x8) := by
  first | rintro x0 x1 x2 x3 x4 x5 x6 x7 x8 _ _ _ ⟨⟩; done | (rintro x0 x1 x2 x3 x4 x5 x6 x7 x8 _ _ _ ⟨⟩; first | exact ⟨_, _, .inl ⟨rfl, rfl⟩⟩ | exact ⟨_, _, .inr ⟨rfl, _, rfl⟩⟩)
theorem FrontLength.vwmul : ∀ x0 x1 x2 x3 x4 x5 x6 x7 x8, Statement (.vwmul x0 x1 x2 x3 x4 x5 x6 x7 x8) := by
  first | rintro x0 x1 x2 x3 x4 x5 x6 x7 x8 _ _ _ ⟨⟩; done | (rintro x0 x1 x2 x3 x4 x5 x6 x7 x8 _ _ _ ⟨⟩; first | exact ⟨_, _, .inl ⟨rfl, rfl⟩⟩ | exact ⟨_, _, .inr ⟨rfl, _, rfl⟩⟩)
theorem FrontLength.vwcvt : ∀ x0 x1 x2 x3 x4 x5 x6 x7, Statement (.vwcvt x0 x1 x2 x3 x4 x5 x6 x7) := by
  first | rintro x0 x1 x2 x3 x4 x5 x6 x7 _ _ _ ⟨⟩; done | (rintro x0 x1 x2 x3 x4 x5 x6 x7 _ _ _ ⟨⟩; first | exact ⟨_, _, .inl ⟨rfl, rfl⟩⟩ | exact ⟨_, _, .inr ⟨rfl, _, rfl⟩⟩)
theorem FrontLength.vnar : ∀ x0 x1 x2 x3 x4 x5 x6 x7, Statement (.vnar x0 x1 x2 x3 x4 x5 x6 x7) := by
  first | rintro x0 x1 x2 x3 x4 x5 x6 x7 _ _ _ ⟨⟩; done | (rintro x0 x1 x2 x3 x4 x5 x6 x7 _ _ _ ⟨⟩; first | exact ⟨_, _, .inl ⟨rfl, rfl⟩⟩ | exact ⟨_, _, .inr ⟨rfl, _, rfl⟩⟩)
theorem FrontLength.vcvt : ∀ x0 x1 x2 x3 x4 x5 x6 x7 x8, Statement (.vcvt x0 x1 x2 x3 x4 x5 x6 x7 x8) := by
  first | rintro x0 x1 x2 x3 x4 x5 x6 x7 x8 _ _ _ ⟨⟩; done | (rintro x0 x1 x2 x3 x4 x5 x6 x7 x8 _ _ _ ⟨⟩; first | exact ⟨_, _, .inl ⟨rfl, rfl⟩⟩ | exact ⟨_, _, .inr ⟨rfl, _, rfl⟩⟩)
theorem FrontLength.vunpk : ∀ x0 x1 x2 x3 x4 x5 x6 x7, Statement (.vunpk x0 x1 x2 x3 x4 x5 x6 x7) := by
  first | rintro x0 x1 x2 x3 x4 x5 x6 x7 _ _ _ ⟨⟩; done | (rintro x0 x1 x2 x3 x4 x5 x6 x7 _ _ _ ⟨⟩; first | exact ⟨_, _, .inl ⟨rfl, rfl⟩⟩ | exact ⟨_, _, .inr ⟨rfl, _, rfl⟩⟩)
theorem FrontLength.vsum : ∀ x0 x1 x2 x3 x4 x5 x6 x7, Statement (.vsum x0 x1 x2 x3 x4 x5 x6 x7) := by
  first | rintro x0 x1 x2 x3 x4 x5 x6 x7 _ _ _ ⟨⟩; done | (rintro x0 x1 x2 x3 x4 x5 x6 x7 _ _ _ ⟨⟩; first | exact ⟨_, _, .inl ⟨rfl, rfl⟩⟩ | exact ⟨_, _, .inr ⟨rfl, _, rfl⟩⟩)
theorem FrontLength.vsumw : ∀ x0 x1 x2 x3 x4 x5 x6 x7 x8, Statement (.vsumw x0 x1 x2 x3 x4 x5 x6 x7 x8) := by
  first | rintro x0 x1 x2 x3 x4 x5 x6 x7 x8 _ _ _ ⟨⟩; done | (rintro x0 x1 x2 x3 x4 x5 x6 x7 x8 _ _ _ ⟨⟩; first | exact ⟨_, _, .inl ⟨rfl, rfl⟩⟩ | exact ⟨_, _, .inr ⟨rfl, _, rfl⟩⟩)
theorem FrontLength.vmaxr : ∀ x0 x1 x2 x3 x4 x5, Statement (.vmaxr x0 x1 x2 x3 x4 x5) := by
  first | rintro x0 x1 x2 x3 x4 x5 _ _ _ ⟨⟩; done | (rintro x0 x1 x2 x3 x4 x5 _ _ _ ⟨⟩; first | exact ⟨_, _, .inl ⟨rfl, rfl⟩⟩ | exact ⟨_, _, .inr ⟨rfl, _, rfl⟩⟩)
theorem FrontLength.vminr : ∀ x0 x1 x2 x3 x4 x5, Statement (.vminr x0 x1 x2 x3 x4 x5) := by
  first | rintro x0 x1 x2 x3 x4 x5 _ _ _ ⟨⟩; done | (rintro x0 x1 x2 x3 x4 x5 _ _ _ ⟨⟩; first | exact ⟨_, _, .inl ⟨rfl, rfl⟩⟩ | exact ⟨_, _, .inr ⟨rfl, _, rfl⟩⟩)
theorem FrontLength.vexp : ∀ x0 x1 x2 x3 x4, Statement (.vexp x0 x1 x2 x3 x4) := by
  first | rintro x0 x1 x2 x3 x4 _ _ _ ⟨⟩; done | (rintro x0 x1 x2 x3 x4 _ _ _ ⟨⟩; first | exact ⟨_, _, .inl ⟨rfl, rfl⟩⟩ | exact ⟨_, _, .inr ⟨rfl, _, rfl⟩⟩)
theorem FrontLength.vexp2 : ∀ x0 x1 x2 x3 x4, Statement (.vexp2 x0 x1 x2 x3 x4) := by
  first | rintro x0 x1 x2 x3 x4 _ _ _ ⟨⟩; done | (rintro x0 x1 x2 x3 x4 _ _ _ ⟨⟩; first | exact ⟨_, _, .inl ⟨rfl, rfl⟩⟩ | exact ⟨_, _, .inr ⟨rfl, _, rfl⟩⟩)
theorem FrontLength.vlog2 : ∀ x0 x1 x2 x3 x4, Statement (.vlog2 x0 x1 x2 x3 x4) := by
  first | rintro x0 x1 x2 x3 x4 _ _ _ ⟨⟩; done | (rintro x0 x1 x2 x3 x4 _ _ _ ⟨⟩; first | exact ⟨_, _, .inl ⟨rfl, rfl⟩⟩ | exact ⟨_, _, .inr ⟨rfl, _, rfl⟩⟩)
theorem FrontLength.vrcp : ∀ x0 x1 x2 x3 x4, Statement (.vrcp x0 x1 x2 x3 x4) := by
  first | rintro x0 x1 x2 x3 x4 _ _ _ ⟨⟩; done | (rintro x0 x1 x2 x3 x4 _ _ _ ⟨⟩; first | exact ⟨_, _, .inl ⟨rfl, rfl⟩⟩ | exact ⟨_, _, .inr ⟨rfl, _, rfl⟩⟩)
theorem FrontLength.vrsqrt : ∀ x0 x1 x2 x3 x4, Statement (.vrsqrt x0 x1 x2 x3 x4) := by
  first | rintro x0 x1 x2 x3 x4 _ _ _ ⟨⟩; done | (rintro x0 x1 x2 x3 x4 _ _ _ ⟨⟩; first | exact ⟨_, _, .inl ⟨rfl, rfl⟩⟩ | exact ⟨_, _, .inr ⟨rfl, _, rfl⟩⟩)
theorem FrontLength.vsqrt : ∀ x0 x1 x2 x3 x4 x5, Statement (.vsqrt x0 x1 x2 x3 x4 x5) := by
  first | rintro x0 x1 x2 x3 x4 x5 _ _ _ ⟨⟩; done | (rintro x0 x1 x2 x3 x4 x5 _ _ _ ⟨⟩; first | exact ⟨_, _, .inl ⟨rfl, rfl⟩⟩ | exact ⟨_, _, .inr ⟨rfl, _, rfl⟩⟩)
theorem FrontLength.vsin : ∀ x0 x1 x2 x3 x4, Statement (.vsin x0 x1 x2 x3 x4) := by
  first | rintro x0 x1 x2 x3 x4 _ _ _ ⟨⟩; done | (rintro x0 x1 x2 x3 x4 _ _ _ ⟨⟩; first | exact ⟨_, _, .inl ⟨rfl, rfl⟩⟩ | exact ⟨_, _, .inr ⟨rfl, _, rfl⟩⟩)
theorem FrontLength.vcos : ∀ x0 x1 x2 x3 x4, Statement (.vcos x0 x1 x2 x3 x4) := by
  first | rintro x0 x1 x2 x3 x4 _ _ _ ⟨⟩; done | (rintro x0 x1 x2 x3 x4 _ _ _ ⟨⟩; first | exact ⟨_, _, .inl ⟨rfl, rfl⟩⟩ | exact ⟨_, _, .inr ⟨rfl, _, rfl⟩⟩)
theorem FrontLength.vtanh : ∀ x0 x1 x2 x3 x4, Statement (.vtanh x0 x1 x2 x3 x4) := by
  first | rintro x0 x1 x2 x3 x4 _ _ _ ⟨⟩; done | (rintro x0 x1 x2 x3 x4 _ _ _ ⟨⟩; first | exact ⟨_, _, .inl ⟨rfl, rfl⟩⟩ | exact ⟨_, _, .inr ⟨rfl, _, rfl⟩⟩)
theorem FrontLength.vsigm : ∀ x0 x1 x2 x3 x4, Statement (.vsigm x0 x1 x2 x3 x4) := by
  first | rintro x0 x1 x2 x3 x4 _ _ _ ⟨⟩; done | (rintro x0 x1 x2 x3 x4 _ _ _ ⟨⟩; first | exact ⟨_, _, .inl ⟨rfl, rfl⟩⟩ | exact ⟨_, _, .inr ⟨rfl, _, rfl⟩⟩)
theorem FrontLength.vrand : ∀ x0 x1 x2 x3 x4 x5, Statement (.vrand x0 x1 x2 x3 x4 x5) := by
  first | rintro x0 x1 x2 x3 x4 x5 _ _ _ ⟨⟩; done | (rintro x0 x1 x2 x3 x4 x5 _ _ _ ⟨⟩; first | exact ⟨_, _, .inl ⟨rfl, rfl⟩⟩ | exact ⟨_, _, .inr ⟨rfl, _, rfl⟩⟩)
theorem FrontLength.vld : ∀ x0 x1 x2 x3, Statement (.vld x0 x1 x2 x3) := by
  first | rintro x0 x1 x2 x3 _ _ _ ⟨⟩; done | (rintro x0 x1 x2 x3 _ _ _ ⟨⟩; first | exact ⟨_, _, .inl ⟨rfl, rfl⟩⟩ | exact ⟨_, _, .inr ⟨rfl, _, rfl⟩⟩)
theorem FrontLength.vst : ∀ x0 x1 x2 x3, Statement (.vst x0 x1 x2 x3) := by
  first | rintro x0 x1 x2 x3 _ _ _ ⟨⟩; done | (rintro x0 x1 x2 x3 _ _ _ ⟨⟩; first | exact ⟨_, _, .inl ⟨rfl, rfl⟩⟩ | exact ⟨_, _, .inr ⟨rfl, _, rfl⟩⟩)
theorem FrontLength.vlds : ∀ x0 x1 x2 x3 x4 x5, Statement (.vlds x0 x1 x2 x3 x4 x5) := by
  first | rintro x0 x1 x2 x3 x4 x5 _ _ _ ⟨⟩; done | (rintro x0 x1 x2 x3 x4 x5 _ _ _ ⟨⟩; first | exact ⟨_, _, .inl ⟨rfl, rfl⟩⟩ | exact ⟨_, _, .inr ⟨rfl, _, rfl⟩⟩)
theorem FrontLength.vsts : ∀ x0 x1 x2 x3 x4 x5, Statement (.vsts x0 x1 x2 x3 x4 x5) := by
  first | rintro x0 x1 x2 x3 x4 x5 _ _ _ ⟨⟩; done | (rintro x0 x1 x2 x3 x4 x5 _ _ _ ⟨⟩; first | exact ⟨_, _, .inl ⟨rfl, rfl⟩⟩ | exact ⟨_, _, .inr ⟨rfl, _, rfl⟩⟩)
theorem FrontLength.vldx : ∀ x0 x1 x2 x3 x4 x5, Statement (.vldx x0 x1 x2 x3 x4 x5) := by
  first | rintro x0 x1 x2 x3 x4 x5 _ _ _ ⟨⟩; done | (rintro x0 x1 x2 x3 x4 x5 _ _ _ ⟨⟩; first | exact ⟨_, _, .inl ⟨rfl, rfl⟩⟩ | exact ⟨_, _, .inr ⟨rfl, _, rfl⟩⟩)
theorem FrontLength.vstx : ∀ x0 x1 x2 x3 x4 x5, Statement (.vstx x0 x1 x2 x3 x4 x5) := by
  first | rintro x0 x1 x2 x3 x4 x5 _ _ _ ⟨⟩; done | (rintro x0 x1 x2 x3 x4 x5 _ _ _ ⟨⟩; first | exact ⟨_, _, .inl ⟨rfl, rfl⟩⟩ | exact ⟨_, _, .inr ⟨rfl, _, rfl⟩⟩)
theorem FrontLength.vldb : ∀ x0 x1 x2 x3, Statement (.vldb x0 x1 x2 x3) := by
  first | rintro x0 x1 x2 x3 _ _ _ ⟨⟩; done | (rintro x0 x1 x2 x3 _ _ _ ⟨⟩; first | exact ⟨_, _, .inl ⟨rfl, rfl⟩⟩ | exact ⟨_, _, .inr ⟨rfl, _, rfl⟩⟩)
theorem FrontLength.mlease : ∀ x0, Statement (.mlease x0) := by
  first | rintro x0 _ _ _ ⟨⟩; done | (rintro x0 _ _ _ ⟨⟩; first | exact ⟨_, _, .inl ⟨rfl, rfl⟩⟩ | exact ⟨_, _, .inr ⟨rfl, _, rfl⟩⟩)
theorem FrontLength.mrel : ∀ x0, Statement (.mrel x0) := by
  first | rintro x0 _ _ _ ⟨⟩; done | (rintro x0 _ _ _ ⟨⟩; first | exact ⟨_, _, .inl ⟨rfl, rfl⟩⟩ | exact ⟨_, _, .inr ⟨rfl, _, rfl⟩⟩)
theorem FrontLength.mmul : ∀ x0 x1 x2 x3 x4 x5 x6 x7 x8 x9, Statement (.mmul x0 x1 x2 x3 x4 x5 x6 x7 x8 x9) := by
  first | rintro x0 x1 x2 x3 x4 x5 x6 x7 x8 x9 _ _ _ ⟨⟩; done | (rintro x0 x1 x2 x3 x4 x5 x6 x7 x8 x9 _ _ _ ⟨⟩; first | exact ⟨_, _, .inl ⟨rfl, rfl⟩⟩ | exact ⟨_, _, .inr ⟨rfl, _, rfl⟩⟩)
theorem FrontLength.mslice : ∀ x0 x1 x2 x3 x4 x5 x6 x7 x8, Statement (.mslice x0 x1 x2 x3 x4 x5 x6 x7 x8) := by
  first | rintro x0 x1 x2 x3 x4 x5 x6 x7 x8 _ _ _ ⟨⟩; done | (rintro x0 x1 x2 x3 x4 x5 x6 x7 x8 _ _ _ ⟨⟩; first | exact ⟨_, _, .inl ⟨rfl, rfl⟩⟩ | exact ⟨_, _, .inr ⟨rfl, _, rfl⟩⟩)
theorem FrontLength.mzero : ∀ x0 x1, Statement (.mzero x0 x1) := by
  first | rintro x0 x1 _ _ _ ⟨⟩; done | (rintro x0 x1 _ _ _ ⟨⟩; first | exact ⟨_, _, .inl ⟨rfl, rfl⟩⟩ | exact ⟨_, _, .inr ⟨rfl, _, rfl⟩⟩)
theorem FrontLength.mld : ∀ x0 x1 x2 x3 x4, Statement (.mld x0 x1 x2 x3 x4) := by
  first | rintro x0 x1 x2 x3 x4 _ _ _ ⟨⟩; done | (rintro x0 x1 x2 x3 x4 _ _ _ ⟨⟩; first | exact ⟨_, _, .inl ⟨rfl, rfl⟩⟩ | exact ⟨_, _, .inr ⟨rfl, _, rfl⟩⟩)
theorem FrontLength.mst : ∀ x0 x1 x2 x3, Statement (.mst x0 x1 x2 x3) := by
  first | rintro x0 x1 x2 x3 _ _ _ ⟨⟩; done | (rintro x0 x1 x2 x3 _ _ _ ⟨⟩; first | exact ⟨_, _, .inl ⟨rfl, rfl⟩⟩ | exact ⟨_, _, .inr ⟨rfl, _, rfl⟩⟩)
theorem FrontLength.msow : ∀ x0 x1 x2 x3 x4, Statement (.msow x0 x1 x2 x3 x4) := by
  first | rintro x0 x1 x2 x3 x4 _ _ _ ⟨⟩; done | (rintro x0 x1 x2 x3 x4 _ _ _ ⟨⟩; first | exact ⟨_, _, .inl ⟨rfl, rfl⟩⟩ | exact ⟨_, _, .inr ⟨rfl, _, rfl⟩⟩)
theorem FrontLength.cpy : ∀ x0 x1 x2, Statement (.cpy x0 x1 x2) := by
  first | rintro x0 x1 x2 _ _ _ ⟨⟩; done | (rintro x0 x1 x2 _ _ _ ⟨⟩; first | exact ⟨_, _, .inl ⟨rfl, rfl⟩⟩ | exact ⟨_, _, .inr ⟨rfl, _, rfl⟩⟩)
theorem FrontLength.cgat : ∀ x0 x1 x2, Statement (.cgat x0 x1 x2) := by
  first | rintro x0 x1 x2 _ _ _ ⟨⟩; done | (rintro x0 x1 x2 _ _ _ ⟨⟩; first | exact ⟨_, _, .inl ⟨rfl, rfl⟩⟩ | exact ⟨_, _, .inr ⟨rfl, _, rfl⟩⟩)
theorem FrontLength.cmc : ∀ x0 x1 x2, Statement (.cmc x0 x1 x2) := by
  first | rintro x0 x1 x2 _ _ _ ⟨⟩; done | (rintro x0 x1 x2 _ _ _ ⟨⟩; first | exact ⟨_, _, .inl ⟨rfl, rfl⟩⟩ | exact ⟨_, _, .inr ⟨rfl, _, rfl⟩⟩)
theorem FrontLength.cpyo : ∀ x0 x1 x2, Statement (.cpyo x0 x1 x2) := by
  first | rintro x0 x1 x2 _ _ _ ⟨⟩; done | (rintro x0 x1 x2 _ _ _ ⟨⟩; first | exact ⟨_, _, .inl ⟨rfl, rfl⟩⟩ | exact ⟨_, _, .inr ⟨rfl, _, rfl⟩⟩)
theorem FrontLength.cget : ∀ x0 x1 x2, Statement (.cget x0 x1 x2) := by
  first | rintro x0 x1 x2 _ _ _ ⟨⟩; done | (rintro x0 x1 x2 _ _ _ ⟨⟩; first | exact ⟨_, _, .inl ⟨rfl, rfl⟩⟩ | exact ⟨_, _, .inr ⟨rfl, _, rfl⟩⟩)
theorem FrontLength.cput : ∀ x0 x1 x2, Statement (.cput x0 x1 x2) := by
  first | rintro x0 x1 x2 _ _ _ ⟨⟩; done | (rintro x0 x1 x2 _ _ _ ⟨⟩; first | exact ⟨_, _, .inl ⟨rfl, rfl⟩⟩ | exact ⟨_, _, .inr ⟨rfl, _, rfl⟩⟩)
theorem FrontLength.ksig : ∀ x0 x1 x2, Statement (.ksig x0 x1 x2) := by
  first | rintro x0 x1 x2 _ _ _ ⟨⟩; done | (rintro x0 x1 x2 _ _ _ ⟨⟩; first | exact ⟨_, _, .inl ⟨rfl, rfl⟩⟩ | exact ⟨_, _, .inr ⟨rfl, _, rfl⟩⟩)
theorem FrontLength.asub : ∀ x0 x1 x2 x3, Statement (.asub x0 x1 x2 x3) := by
  first | rintro x0 x1 x2 x3 _ _ _ ⟨⟩; done | (rintro x0 x1 x2 x3 _ _ _ ⟨⟩; first | exact ⟨_, _, .inl ⟨rfl, rfl⟩⟩ | exact ⟨_, _, .inr ⟨rfl, _, rfl⟩⟩)
theorem FrontLength.aunsub : ∀ x0 x1 x2 x3, Statement (.aunsub x0 x1 x2 x3) := by
  first | rintro x0 x1 x2 x3 _ _ _ ⟨⟩; done | (rintro x0 x1 x2 x3 _ _ _ ⟨⟩; first | exact ⟨_, _, .inl ⟨rfl, rfl⟩⟩ | exact ⟨_, _, .inr ⟨rfl, _, rfl⟩⟩)
theorem FrontLength.amerge : ∀ x0 x1 x2 x3 x4 x5, Statement (.amerge x0 x1 x2 x3 x4 x5) := by
  first | rintro x0 x1 x2 x3 x4 x5 _ _ _ ⟨⟩; done | (rintro x0 x1 x2 x3 x4 x5 _ _ _ ⟨⟩; first | exact ⟨_, _, .inl ⟨rfl, rfl⟩⟩ | exact ⟨_, _, .inr ⟨rfl, _, rfl⟩⟩)
theorem FrontLength.afin : ∀ x0 x1 x2 x3, Statement (.afin x0 x1 x2 x3) := by
  first | rintro x0 x1 x2 x3 _ _ _ ⟨⟩; done | (rintro x0 x1 x2 x3 _ _ _ ⟨⟩; first | exact ⟨_, _, .inl ⟨rfl, rfl⟩⟩ | exact ⟨_, _, .inr ⟨rfl, _, rfl⟩⟩)
theorem FrontLength.await : ∀ x0 x1 x2 x3, Statement (.await x0 x1 x2 x3) := by
  first | rintro x0 x1 x2 x3 _ _ _ ⟨⟩; done | (rintro x0 x1 x2 x3 _ _ _ ⟨⟩; first | exact ⟨_, _, .inl ⟨rfl, rfl⟩⟩ | exact ⟨_, _, .inr ⟨rfl, _, rfl⟩⟩)
theorem FrontLength.send : ∀ x0 x1 x2 x3 x4 x5, Statement (.send x0 x1 x2 x3 x4 x5) := by
  first | rintro x0 x1 x2 x3 x4 x5 _ _ _ ⟨⟩; done | (rintro x0 x1 x2 x3 x4 x5 _ _ _ ⟨⟩; first | exact ⟨_, _, .inl ⟨rfl, rfl⟩⟩ | exact ⟨_, _, .inr ⟨rfl, _, rfl⟩⟩)
theorem FrontLength.recv : ∀ x0 x1 x2 x3 x4 x5, Statement (.recv x0 x1 x2 x3 x4 x5) := by
  first | rintro x0 x1 x2 x3 x4 x5 _ _ _ ⟨⟩; done | (rintro x0 x1 x2 x3 x4 x5 _ _ _ ⟨⟩; first | exact ⟨_, _, .inl ⟨rfl, rfl⟩⟩ | exact ⟨_, _, .inr ⟨rfl, _, rfl⟩⟩)
theorem FrontLength.rrs : ∀ x0 x1 x2 x3 x4 x5, Statement (.rrs x0 x1 x2 x3 x4 x5) := by
  first | rintro x0 x1 x2 x3 x4 x5 _ _ _ ⟨⟩; done | (rintro x0 x1 x2 x3 x4 x5 _ _ _ ⟨⟩; first | exact ⟨_, _, .inl ⟨rfl, rfl⟩⟩ | exact ⟨_, _, .inr ⟨rfl, _, rfl⟩⟩)
theorem FrontLength.copy : ∀ x0 x1 x2 x3, Statement (.copy x0 x1 x2 x3) := by
  first | rintro x0 x1 x2 x3 _ _ _ ⟨⟩; done | (rintro x0 x1 x2 x3 _ _ _ ⟨⟩; first | exact ⟨_, _, .inl ⟨rfl, rfl⟩⟩ | exact ⟨_, _, .inr ⟨rfl, _, rfl⟩⟩)
theorem FrontLength.wait : ∀ x0, Statement (.wait x0) := by
  first | rintro x0 _ _ _ ⟨⟩; done | (rintro x0 _ _ _ ⟨⟩; first | exact ⟨_, _, .inl ⟨rfl, rfl⟩⟩ | exact ⟨_, _, .inr ⟨rfl, _, rfl⟩⟩)
theorem FrontLength.loop : ∀ x0 x1 x2, Statement (.loop x0 x1 x2) := by
  first | rintro x0 x1 x2 _ _ _ ⟨⟩; done | (rintro x0 x1 x2 _ _ _ ⟨⟩; first | exact ⟨_, _, .inl ⟨rfl, rfl⟩⟩ | exact ⟨_, _, .inr ⟨rfl, _, rfl⟩⟩)
theorem FrontLength.endl : ∀ x0, Statement (.endl x0) := by
  first | rintro x0 _ _ _ ⟨⟩; done | (rintro x0 _ _ _ ⟨⟩; first | exact ⟨_, _, .inl ⟨rfl, rfl⟩⟩ | exact ⟨_, _, .inr ⟨rfl, _, rfl⟩⟩)
theorem FrontLength.peer : ∀ x0 x1, Statement (.peer x0 x1) := by
  first | rintro x0 x1 _ _ _ ⟨⟩; done | (rintro x0 x1 _ _ _ ⟨⟩; first | exact ⟨_, _, .inl ⟨rfl, rfl⟩⟩ | exact ⟨_, _, .inr ⟨rfl, _, rfl⟩⟩)
theorem FrontLength.halt : Statement (.halt) := by
  first | rintro _ _ _ ⟨⟩; done | (rintro _ _ _ ⟨⟩; first | exact ⟨_, _, .inl ⟨rfl, rfl⟩⟩ | exact ⟨_, _, .inr ⟨rfl, _, rfl⟩⟩)
theorem FrontLength.deferredFaultDelivery : ∀ x0, Statement (.deferredFaultDelivery x0) := by
  first | rintro x0 _ _ _ ⟨⟩; done | (rintro x0 _ _ _ ⟨⟩; first | exact ⟨_, _, .inl ⟨rfl, rfl⟩⟩ | exact ⟨_, _, .inr ⟨rfl, _, rfl⟩⟩)
theorem FrontLength.dispatch : ∀ x0, Statement (.dispatch x0) := by
  first | rintro x0 _ _ _ ⟨⟩; done | (rintro x0 _ _ _ ⟨⟩; first | exact ⟨_, _, .inl ⟨rfl, rfl⟩⟩ | exact ⟨_, _, .inr ⟨rfl, _, rfl⟩⟩)
theorem FrontLength.harrowCompare : ∀ x0 x1 x2, Statement (.harrowCompare x0 x1 x2) := by
  first | rintro x0 x1 x2 _ _ _ ⟨⟩; done | (rintro x0 x1 x2 _ _ _ ⟨⟩; first | exact ⟨_, _, .inl ⟨rfl, rfl⟩⟩ | exact ⟨_, _, .inr ⟨rfl, _, rfl⟩⟩)
theorem FrontLength.entryRetire : ∀ x0 x1, Statement (.entryRetire x0 x1) := by
  first | rintro x0 x1 _ _ _ ⟨⟩; done | (rintro x0 x1 _ _ _ ⟨⟩; first | exact ⟨_, _, .inl ⟨rfl, rfl⟩⟩ | exact ⟨_, _, .inr ⟨rfl, _, rfl⟩⟩)
theorem FrontLength.tokenDeadlock : ∀ x0, Statement (.tokenDeadlock x0) := by
  first | rintro x0 _ _ _ ⟨⟩; done | (rintro x0 _ _ _ ⟨⟩; first | exact ⟨_, _, .inl ⟨rfl, rfl⟩⟩ | exact ⟨_, _, .inr ⟨rfl, _, rfl⟩⟩)
theorem FrontLength.instructionFetchMissFill : ∀ x0, Statement (.instructionFetchMissFill x0) := by
  first | rintro x0 _ _ _ ⟨⟩; done | (rintro x0 _ _ _ ⟨⟩; first | exact ⟨_, _, .inl ⟨rfl, rfl⟩⟩ | exact ⟨_, _, .inr ⟨rfl, _, rfl⟩⟩)
theorem FrontLength.seedPop : ∀ x0, Statement (.seedPop x0) := by
  first | rintro x0 _ _ _ ⟨⟩; done | (rintro x0 _ _ _ ⟨⟩; first | exact ⟨_, _, .inl ⟨rfl, rfl⟩⟩ | exact ⟨_, _, .inr ⟨rfl, _, rfl⟩⟩)
theorem FrontLength.seedAging : ∀ x0 x1 x2, Statement (.seedAging x0 x1 x2) := by
  first | rintro x0 x1 x2 _ _ _ ⟨⟩; done | (rintro x0 x1 x2 _ _ _ ⟨⟩; first | exact ⟨_, _, .inl ⟨rfl, rfl⟩⟩ | exact ⟨_, _, .inr ⟨rfl, _, rfl⟩⟩)
theorem FrontLength.nackResend : ∀ x0 x1, Statement (.nackResend x0 x1) := by
  first | rintro x0 x1 _ _ _ ⟨⟩; done | (rintro x0 x1 _ _ _ ⟨⟩; first | exact ⟨_, _, .inl ⟨rfl, rfl⟩⟩ | exact ⟨_, _, .inr ⟨rfl, _, rfl⟩⟩)
theorem FrontLength.barrierArrivalMessage : ∀ x0 x1 x2, Statement (.barrierArrivalMessage x0 x1 x2) := by
  first | rintro x0 x1 x2 _ _ _ ⟨⟩; done | (rintro x0 x1 x2 _ _ _ ⟨⟩; first | exact ⟨_, _, .inl ⟨rfl, rfl⟩⟩ | exact ⟨_, _, .inr ⟨rfl, _, rfl⟩⟩)
theorem FrontLength.barrierReleaseMessage : ∀ x0 x1, Statement (.barrierReleaseMessage x0 x1) := by
  first | rintro x0 x1 _ _ _ ⟨⟩; done | (rintro x0 x1 _ _ _ ⟨⟩; first | exact ⟨_, _, .inl ⟨rfl, rfl⟩⟩ | exact ⟨_, _, .inr ⟨rfl, _, rfl⟩⟩)
theorem FrontLength.leaseGrant : ∀ x0 x1, Statement (.leaseGrant x0 x1) := by
  first | rintro x0 x1 _ _ _ ⟨⟩; done | (rintro x0 x1 _ _ _ ⟨⟩; first | exact ⟨_, _, .inl ⟨rfl, rfl⟩⟩ | exact ⟨_, _, .inr ⟨rfl, _, rfl⟩⟩)
theorem FrontLength.leaseTimeLimit : ∀ x0 x1, Statement (.leaseTimeLimit x0 x1) := by
  first | rintro x0 x1 _ _ _ ⟨⟩; done | (rintro x0 x1 _ _ _ ⟨⟩; first | exact ⟨_, _, .inl ⟨rfl, rfl⟩⟩ | exact ⟨_, _, .inr ⟨rfl, _, rfl⟩⟩)
theorem FrontLength.frontEndWaitEnd : ∀ x0, Statement (.frontEndWaitEnd x0) := by
  first | rintro x0 _ _ _ ⟨⟩; done | (rintro x0 _ _ _ ⟨⟩; first | exact ⟨_, _, .inl ⟨rfl, rfl⟩⟩ | exact ⟨_, _, .inr ⟨rfl, _, rfl⟩⟩)
theorem FrontLength.loadDataReturn : ∀ x0 x1, Statement (.loadDataReturn x0 x1) := by
  first | rintro x0 x1 _ _ _ ⟨⟩; done | (rintro x0 x1 _ _ _ ⟨⟩; first | exact ⟨_, _, .inl ⟨rfl, rfl⟩⟩ | exact ⟨_, _, .inr ⟨rfl, _, rfl⟩⟩)
theorem FrontLength.atomicReply : ∀ x0, Statement (.atomicReply x0) := by
  first | rintro x0 _ _ _ ⟨⟩; done | (rintro x0 _ _ _ ⟨⟩; first | exact ⟨_, _, .inl ⟨rfl, rfl⟩⟩ | exact ⟨_, _, .inr ⟨rfl, _, rfl⟩⟩)
theorem FrontLength.pchgApply : ∀ x0 x1, Statement (.pchgApply x0 x1) := by
  first | rintro x0 x1 _ _ _ ⟨⟩; done | (rintro x0 x1 _ _ _ ⟨⟩; first | exact ⟨_, _, .inl ⟨rfl, rfl⟩⟩ | exact ⟨_, _, .inr ⟨rfl, _, rfl⟩⟩)
theorem FrontLength.granuleFillEnd : ∀ x0 x1 x2, Statement (.granuleFillEnd x0 x1 x2) := by
  first | rintro x0 x1 x2 _ _ _ ⟨⟩; done | (rintro x0 x1 x2 _ _ _ ⟨⟩; first | exact ⟨_, _, .inl ⟨rfl, rfl⟩⟩ | exact ⟨_, _, .inr ⟨rfl, _, rfl⟩⟩)
theorem FrontLength.arrayEntryCheck : ∀ x0, Statement (.arrayEntryCheck x0) := by
  first | rintro x0 _ _ _ ⟨⟩; done | (rintro x0 _ _ _ ⟨⟩; first | exact ⟨_, _, .inl ⟨rfl, rfl⟩⟩ | exact ⟨_, _, .inr ⟨rfl, _, rfl⟩⟩)
theorem FrontLength.streamBegin : ∀ x0 x1 x2 x3, Statement (.streamBegin x0 x1 x2 x3) := by
  first | rintro x0 x1 x2 x3 _ _ _ ⟨⟩; done | (rintro x0 x1 x2 x3 _ _ _ ⟨⟩; first | exact ⟨_, _, .inl ⟨rfl, rfl⟩⟩ | exact ⟨_, _, .inr ⟨rfl, _, rfl⟩⟩)
theorem FrontLength.copyPieceRequest : ∀ x0 x1, Statement (.copyPieceRequest x0 x1) := by
  first | rintro x0 x1 _ _ _ ⟨⟩; done | (rintro x0 x1 _ _ _ ⟨⟩; first | exact ⟨_, _, .inl ⟨rfl, rfl⟩⟩ | exact ⟨_, _, .inr ⟨rfl, _, rfl⟩⟩)
theorem FrontLength.piecePerformed : ∀ x0 x1 x2, Statement (.piecePerformed x0 x1 x2) := by
  first | rintro x0 x1 x2 _ _ _ ⟨⟩; done | (rintro x0 x1 x2 _ _ _ ⟨⟩; first | exact ⟨_, _, .inl ⟨rfl, rfl⟩⟩ | exact ⟨_, _, .inr ⟨rfl, _, rfl⟩⟩)
theorem FrontLength.sliceRequest : ∀ x0 x1 x2, Statement (.sliceRequest x0 x1 x2) := by
  first | rintro x0 x1 x2 _ _ _ ⟨⟩; done | (rintro x0 x1 x2 _ _ _ ⟨⟩; first | exact ⟨_, _, .inl ⟨rfl, rfl⟩⟩ | exact ⟨_, _, .inr ⟨rfl, _, rfl⟩⟩)
theorem FrontLength.ringDelivery : ∀ x0 x1 x2, Statement (.ringDelivery x0 x1 x2) := by
  first | rintro x0 x1 x2 _ _ _ ⟨⟩; done | (rintro x0 x1 x2 _ _ _ ⟨⟩; first | exact ⟨_, _, .inl ⟨rfl, rfl⟩⟩ | exact ⟨_, _, .inr ⟨rfl, _, rfl⟩⟩)
theorem FrontLength.rehome : ∀ x0 x1 x2, Statement (.rehome x0 x1 x2) := by
  first | rintro x0 x1 x2 _ _ _ ⟨⟩; done | (rintro x0 x1 x2 _ _ _ ⟨⟩; first | exact ⟨_, _, .inl ⟨rfl, rfl⟩⟩ | exact ⟨_, _, .inr ⟨rfl, _, rfl⟩⟩)
theorem FrontLength.sliceRetire : ∀ x0 x1 x2 x3, Statement (.sliceRetire x0 x1 x2 x3) := by
  first | rintro x0 x1 x2 x3 _ _ _ ⟨⟩; done | (rintro x0 x1 x2 x3 _ _ _ ⟨⟩; first | exact ⟨_, _, .inl ⟨rfl, rfl⟩⟩ | exact ⟨_, _, .inr ⟨rfl, _, rfl⟩⟩)
theorem FrontLength.slicePowerDown : ∀ x0 x1 x2, Statement (.slicePowerDown x0 x1 x2) := by
  first | rintro x0 x1 x2 _ _ _ ⟨⟩; done | (rintro x0 x1 x2 _ _ _ ⟨⟩; first | exact ⟨_, _, .inl ⟨rfl, rfl⟩⟩ | exact ⟨_, _, .inr ⟨rfl, _, rfl⟩⟩)
theorem FrontLength.coreOffline : ∀ x0 x1, Statement (.coreOffline x0 x1) := by
  first | rintro x0 x1 _ _ _ ⟨⟩; done | (rintro x0 x1 _ _ _ ⟨⟩; first | exact ⟨_, _, .inl ⟨rfl, rfl⟩⟩ | exact ⟨_, _, .inr ⟨rfl, _, rfl⟩⟩)
theorem FrontLength.remotePacketArrival : ∀ x0, Statement (.remotePacketArrival x0) := by
  first | rintro x0 _ _ _ ⟨⟩; done | (rintro x0 _ _ _ ⟨⟩; first | exact ⟨_, _, .inl ⟨rfl, rfl⟩⟩ | exact ⟨_, _, .inr ⟨rfl, _, rfl⟩⟩)
theorem FrontLength.remoteOperation : ∀ x0 x1, Statement (.remoteOperation x0 x1) := by
  first | rintro x0 x1 _ _ _ ⟨⟩; done | (rintro x0 x1 _ _ _ ⟨⟩; first | exact ⟨_, _, .inl ⟨rfl, rfl⟩⟩ | exact ⟨_, _, .inr ⟨rfl, _, rfl⟩⟩)
theorem FrontLength.answerArrival : ∀ x0 x1, Statement (.answerArrival x0 x1) := by
  first | rintro x0 x1 _ _ _ ⟨⟩; done | (rintro x0 x1 _ _ _ ⟨⟩; first | exact ⟨_, _, .inl ⟨rfl, rfl⟩⟩ | exact ⟨_, _, .inr ⟨rfl, _, rfl⟩⟩)
theorem FrontLength.resendTimeout : ∀ x0 x1, Statement (.resendTimeout x0 x1) := by
  first | rintro x0 x1 _ _ _ ⟨⟩; done | (rintro x0 x1 _ _ _ ⟨⟩; first | exact ⟨_, _, .inl ⟨rfl, rfl⟩⟩ | exact ⟨_, _, .inr ⟨rfl, _, rfl⟩⟩)
theorem FrontLength.nackBackoffResend : ∀ x0 x1, Statement (.nackBackoffResend x0 x1) := by
  first | rintro x0 x1 _ _ _ ⟨⟩; done | (rintro x0 x1 _ _ _ ⟨⟩; first | exact ⟨_, _, .inl ⟨rfl, rfl⟩⟩ | exact ⟨_, _, .inr ⟨rfl, _, rfl⟩⟩)
theorem FrontLength.packetExpiry : ∀ x0, Statement (.packetExpiry x0) := by
  first | rintro x0 _ _ _ ⟨⟩; done | (rintro x0 _ _ _ ⟨⟩; first | exact ⟨_, _, .inl ⟨rfl, rfl⟩⟩ | exact ⟨_, _, .inr ⟨rfl, _, rfl⟩⟩)
theorem FrontLength.replyCacheExpiry : ∀ x0 x1 x2, Statement (.replyCacheExpiry x0 x1 x2) := by
  first | rintro x0 x1 x2 _ _ _ ⟨⟩; done | (rintro x0 x1 x2 _ _ _ ⟨⟩; first | exact ⟨_, _, .inl ⟨rfl, rfl⟩⟩ | exact ⟨_, _, .inr ⟨rfl, _, rfl⟩⟩)
theorem FrontLength.laneFallow : ∀ x0 x1 x2, Statement (.laneFallow x0 x1 x2) := by
  first | rintro x0 x1 x2 _ _ _ ⟨⟩; done | (rintro x0 x1 x2 _ _ _ ⟨⟩; first | exact ⟨_, _, .inl ⟨rfl, rfl⟩⟩ | exact ⟨_, _, .inr ⟨rfl, _, rfl⟩⟩)
theorem FrontLength.laneRetrain : ∀ x0 x1 x2, Statement (.laneRetrain x0 x1 x2) := by
  first | rintro x0 x1 x2 _ _ _ ⟨⟩; done | (rintro x0 x1 x2 _ _ _ ⟨⟩; first | exact ⟨_, _, .inl ⟨rfl, rfl⟩⟩ | exact ⟨_, _, .inr ⟨rfl, _, rfl⟩⟩)
theorem FrontLength.spareLinkAssign : ∀ x0 x1 x2, Statement (.spareLinkAssign x0 x1 x2) := by
  first | rintro x0 x1 x2 _ _ _ ⟨⟩; done | (rintro x0 x1 x2 _ _ _ ⟨⟩; first | exact ⟨_, _, .inl ⟨rfl, rfl⟩⟩ | exact ⟨_, _, .inr ⟨rfl, _, rfl⟩⟩)
theorem FrontLength.flitReceive : ∀ x0 x1 x2, Statement (.flitReceive x0 x1 x2) := by
  first | rintro x0 x1 x2 _ _ _ ⟨⟩; done | (rintro x0 x1 x2 _ _ _ ⟨⟩; first | exact ⟨_, _, .inl ⟨rfl, rfl⟩⟩ | exact ⟨_, _, .inr ⟨rfl, _, rfl⟩⟩)
theorem FrontLength.flitReplay : ∀ x0 x1, Statement (.flitReplay x0 x1) := by
  first | rintro x0 x1 _ _ _ ⟨⟩; done | (rintro x0 x1 _ _ _ ⟨⟩; first | exact ⟨_, _, .inl ⟨rfl, rfl⟩⟩ | exact ⟨_, _, .inr ⟨rfl, _, rfl⟩⟩)
theorem FrontLength.packetRoute : ∀ x0 x1, Statement (.packetRoute x0 x1) := by
  first | rintro x0 x1 _ _ _ ⟨⟩; done | (rintro x0 x1 _ _ _ ⟨⟩; first | exact ⟨_, _, .inl ⟨rfl, rfl⟩⟩ | exact ⟨_, _, .inr ⟨rfl, _, rfl⟩⟩)
theorem FrontLength.headlandMove : ∀ x0, Statement (.headlandMove x0) := by
  first | rintro x0 _ _ _ ⟨⟩; done | (rintro x0 _ _ _ ⟨⟩; first | exact ⟨_, _, .inl ⟨rfl, rfl⟩⟩ | exact ⟨_, _, .inr ⟨rfl, _, rfl⟩⟩)
theorem FrontLength.treeDrain : Statement (.treeDrain) := by
  first | rintro _ _ _ ⟨⟩; done | (rintro _ _ _ ⟨⟩; first | exact ⟨_, _, .inl ⟨rfl, rfl⟩⟩ | exact ⟨_, _, .inr ⟨rfl, _, rfl⟩⟩)
theorem FrontLength.treeSwitch : Statement (.treeSwitch) := by
  first | rintro _ _ _ ⟨⟩; done | (rintro _ _ _ ⟨⟩; first | exact ⟨_, _, .inl ⟨rfl, rfl⟩⟩ | exact ⟨_, _, .inr ⟨rfl, _, rfl⟩⟩)
theorem FrontLength.mainPassHoldExpiry : ∀ x0 x1 x2, Statement (.mainPassHoldExpiry x0 x1 x2) := by
  first | rintro x0 x1 x2 _ _ _ ⟨⟩; done | (rintro x0 x1 x2 _ _ _ ⟨⟩; first | exact ⟨_, _, .inl ⟨rfl, rfl⟩⟩ | exact ⟨_, _, .inr ⟨rfl, _, rfl⟩⟩)
theorem FrontLength.sowerServePage : ∀ x0 x1, Statement (.sowerServePage x0 x1) := by
  first | rintro x0 x1 _ _ _ ⟨⟩; done | (rintro x0 x1 _ _ _ ⟨⟩; first | exact ⟨_, _, .inl ⟨rfl, rfl⟩⟩ | exact ⟨_, _, .inr ⟨rfl, _, rfl⟩⟩)
theorem FrontLength.gleaningPassStart : ∀ x0 x1 x2, Statement (.gleaningPassStart x0 x1 x2) := by
  first | rintro x0 x1 x2 _ _ _ ⟨⟩; done | (rintro x0 x1 x2 _ _ _ ⟨⟩; first | exact ⟨_, _, .inl ⟨rfl, rfl⟩⟩ | exact ⟨_, _, .inr ⟨rfl, _, rfl⟩⟩)
theorem FrontLength.sheafMerge : ∀ x0 x1 x2, Statement (.sheafMerge x0 x1 x2) := by
  first | rintro x0 x1 x2 _ _ _ ⟨⟩; done | (rintro x0 x1 x2 _ _ _ ⟨⟩; first | exact ⟨_, _, .inl ⟨rfl, rfl⟩⟩ | exact ⟨_, _, .inr ⟨rfl, _, rfl⟩⟩)
theorem FrontLength.workEntryTrigger : ∀ x0 x1, Statement (.workEntryTrigger x0 x1) := by
  first | rintro x0 x1 _ _ _ ⟨⟩; done | (rintro x0 x1 _ _ _ ⟨⟩; first | exact ⟨_, _, .inl ⟨rfl, rfl⟩⟩ | exact ⟨_, _, .inr ⟨rfl, _, rfl⟩⟩)
theorem FrontLength.collPacketArrival : ∀ x0 x1, Statement (.collPacketArrival x0 x1) := by
  first | rintro x0 x1 _ _ _ ⟨⟩; done | (rintro x0 x1 _ _ _ ⟨⟩; first | exact ⟨_, _, .inl ⟨rfl, rfl⟩⟩ | exact ⟨_, _, .inr ⟨rfl, _, rfl⟩⟩)
theorem FrontLength.collPacketResend : ∀ x0 x1 x2, Statement (.collPacketResend x0 x1 x2) := by
  first | rintro x0 x1 x2 _ _ _ ⟨⟩; done | (rintro x0 x1 x2 _ _ _ ⟨⟩; first | exact ⟨_, _, .inl ⟨rfl, rfl⟩⟩ | exact ⟨_, _, .inr ⟨rfl, _, rfl⟩⟩)
theorem FrontLength.stepTimeout : ∀ x0 x1, Statement (.stepTimeout x0 x1) := by
  first | rintro x0 x1 _ _ _ ⟨⟩; done | (rintro x0 x1 _ _ _ ⟨⟩; first | exact ⟨_, _, .inl ⟨rfl, rfl⟩⟩ | exact ⟨_, _, .inr ⟨rfl, _, rfl⟩⟩)
theorem FrontLength.abortReceived : ∀ x0 x1, Statement (.abortReceived x0 x1) := by
  first | rintro x0 x1 _ _ _ ⟨⟩; done | (rintro x0 x1 _ _ _ ⟨⟩; first | exact ⟨_, _, .inl ⟨rfl, rfl⟩⟩ | exact ⟨_, _, .inr ⟨rfl, _, rfl⟩⟩)
theorem FrontLength.collSuspendMessage : ∀ x0 x1, Statement (.collSuspendMessage x0 x1) := by
  first | rintro x0 x1 _ _ _ ⟨⟩; done | (rintro x0 x1 _ _ _ ⟨⟩; first | exact ⟨_, _, .inl ⟨rfl, rfl⟩⟩ | exact ⟨_, _, .inr ⟨rfl, _, rfl⟩⟩)
theorem FrontLength.collResumeMessage : ∀ x0 x1, Statement (.collResumeMessage x0 x1) := by
  first | rintro x0 x1 _ _ _ ⟨⟩; done | (rintro x0 x1 _ _ _ ⟨⟩; first | exact ⟨_, _, .inl ⟨rfl, rfl⟩⟩ | exact ⟨_, _, .inr ⟨rfl, _, rfl⟩⟩)
theorem FrontLength.secdedError : ∀ x0 x1 x2, Statement (.secdedError x0 x1 x2) := by
  first | rintro x0 x1 x2 _ _ _ ⟨⟩; done | (rintro x0 x1 x2 _ _ _ ⟨⟩; first | exact ⟨_, _, .inl ⟨rfl, rfl⟩⟩ | exact ⟨_, _, .inr ⟨rfl, _, rfl⟩⟩)
theorem FrontLength.preemptionDecision : ∀ x0 x1 x2, Statement (.preemptionDecision x0 x1 x2) := by
  first | rintro x0 x1 x2 _ _ _ ⟨⟩; done | (rintro x0 x1 x2 _ _ _ ⟨⟩; first | exact ⟨_, _, .inl ⟨rfl, rfl⟩⟩ | exact ⟨_, _, .inr ⟨rfl, _, rfl⟩⟩)
theorem FrontLength.drainExpiry : ∀ x0 x1, Statement (.drainExpiry x0 x1) := by
  first | rintro x0 x1 _ _ _ ⟨⟩; done | (rintro x0 x1 _ _ _ ⟨⟩; first | exact ⟨_, _, .inl ⟨rfl, rfl⟩⟩ | exact ⟨_, _, .inr ⟨rfl, _, rfl⟩⟩)
theorem FrontLength.checkpoint : ∀ x0 x1 x2 x3, Statement (.checkpoint x0 x1 x2 x3) := by
  first | rintro x0 x1 x2 x3 _ _ _ ⟨⟩; done | (rintro x0 x1 x2 x3 _ _ _ ⟨⟩; first | exact ⟨_, _, .inl ⟨rfl, rfl⟩⟩ | exact ⟨_, _, .inr ⟨rfl, _, rfl⟩⟩)
theorem FrontLength.checkpointImage : ∀ x0 x1 x2 x3, Statement (.checkpointImage x0 x1 x2 x3) := by
  first | rintro x0 x1 x2 x3 _ _ _ ⟨⟩; done | (rintro x0 x1 x2 x3 _ _ _ ⟨⟩; first | exact ⟨_, _, .inl ⟨rfl, rfl⟩⟩ | exact ⟨_, _, .inr ⟨rfl, _, rfl⟩⟩)
theorem FrontLength.teamResume : ∀ x0 x1 x2 x3 x4 x5, Statement (.teamResume x0 x1 x2 x3 x4 x5) := by
  first | rintro x0 x1 x2 x3 x4 x5 _ _ _ ⟨⟩; done | (rintro x0 x1 x2 x3 x4 x5 _ _ _ ⟨⟩; first | exact ⟨_, _, .inl ⟨rfl, rfl⟩⟩ | exact ⟨_, _, .inr ⟨rfl, _, rfl⟩⟩)
theorem FrontLength.blightSet : ∀ x0 x1, Statement (.blightSet x0 x1) := by
  first | rintro x0 x1 _ _ _ ⟨⟩; done | (rintro x0 x1 _ _ _ ⟨⟩; first | exact ⟨_, _, .inl ⟨rfl, rfl⟩⟩ | exact ⟨_, _, .inr ⟨rfl, _, rfl⟩⟩)
theorem FrontLength.wixWrite : ∀ x0 x1 x2, Statement (.wixWrite x0 x1 x2) := by
  first | rintro x0 x1 x2 _ _ _ ⟨⟩; done | (rintro x0 x1 x2 _ _ _ ⟨⟩; first | exact ⟨_, _, .inl ⟨rfl, rfl⟩⟩ | exact ⟨_, _, .inr ⟨rfl, _, rfl⟩⟩)
theorem FrontLength.wakeWrite : ∀ x0 x1 x2, Statement (.wakeWrite x0 x1 x2) := by
  first | rintro x0 x1 x2 _ _ _ ⟨⟩; done | (rintro x0 x1 x2 _ _ _ ⟨⟩; first | exact ⟨_, _, .inl ⟨rfl, rfl⟩⟩ | exact ⟨_, _, .inr ⟨rfl, _, rfl⟩⟩)
theorem FrontLength.queueRecordWrite : ∀ x0 x1 x2, Statement (.queueRecordWrite x0 x1 x2) := by
  first | rintro x0 x1 x2 _ _ _ ⟨⟩; done | (rintro x0 x1 x2 _ _ _ ⟨⟩; first | exact ⟨_, _, .inl ⟨rfl, rfl⟩⟩ | exact ⟨_, _, .inr ⟨rfl, _, rfl⟩⟩)
theorem FrontLength.entryAccept : ∀ x0 x1, Statement (.entryAccept x0 x1) := by
  first | rintro x0 x1 _ _ _ ⟨⟩; done | (rintro x0 x1 _ _ _ ⟨⟩; first | exact ⟨_, _, .inl ⟨rfl, rfl⟩⟩ | exact ⟨_, _, .inr ⟨rfl, _, rfl⟩⟩)
theorem FrontLength.slotMap : ∀ x0 x1, Statement (.slotMap x0 x1) := by
  first | rintro x0 x1 _ _ _ ⟨⟩; done | (rintro x0 x1 _ _ _ ⟨⟩; first | exact ⟨_, _, .inl ⟨rfl, rfl⟩⟩ | exact ⟨_, _, .inr ⟨rfl, _, rfl⟩⟩)
theorem FrontLength.slotUnmapIdle : ∀ x0 x1, Statement (.slotUnmapIdle x0 x1) := by
  first | rintro x0 x1 _ _ _ ⟨⟩; done | (rintro x0 x1 _ _ _ ⟨⟩; first | exact ⟨_, _, .inl ⟨rfl, rfl⟩⟩ | exact ⟨_, _, .inr ⟨rfl, _, rfl⟩⟩)
theorem FrontLength.slotUnmapFairness : ∀ x0 x1, Statement (.slotUnmapFairness x0 x1) := by
  first | rintro x0 x1 _ _ _ ⟨⟩; done | (rintro x0 x1 _ _ _ ⟨⟩; first | exact ⟨_, _, .inl ⟨rfl, rfl⟩⟩ | exact ⟨_, _, .inr ⟨rfl, _, rfl⟩⟩)
theorem FrontLength.watchSatisfied : ∀ x0 x1, Statement (.watchSatisfied x0 x1) := by
  first | rintro x0 x1 _ _ _ ⟨⟩; done | (rintro x0 x1 _ _ _ ⟨⟩; first | exact ⟨_, _, .inl ⟨rfl, rfl⟩⟩ | exact ⟨_, _, .inr ⟨rfl, _, rfl⟩⟩)
theorem FrontLength.cmdNop : ∀ x0 x1 x2, Statement (.cmdNop x0 x1 x2) := by
  first | rintro x0 x1 x2 _ _ _ ⟨⟩; done | (rintro x0 x1 x2 _ _ _ ⟨⟩; first | exact ⟨_, _, .inl ⟨rfl, rfl⟩⟩ | exact ⟨_, _, .inr ⟨rfl, _, rfl⟩⟩)
theorem FrontLength.loadslot : ∀ x0 x1 x2, Statement (.loadslot x0 x1 x2) := by
  first | rintro x0 x1 x2 _ _ _ ⟨⟩; done | (rintro x0 x1 x2 _ _ _ ⟨⟩; first | exact ⟨_, _, .inl ⟨rfl, rfl⟩⟩ | exact ⟨_, _, .inr ⟨rfl, _, rfl⟩⟩)
theorem FrontLength.freeslot : ∀ x0 x1 x2, Statement (.freeslot x0 x1 x2) := by
  first | rintro x0 x1 x2 _ _ _ ⟨⟩; done | (rintro x0 x1 x2 _ _ _ ⟨⟩; first | exact ⟨_, _, .inl ⟨rfl, rfl⟩⟩ | exact ⟨_, _, .inr ⟨rfl, _, rfl⟩⟩)
theorem FrontLength.invoke : ∀ x0 x1 x2, Statement (.invoke x0 x1 x2) := by
  first | rintro x0 x1 x2 _ _ _ ⟨⟩; done | (rintro x0 x1 x2 _ _ _ ⟨⟩; first | exact ⟨_, _, .inl ⟨rfl, rfl⟩⟩ | exact ⟨_, _, .inr ⟨rfl, _, rfl⟩⟩)
theorem FrontLength.placement : ∀ x0 x1 x2 x3 x4, Statement (.placement x0 x1 x2 x3 x4) := by
  first | rintro x0 x1 x2 x3 x4 _ _ _ ⟨⟩; done | (rintro x0 x1 x2 x3 x4 _ _ _ ⟨⟩; first | exact ⟨_, _, .inl ⟨rfl, rfl⟩⟩ | exact ⟨_, _, .inr ⟨rfl, _, rfl⟩⟩)
theorem FrontLength.teamRelease : ∀ x0 x1 x2, Statement (.teamRelease x0 x1 x2) := by
  first | rintro x0 x1 x2 _ _ _ ⟨⟩; done | (rintro x0 x1 x2 _ _ _ ⟨⟩; first | exact ⟨_, _, .inl ⟨rfl, rfl⟩⟩ | exact ⟨_, _, .inr ⟨rfl, _, rfl⟩⟩)
theorem FrontLength.cmdWait : ∀ x0 x1 x2, Statement (.cmdWait x0 x1 x2) := by
  first | rintro x0 x1 x2 _ _ _ ⟨⟩; done | (rintro x0 x1 x2 _ _ _ ⟨⟩; first | exact ⟨_, _, .inl ⟨rfl, rfl⟩⟩ | exact ⟨_, _, .inr ⟨rfl, _, rfl⟩⟩)
theorem FrontLength.signal : ∀ x0 x1 x2, Statement (.signal x0 x1 x2) := by
  first | rintro x0 x1 x2 _ _ _ ⟨⟩; done | (rintro x0 x1 x2 _ _ _ ⟨⟩; first | exact ⟨_, _, .inl ⟨rfl, rfl⟩⟩ | exact ⟨_, _, .inr ⟨rfl, _, rfl⟩⟩)
theorem FrontLength.replay : ∀ x0 x1 x2, Statement (.replay x0 x1 x2) := by
  first | rintro x0 x1 x2 _ _ _ ⟨⟩; done | (rintro x0 x1 x2 _ _ _ ⟨⟩; first | exact ⟨_, _, .inl ⟨rfl, rfl⟩⟩ | exact ⟨_, _, .inr ⟨rfl, _, rfl⟩⟩)
theorem FrontLength.replayNodeStart : ∀ x0 x1 x2 x3, Statement (.replayNodeStart x0 x1 x2 x3) := by
  first | rintro x0 x1 x2 x3 _ _ _ ⟨⟩; done | (rintro x0 x1 x2 x3 _ _ _ ⟨⟩; first | exact ⟨_, _, .inl ⟨rfl, rfl⟩⟩ | exact ⟨_, _, .inr ⟨rfl, _, rfl⟩⟩)
theorem FrontLength.ctxnew : ∀ x0 x1 x2, Statement (.ctxnew x0 x1 x2) := by
  first | rintro x0 x1 x2 _ _ _ ⟨⟩; done | (rintro x0 x1 x2 _ _ _ ⟨⟩; first | exact ⟨_, _, .inl ⟨rfl, rfl⟩⟩ | exact ⟨_, _, .inr ⟨rfl, _, rfl⟩⟩)
theorem FrontLength.ctxend : ∀ x0 x1 x2, Statement (.ctxend x0 x1 x2) := by
  first | rintro x0 x1 x2 _ _ _ ⟨⟩; done | (rintro x0 x1 x2 _ _ _ ⟨⟩; first | exact ⟨_, _, .inl ⟨rfl, rfl⟩⟩ | exact ⟨_, _, .inr ⟨rfl, _, rfl⟩⟩)
theorem FrontLength.ctxresume : ∀ x0 x1 x2, Statement (.ctxresume x0 x1 x2) := by
  first | rintro x0 x1 x2 _ _ _ ⟨⟩; done | (rintro x0 x1 x2 _ _ _ ⟨⟩; first | exact ⟨_, _, .inl ⟨rfl, rfl⟩⟩ | exact ⟨_, _, .inr ⟨rfl, _, rfl⟩⟩)
theorem FrontLength.commandCompletion : ∀ x0 x1 x2, Statement (.commandCompletion x0 x1 x2) := by
  first | rintro x0 x1 x2 _ _ _ ⟨⟩; done | (rintro x0 x1 x2 _ _ _ ⟨⟩; first | exact ⟨_, _, .inl ⟨rfl, rfl⟩⟩ | exact ⟨_, _, .inr ⟨rfl, _, rfl⟩⟩)
theorem FrontLength.rolernisTakeover : ∀ x0 x1 x2, Statement (.rolernisTakeover x0 x1 x2) := by
  first | rintro x0 x1 x2 _ _ _ ⟨⟩; done | (rintro x0 x1 x2 _ _ _ ⟨⟩; first | exact ⟨_, _, .inl ⟨rfl, rfl⟩⟩ | exact ⟨_, _, .inr ⟨rfl, _, rfl⟩⟩)
theorem FrontLength.allowancePeriodEnd : ∀ x0, Statement (.allowancePeriodEnd x0) := by
  first | rintro x0 _ _ _ ⟨⟩; done | (rintro x0 _ _ _ ⟨⟩; first | exact ⟨_, _, .inl ⟨rfl, rfl⟩⟩ | exact ⟨_, _, .inr ⟨rfl, _, rfl⟩⟩)
theorem FrontLength.droopStretch : ∀ x0 x1 x2, Statement (.droopStretch x0 x1 x2) := by
  first | rintro x0 x1 x2 _ _ _ ⟨⟩; done | (rintro x0 x1 x2 _ _ _ ⟨⟩; first | exact ⟨_, _, .inl ⟨rfl, rfl⟩⟩ | exact ⟨_, _, .inr ⟨rfl, _, rfl⟩⟩)
theorem FrontLength.domainSuspend : ∀ x0, Statement (.domainSuspend x0) := by
  first | rintro x0 _ _ _ ⟨⟩; done | (rintro x0 _ _ _ ⟨⟩; first | exact ⟨_, _, .inl ⟨rfl, rfl⟩⟩ | exact ⟨_, _, .inr ⟨rfl, _, rfl⟩⟩)
theorem FrontLength.suspendAbandon : Statement (.suspendAbandon) := by
  first | rintro _ _ _ ⟨⟩; done | (rintro _ _ _ ⟨⟩; first | exact ⟨_, _, .inl ⟨rfl, rfl⟩⟩ | exact ⟨_, _, .inr ⟨rfl, _, rfl⟩⟩)
theorem FrontLength.retentionEntry : Statement (.retentionEntry) := by
  first | rintro _ _ _ ⟨⟩; done | (rintro _ _ _ ⟨⟩; first | exact ⟨_, _, .inl ⟨rfl, rfl⟩⟩ | exact ⟨_, _, .inr ⟨rfl, _, rfl⟩⟩)
theorem FrontLength.domainResume : ∀ x0, Statement (.domainResume x0) := by
  first | rintro x0 _ _ _ ⟨⟩; done | (rintro x0 _ _ _ ⟨⟩; first | exact ⟨_, _, .inl ⟨rfl, rfl⟩⟩ | exact ⟨_, _, .inr ⟨rfl, _, rfl⟩⟩)
theorem FrontLength.packageReset : ∀ x0, Statement (.packageReset x0) := by
  first | rintro x0 _ _ _ ⟨⟩; done | (rintro x0 _ _ _ ⟨⟩; first | exact ⟨_, _, .inl ⟨rfl, rfl⟩⟩ | exact ⟨_, _, .inr ⟨rfl, _, rfl⟩⟩)
theorem FrontLength.rdmaWrite : ∀ x0 x1 x2, Statement (.rdmaWrite x0 x1 x2) := by
  first | rintro x0 x1 x2 _ _ _ ⟨⟩; done | (rintro x0 x1 x2 _ _ _ ⟨⟩; first | exact ⟨_, _, .inl ⟨rfl, rfl⟩⟩ | exact ⟨_, _, .inr ⟨rfl, _, rfl⟩⟩)
theorem FrontLength.rdmaRead : ∀ x0 x1 x2, Statement (.rdmaRead x0 x1 x2) := by
  first | rintro x0 x1 x2 _ _ _ ⟨⟩; done | (rintro x0 x1 x2 _ _ _ ⟨⟩; first | exact ⟨_, _, .inl ⟨rfl, rfl⟩⟩ | exact ⟨_, _, .inr ⟨rfl, _, rfl⟩⟩)
theorem FrontLength.rdmaSend : ∀ x0 x1, Statement (.rdmaSend x0 x1) := by
  first | rintro x0 x1 _ _ _ ⟨⟩; done | (rintro x0 x1 _ _ _ ⟨⟩; first | exact ⟨_, _, .inl ⟨rfl, rfl⟩⟩ | exact ⟨_, _, .inr ⟨rfl, _, rfl⟩⟩)
theorem FrontLength.firmwareBoot : ∀ x0 x1 x2 x3 x4, Statement (.firmwareBoot x0 x1 x2 x3 x4) := by
  first | rintro x0 x1 x2 x3 x4 _ _ _ ⟨⟩; done | (rintro x0 x1 x2 x3 x4 _ _ _ ⟨⟩; first | exact ⟨_, _, .inl ⟨rfl, rfl⟩⟩ | exact ⟨_, _, .inr ⟨rfl, _, rfl⟩⟩)
theorem FrontLength.measurementRequest : ∀ x0, Statement (.measurementRequest x0) := by
  first | rintro x0 _ _ _ ⟨⟩; done | (rintro x0 _ _ _ ⟨⟩; first | exact ⟨_, _, .inl ⟨rfl, rfl⟩⟩ | exact ⟨_, _, .inr ⟨rfl, _, rfl⟩⟩)
theorem FrontLength.allowanceExhausted : ∀ x0 x1, Statement (.allowanceExhausted x0 x1) := by
  first | rintro x0 x1 _ _ _ ⟨⟩; done | (rintro x0 x1 _ _ _ ⟨⟩; first | exact ⟨_, _, .inl ⟨rfl, rfl⟩⟩ | exact ⟨_, _, .inr ⟨rfl, _, rfl⟩⟩)
theorem FrontLength.contextEviction : ∀ x0 x1, Statement (.contextEviction x0 x1) := by
  first | rintro x0 x1 _ _ _ ⟨⟩; done | (rintro x0 x1 _ _ _ ⟨⟩; first | exact ⟨_, _, .inl ⟨rfl, rfl⟩⟩ | exact ⟨_, _, .inr ⟨rfl, _, rfl⟩⟩)
theorem FrontLength.linkReturn : ∀ x0 x1, Statement (.linkReturn x0 x1) := by
  first | rintro x0 x1 _ _ _ ⟨⟩; done | (rintro x0 x1 _ _ _ ⟨⟩; first | exact ⟨_, _, .inl ⟨rfl, rfl⟩⟩ | exact ⟨_, _, .inr ⟨rfl, _, rfl⟩⟩)

end Sys2Proof.Laws
end

