-- ==== Sys2Proof/Laws/Reset.lean ====
section
/-! SUPPORT. What the machine holds right after reset: each package, core, sequencer and die has its default fields, and memory that
lists nothing reads as its rule says. -/

namespace Sys2Proof.Machine

/-- A vector of one value holds it at every index. -/
theorem vget_replicate {α : Type} (d : α) (n i : Nat) : vget d (Vector.replicate n d) i = d := by
  simp only [vget]; split <;> simp

/-- Every package name stands for a package as after its reset. -/
theorem reset_pkg (p : Nat) : State.reset.pkg p = { num := p } := by
  by_cases h : p = 0
  · subst h; rfl
  · have : (0 == p) = false := by simp; omega
    simp [State.pkg, State.reset, this]

/-- Every core is as after reset. -/
theorem reset_core (p c : Nat) : State.reset.core p c = {} := by
  show vget ({} : Core) (State.reset.pkg p).cores c = _
  rw [reset_pkg]; exact vget_replicate _ _ _

/-- Every sequencer is as after reset. -/
theorem reset_seq (i : Sid) : State.reset.seq i = {} := by
  show vget ({} : Seq) (State.reset.core i.pkg i.core).seqs i.seq = _
  rw [reset_core]; exact vget_replicate _ _ _

/-- Every die is as after reset. -/
theorem reset_die (p d : Nat) : (State.reset.pkg p).die d = {} := by
  rw [reset_pkg]; exact vget_replicate _ _ _

/-- A byte of memory that lists nothing. -/
theorem byte_of_empty (k : Package) (h : k.mem = []) (a : Nat) : k.byte a = k.unlisted a := by
  simp [Package.byte, memGet, h, cellGet]

/-- Zero bytes are the number 0. -/
theorem leNat_zeros (n : Nat) : leNat (List.replicate n 0) = 0 := by
  induction n with
  | zero => rfl
  | succ n ih => rw [List.replicate_succ, leNat, ih]; rfl

/-- A field of a queue record in memory that lists nothing is 0, unless it holds the SLOTN byte. -/
theorem qget_of_empty (k : Package) (h : k.mem = []) {q off n : Nat} (h1 : off + n ≤ 128) (h2 : 52 < off ∨ off + n ≤ 52) :
    k.qget q off n = 0 := by
  have e : k.bytes (k.qrec q + off) n = List.replicate n 0 := by
    apply List.ext_getElem (by simp [Package.bytes, memBytes])
    intro i hi hi'
    have hi2 : i < n := by simpa using hi'
    simp only [Package.bytes, memBytes, List.getElem_map, List.getElem_range, List.getElem_replicate]
    show k.byte _ = 0
    rw [byte_of_empty k h, Package.unlisted, if_neg]
    simp only [Package.qrec, Bool.and_eq_true, beq_iff_eq]
    omega
  show leNat (k.bytes _ _) = 0
  rw [e, leNat_zeros]

/-- SLOTN of a queue in memory that lists nothing is 0xFF (25 R392). -/
theorem slotn_of_empty (k : Package) (h : k.mem = []) {q : Nat} (hq : q < 4096) : k.qget q 52 1 = 0xFF := by
  have : k.unlisted (k.qrec q + 52) = 0xFF := by
    rw [Package.unlisted, if_pos]
    simp only [Package.qrec, Bool.and_eq_true, beq_iff_eq]
    exact ⟨⟨decide_eq_true (by omega), decide_eq_true (by omega)⟩, by omega⟩
  have e : k.bytes (k.qrec q + 52) 1 = [0xFF] := by
    show [k.byte (k.qrec q + 52 + 0)] = _
    rw [Nat.add_zero, byte_of_empty k h, this]
  show leNat (k.bytes _ _) = _
  rw [e]; rfl

end Sys2Proof.Machine
end

