-- ==== Sys2Proof/Tests/Slice0.lean ====
section
/-! SUPPORT. Tests of the model: ill-formed terms, words written out from the encoding tables, single steps whose results are worked out by hand
from the rules, and states and operands that meet the hypotheses of each statement of Obligations.lean. -/

namespace Sys2Proof.Tests

open Sys2Proof.Machine

/-- The guard p0. -/
def g0 : Guard := ⟨0, false⟩

/-- An engine word's header without tokens, under p0. -/
def h0 : EHead := ⟨false, false, false, false, g0⟩

/-! ## Ill-formed terms: one for each check of WellFormed.lean -/

/-- `!p0` is no guard, on every route. -/
theorem test_wf_guard : Instr.wf (.reap ⟨0, true⟩) = false ∧ Instr.wf (.knot ⟨false, false, false, false, ⟨0, true⟩⟩ 1 2) = false ∧
    Instr.wf (.await ⟨false, false, false, false, ⟨0, true⟩⟩ 0 false 1) = false ∧
    Instr.wf (.afin ⟨false, false, false, false, ⟨0, true⟩⟩ 0 false 1) = false := by decide

/-- Token bits that the route does not have. -/
theorem test_wf_tokens : Instr.wf (.await ⟨true, false, false, false, ⟨0, false⟩⟩ 0 false 1) = false ∧
    Instr.wf (.await ⟨false, false, true, false, ⟨0, false⟩⟩ 0 false 1) = false ∧
    Instr.wf (.afin ⟨false, true, false, false, ⟨0, false⟩⟩ 0 false 1) = false ∧
    Instr.wf (.afin ⟨false, false, false, true, ⟨0, false⟩⟩ 0 false 1) = false := by decide

/-- Scalar operands: a shift of 64, a conversion between integers, from a type to itself and of a 16-bit type, unordered integer compares, a record
in s29, an empty `qfence`, and a `sys` number that names a service. -/
theorem test_wf_scalar : Instr.wf (.shli g0 1 2 64) = false ∧ Instr.wf (.shri g0 1 2 64) = false ∧ Instr.wf (.srai g0 1 2 64) = false ∧
    Instr.wf (.fcvt g0 .i64 .n64 .dyn false 1 2) = false ∧ Instr.wf (.fcvt g0 .fp32 .fp32 .dyn false 1 2) = false ∧
    Instr.wf (.fcvt g0 .fp16 .fp32 .dyn false 1 2) = false ∧ Instr.wf (.cmp g0 .i64 .uo 1 2 3) = false ∧ Instr.wf (.cmp g0 .i64 .ord 1 2 3) = false ∧
    Instr.wf (.sow g0 1 29) = false ∧ Instr.wf (.qfence g0 false false false false) = false ∧ Instr.wf (.sysNoService g0 1 2 5) = false := by decide

/-- Vector operands: the type classes, rounding and saturation of an integer or float type, an unordered integer compare, an odd pair, pairs and
groups of types that no word names, a part and a segment out of range. -/
theorem test_wf_vector : Instr.wf (.vadd h0 .i64 .dyn false false 0 1 2 3) = false ∧ Instr.wf (.vadd h0 .i32 .rne false false 0 1 2 3) = false ∧
    Instr.wf (.vmulh h0 .fp32 false 0 1 2 3) = false ∧ Instr.wf (.vabs h0 .fp32 true 0 1 2) = false ∧ Instr.wf (.vcmp h0 .i8 .uo false 0 1 2 3) = false ∧
    Instr.wf (.vsel h0 .e8m0 0 1 2 3 4) = false ∧ Instr.wf (.vperm h0 .i8 0 1 2 3) = false ∧ Instr.wf (.vzip h0 .i8 1 2 3) = false ∧
    Instr.wf (.vunzip h0 .i8 1 2 3) = false ∧ Instr.wf (.vwadd h0 .i16 .n8 .dyn false 0 2 4 5) = false ∧ Instr.wf (.vwadd h0 .i16 .i8 .dyn true 0 2 4 5) = false ∧
    Instr.wf (.vwmul h0 .i16 .i8 .dyn false 0 3 4 5) = false ∧ Instr.wf (.vwcvt h0 .fp32 .fp32 .dyn false 0 4 5) = false ∧
    Instr.wf (.vwcvt h0 .fp32 .e4m3 .dyn false 0 2 5) = false ∧ Instr.wf (.vnar h0 .i8 .i32 .dyn false 0 2 6) = false ∧
    Instr.wf (.vcvt h0 .i8 .i8 .dyn false 0 1 2 0) = false ∧ Instr.wf (.vcvt h0 .i8 .e8m0 .dyn false 0 1 2 0) = false ∧
    Instr.wf (.vcvt h0 .fp32 .fp16 .dyn false 0 1 2 2) = false ∧ Instr.wf (.vunpk h0 .i16 .i4 0 2 3 4 5) = false ∧
    Instr.wf (.vunpk h0 .i8 .i4 0 3 3 4 5) = false ∧ Instr.wf (.vsum h0 .fp32 .dyn true 0 1 2 1) = false ∧ Instr.wf (.vsum h0 .i32 .dyn false 0 1 2 0) = false ∧
    Instr.wf (.vmaxr h0 .i32 0 1 2 8) = false ∧ Instr.wf (.vminr h0 .i32 0 1 2 0) = false ∧ Instr.wf (.vsumw h0 .i16 .i4 .dyn false 0 1 2 1) = false ∧
    Instr.wf (.vsumw h0 .i32 .i4 .dyn false 0 1 2 5) = false ∧ Instr.wf (.vexp h0 .i32 0 1 2) = false ∧ Instr.wf (.vrand h0 .e4m3 0 1 2 3) = false ∧
    Instr.wf (.vlds h0 .fp64 0 1 2 3) = false ∧ Instr.wf (.vldx h0 .i8 0 1 2 3) = false ∧ Instr.wf (.vand h0 .bf16 false 0 1 2 3) = false := by decide

/-- Matrix and copy operands: tiles 30 and 31, a base beside a bus, a digit count out of range, a tag under `.notag`, B of `ksig`. -/
theorem test_wf_engine : Instr.wf (.mmul h0 30 1 2 3 4 false false false 0) = false ∧ Instr.wf (.mmul h0 3 1 0 3 4 true false false 0) = false ∧
    Instr.wf (.mmul h0 3 1 2 0 4 false true false 0) = false ∧ Instr.wf (.mslice h0 4 1 2 3 4 false 0 0) = false ∧
    Instr.wf (.mslice h0 4 1 2 3 4 false 11 0) = false ∧ Instr.wf (.mzero h0 31) = false ∧ Instr.wf (.mld h0 30 1 2 false) = false ∧
    Instr.wf (.mst h0 30 1 2) = false ∧ Instr.wf (.cpy h0 ⟨1, 2, 3, 4, 5, .seq, true⟩ false) = false ∧
    Instr.wf (.ksig h0 ⟨0, 2, 3, 4, 5, .seq, true⟩ false) = false ∧ Instr.wf (.asub h0 7 true 2) = false := by decide

/-- The words of integer words and moves (05 R88-R90, R98; 09 R158-R161), written out field by field from the formats and opcode tables. -/
theorem test_decode_integer :
    decodeWord 0x0005E22181401000 0 = .ok (.add ⟨3, true⟩ .n64 true 17 2 3) ∧
    decodeWord 0x0009E22181401000 0 = .ok (.sub ⟨3, true⟩ .n64 true 17 2 3) ∧
    decodeWord 0x000DE22181401000 0 = .ok (.mul ⟨3, true⟩ .n64 true 17 2 3) ∧
    decodeWord 0x0011E22181400000 0 = .ok (.mulh ⟨3, true⟩ .n64 17 2 3) ∧
    decodeWord 0x0015E22181401000 0 = .ok (.div ⟨3, true⟩ .n64 true 17 2 3) ∧
    decodeWord 0x0019E22181400000 0 = .ok (.rem ⟨3, true⟩ .n64 17 2 3) ∧
    decodeWord 0x001DE22181400000 0 = .ok (.and ⟨3, true⟩ .n64 17 2 3) ∧
    decodeWord 0x0021E22181400000 0 = .ok (.or ⟨3, true⟩ .n64 17 2 3) ∧
    decodeWord 0x0025E22181400000 0 = .ok (.xor ⟨3, true⟩ .n64 17 2 3) ∧
    decodeWord 0x0029E22181401000 0 = .ok (.shl ⟨3, true⟩ .n64 true 17 2 3) ∧
    decodeWord 0x002DE22181400000 0 = .ok (.shr ⟨3, true⟩ .n64 17 2 3) ∧
    decodeWord 0x0031E22181400000 0 = .ok (.sra ⟨3, true⟩ .n64 17 2 3) ∧
    decodeWord 0x0035E22181400000 0 = .ok (.min ⟨3, true⟩ .n64 17 2 3) ∧
    decodeWord 0x0039E22181400000 0 = .ok (.max ⟨3, true⟩ .n64 17 2 3) ∧
    decodeWord 0x003DE22191400000 0 = .ok (.sel ⟨3, true⟩ .n64 17 2 3 4) ∧
    decodeWord 0x0041E22001400000 0 = .ok (.clz ⟨3, true⟩ .n64 17 2) ∧
    decodeWord 0x0045E22001400000 0 = .ok (.ctz ⟨3, true⟩ .n64 17 2) ∧
    decodeWord 0x0049E22001400000 0 = .ok (.popc ⟨3, true⟩ .n64 17 2) ∧
    decodeWord 0x0061E22FFFFFFFFB 0 = .ok (.addi ⟨3, true⟩ 17 2 (-5)) ∧
    decodeWord 0x0065E22FFFFFFFFB 0 = .ok (.andi ⟨3, true⟩ 17 2 (-5)) ∧
    decodeWord 0x0069E22FFFFFFFFB 0 = .ok (.ori ⟨3, true⟩ 17 2 (-5)) ∧
    decodeWord 0x006DE22FFFFFFFFB 0 = .ok (.xori ⟨3, true⟩ 17 2 (-5)) ∧
    decodeWord 0x0071E2200000003F 0 = .ok (.shli ⟨3, true⟩ 17 2 63) ∧
    decodeWord 0x0075E2200000003F 0 = .ok (.shri ⟨3, true⟩ 17 2 63) ∧
    decodeWord 0x0079E2200000003F 0 = .ok (.srai ⟨3, true⟩ 17 2 63) ∧
    decodeWord 0x007DE22FFFFFFFFB 0 = .ok (.muli ⟨3, true⟩ 17 2 (-5)) ∧
    decodeWord 0x0081E3FFFFFFFFFB 0 = .ok (.movi ⟨3, true⟩ 17 (-5)) ∧
    decodeWord 0x0085E3FFFFFFFFFB 0 = .ok (.movhi ⟨3, true⟩ 17 (-5)) ∧
    decodeWord 0x0089E22FFFFFFFFB 0 = .ok (.lea ⟨3, true⟩ 17 2 (-5)) ∧
    decodeWord 0x008DE22000000000 0x0123456789ABCDEF = .ok (.leal ⟨3, true⟩ 17 2 0x0123456789ABCDEF) ∧
    decodeWord 0x0091E20000000000 0x0123456789ABCDEF = .ok (.movl ⟨3, true⟩ 17 0x0123456789ABCDEF) := by
  refine ⟨?_, ?_, ?_, ?_, ?_, ?_, ?_, ?_, ?_, ?_, ?_, ?_, ?_, ?_, ?_, ?_, ?_, ?_, ?_, ?_, ?_, ?_, ?_, ?_, ?_, ?_, ?_, ?_, ?_, ?_, ?_⟩ <;> rfl

/-- The words of loads and stores (05 R89, R98; 09 R163), written out field by field from the formats and opcode tables. -/
theorem test_decode_memory :
    decodeWord 0x00A1E22FFFFFFFFB 0 = .ok (.ld8 ⟨3, true⟩ 17 2 (-5)) ∧
    decodeWord 0x00A5E22FFFFFFFFB 0 = .ok (.ld16 ⟨3, true⟩ 17 2 (-5)) ∧
    decodeWord 0x00A9E22FFFFFFFFB 0 = .ok (.ld32 ⟨3, true⟩ 17 2 (-5)) ∧
    decodeWord 0x00ADE22FFFFFFFFB 0 = .ok (.ld64 ⟨3, true⟩ 17 2 (-5)) ∧
    decodeWord 0x00B1E22FFFFFFFFB 0 = .ok (.ld8s ⟨3, true⟩ 17 2 (-5)) ∧
    decodeWord 0x00B5E22FFFFFFFFB 0 = .ok (.ld16s ⟨3, true⟩ 17 2 (-5)) ∧
    decodeWord 0x00B9E22FFFFFFFFB 0 = .ok (.ld32s ⟨3, true⟩ 17 2 (-5)) ∧
    decodeWord 0x00C1E22FFFFFFFFB 0 = .ok (.st8 ⟨3, true⟩ 17 2 (-5)) ∧
    decodeWord 0x00C5E22FFFFFFFFB 0 = .ok (.st16 ⟨3, true⟩ 17 2 (-5)) ∧
    decodeWord 0x00C9E22FFFFFFFFB 0 = .ok (.st32 ⟨3, true⟩ 17 2 (-5)) ∧
    decodeWord 0x00CDE22FFFFFFFFB 0 = .ok (.st64 ⟨3, true⟩ 17 2 (-5)) := by
  refine ⟨?_, ?_, ?_, ?_, ?_, ?_, ?_, ?_, ?_, ?_, ?_⟩ <;> rfl

/-- The words of scalar float words and compares (05 R88, R95, R97; 09 R166-R169), written out field by field from the formats and opcode tables. -/
theorem test_decode_float :
    decodeWord 0x00E1E22182C08000 0 = .ok (.fadd ⟨3, true⟩ .fp64 .rdn 17 2 3) ∧
    decodeWord 0x00E5E22182C08000 0 = .ok (.fsub ⟨3, true⟩ .fp64 .rdn 17 2 3) ∧
    decodeWord 0x00E9E22182C08000 0 = .ok (.fmul ⟨3, true⟩ .fp64 .rdn 17 2 3) ∧
    decodeWord 0x00EDE22182C08000 0 = .ok (.fdiv ⟨3, true⟩ .fp64 .rdn 17 2 3) ∧
    decodeWord 0x00F1E22192C08000 0 = .ok (.ffma ⟨3, true⟩ .fp64 .rdn 17 2 3 4) ∧
    decodeWord 0x00F5E22002C08000 0 = .ok (.fsqrt ⟨3, true⟩ .fp64 .rdn 17 2) ∧
    decodeWord 0x00F9E22182C00000 0 = .ok (.fmin ⟨3, true⟩ .fp64 17 2 3) ∧
    decodeWord 0x00FDE22182C00000 0 = .ok (.fmax ⟨3, true⟩ .fp64 17 2 3) ∧
    decodeWord 0x0101E22001359000 0 = .ok (.fcvt ⟨3, true⟩ .i64 .fp32 .rdn true 17 2) ∧
    decodeWord 0x0121CC2181400005 0 = .ok (.cmp ⟨3, true⟩ .n64 .ge 6 2 3) ∧
    decodeWord 0x0125CC2182C00005 0 = .ok (.fcmp ⟨3, true⟩ .fp64 .ge 6 2 3) := by
  refine ⟨?_, ?_, ?_, ?_, ?_, ?_, ?_, ?_, ?_, ?_, ?_⟩ <;> rfl

/-- The words of predicates, control, seeds, barriers, waits and fences (05 R88-R90, R96; 09 R170-R182), written out field by field from the formats and opcode tables. -/
theorem test_decode_control :
    decodeWord 0x0129CC2180000000 0 = .ok (.pand ⟨3, true⟩ 6 2 3) ∧
    decodeWord 0x012DCC2180000000 0 = .ok (.por ⟨3, true⟩ 6 2 3) ∧
    decodeWord 0x0131CC2180000000 0 = .ok (.pxor ⟨3, true⟩ 6 2 3) ∧
    decodeWord 0x0135CC2000000000 0 = .ok (.pnot ⟨3, true⟩ 6 2) ∧
    decodeWord 0x0141C1FFFFFFFFFB 0 = .ok (.br ⟨3, true⟩ (-5)) ∧
    decodeWord 0x0145C02000000000 0 = .ok (.jr ⟨3, true⟩ 2) ∧
    decodeWord 0x0149E3FFFFFFFFFB 0 = .ok (.call ⟨3, true⟩ 17 (-5)) ∧
    decodeWord 0x014DE22000000000 0 = .ok (.callr ⟨3, true⟩ 17 2) ∧
    decodeWord 0x0151C02000000000 0 = .ok (.ret ⟨3, true⟩ 2) ∧
    decodeWord 0x0155C22FFFFFFFFB 0 = .ok (.lset ⟨3, true⟩ true 2 (-5)) ∧
    decodeWord 0x0159C3FFFFFFFFFB 0 = .ok (.lend ⟨3, true⟩ true (-5)) ∧
    decodeWord 0x0181E22000000000 0 = .ok (.sow ⟨3, true⟩ 17 2) ∧
    decodeWord 0x0185C00000000000 0 = .ok (.reap ⟨3, true⟩) ∧
    decodeWord 0x0189C00000000600 0 = .ok (.bar ⟨3, true⟩ .pkg) ∧
    decodeWord 0x018DC00000000600 0 = .ok (.bard ⟨3, true⟩ .pkg) ∧
    decodeWord 0x0191C00000000600 0 = .ok (.barj ⟨3, true⟩ .pkg) ∧
    decodeWord 0x01A1E20000000000 0 = .ok (.tokget ⟨3, true⟩ 17) ∧
    decodeWord 0x01A5C02000000000 0 = .ok (.tokset ⟨3, true⟩ 2) ∧
    decodeWord 0x01A9E22000000000 0 = .ok (.wtany ⟨3, true⟩ 17 2) ∧
    decodeWord 0x01ADE22000000000 0 = .ok (.wtall ⟨3, true⟩ 17 2) ∧
    decodeWord 0x01B1E22000000000 0 = .ok (.wtff ⟨3, true⟩ 17 2) ∧
    decodeWord 0x01B5E22180000600 0 = .ok (.wcnt ⟨3, true⟩ .pkg 17 2 3) ∧
    decodeWord 0x01B9C0000000000A 0 = .ok (.qfence ⟨3, true⟩ false true false true) ∧
    decodeWord 0x01BDC00000000600 0 = .ok (.rel ⟨3, true⟩ .pkg) ∧
    decodeWord 0x01C1C00000000600 0 = .ok (.acq ⟨3, true⟩ .pkg) ∧
    decodeWord 0x01C5C02000000000 0 = .ok (.tagclr ⟨3, true⟩ 2) := by
  refine ⟨?_, ?_, ?_, ?_, ?_, ?_, ?_, ?_, ?_, ?_, ?_, ?_, ?_, ?_, ?_, ?_, ?_, ?_, ?_, ?_, ?_, ?_, ?_, ?_, ?_, ?_⟩ <;> rfl

/-- The words of atomics (05 R88; 09 R184), written out field by field from the formats and opcode tables. -/
theorem test_decode_atomic :
    decodeWord 0x01E1E22181200000 0 = .ok (.aadd ⟨3, true⟩ 17 2 3) ∧
    decodeWord 0x01E5E22182A00000 0 = .ok (.afadd ⟨3, true⟩ 17 2 3) ∧
    decodeWord 0x01E9E22181400000 0 = .ok (.amin ⟨3, true⟩ .n64 17 2 3) ∧
    decodeWord 0x01EDE22181400000 0 = .ok (.amax ⟨3, true⟩ .n64 17 2 3) ∧
    decodeWord 0x01F1E22181200000 0 = .ok (.aand ⟨3, true⟩ 17 2 3) ∧
    decodeWord 0x01F5E22181200000 0 = .ok (.aor ⟨3, true⟩ 17 2 3) ∧
    decodeWord 0x01F9E22181200000 0 = .ok (.axor ⟨3, true⟩ 17 2 3) ∧
    decodeWord 0x01FDE22181200000 0 = .ok (.aswap ⟨3, true⟩ 17 2 3) ∧
    decodeWord 0x0201E22191200000 0 = .ok (.acas ⟨3, true⟩ 17 2 3 4) := by
  refine ⟨?_, ?_, ?_, ?_, ?_, ?_, ?_, ?_, ?_⟩ <;> rfl

/-- The words of state registers, services and maintenance (05 R89; 09 R188-R196; 13 R231; 21 R359), written out field by field from the formats and opcode tables. -/
theorem test_decode_system :
    decodeWord 0x0221E20000000013 0 = .ok (.sget ⟨3, true⟩ 17 .vpkg) ∧
    decodeWord 0x0225C02000000000 0 = .ok (.ssetFpc ⟨3, true⟩ 2) ∧
    decodeWord 0x0225C02000000001 0 = .ok (.ssetFps ⟨3, true⟩ 2) ∧
    decodeWord 0x0225C02000000002 0 = .ok (.ssetTags ⟨3, true⟩ 2) ∧
    decodeWord 0x0225C02000000008 0 = .ok (.ssetLease ⟨3, true⟩ 2) ∧
    decodeWord 0x0225C02000000006 0 = .ok (.ssetPrio ⟨3, true⟩ 2) ∧
    decodeWord 0x0225C02000000007 0 = .ok (.ssetMemb ⟨3, true⟩ 2) ∧
    decodeWord 0x0225C02000000005 0 = .ok (.ssetLc ⟨3, true⟩ true 2) ∧
    decodeWord 0x0225C02000000029 0 = .ok (.ssetBase ⟨3, true⟩ 9 2) ∧
    decodeWord 0x0229C00000000000 0 = .ok (.tfence ⟨3, true⟩) ∧
    decodeWord 0x022DE22000000000 0 = .ok (.sysNop ⟨3, true⟩ 17 2) ∧
    decodeWord 0x022DE22000000001 0 = .ok (.sysDtime ⟨3, true⟩ 17 2) ∧
    decodeWord 0x022DE22000000002 0 = .ok (.sysHostevent ⟨3, true⟩ 17 2) ∧
    decodeWord 0x022DE22000000003 0 = .ok (.sysAllowance ⟨3, true⟩ 17 2) ∧
    decodeWord 0x022DE22000000004 0 = .ok (.sysEstimate ⟨3, true⟩ 17 2) ∧
    decodeWord 0x022DE22000000005 0 = .ok (.sysCtxinfo ⟨3, true⟩ 17 2) ∧
    decodeWord 0x022DE2200000000D 0 = .ok (.sysNoService ⟨3, true⟩ 17 2 13) ∧
    decodeWord 0x0231C02000000000 0 = .ok (.pchg ⟨3, true⟩ 2) ∧
    decodeWord 0x0235C02000000000 0 = .ok (.tlbi ⟨3, true⟩ 2) ∧
    decodeWord 0x0239C00000000000 0 = .ok (.tlbia ⟨3, true⟩) ∧
    decodeWord 0x023DC02000000000 0 = .ok (.blclr ⟨3, true⟩ 2) ∧
    decodeWord 0x0241E22000000000 0 = .ok (.blq ⟨3, true⟩ 17 2) ∧
    decodeWord 0x0245C02000000000 0 = .ok (.mfmt ⟨3, true⟩ 2) ∧
    decodeWord 0x0261E22180000000 0 = .ok (.karm ⟨3, true⟩ 17 2 3) ∧
    decodeWord 0x0265E20180000000 0 = .ok (.kstat ⟨3, true⟩ 17 3) ∧
    decodeWord 0x0269E20180000000 0 = .ok (.kdis ⟨3, true⟩ 17 3) := by
  refine ⟨?_, ?_, ?_, ?_, ?_, ?_, ?_, ?_, ?_, ?_, ?_, ?_, ?_, ?_, ?_, ?_, ?_, ?_, ?_, ?_, ?_, ?_, ?_, ?_, ?_, ?_⟩ <;> rfl

/-- The words of vector arithmetic, logic and compares (05 R87, R88, R100; 11 R204-R208), written out field by field from the formats and opcode tables. -/
theorem test_decode_vector_arithmetic :
    decodeWord 0xA405E22182A09141 0 = .ok (.vadd ⟨true, false, false, true, ⟨3, true⟩⟩ .fp32 .rdn true true 5 17 2 3) ∧
    decodeWord 0xA409E22182A09141 0 = .ok (.vsub ⟨true, false, false, true, ⟨3, true⟩⟩ .fp32 .rdn true true 5 17 2 3) ∧
    decodeWord 0xA40DE22182A09141 0 = .ok (.vmul ⟨true, false, false, true, ⟨3, true⟩⟩ .fp32 .rdn true true 5 17 2 3) ∧
    decodeWord 0xA411E22180A00141 0 = .ok (.vmulh ⟨true, false, false, true, ⟨3, true⟩⟩ .i16 true 5 17 2 3) ∧
    decodeWord 0xA415E22192A09143 0 = .ok (.vfma ⟨true, false, false, true, ⟨3, true⟩⟩ .fp32 .rdn true true true 5 17 2 3 4) ∧
    decodeWord 0xA419E22192A09143 0 = .ok (.vfms ⟨true, false, false, true, ⟨3, true⟩⟩ .fp32 .rdn true true true 5 17 2 3 4) ∧
    decodeWord 0xA41DE22192A09143 0 = .ok (.vfnma ⟨true, false, false, true, ⟨3, true⟩⟩ .fp32 .rdn true true true 5 17 2 3 4) ∧
    decodeWord 0xA421E22000A01140 0 = .ok (.vabs ⟨true, false, false, true, ⟨3, true⟩⟩ .i16 true 5 17 2) ∧
    decodeWord 0xA425E22000A01140 0 = .ok (.vneg ⟨true, false, false, true, ⟨3, true⟩⟩ .i16 true 5 17 2) ∧
    decodeWord 0xA429E22182A00141 0 = .ok (.vmin ⟨true, false, false, true, ⟨3, true⟩⟩ .fp32 true 5 17 2 3) ∧
    decodeWord 0xA42DE22182A00141 0 = .ok (.vmax ⟨true, false, false, true, ⟨3, true⟩⟩ .fp32 true 5 17 2 3) ∧
    decodeWord 0xA431E22182A09141 0 = .ok (.vabd ⟨true, false, false, true, ⟨3, true⟩⟩ .fp32 .rdn true true 5 17 2 3) ∧
    decodeWord 0xA435E22192A00143 0 = .ok (.vclamp ⟨true, false, false, true, ⟨3, true⟩⟩ .fp32 true true 5 17 2 3 4) ∧
    decodeWord 0xA439E22182A09141 0 = .ok (.vdiv ⟨true, false, false, true, ⟨3, true⟩⟩ .fp32 .rdn true true 5 17 2 3) ∧
    decodeWord 0xA445E22180A00141 0 = .ok (.vand ⟨true, false, false, true, ⟨3, true⟩⟩ .i16 true 5 17 2 3) ∧
    decodeWord 0xA449E22180A00141 0 = .ok (.vor ⟨true, false, false, true, ⟨3, true⟩⟩ .i16 true 5 17 2 3) ∧
    decodeWord 0xA44DE22180A00141 0 = .ok (.vxor ⟨true, false, false, true, ⟨3, true⟩⟩ .i16 true 5 17 2 3) ∧
    decodeWord 0xA451E22000A00140 0 = .ok (.vnot ⟨true, false, false, true, ⟨3, true⟩⟩ .i16 5 17 2) ∧
    decodeWord 0xA455E22180A01141 0 = .ok (.vshl ⟨true, false, false, true, ⟨3, true⟩⟩ .i16 true true 5 17 2 3) ∧
    decodeWord 0xA459E22180A00141 0 = .ok (.vshr ⟨true, false, false, true, ⟨3, true⟩⟩ .i16 true 5 17 2 3) ∧
    decodeWord 0xA45DE22180A00141 0 = .ok (.vsra ⟨true, false, false, true, ⟨3, true⟩⟩ .i16 true 5 17 2 3) ∧
    decodeWord 0xA461E22180A00141 0 = .ok (.vrot ⟨true, false, false, true, ⟨3, true⟩⟩ .i16 true 5 17 2 3) ∧
    decodeWord 0xA465CC2182A0014D 0 = .ok (.vcmp ⟨true, false, false, true, ⟨3, true⟩⟩ .fp32 .ge true 5 6 2 3) := by
  refine ⟨?_, ?_, ?_, ?_, ?_, ?_, ?_, ?_, ?_, ?_, ?_, ?_, ?_, ?_, ?_, ?_, ?_, ?_, ?_, ?_, ?_, ?_, ?_⟩ <;> rfl

/-- The words of vector selects, masks, permutes and conversions (11 R208-R215), written out field by field from the formats and opcode tables. -/
theorem test_decode_vector_permute :
    decodeWord 0xA469E22192A00140 0 = .ok (.vsel ⟨true, false, false, true, ⟨3, true⟩⟩ .fp32 5 17 2 3 4) ∧
    decodeWord 0xA46DCC2180000000 0 = .ok (.kand ⟨true, false, false, true, ⟨3, true⟩⟩ 6 2 3) ∧
    decodeWord 0xA471CC2180000000 0 = .ok (.kor ⟨true, false, false, true, ⟨3, true⟩⟩ 6 2 3) ∧
    decodeWord 0xA475CC2180000000 0 = .ok (.kxor ⟨true, false, false, true, ⟨3, true⟩⟩ 6 2 3) ∧
    decodeWord 0xA479CC2000000000 0 = .ok (.knot ⟨true, false, false, true, ⟨3, true⟩⟩ 6 2) ∧
    decodeWord 0xA47DCC2000000000 0 = .ok (.kmov ⟨true, false, false, true, ⟨3, true⟩⟩ 6 2) ∧
    decodeWord 0xA47DCC200000002B 0 = .ok (.kmovS ⟨true, false, false, true, ⟨3, true⟩⟩ 6 2 11) ∧
    decodeWord 0xA481E22001000140 0 = .ok (.kpop ⟨true, false, false, true, ⟨3, true⟩⟩ 5 17 2) ∧
    decodeWord 0xA485E22182A00140 0 = .ok (.vperm ⟨true, false, false, true, ⟨3, true⟩⟩ .fp32 5 17 2 3) ∧
    decodeWord 0xA489E22002A00140 0 = .ok (.vrev ⟨true, false, false, true, ⟨3, true⟩⟩ .fp32 5 17 2) ∧
    decodeWord 0xA48DE42182A00000 0 = .ok (.vzip ⟨true, false, false, true, ⟨3, true⟩⟩ .fp32 18 2 3) ∧
    decodeWord 0xA491E42182A00000 0 = .ok (.vunzip ⟨true, false, false, true, ⟨3, true⟩⟩ .fp32 18 2 3) ∧
    decodeWord 0xA495E22192A00140 0 = .ok (.vslide ⟨true, false, false, true, ⟨3, true⟩⟩ .fp32 5 17 2 3 4) ∧
    decodeWord 0xA499E22002A00140 0 = .ok (.vbcast ⟨true, false, false, true, ⟨3, true⟩⟩ .fp32 5 17 2) ∧
    decodeWord 0xA499E22182A00141 0 = .ok (.vbcastEl ⟨true, false, false, true, ⟨3, true⟩⟩ .fp32 5 17 2 3) ∧
    decodeWord 0xA49DE22182A00000 0 = .ok (.vext ⟨true, false, false, true, ⟨3, true⟩⟩ .fp32 17 2 3) ∧
    decodeWord 0xA4A1E22182A00000 0 = .ok (.vins ⟨true, false, false, true, ⟨3, true⟩⟩ .fp32 17 2 3) ∧
    decodeWord 0xA4A5E22002A00140 0 = .ok (.vmov ⟨true, false, false, true, ⟨3, true⟩⟩ .fp32 5 17 2) ∧
    decodeWord 0xA4A9E22002A00140 0 = .ok (.vcmpr ⟨true, false, false, true, ⟨3, true⟩⟩ .fp32 5 17 2) ∧
    decodeWord 0xA4ADE22002A00140 0 = .ok (.vexpd ⟨true, false, false, true, ⟨3, true⟩⟩ .fp32 5 17 2) ∧
    decodeWord 0xA4B1E42182919140 0 = .ok (.vwadd ⟨true, false, false, true, ⟨3, true⟩⟩ .fp16 .e4m3 .rdn true 5 18 2 3) ∧
    decodeWord 0xA4B5E42182919140 0 = .ok (.vwmul ⟨true, false, false, true, ⟨3, true⟩⟩ .fp16 .e4m3 .rdn true 5 18 2 3) ∧
    decodeWord 0xA4B9E82002B29140 0 = .ok (.vwcvt ⟨true, false, false, true, ⟨3, true⟩⟩ .fp32 .e5m2 .rdn true 5 20 2) ∧
    decodeWord 0xA4BDE26002759140 0 = .ok (.vnar ⟨true, false, false, true, ⟨3, true⟩⟩ .bf16 .fp32 .rdn true 5 17 6) ∧
    decodeWord 0xA4C1E22002889141 0 = .ok (.vcvt ⟨true, false, false, true, ⟨3, true⟩⟩ .fp16 .n32 .rdn true 5 17 2 1) ∧
    decodeWord 0xA4C5E42192300140 0 = .ok (.vunpk ⟨true, false, false, true, ⟨3, true⟩⟩ .e4m3 .e2m1 5 18 2 3 4) := by
  refine ⟨?_, ?_, ?_, ?_, ?_, ?_, ?_, ?_, ?_, ?_, ?_, ?_, ?_, ?_, ?_, ?_, ?_, ?_, ?_, ?_, ?_, ?_, ?_, ?_, ?_, ?_⟩ <;> rfl

/-- The words of reductions, functions and vector memory (11 R216-R224), written out field by field from the formats and opcode tables. -/
theorem test_decode_vector_rest :
    decodeWord 0xA4C9E22000C01143 0 = .ok (.vsum ⟨true, false, false, true, ⟨3, true⟩⟩ .n16 .dyn true 5 17 2 3) ∧
    decodeWord 0xA4CDE22000A11143 0 = .ok (.vsumw ⟨true, false, false, true, ⟨3, true⟩⟩ .i16 .i4 .dyn true 5 17 2 3) ∧
    decodeWord 0xA4D1E22002A00143 0 = .ok (.vmaxr ⟨true, false, false, true, ⟨3, true⟩⟩ .fp32 5 17 2 3) ∧
    decodeWord 0xA4D5E22002A00143 0 = .ok (.vminr ⟨true, false, false, true, ⟨3, true⟩⟩ .fp32 5 17 2 3) ∧
    decodeWord 0xA4D9E22002A00140 0 = .ok (.vexp ⟨true, false, false, true, ⟨3, true⟩⟩ .fp32 5 17 2) ∧
    decodeWord 0xA4DDE22002A00140 0 = .ok (.vexp2 ⟨true, false, false, true, ⟨3, true⟩⟩ .fp32 5 17 2) ∧
    decodeWord 0xA4E1E22002A00140 0 = .ok (.vlog2 ⟨true, false, false, true, ⟨3, true⟩⟩ .fp32 5 17 2) ∧
    decodeWord 0xA4E5E22002A00140 0 = .ok (.vrcp ⟨true, false, false, true, ⟨3, true⟩⟩ .fp32 5 17 2) ∧
    decodeWord 0xA4E9E22002A00140 0 = .ok (.vrsqrt ⟨true, false, false, true, ⟨3, true⟩⟩ .fp32 5 17 2) ∧
    decodeWord 0xA4EDE22002A08140 0 = .ok (.vsqrt ⟨true, false, false, true, ⟨3, true⟩⟩ .fp32 .rdn 5 17 2) ∧
    decodeWord 0xA4F1E22002A00140 0 = .ok (.vsin ⟨true, false, false, true, ⟨3, true⟩⟩ .fp32 5 17 2) ∧
    decodeWord 0xA4F5E22002A00140 0 = .ok (.vcos ⟨true, false, false, true, ⟨3, true⟩⟩ .fp32 5 17 2) ∧
    decodeWord 0xA4F9E22002A00140 0 = .ok (.vtanh ⟨true, false, false, true, ⟨3, true⟩⟩ .fp32 5 17 2) ∧
    decodeWord 0xA4FDE22002A00140 0 = .ok (.vsigm ⟨true, false, false, true, ⟨3, true⟩⟩ .fp32 5 17 2) ∧
    decodeWord 0xA501E22182A00140 0 = .ok (.vrand ⟨true, false, false, true, ⟨3, true⟩⟩ .fp32 5 17 2 3) ∧
    decodeWord 0xA505E22FFFFFFFFB 0 = .ok (.vld ⟨true, false, false, true, ⟨3, true⟩⟩ 17 2 (-5)) ∧
    decodeWord 0xA509E22FFFFFFFFB 0 = .ok (.vst ⟨true, false, false, true, ⟨3, true⟩⟩ 17 2 (-5)) ∧
    decodeWord 0xA50DE22182A00140 0 = .ok (.vlds ⟨true, false, false, true, ⟨3, true⟩⟩ .fp32 5 17 2 3) ∧
    decodeWord 0xA511E22182A00140 0 = .ok (.vsts ⟨true, false, false, true, ⟨3, true⟩⟩ .fp32 5 17 2 3) ∧
    decodeWord 0xA515E22182A00140 0 = .ok (.vldx ⟨true, false, false, true, ⟨3, true⟩⟩ .fp32 5 17 2 3) ∧
    decodeWord 0xA519E22182A00140 0 = .ok (.vstx ⟨true, false, false, true, ⟨3, true⟩⟩ .fp32 5 17 2 3) ∧
    decodeWord 0xA51DE22FFFFFFFFB 0 = .ok (.vldb ⟨true, false, false, true, ⟨3, true⟩⟩ 17 2 (-5)) := by
  refine ⟨?_, ?_, ?_, ?_, ?_, ?_, ?_, ?_, ?_, ?_, ?_, ?_, ?_, ?_, ?_, ?_, ?_, ?_, ?_, ?_, ?_, ?_⟩ <;> rfl

/-- The words of matrix commands (05 R91; 13 R243-R251), written out field by field from the formats and opcode tables. -/
theorem test_decode_matrix :
    decodeWord 0xA701C00000000000 0 = .ok (.mlease ⟨true, false, false, true, ⟨3, true⟩⟩) ∧
    decodeWord 0xA705C00000000000 0 = .ok (.mrel ⟨true, false, false, true, ⟨3, true⟩⟩) ∧
    decodeWord 0xA709D20031B40ABC 0 = .ok (.mmul ⟨true, false, false, true, ⟨3, true⟩⟩ 9 0 0 12 13 true false true 2748) ∧
    decodeWord 0xA70DD2A5B1A5CABC 0 = .ok (.mslice ⟨true, false, false, true, ⟨3, true⟩⟩ 9 10 11 12 13 true 7 2748) ∧
    decodeWord 0xA711D20000000000 0 = .ok (.mzero ⟨true, false, false, true, ⟨3, true⟩⟩ 9) ∧
    decodeWord 0xA715D2A580040000 0 = .ok (.mld ⟨true, false, false, true, ⟨3, true⟩⟩ 9 10 11 true) ∧
    decodeWord 0xA719D2A580000000 0 = .ok (.mst ⟨true, false, false, true, ⟨3, true⟩⟩ 9 10 11) ∧
    decodeWord 0xA71DC0A580002ABC 0 = .ok (.msow ⟨true, false, false, true, ⟨3, true⟩⟩ 10 11 true 2748) := by
  refine ⟨?_, ?_, ?_, ?_, ?_, ?_, ?_, ?_⟩ <;> rfl

/-- The words of copies and `ksig` (05 R92, R99, R101; 15 R273; 17 R297, R301), written out field by field from the formats and opcode tables. -/
theorem test_decode_copies :
    decodeWord 0x5005E1298E840001 0 = .ok (.cpy ⟨false, true, false, false, ⟨3, true⟩⟩ ⟨33, 5, 6, 7, 8, .team, false⟩ true) ∧
    decodeWord 0x5009E1298E840001 0 = .ok (.cgat ⟨false, true, false, false, ⟨3, true⟩⟩ ⟨33, 5, 6, 7, 8, .team, false⟩ true) ∧
    decodeWord 0x500DE1298E840001 0 = .ok (.cmc ⟨false, true, false, false, ⟨3, true⟩⟩ ⟨33, 5, 6, 7, 8, .team, false⟩ true) ∧
    decodeWord 0xC805E1298E840001 0 = .ok (.cpyo ⟨false, false, true, false, ⟨3, true⟩⟩ ⟨33, 5, 6, 7, 8, .team, false⟩ true) ∧
    decodeWord 0x5011E1298E840001 0 = .ok (.cget ⟨false, true, false, false, ⟨3, true⟩⟩ ⟨33, 5, 6, 7, 8, .team, false⟩ true) ∧
    decodeWord 0xC809E1298E840001 0 = .ok (.cput ⟨false, false, true, false, ⟨3, true⟩⟩ ⟨33, 5, 6, 7, 8, .team, false⟩ true) ∧
    decodeWord 0xC80DE12980840001 0 = .ok (.ksig ⟨false, false, true, false, ⟨3, true⟩⟩ ⟨33, 5, 6, 0, 8, .team, false⟩ true) := by
  refine ⟨?_, ?_, ?_, ?_, ?_, ?_, ?_⟩ <;> rfl

/-- The words of attention words (05 R92; 19 R325, R332-R336), written out field by field from the formats and opcode tables. -/
theorem test_decode_attention :
    decodeWord 0xC811E12800000000 0 = .ok (.asub ⟨false, false, true, false, ⟨3, true⟩⟩ 33 false 5) ∧
    decodeWord 0xC815E12800000000 0 = .ok (.aunsub ⟨false, false, true, false, ⟨3, true⟩⟩ 33 false 5) ∧
    decodeWord 0xC819E1298E000000 0 = .ok (.amerge ⟨false, false, true, false, ⟨3, true⟩⟩ 33 false 5 6 7) ∧
    decodeWord 0xC81DE12800000000 0 = .ok (.afin ⟨false, false, true, false, ⟨3, true⟩⟩ 33 false 5) ∧
    decodeWord 0x5015E12800000000 0 = .ok (.await ⟨false, true, false, false, ⟨3, true⟩⟩ 33 false 5) := by
  refine ⟨?_, ?_, ?_, ?_, ?_⟩ <;> rfl

/-- The words of collective steps (21 R345, R346), written out field by field from the formats and opcode tables. -/
theorem test_decode_steps :
    decodeStep 0x1DCFFFFD = some (.send true true .plus .minus .zero (-3)) ∧
    decodeStep 0x2DCFFFFD = some (.recv true true .plus .minus .zero (-3)) ∧
    decodeStep 0x3DCFFFFD = some (.rrs true true .plus .minus .zero (-3)) ∧
    decodeStep 0x41CFFFFD = some (.copy .plus .minus .zero (-3)) ∧
    decodeStep 0x500FFFFD = some (.wait (-3)) ∧
    decodeStep 0x6C0FFFFD = some (.loop true true (-3)) ∧
    decodeStep 0x78000000 = some (.endl true) ∧
    decodeStep 0x880FFFFD = some (.peer true (-3)) ∧
    decodeStep 0xF0000000 = some .halt := by
  refine ⟨?_, ?_, ?_, ?_, ?_, ?_, ?_, ?_, ?_⟩ <;> rfl

/-! ## Single instructions: results worked out by hand from the rules that each test names -/

/-- What f reads of i0 in the state that an instruction answers. -/
def after {α : Type} (o : Host.Outcome State Fault Refusal) (f : Seq → α) : Option α :=
  match o with
  | .next t => some (f (t.seq ⟨0, 0, 0⟩))
  | _ => none

/-- i0 runs with s1 and s2 as given, at offset 8 of the code. -/
def sTwo (a b : W64) (f : Seq → Seq := id) : State := State.reset.modSeq ⟨0, 0, 0⟩ fun q => f (({ q with st := .run, pc := 8 }.setS 1 a).setS 2 b)

/-- 09 R158: the largest signed word plus 1 wraps without SAT, and saturates and sets SF with it. -/
theorem test_add_saturates : after (exec (.add g0 .i64 true 3 1 2) (sTwo 0x7FFFFFFFFFFFFFFF 1)) (fun q => (q.sr 3, q.fps, q.pc)) = some (0x7FFFFFFFFFFFFFFF, 0x20, 16) ∧
    after (exec (.add g0 .i64 false 3 1 2) (sTwo 0x7FFFFFFFFFFFFFFF 1)) (fun q => (q.sr 3, q.fps)) = some (0x8000000000000000, 0) := by decide +kernel

/-- 09 R158: a division by 0 gives all ones; -2^63 by -1 gives 2^63 - 1 under SAT, with SF; a remainder by 0 gives the dividend. -/
theorem test_div_corners : after (exec (.div g0 .n64 false 3 1 2) (sTwo 5 0)) (fun q => q.sr 3) = some 0xFFFFFFFFFFFFFFFF ∧
    after (exec (.div g0 .i64 true 3 1 2) (sTwo 0x8000000000000000 0xFFFFFFFFFFFFFFFF)) (fun q => (q.sr 3, q.fps)) = some (0x7FFFFFFFFFFFFFFF, 0x20) ∧
    after (exec (.rem g0 .i64 3 1 2) (sTwo 0xFFFFFFFFFFFFFFF9 0)) (fun q => q.sr 3) = some 0xFFFFFFFFFFFFFFF9 := by decide +kernel

/-- 09 R158: -7 divided by 2 is -3, and the remainder -1; the high word of -1 times 2 is all ones signed, and 1 unsigned. -/
theorem test_div_rounds_to_zero : after (exec (.div g0 .i64 false 3 1 2) (sTwo 0xFFFFFFFFFFFFFFF9 2)) (fun q => q.sr 3) = some 0xFFFFFFFFFFFFFFFD ∧
    after (exec (.rem g0 .i64 3 1 2) (sTwo 0xFFFFFFFFFFFFFFF9 2)) (fun q => q.sr 3) = some 0xFFFFFFFFFFFFFFFF ∧
    after (exec (.mulh g0 .i64 3 1 2) (sTwo 0xFFFFFFFFFFFFFFFF 2)) (fun q => q.sr 3) = some 0xFFFFFFFFFFFFFFFF ∧
    after (exec (.mulh g0 .n64 3 1 2) (sTwo 0xFFFFFFFFFFFFFFFF 2)) (fun q => q.sr 3) = some 1 := by decide +kernel

/-- 09 R158: shift counts are b[5:0]: 65 shifts by 1. -/
theorem test_shift_counts : after (exec (.sra g0 .n64 3 1 2) (sTwo 0x8000000000000000 65)) (fun q => q.sr 3) = some 0xC000000000000000 ∧
    after (exec (.shr g0 .i64 3 1 2) (sTwo 0x8000000000000000 65)) (fun q => q.sr 3) = some 0x4000000000000000 := by decide +kernel

/-- 03 R36: s0 reads 0 and discards writes; 05 R86: a false guard leaves all but the program counter. -/
theorem test_zero_register_and_guard : after (exec (.add g0 .i64 false 0 1 2) (sTwo 3 4)) (fun q => (q.sr 0, q.pc)) = some (0, 16) ∧
    after (exec (.add ⟨0, true⟩ .i64 false 1 1 2) (sTwo 3 4)) (fun q => (q.sr 1, q.pc)) = some (3, 16) := by decide +kernel

/-- 09 R160: `movhi` replaces bits 63 to 23 alone. -/
theorem test_movhi : after (exec (.movhi g0 1 (-1)) (sTwo 0x1234567 0)) (fun q => q.sr 1) = some 0xFFFFFFFFFFA34567 := by decide +kernel

/-- 07 R130: 1 + 2^-24 in FP32 is a tie, which goes to the even 1.0 and is inexact; toward plus infinity it is 1 + 2^-23. -/
theorem test_fadd_rounds : after (exec (.fadd g0 .fp32 .rne 3 1 2) (sTwo 0x3F800000 0x33800000)) (fun q => (q.sr 3, q.fps)) = some (0x3F800000, 1) ∧
    after (exec (.fadd g0 .fp32 .rup 3 1 2) (sTwo 0x3F800000 0x33800000)) (fun q => (q.sr 3, q.fps)) = some (0x3F800001, 1) := by decide +kernel

/-- 07 R128: infinity minus infinity is NaN, with IV; 1 divided by -0 is minus infinity, with DZ. -/
theorem test_float_specials : after (exec (.fsub g0 .fp32 .rne 3 1 2) (sTwo 0x7F800000 0x7F800000)) (fun q => (q.sr 3, q.fps)) = some (0x7FC00000, 0x10) ∧
    after (exec (.fdiv g0 .fp32 .rne 3 1 2) (sTwo 0x3F800000 0x80000000)) (fun q => (q.sr 3, q.fps)) = some (0xFF800000, 8) := by decide +kernel

/-- 09 R168, R169: NaN is unordered with itself. -/
theorem test_cmp_unordered : after (exec (.fcmp g0 .fp32 .uo 2 1 1) (sTwo 0x7FC00000 0)) (fun q => q.pr 2) = some true ∧
    after (exec (.cmp g0 .i64 .lt 2 1 2) (sTwo 0xFFFFFFFFFFFFFFFF 0)) (fun q => q.pr 2) = some true := by decide +kernel

/-- 09 R170, R172: a branch counts words from its own; a call saves the next word's offset. -/
theorem test_branch_and_call : after (exec (.br g0 1) ((sTwo 0 0).modPkg 0 fun p => { p with slots := vmod p.slots 0 fun t => { t with loaded := true, codesz := 24 } }))
      (fun q => (q.st, q.pc)) = some (.run, 16) ∧
    after (exec (.call g0 3 (-1)) ((sTwo 0 0).modPkg 0 fun p => { p with slots := vmod p.slots 0 fun t => { t with loaded := true, codesz := 24 } }))
      (fun q => (q.sr 3, q.pc)) = some (16, 0) := by decide +kernel

/-- The head of C is an entry that has been compared; v1 is all ones. -/
def sOne (ops : List W64) : State := sTwo 0 0 fun q =>
  { (q.setV 1 (BitVec.allOnes 4096)) with qc := [{ id := 0, word := 0x8000000000000000, ops := ops, compared := true }] }

/-- 11 R205: in 8-bit elements -1 + 1 is 0, and 255 + 1 saturates to 255, with SF. -/
theorem test_vadd : after (exec (.vadd h0 .i8 .dyn false true 0 2 1 0) (sOne [1])) (fun q => (velem 8 (q.vr 2) 0, velem 8 (q.vr 2) 511, q.fps)) = some (0, 0, 0) ∧
    after (exec (.vadd h0 .n8 .dyn true true 0 2 1 0) (sOne [1])) (fun q => (velem 8 (q.vr 2) 0, velem 8 (q.vr 2) 511, q.fps)) = some (255, 255, 0x20) := by decide +kernel

/-- 11 R216: the sum of each two unsigned bytes of 255, modulo 256, is 254; above the 256 segments it is 0. -/
theorem test_vsum : after (exec (.vsum h0 .n8 .dyn false 0 2 1 1) (sOne [])) (fun q => (velem 8 (q.vr 2) 255, velem 8 (q.vr 2) 256)) = some (254, 0) := by decide +kernel

/-! ## Witnesses: the hypotheses of each statement hold together in a state of these -/

/-- Sequencer 0 of core 0 of package 0. -/
def i0 : Sid := ⟨0, 0, 0⟩

/-- The state after reset with sequencer i0 running and changed by f. -/
def seqIs (f : Seq → Seq) : State := State.reset.modSeq i0 fun q => f { q with st := .run }

/-- Sequencer i0 runs. -/
def sRun : State := seqIs id

theorem ready_of {s : State} {g : Guard} {rs : List Reg}
    (h : (s.has s.who && (s.seq s.who).guard g && (s.seq s.who).clear rs) = true) : Ready s g rs := by
  simp only [Bool.and_eq_true] at h
  exact ⟨h.1.1, h.1.2, h.2⟩

theorem issues_of {s : State} {e : EQ} {h : EHead} {x : Entry}
    (w : (s.has s.who && decide ((s.seq s.who).headOf e = some x) && x.compared && x.guard && (s.seq s.who).canTake e h) = true) :
    Issues s e h x := by
  simp only [Bool.and_eq_true, decide_eq_true_eq] at w
  exact ⟨w.1.1.1.1, w.1.1.1.2, w.1.1.2, w.1.2, w.2⟩

theorem clear_sRun (rs : List Reg) : (sRun.seq i0).clear rs = true := by
  have : ∀ r, (sRun.seq i0).loading r = false := fun r => Bool.and_false (r != 0)
  simp [Seq.clear, this]

/-- Every front-end word with guard p0 is ready in sRun. -/
theorem ready_sRun (rs : List Reg) : Ready sRun g0 rs := ⟨rfl, rfl, clear_sRun rs⟩

theorem witness_IntegerRegisterForms : Ready sRun g0 [1, 2, 3] ∧ Ready sRun g0 [31, 0] := ⟨ready_sRun _, ready_sRun _⟩

theorem witness_ImmediatesAndMoves : Ready sRun g0 [0, 31] ∧ Ready sRun g0 [31] ∧ Ready sRun g0 [1, 1] := ⟨ready_sRun _, ready_sRun _, ready_sRun _⟩

theorem witness_ScalarFloatForms : Ready sRun g0 [1, 2, 3] ∧ Ready sRun g0 [1, 2, 3, 4] ∧ Ready sRun g0 [1, 2] :=
  ⟨ready_sRun _, ready_sRun _, ready_sRun _⟩

/-- A tie between 1 and 2 units: 3 halves to nearest even, which is 2; and the hypotheses on signs and magnitudes. -/
theorem witness_FloatOperandsAndRounding : (false ≠ true) ∧ (1 ≠ 0) ∧ roundAt .rne false 3 (-1) 0 = (2, false) ∧
    roundAt .rtz false 3 (-1) 0 = (1, false) ∧ roundAt .rup false 3 (-1) 0 = (2, false) ∧ roundAt .rdn true 3 (-1) 0 = (2, false) := by decide

theorem witness_ComparesAndPredicates : Ready sRun g0 [1, 2] ∧ Cond.ge ≠ .uo ∧ Cond.ge ≠ .ord ∧ Ready sRun g0 [] :=
  ⟨ready_sRun _, by decide, by decide, ready_sRun _⟩

/-- i0 runs in a loaded slot with 16 bytes of code, of which offset 8 is legal and offset 16 is not; lc0 is 2 and lc1 is 1. -/
def sCode : State := (seqIs fun q => { q with lc0 := 2, lc1 := 1 }).modPkg 0 fun p =>
  { p with slots := vmod p.slots 0 fun t => { t with loaded := true, codesz := 16 } }

theorem witness_ControlTransfers : Ready sCode g0 [] ∧ Ready sCode g0 [1] ∧ Ready sCode g0 [1, 2] ∧ GoodTarget sCode sCode.who 8 ∧
    ¬ GoodTarget sCode sCode.who 16 ∧ 0 < ((sCode.seq sCode.who).lc0 - 1).toInt ∧ ¬ 0 < ((sCode.seq sCode.who).lc1 - 1).toInt :=
  ⟨ready_of rfl, ready_of rfl, ready_of rfl, ⟨rfl, by decide, by decide, by decide⟩, fun h => absurd h.2.2.1 (by decide), by decide, by decide⟩

/-- A load to s5 has no data yet. -/
def sLoading : State := seqIs fun q => { q with fe := [{ id := 0, store := false, size := 8, reg := 5, va := 0, place := .mem 0 0 }] }

theorem witness_GuardAndLoadHazard : frontOf (.add g0 .i64 false 1 5 3) = some (g0, 8, [1, 5, 3]) ∧ sLoading.has sLoading.who = true ∧
    (sLoading.seq sLoading.who).guard ⟨1, false⟩ = false ∧ (sLoading.seq sLoading.who).guard g0 = true ∧
    (∃ r ∈ [1, 5, 3], (sLoading.seq sLoading.who).loading r = true) := ⟨rfl, rfl, rfl, rfl, 5, by simp, rfl⟩

theorem witness_StateRegisters : Ready sRun g0 [31] ∧ Ready sRun g0 [0] := ⟨ready_sRun _, ready_sRun _⟩

/-- The first byte of the own scratchpad (15 R255). -/
def ownSpad : W64 := 0x01FF3F0000000000

/-- The first byte of the own atomic window (15 R255). -/
def ownWin : W64 := 0x01FF3F0000800000

theorem pair_of {α β : Type} {x : α × β} {a : α} (h : x.1 = a) : ∃ t, x = (a, t) := ⟨x.2, by rw [← h]⟩

/-- Context 7 with team 3 on core 0, in slot 0, whose 4,096 bytes of code stand at 0xA0000; i0 is its first sequencer, its core has four direct
granules, and f has changed i0. -/
def teamIs (f : Seq → Seq) : State :=
  ((seqIs fun q => f { q with dctx := 7, vteam := 3, rows := 1, cols := 1 }).modCore 0 0 fun c =>
    { c with carve := 4, bound := some ⟨7, 3, 0⟩ }).modPkg 0 fun p =>
    { p with
      ctxs := [{ dctx := 7, lctx := 0, root := 0, vps := [(0, 0)] }]
      teams := [{ dctx := 7, vteam := 3, st := .running, die := 0, row := 0, col := 0, rows := 1, cols := 1, slot := 0, inv := 0 }]
      slots := vmod p.slots 0 fun t => { t with loaded := true, base := 0xA0000, codesz := 4096 } }

/-- The team with i0 as placed. -/
def sTeam : State := teamIs id

/-- s1 names the own scratchpad, s2 the own window, s3 the slot's code, s4 no canonical address, s5 is 3 more than s1. -/
def sAddr : State := teamIs fun q => (((((q.setS 1 ownSpad).setS 2 ownWin).setS 3 0x01FE000000000000).setS 4 0x0200000000000000).setS 5 (ownSpad + 3))

theorem addr_ready (rs : List Reg) : Ready sAddr g0 rs := by
  refine ⟨rfl, rfl, ?_⟩
  have : ∀ r, (sAddr.seq sAddr.who).loading r = false := fun r => Bool.and_false (r != 0)
  simp [Seq.clear, this]

theorem witness_LoadAndStoreWords : Ready sAddr g0 [6, 1] ∧ (sAddr.seq sAddr.who).fe.length < Config.maxPending ∧
    loadOf (.ld64 g0 6 1 0) = some (8, false, g0, 6, 1, 0) ∧ storeOf (.st8 g0 6 1 0) = some (1, g0, 6, 1, 0) ∧
    resolve sAddr.who ownSpad 8 .load sAddr = (.ok (.spad 0 0 0), sAddr) ∧ resolve sAddr.who ownSpad 1 .store sAddr = (.ok (.spad 0 0 0), sAddr) ∧
    NoneToSend (sAddr.modSeq sAddr.who fun r => r.addLoad { id := 0, store := false, size := 8, reg := 6, va := ownSpad, place := .spad 0 0 0 }) i0 ∧
    resolve sAddr.who 0x0200000000000000 8 .load sAddr = (.fault { code := 1, addr := 0x0200000000000000, reason := 3 }, sAddr) ∧
    resolve sAddr.who (ownSpad + 1) 2 .store sAddr = (.fault { code := 4, addr := ownSpad + 1 }, sAddr) :=
  ⟨addr_ready _, by decide, rfl, rfl, rfl, rfl, by unfold NoneToSend; decide +kernel, rfl, rfl⟩

theorem witness_AddressChecks : 2 ^ 57 ≤ (0x0200000000000000#64).toNat ∧ (0x01FFFFFFFFFFFFFF#64).toNat < 2 ^ 57 ∧ isWindow ownSpad = true ∧
    ownSpad.toNat % 8 = 0 ∧ (ownSpad + 7).toNat % 8 ≠ 0 ∧ isWindow 0x01FE000000000FF8 = false ∧ (0x01FE000000000FF8#64).toNat % 8 = 0 ∧
    (∃ t, translate 0 7 i0 0x01FE000000000FF8 false true sAddr = (.ok 0 0xA0FF8, t)) :=
  ⟨by decide, by decide, rfl, rfl, by decide, rfl, rfl, pair_of (by decide +kernel)⟩

/-- A load of 8 bytes and a store of 4 are pending to the own scratchpad, the store compared by the harrow next; then an engine word and a format word. -/
def sPending : State := (teamIs fun q => { q with
  fe := [{ id := 0, store := false, size := 8, reg := 6, va := ownSpad, place := .spad 0 0 0 },
         { id := 1, store := true, size := 4, va := ownSpad + 8, place := .spad 0 0 8, data := 0x11223344 }]
  harrow := [.store 1 0], next := 2 })

theorem witness_LoadData : sPending.has i0 = true ∧ ∃ e, (sPending.seq i0).fe[0]? = some e ∧ e.store = false ∧ e.ready = false ∧ e.sent = false ∧
    MayPerform sPending i0 ((sPending.seq i0).fe.take 0) e (.spad 0 0 0) :=
  ⟨rfl, _, rfl, rfl, rfl, rfl, ⟨by decide +kernel, nofun, by decide +kernel, by decide +kernel, by decide +kernel⟩⟩

/-- The store alone. -/
def sStore : State := teamIs fun q => { q with
  fe := [{ id := 1, store := true, size := 4, va := ownSpad + 8, place := .spad 0 0 8, data := 0x11223344 }], harrow := [.store 1 0], next := 2 }

theorem witness_HarrowCompare : sStore.has i0 = true ∧ (sStore.seq i0).harrow = .store 1 0 :: [] ∧
    HItem.ck (.store 1 0) + 6 ≤ (advanceClock 6 sStore).ck ∧ (∃ e, (sStore.seq i0).fe.find? (fun e => e.id == 1) = some e ∧
      MayPerform sStore i0 ((sStore.seq i0).feBefore e.id) e (.spad 0 0 8)) ∧
    HItem.entry .c 5 0 ≠ .store 5 0 ∧ (HItem.fmt ⟨0, 0, 0⟩ 0).ck + 6 ≤ 6 :=
  ⟨rfl, rfl, by decide, ⟨_, rfl, ⟨by decide +kernel, nofun, by decide +kernel, by decide +kernel, by decide +kernel⟩⟩, by decide, by decide⟩

theorem witness_ReadAfterWrite : sTeam.hasPkg 0 = true ∧ 95 < 96 := ⟨rfl, by decide⟩

/-- i0 in the team, s2 naming word 8 of the own window, s3 a value. -/
theorem witness_AtomicWords : atomOf (.acas g0 6 2 7 8) = some (8, fun old x y => if old = x then y else old, g0, 6, 2, 7, 8) ∧
    Ready sAddr g0 [6, 2, 7, 8] ∧ resolve sAddr.who ownWin 8 .atomic sAddr = (.ok (.win 0 0 0), sAddr) ∧ (sAddr.seq sAddr.who).fe = [] ∧
    resolve sAddr.who 0x01FE000000000000 8 .atomic sAddr = (.fault { code := 5, addr := 0x01FE000000000000 }, sAddr) :=
  ⟨rfl, addr_ready _, rfl, rfl, rfl⟩

theorem witness_AtomicReplies : (teamIs fun q => { q with wait := some (.reply 6 none (some 1)) }).has i0 = true ∧
    ((teamIs fun q => { q with wait := some (.reply 6 none (some 1)) }).seq i0).wait = some (.reply 6 none (some 1)) := ⟨rfl, rfl⟩

/-- An arrival of each kind, and barriers at the edges of the counts: a drop below and a join above the range, a flip to 0 and one out of range. -/
theorem witness_BarrierArrivals : let a : Arrival := ⟨{}, .plain, 0⟩
    ((({ expect := 2 } : Barrier).arrived + 1 ≤ 262143) ∧ ({ expect := 2 } : Barrier).arrived + 1 ≠ 2 ∧
      (({ expect := 1, pend := -1 } : Barrier).arrived + 1 = 1 ∧ (0 : Int) ≤ (1 : Int) + -1) ∧ a.kind = .plain) ∧
    (({ pend := -262143 } : Barrier).pend + -1 < -262143) ∧ (262143 < ({ pend := 262143 } : Barrier).pend + 1) ∧
    (({ arrived := 1, expect := 2, pend := -3 } : Barrier).arrived + 1 = 2 ∧ (2 : Int) + -3 < 0) := by decide

/-- The instance has one of two arrivals to come. -/
def sBar (f : Seq → Seq) : State := (teamIs f).modCore 0 0 fun c => { c with bars := vmod c.bars 0 fun b => { b with expect := 2 } }

theorem witness_BarrierWords : Ready (sBar id) g0 [] ∧ ((sBar id).seq i0).releaseDone = true ∧ ((sBar id).seq i0).flip.getLsbD 0 = false ∧
    ((sBar id).seq i0).atBar ≠ some (.core, 0) ∧
    (∃ b, (vget {} ((sBar id).core 0 0).bars 0).arrive ⟨((sBar id).seq i0).ident, .plain, ((sBar id).seq i0).pc⟩ = some (b, [])) ∧
    (∃ b, (vget {} ((sBar id).core 0 0).bars 0).arrive ⟨((sBar id).seq i0).ident, .join, ((sBar id).seq i0).pc⟩ = some (b, [])) ∧
    (∃ b, (vget {} ((sBar id).core 0 0).bars 0).arrive ⟨((sBar id).seq i0).ident, .drop, ((sBar id).seq i0).pc⟩ = some (b, [])) ∧
    ((sBar fun q => { q with flip := 2 }).seq i0).flip.getLsbD (scopeBit .team) = true ∧ Scope.team ≠ .seq :=
  ⟨⟨rfl, rfl, rfl⟩, rfl, rfl, by decide, ⟨_, rfl⟩, ⟨_, rfl⟩, ⟨_, rfl⟩, by decide +kernel, by decide⟩

/-- A message of package 0's barrier unit for instance 2 of context 7. -/
def barReq (op : Op) (d : Nat) : Req := { who := i0, id := { dctx := d }, serial := some 5, dpkg := 0, op := op, place := .mem 0 0 }

/-- An arrival message and a release message wait; `seen` has been performed before. -/
def sUnit (seen : List (Nat × Nat)) (d : Nat) : State := sTeam.modPkg 0 fun p =>
  { p with mesh := [⟨barReq (.arrive 7 2 []) d, 0, 0⟩, ⟨barReq (.release 7 2 []) d, 0, 0⟩], unitSeen := seen }

theorem witness_BarrierMessages : (sUnit [] 7).hasPkg 0 = true ∧ ((sUnit [] 7).pkg 0).mesh[0]? = some ⟨barReq (.arrive 7 2 []) 7, 0, 0⟩ ∧
    ((sUnit [] 7).pkg 0).mesh[1]? = some ⟨barReq (.release 7 2 []) 7, 0, 0⟩ ∧ findUnit ((sUnit [] 7).pkg 0) (arriveFor 7 2) = some 0 ∧
    (0, 5) ∉ ((sUnit [] 7).pkg 0).unitSeen ∧ ¬ (0, 5) ∉ ((sUnit [(0, 5)] 7).pkg 0).unitSeen ∧
    (((sUnit [] 7).pkg 0).ctx? 7).isSome = true ∧ (barReq (.arrive 7 2 []) 7).inc = ((sUnit [] 7).pkg 0).inc :=
  ⟨rfl, rfl, rfl, by decide +kernel, by decide +kernel, by decide +kernel, rfl, rfl⟩

/-- Tags 3 and 5 are set, of which 5 certifies core scope; s1 masks tag 3, s2 tags 3 and 5, s3 tag 6, s4 the first window word, s5 an odd byte of it. -/
def sTags : State := teamIs fun q =>
  { ((((q.setS 1 0x8).setS 2 0x28).setS 3 0x40).setS 4 ownWin).setS 5 (ownWin + 4) with tags := 0x28, tagAcq := 0x20 }

theorem witness_TagAndCounterWaits : Ready sTags g0 [6, 1] ∧ Ready sTags g0 [6, 4, 0] ∧ (sTags.seq i0).tags &&& (sTags.seq i0).sr 1 ≠ 0 ∧
    ((sTags.seq i0).sr 3 ≠ 0 ∧ (sTags.seq i0).tags &&& (sTags.seq i0).sr 3 = 0) ∧
    (sTags.seq i0).tags &&& (sTags.seq i0).sr 2 = (sTags.seq i0).sr 2 ∧ (sTags.seq i0).tags &&& (sTags.seq i0).sr 3 ≠ (sTags.seq i0).sr 3 ∧
    ownCounter sTags i0 ((sTags.seq i0).sr 4) = some 0 ∧ ((sTags.seq i0).sr 0).toNat ≤ ((sTags.core 0 0).winWord 0).toNat ∧
    ((sTags.core 0 0).winWord 0).toNat < ((sTags.seq i0).sr 1).toNat ∧ ownCounter sTags i0 ((sTags.seq i0).sr 1) = none ∧
    ownCounter sTags i0 ((sTags.seq i0).sr 5) = some 4 :=
  ⟨⟨rfl, rfl, rfl⟩, ⟨rfl, rfl, rfl⟩, by decide +kernel, by decide +kernel, by decide +kernel, by decide +kernel, by decide +kernel, by decide +kernel,
    by decide +kernel, by decide +kernel, by decide +kernel⟩

/-- A C entry, a store and a load are not complete, IV and its trap are set, s1 holds counts of 8 and s2 one of 9. -/
def sBusy : State := teamIs fun q =>
  { (q.setS 1 0x8888).setS 2 0x0009 with
    qc := [{ id := 0, word := 0 }], fps := 0x10, fpc := 0x1000, ql := [{ id := 1, word := 0, issued := true }]
    fe := [{ id := 2, store := true, size := 8, va := 0, place := .mem 0 0 }, { id := 3, store := false, size := 8, va := 0, place := .mem 0 8 }] }

theorem witness_FencesAndTokens : Ready sBusy g0 [1] ∧ Ready (teamIs fun q => q.setS 1 0x8888) g0 [1] ∧ (sBusy.seq i0).allDone .c = false ∧
    (sTeam.seq i0).allDone .c = true ∧ (sBusy.seq i0).frontDone = false ∧ (sTeam.seq i0).frontDone = true ∧
    (sBusy.seq i0).releaseDone = false ∧ (sTeam.seq i0).releaseDone = true ∧ (sBusy.seq i0).acquireDone = false ∧ (sTeam.seq i0).acquireDone = true ∧
    (sBusy.seq i0).fps &&& ((sBusy.seq i0).fpc >>> 8) &&& 0x1F ≠ 0 ∧ (sTeam.seq i0).fps &&& ((sTeam.seq i0).fpc >>> 8) &&& 0x1F = 0 ∧
    (sBusy.seq i0).drained = false ∧ (sTeam.seq i0).drained = true ∧
    ((0x8888 : Nat) < 2 ^ 16 ∧ 0x8888 % 16 ≤ 8 ∧ 0x8888 / 4096 % 16 ≤ 8) ∧ ¬ (0x0009 % 16 ≤ 8) :=
  ⟨⟨rfl, rfl, rfl⟩, ⟨rfl, rfl, rfl⟩, rfl, rfl, rfl, rfl, rfl, rfl, by decide +kernel, by decide +kernel, by decide +kernel, by decide +kernel, rfl, rfl, by decide, by decide⟩

/-- i0 waits with w; its tags are those of sTags. -/
def sWait (w : Wait) : State := teamIs fun q => { q with wait := some w, tags := 0x28, tagAcq := 0x20 }

theorem witness_WaitEnds : (∀ w, (sWait w).has i0 = true ∧ ((sWait w).seq i0).st = .run ∧ ((sWait w).seq i0).wait = some w) ∧
    teamStops (sWait (.rel .team)) i0 = false ∧ (0x28 &&& 0x8 ≠ 0#64 ∧ 0x28 &&& 0x8 &&& 0x20 = 0#64) ∧
    (0x28 &&& 0x28 = 0x28#64 ∧ 0x28 &&& 0x20 ≠ 0#64) ∧ (0#64).toNat ≤ (((sWait (.wcnt .core 1 0 0)).core 0 0).winWord 0).toNat ∧
    ((sWait (.rel .team)).seq i0).releaseDone = true ∧ ((sWait (.acq .team)).seq i0).acquireDone = true ∧ tlbBusy (sWait (.tlb [])) [] = false :=
  ⟨fun _ => ⟨rfl, rfl, rfl⟩, by decide +kernel, by decide, by decide, by decide +kernel, rfl, by decide +kernel, rfl⟩
/-- The queue control word of seed queue n: VALID, 16 elements of 32 bytes; NACK with a back-off of 2^3 steps where `nack`. -/
def qcw (nack : Bool) (n : Nat) : Nat :=
  2 ^ 52 + 4 * 2 ^ 48 + 5 * 2 ^ 44 + (0x7F0100 + 512 * n) + (if nack then 2 ^ 62 + 3 * 2 ^ 58 else 0)

/-- The core of i0 has one granule of queues and four direct ones, and its four seed queues are valid; queue n holds (tail n) records. -/
def withQueues (nack : Bool) (tail : Nat → Nat) (s : State) : State := s.modCore 0 0 fun c =>
  (List.range 4).foldl (fun c n => c.setSpad (0x7F0000 + 16 * n) (leBytes 8 (qcw nack n) ++ leBytes 2 (tail n)))
    { c with carve := 0x10004 }

/-- A good record for offset 8 in s4 to s7 with PRIO 2, a bad one in s8 to s11; s12 to s16 are destinations: a reserved form, a bad own one, VCORE 1 of
the team, VCORE 2, which it lacks. -/
def sowRegs (q : Seq) : Seq :=
  ((((q.setS 4 0x8000000000000008).setS 8 0x8000000000002000).setS 12 0xC000000000000000).setS 13 1).setS 14 0x4000000000000001

/-- The sower's state, whose queues hold n records each. -/
def sSow (nack : Bool) (n : Nat) : State := withQueues nack (fun _ => n) (teamIs sowRegs)

/-- The team has two cores, of which i0 stands on the first. -/
def sSowFar : State := (sSow false 0).modPkg 0 fun p => { p with teams := p.teams.map fun t => { t with cols := 2 } }

/-- The record in the registers from a on of those of `sowRegs`. -/
def recAt (a : Reg) : List W64 :=
  let q := sowRegs {}
  [q.sr a &&& ~~~0x0100000000000000, q.sr (a + 1), q.sr (a + 2), q.sr (a + 3)]

theorem witness_SowWords_local : (Ready (sSow false 11) g0 [0, 4, 5, 6, 7] ∧ ((sSow false 11).seq i0).sowReady = true ∧
      ((sSow false 11).seq i0).wait = none ∧ ((sSow false 11).seq i0).sr 0 = 0) ∧
    Ready (sSow true 12) g0 [0, 4, 5, 6, 7] ∧ Ready (teamIs sowRegs) g0 [0, 4, 5, 6, 7] ∧
    recordBad (sSow false 11) 0 0 (recAt 8) = true ∧ recordBad (sSow false 11) 0 0 (recAt 4) = false ∧ recordBad (teamIs sowRegs) 0 0 (recAt 4) = false ∧
    ((teamIs sowRegs).core 0 0).queueBad 2 = true ∧ ((sSow false 11).core 0 0).queueBad 2 = false ∧
    ((sSow false 11).core 0 0).queueFull 2 false = false ∧ ((sSow true 12).core 0 0).queueFull 2 false = true ∧
    ((sSow true 12).core 0 0).policyNack 2 = true := by
  refine ⟨⟨ready_of ?_, ?_, ?_, ?_⟩, ready_of ?_, ready_of ?_, ?_, ?_, ?_, ?_, ?_, ?_, ?_, ?_⟩ <;> decide +kernel

theorem witness_SowWords_far : bitsOf (((sSow false 11).seq i0).sr 12).toNat 63 62 = 3 ∧
    (bitsOf (((sSow false 11).seq i0).sr 13).toNat 63 62 = 0 ∧ bitsOf (((sSow false 11).seq i0).sr 13).toNat 61 0 ≠ 0) ∧
    sowDest sSowFar i0 ((sSowFar.seq i0).sr 14) = .far 0 3 1 false ∧ Ready sSowFar g0 [14, 4, 5, 6, 7] ∧ (sSowFar.seq i0).sowReady = true ∧
    (sSowFar.seq i0).windowFull = false ∧
    ∃ t, issueReq i0 (.push (recAt 4)) (.vspad 0 3 1 0) 0 (sSowFar.seq i0).pc .posted false true 0 sSowFar = some t := by
  refine ⟨?_, ?_, rfl, ready_of ?_, ?_, ?_, Option.isSome_iff_exists.mp ?_⟩ <;> decide +kernel

theorem witness_ReapWords : Ready sTeam g0 [3] ∧ (sTeam.seq i0).drained = true ∧ (sTeam.seq i0).copies = [] ∧ (sTeam.seq i0).sr 3 = 0 ∧
    Ready sBusy g0 [3] ∧ (sBusy.seq i0).drained = false := ⟨⟨rfl, rfl, rfl⟩, rfl, rfl, rfl, ⟨rfl, rfl, rfl⟩, rfl⟩

/-- A join block at byte 64 of the window of i0's core, with COUNT n and the record ws. -/
def sJoin (n : Nat) (ws : List W64) (s : State) : State := s.modCore 0 0 fun c =>
  (c.setWin 64 (leBytes 8 n)).setWin 96 (ws.flatMap fun w => leBytes 8 w.toNat)

theorem witness_JoinDecrements : sTeam.rootJoin? 0 0 64 = none ∧
    2 ≤ (((sJoin 2 [] sTeam).core 0 0).winWord 64).toInt ∧ (((sJoin 0 [] sTeam).core 0 0).winWord 64).toInt = 0 ∧
    (let s := sJoin 1 (recAt 8) (sSow false 0); recordBad (s.modCore 0 0 fun k => k.setWin 64 (leBytes 8 0)) 0 0 (recAt 8) = true ∧
      (s.core 0 0).winWord 64 = 1 ∧ (List.range 4).map (fun i => (s.core 0 0).winWord (96 + 8 * i)) = recAt 8) ∧
    (let s := sJoin 1 (recAt 4) sTeam; recordBad (s.modCore 0 0 fun k => k.setWin 64 (leBytes 8 0)) 0 0 (recAt 4) = false ∧
      ((s.modCore 0 0 fun k => k.setWin 64 (leBytes 8 0)).core 0 0).queueBad 2 = true) ∧
    (let s := sJoin 1 (recAt 4) (sSow false 15); recordBad (s.modCore 0 0 fun k => k.setWin 64 (leBytes 8 0)) 0 0 (recAt 4) = false ∧
      ((s.modCore 0 0 fun k => k.setWin 64 (leBytes 8 0)).core 0 0).queueBad 2 = false ∧
      ((s.modCore 0 0 fun k => k.setWin 64 (leBytes 8 0)).core 0 0).queueFull 2 true = false) := by decide +kernel

/-- The first sequencer is idle, and queues 0 to 2 of its core have held one record each since ck 0, which is 65,536 ck ago. -/
def sSeeds : State := advanceClock 65536 ((withQueues false (fun n => if n = 3 then 0 else 1) (teamIs fun q => { q with st := .idle })).modCore 0 0 fun c =>
  { c with headCk := Vector.ofFn fun n => if n.val = 3 then none else some 0 })

theorem witness_SeedPop : sSeeds.has i0 = true ∧ mayPop sSeeds i0 = true ∧ (sSeeds.core 0 0).occupancy 2 ≠ 0 ∧
    (∀ m, 2 < m → m < 4 → (sSeeds.core 0 0).occupancy m = 0) ∧ (sSow false 16).has i0 = true := by
  refine ⟨?_, ?_, ?_, fun m h₁ h₂ => ?_, ?_⟩ <;> first | decide +kernel | (obtain rfl : m = 3 := by omega); decide +kernel

/-- A refused push of i0 whose back-off ends at ck 64, which it is now. -/
def sNack : State := advanceClock 64 (teamIs fun q => { q with
  out := [{ req := { who := i0, id := q.ident, serial := some 0, dpkg := 0, op := .push [], place := .mem 0 0 }, refused := true, resendAt := some 64 }] })

theorem witness_SeedQueueEvents : (vget none (sSeeds.core 0 0).headCk 2 = some 0 ∧ (sSeeds.core 0 0).occupancy 2 ≠ 0 ∧ 0 + 65536 ≤ sSeeds.ck ∧
      (sSeeds.core 0 0).queueFull 3 true = false ∧ ((sSeeds.core 0 0).headRecord 2).length = 4) ∧
    ((∃ o, (sNack.seq i0).out[0]? = some o ∧ o.refused = true ∧ o.resendAt = some 64) ∧ 64 ≤ sNack.ck ∧ sNack.has i0 = true) := by
  refine ⟨?_, ⟨_, rfl, ?_, ?_⟩, ?_⟩ <;> decide +kernel

/-- `vadd` in FP32 with scalar B from s3, and its guard word bits. -/
def vaddWord : W64 := 0xA405E22182A09141

/-- C is full. -/
def sFull : State := teamIs fun q => { q with qc := List.replicate 16 { id := 0, word := vaddWord } }

theorem witness_Dispatch : sTeam.has i0 = true ∧ sFull.has i0 = true ∧
    decodeWord vaddWord 0 = .ok (.vadd ⟨true, false, false, true, ⟨3, true⟩⟩ .fp32 .rdn true true 5 17 2 3) ∧
    (sTeam.seq i0).clear [3] = true ∧ (sFull.seq i0).clear [3] = true ∧ (sTeam.core 0 0).pchgHolds = false ∧
    ((sTeam.seq i0).queue (routeQueue vaddWord)).length < 16 ∧ 16 ≤ ((sFull.seq i0).queue (routeQueue vaddWord)).length := by
  refine ⟨rfl, rfl, rfl, ?_, ?_, ?_, ?_, ?_⟩ <;> decide +kernel

/-- The oldest entry of each queue has completed and puts tokens, of which 7 are there. -/
def sRetire : State := teamIs fun q => { q with
  ql := [{ id := 0, word := 0x4400000000000000, done := true }], qc := [{ id := 1, word := 0x8C00000000000000, done := true }]
  qs := [{ id := 2, word := 0xC800000000000000, done := true }], lc := 7, cl := 7, cs := 7, sc := 7 }

/-- The head of L waits for a token that nothing will put, and the front end waits for it at `reap`. -/
def sDead : State := teamIs fun q => { q with ql := [{ id := 0, word := 0x5000000000000000, compared := true }], wait := some .reap }

theorem witness_QueueEvents : (∃ x, (sRetire.seq i0).ql = x :: [] ∧ x.done = true ∧ (Raw.ofWord x.word).head.pr = true ∧ (sRetire.seq i0).lc ≤ 7) ∧
    (∃ x, (sRetire.seq i0).qc = x :: [] ∧ x.done = true ∧ (Raw.ofWord x.word).head.pl = true ∧ (Raw.ofWord x.word).head.pr = true) ∧
    (∃ x, (sRetire.seq i0).qs = x :: [] ∧ x.done = true ∧ (Raw.ofWord x.word).head.pl = true) ∧
    ((sDead.seq i0).deadlocked = true ∧ (sDead.seq i0).st = .run ∧ teamStops sDead i0 = false) ∧
    (vget {} (sTeam.pkg 0).slots (sTeam.seq i0).slotN.toNat).loaded = true := by
  refine ⟨⟨_, rfl, ?_⟩, ⟨_, rfl, ?_⟩, ⟨_, rfl, ?_⟩, ?_, ?_⟩ <;> decide +kernel
/-- The first two sequencers of i0's core have waited for the lease, the first since before the second was last granted it; their C heads are `mlease`. -/
def sLease (holder : Option Nat) : State := advanceClock 29310976 (sTeam.modCore 0 0 fun c =>
  let asks := fun (q : Seq) => { q with st := .run, qc := [{ id := 0, word := 0x8300000000000000, compared := true }] }
  { (c.modSeq 0 asks).modSeq 1 asks with holder := holder, leaseWait := [(0, [1]), (1, [])] })

theorem witness_Leases : ((sLease none).core 0 0).leaseChoice = some 0 ∧ ((sLease none).core 0 0).holder = none ∧
    ((sLease (some 1)).core 0 0).holder = some 1 ∧
    ((sLease (some 1)).core 0 0).grantCk + ((sLease (some 1)).core 0 0).leaseMax * Config.tMax ≤ (sLease (some 1)).ck ∧
    (∃ w ∈ ((sLease (some 1)).core 0 0).leaseAskers, w.1 ≠ 1) := by decide +kernel

/-- A work entry's record at the start of slot 0, whose one step is `halt`: ranks 0 and 1, the own 0, in FP32, with a chunk of 64 bytes. -/
def workRecord : List Byte :=
  (leBytes 8 (0x01FE000000000080) ++ List.replicate 32 0 ++ leBytes 8 0x01FF3F0000800000 ++ List.replicate 32 0 ++ leBytes 8 (0x01FE0000000000C0) ++
    leBytes 8 (2 * 2 ^ 32) ++ leBytes 8 1 ++ leBytes 8 64 ++ List.replicate 16 0) ++ (leBytes 4 0xF0000000 ++ List.replicate 60 0) ++ [0, 0, 1, 0]

/-- Two packages are in the context of i0, whose slot holds a work record; s1 is its address, s2 a VE of 63 and s4 one of 64. The team runs invocation 0,
and f has changed the physical entries. -/
def sArm (f : Vector Work 64 → Vector Work 64) : State :=
  (teamIs fun q => { ((q.setS 1 0x01FE000000000000).setS 2 63).setS 4 64 with vpN := 2 }).modPkg 0 fun p =>
  { p.setBytes 0xA0000 workRecord with works := f p.works, invs := [{ id := 0, q := 0, idx := 0, bytes := [], start := some 0 }] }

/-- Entry 63 of the context is armed. -/
def armed63 (n : Nat) (v : Vector Work 64) : Vector Work 64 := vmod v n fun w => { w with st := .waittrig, dctx := 7, ve := 63 }

theorem witness_SystemServices : (((sArm id).seq i0).sysDone = none ∧ ((sArm id).seq i0).canIssue = true) ∧
    Ready (sArm id) g0 [6, 1, 2] ∧ Ready (sArm id) g0 [6, 2] ∧ (∃ v, seqInv (sArm id) i0 = some v) ∧ 63 < (((sArm id).seq i0).sr 4).toNat ∧
    Ready (sArm id) g0 [6, 1, 4] ∧ (((sArm id).seq i0).sr 2).toNat ≤ 63 ∧ ((sArm id).pkg 0).entryOf 7 63 = none ∧
    (∃ x, ((sArm (armed63 9)).pkg 0).entryOf 7 63 = some x) ∧ Ready (sArm (armed63 9)) g0 [6, 1, 2] ∧
    (match (armCheck i0 (((sArm id).seq i0).sr 1) (sArm id)).1 with | .go _ _ _ => true | _ => false) = true ∧
    (armCheck i0 (((sArm id).seq i0).sr 1) (sArm id)).2.who = i0 ∧
    (∀ e < 64, ((sArm fun _ => Vector.replicate 64 { st := .done }).work 0 e).st ≠ .free) ∧
    ((sArm (fun v => vmod v 0 fun w => { w with st := .done })).work 0 1).st = .free := by
  refine ⟨⟨?_, ?_⟩, ready_of ?_, ready_of ?_, Option.isSome_iff_exists.mp ?_, ?_, ready_of ?_, ?_, ?_, Option.isSome_iff_exists.mp ?_, ready_of ?_,
    ?_, ?_, ?_, ?_⟩ <;> decide +kernel

/-- The context of i0 has a page table at 0xB0000 that maps addresses below 2^30 to the same physical addresses, writable. -/
def mapped (s : State) : State := s.modPkg 0 fun p =>
  let p := (p.setBytes 0xB0000 (leBytes 8 0xB1001)).setBytes 0xB1000 (leBytes 8 0xB2001)
  { p.setBytes 0xB2000 (leBytes 8 7) with ctxs := p.ctxs.map fun c => { c with root := 0xB0000 } }

/-- The four seed queues are valid; s1 is a bad carve word, s2 a good one, s4 a page, s5 an address within it. -/
def carveRegs (q : Seq) : Seq := (((q.setS 1 0x1010006).setS 2 0x10006).setS 4 0x95000).setS 5 0x95008

/-- The state of the maintenance witnesses. -/
def sCarve (f : Seq → Seq) : State := mapped (withQueues false (fun _ => 0) (teamIs fun q => f (carveRegs q)))

/-- The same without a valid seed queue. -/
def sCarveBad : State := (teamIs carveRegs).modCore 0 0 fun c => { c with carve := 0x10004 }

theorem witness_CarveAndMaintenance_pchg :
    (let s := sCarve id; Ready s g0 [1] ∧ bitsOf ((s.seq i0).sr 1).toNat 63 24 ≠ 0) ∧
    (Ready sCarveBad g0 [2] ∧ carveFault (sCarveBad.core 0 0) ((sCarveBad.seq i0).sr 2) = some fcQueueControl ∧
      ∃ m < 4, qcwValid ((sCarveBad.core 0 0).queueCtl m) = false) ∧
    (Ready (sCarve id) g0 [2] ∧ carveFault ((sCarve id).core 0 0) (((sCarve id).seq i0).sr 2) = none) ∧
    (let s := sCarve fun q => { q with wait := some (.pchg 0x10006) }
     ((s.core 0 0).seq 0).wait = some (.pchg 0x10006) ∧ (∀ m < 4, ((s.core 0 0).seq m).spadQuiet = true) ∧ cmcReaches s 0 0 = false) := by
  refine ⟨⟨ready_of ?_, ?_⟩, ⟨ready_of ?_, ?_, ?_⟩, ⟨ready_of ?_, ?_⟩, ?_, ?_, ?_⟩ <;> decide +kernel

theorem witness_CarveAndMaintenance_rest :
    ((sTeam.pkg 0).ctx? (sTeam.seq i0).dctx.toNat).isSome = true ∧ Ready sTeam g0 [1] ∧ accessesUnder sTeam 0 7 = [] ∧
    (Ready sBusy g0 [] ∧ tlbBusy sBusy (accessesUnder sBusy 0 7) = true) ∧
    (let s := sCarve id; Ready s g0 [5] ∧ ((s.seq i0).sr 5).toNat < 2 ^ 57 ∧ ((s.seq i0).sr 5).toNat % 4096 ≠ 0 ∧
      (frameOf i0 ((s.seq i0).sr 4) true s).1 = .ok (.mem 0 0x95000) ∧ (frameOf i0 ((s.seq i0).sr 4) true s).2.who = i0 ∧
      Ready s g0 [6, 4] ∧ (frameOf i0 ((s.seq i0).sr 5) false s).1 = .ok (.mem 0 0x95008)) ∧
    (sTeam.pkg 0).populated (0xBFFFFFF * 4096) = true := by
  refine ⟨?_, ready_of ?_, ?_, ⟨ready_of ?_, ?_⟩, ⟨ready_of ?_, ?_, ?_, ?_, ?_, ready_of ?_, ?_⟩, ?_⟩ <;> decide +kernel
/-- The head of C is an entry with the scalar operands ops, compared and with a true guard; f has changed i0. -/
def sVec (ops : List W64) (f : Seq → Seq := id) : State := teamIs fun q => f { q with qc := [{ id := 0, word := 0x8000000000000000, ops := ops, compared := true }] }

/-- That entry. -/
def x0 (ops : List W64) : Entry := { id := 0, word := 0x8000000000000000, ops := ops, compared := true }

theorem issues_sVec (ops : List W64) : Issues (sVec ops) .c h0 (x0 ops) := ⟨rfl, rfl, rfl, rfl, rfl⟩

theorem witness_VectorArithmetic : Issues (sVec [5]) .c h0 (x0 [5]) ∧ Ty.isInt .i32 = true ∧ Ty.isFlt .bf16 = true := ⟨issues_sVec _, rfl, rfl⟩

theorem witness_VectorLogicAndMasks : Issues (sVec [5]) .c h0 (x0 [5]) := issues_sVec _

theorem witness_VectorPermutes : Issues (sVec [64, 1]) .c h0 (x0 [64, 1]) := issues_sVec _

theorem witness_VectorConversions : Issues (sVec [5, 6]) .c h0 (x0 [5, 6]) ∧ Ty.width .i8 ≤ Ty.width .i16 := ⟨issues_sVec _, by decide⟩

theorem witness_VectorReductions : Issues (sVec []) .c h0 (x0 []) ∧ Ty.isFloat .n16 = false ∧ Ty.isFlt .bf16 = true ∧
    Instr.wf (.vsumw h0 .n32 .n8 .dyn true 0 1 2 9) = true ∧ Instr.wf (.vsumw h0 .fp32 .bf16 .rne false 0 1 2 8) = true :=
  ⟨issues_sVec _, rfl, rfl, by decide +kernel, by decide +kernel⟩

theorem witness_VectorFunctions : Issues (sVec [1, 2]) .c h0 (x0 [1, 2]) ∧ (1024 : Nat) ≠ 0 ∧ (1024 : Nat) ≤ 1024 ∧ Ty.isFlt .fp32 = true ∧
    Ty.isInt .n8 = true := ⟨issues_sVec _, by decide, by decide, rfl, rfl⟩

/-- The ranges of `VectorMemory`: 512 and 64 bytes up to the end of the direct region and past it, and a store that nothing reads. -/
theorem witness_VectorMemory : (0x3FE00 % 64 = 0 ∧ 0x3FE00 + 512 ≤ directEnd ((sVec []).core 0 0).carve) ∧
    (0x3FFC0 % 64 = 0 ∧ 0x3FFC0 + 64 ≤ directEnd ((sVec []).core 0 0).carve ∧ directEnd ((sVec []).core 0 0).carve < 0x3FFC0 + 512) ∧
    ((sVec []).core 0 0).wakingAt 0x3FE00 512 = false ∧ ((sVec []).core 0 0).stillReads 0 [(0x3FE00, 512)] = false ∧
    ((0 : Int) + (-64 : BitVec 36).toInt < 0 ∧ ((0 : Int) + (-64 : BitVec 36).toInt) % 64 = 0 ∧ (1 : Int) % 64 ≠ 0) ∧
    (Issues (sVec [0x40, 0xFFFFFFFFFFFFFFC0]) .c h0 (x0 [0x40, 0xFFFFFFFFFFFFFFC0]) ∧ (0xFFFFFFFFFFFFFFC0#64).toInt = -64 ∧
      (0xFFFFFFFFFFFFFFC0#64).toNat % 64 = 0) ∧ Ty.width .n64 % 8 = 0 ∧ 0x3FFF8 % 8 = 0 := by
  refine ⟨?_, ?_, ?_, ?_, ?_, ⟨issues_sVec _, ?_, ?_⟩, ?_, ?_⟩ <;> decide +kernel

/-- A chunk or an index alone beyond the first: every active chunk of `vlds` with s1 = 0 and a pitch of 64 lies in the direct region. -/
theorem witness_VectorMemory_chunks : (let c := (sVec [0x3FE00, 64]).core 0 0
    (∀ j < 8, 0x3FE00 + 64 * j + 64 ≤ directEnd c.carve ∧ c.wakingAt (0x3FE00 + 64 * j) 64 = false) ∧
      c.stillReads 0 ((List.range 8).map fun j => (0x3FE00 + 64 * j, 64)) = false) := by decide +kernel

/-- i0 holds the lease, and the entry x0 pops the format word w. -/
def sMat (ops : List W64) (w : W64) : State :=
  (sVec ops fun q => { q with fq := [⟨w, 0x3F800000, 0x3F800000⟩] }).modCore 0 0 fun c => { c with holder := some 0 }

/-- E4M3 by E4M3 into FP32; INT8 by INT8 into INT32; FP32 for `mslice`, `mld` and `mst`; E4M3 for `msow`. -/
def fw8 : W64 := BitVec.ofNat 64 (17 * 2 ^ 59 + 17 * 2 ^ 54 + 21 * 2 ^ 49)
@[inherit_doc fw8] def fwI8 : W64 := BitVec.ofNat 64 (4 * 2 ^ 59 + 3 * 2 ^ 54 + 7 * 2 ^ 49)
@[inherit_doc fw8] def fw32 : W64 := BitVec.ofNat 64 (21 * 2 ^ 59 + 21 * 2 ^ 54 + 21 * 2 ^ 49)
@[inherit_doc fw8] def fwSow : W64 := BitVec.ofNat 64 (17 * 2 ^ 49)

/-- Operands A at 0 with a pitch of 64 bytes and B at 0x4000. -/
def opsAB : List W64 := [0, 64, 0x4000, 64]

theorem enter_of {s : State} {ps : List (W64 × W64)} {rs ws : List (Nat × Nat)}
    (h : (decide ((s.core s.who.pkg s.who.core).holder = some s.who.seq) && ps.all (fun p => !operandBad p.1 p.2) &&
      (rs ++ ws).all (fun r => decide (r.1 + r.2 ≤ directEnd (s.core s.who.pkg s.who.core).carve) &&
        !(s.core s.who.pkg s.who.core).wakingAt r.1 r.2) &&
      (s.core s.who.pkg s.who.core).array.all (fun a => !a.fromRow && !a.fromCol) &&
      !(s.core s.who.pkg s.who.core).stillReads s.who.seq ws) = true) : MayEnter s ps rs ws := by
  simp only [Bool.and_eq_true, List.all_eq_true, decide_eq_true_eq, Bool.not_eq_true'] at h
  exact ⟨h.1.1.1.1, h.1.1.1.2, h.1.1.2, h.1.2, h.2⟩

theorem witness_MatrixCommands : let f := fun (w : W64) => (⟨w, 0x3F800000, 0x3F800000⟩ : Fmtw)
    (Issues (sMat opsAB fw8) .c h0 (x0 opsAB) ∧ (29 : BitVec 5).toNat < 30 ∧ ((sMat opsAB fw8).core 0 0).holder = some 0) ∧
    MayEnter (sMat opsAB fw8) [] [] [] ∧ (((sMat opsAB fw8).seq i0).fq.head? = some (f fw8) ∧ (f fw8).clean = true) ∧
    (pairOk 17 17 = true ∧ operandOk 17 false 8 = true ∧ (vget {} ((sMat opsAB fw8).core 0 0).tilesAhead 29).kind = .zero ∧
      MayEnter (sMat opsAB fw8) [(0, 64), (0x4000, 64)] (mmulReads (f fw8) (x0 opsAB) false false 8) [] ∧
      MayEnter (sMat opsAB fw8) [(0, 64)] (mmulReads (f fw8) (x0 opsAB) false true 8) []) ∧
    (pairOk 4 3 = true ∧ operandOk 4 false 32768 = true ∧ isI8 (f fwI8).at_ = true) ∧
    ((f fw32).at_ = (f fw32).bt ∧ (f fw32).at_ = 21 ∧ ((sMat opsAB fw32).seq i0).sliceRec 0 = none ∧ (28 % 2 = 0 ∧ 28 + 2 ≤ 30) ∧
      MayEnter (sMat opsAB fw32) [(0, 64), (0x4000, 64)] (operandChunks 0 64 256 8 32 ++ operandChunks 0x4000 64 128 8 32) []) ∧
    ((f fw32).ot = 21 ∧ (f fw32).rnd ≤ 4 ∧ MayEnter (sMat [0, 512] fw32) [(0, 512)] (operandChunks 0 512 256 128 32) [] ∧
      MayEnter (sMat [0, 512] fw32) [(0, 512)] [] (operandChunks 0 512 256 128 32) ∧ 21 ∈ readoutTypes .zero) ∧
    (operandOk (f fwSow).ot (f fwSow).abs 8 = true ∧ MayEnter (sMat [0, 64] fwSow) [(0, 64)] (panelReads (f fwSow) (x0 [0, 64]) true 8) [] ∧
      MayEnter (sMat [0, 64] fwSow) [(0, 64)] (panelReads (f fwSow) (x0 [0, 64]) false 8) []) := by
  refine ⟨⟨issues_of ?_, ?_, ?_⟩, enter_of ?_, ⟨?_, ?_⟩, ⟨?_, ?_, ?_, enter_of ?_, enter_of ?_⟩, ⟨?_, ?_, ?_⟩, ⟨?_, ?_, ?_, ?_, enter_of ?_⟩,
    ⟨?_, ?_, enter_of ?_, enter_of ?_, ?_⟩, ?_, enter_of ?_, enter_of ?_⟩ <;> decide +kernel
/-- i0 with the format words fq, C entries qc and s1 a format word with scales from s4 and s5. -/
def sFmt (n : Nat) (qc : List Entry) : State := teamIs fun q =>
  { q.setS 1 (BitVec.ofNat 64 (4 * 2 ^ 38 + 5 * 2 ^ 33)) with fq := List.replicate n ⟨fw8, 0, 0⟩, qc := qc }

/-- The word of `mzero` on tile 0, and of an `mmul` with its row operand from a bus. -/
def mmulWord : W64 := 0x8300000000000000 + 0x02 * 2 ^ 50

theorem witness_FormatWordsAndStreams_mfmt : bitsOf (((sFmt 7 []).seq i0).sr 1).toNat 42 38 = 4 ∧ bitsOf (((sFmt 7 []).seq i0).sr 1).toNat 37 33 = 5 ∧
    Ready (sFmt 7 []) g0 [1, 4, 5] ∧ ((sFmt 7 []).seq i0).fmtCount < 8 ∧ Ready (sFmt 8 []) g0 [1, 4, 5] ∧ 8 ≤ ((sFmt 8 []).seq i0).fmtCount ∧
    ((sFmt 8 []).seq i0).tileCommandWaits = false ∧
    (let s := sFmt 8 [{ id := 0, word := 0xA709D20031B40ABC }]; Ready s g0 [1, 4, 5] ∧ (s.seq i0).tileCommandWaits = true) := by
  refine ⟨?_, ?_, ready_of ?_, ?_, ready_of ?_, ?_, ?_, ready_of ?_, ?_⟩ <;> decide +kernel

/-- i0 holds the lease; its C head is an `mmul` on tile 9, and the format word is fw. -/
def sCheck (fw : List Fmtw) : State := (teamIs fun q => { q with fq := fw, qc := [{ id := 0, word := 0xA709D20031B40ABC, compared := true }] }).modCore 0 0
  fun c => { c with holder := some 0 }

/-- The panel of a sender on row bus 0, and a receiver of it in core 0's array with format word fw. -/
def sStream (fw : W64) : State := ((sCheck []).modCore 0 0 fun c => { c with array := [{ seq := 0, entry := 0, fmt := ⟨fw, 0, 0⟩, fromRow := true }] }).modDie 0 0
  fun d => { d with panels := [{ who := i0, entry := 1, caddr := 0, dctx := 7, vteam := 3, vcore := 0, ck := 0, col := false, line := 0, otype := 17, kext := 21992,
                                 abs := false, base := 0, pitch := 64, area := 0 }] }

theorem witness_FormatWordsAndStreams_check : (let s := sCheck [⟨fw8, 0x3F800000, 0x3F800000⟩]; s.has i0 = true ∧ (s.core 0 0).holder = some 0 ∧
      (s.seq i0).st ≠ .halt ∧ ∃ e j, (s.seq i0).headOf .c = some e ∧ e.compared = true ∧ e.guard = true ∧ e.instr? = some j ∧
        entryCheckFault j e (s.seq i0) (s.core 0 0).tilesAhead = none) ∧
    (let s := sCheck []; ∃ e j, (s.seq i0).headOf .c = some e ∧ e.instr? = some j ∧
        entryCheckFault j e (s.seq i0) (s.core 0 0).tilesAhead = some 0x12) := by
  refine ⟨⟨?_, ?_, ?_, _, _, rfl, ?_, ?_, rfl, ?_⟩, _, _, rfl, rfl, ?_⟩ <;> decide +kernel

theorem witness_FormatWordsAndStreams_stream : ∃ x, (((sStream fw8).pkg 0).die 0).panels = [x] ∧ (((sStream 0).pkg 0).die 0).panels = [x] ∧ x.bad = false ∧
    panelMembers (sStream fw8) 0 x = [0] ∧ (((sStream fw8).core 0 0).receiver?.any fun r => r.from x.col && !r.from (!x.col)) = true ∧
    mismatch (sStream fw8) 0 x 0 = false ∧ mismatch (sStream 0) 0 x 0 = true := by
  refine ⟨_, rfl, rfl, ?_, ?_, ?_, ?_, ?_⟩ <;> decide +kernel

theorem go_of {α : Type} [DecidableEq α] {x : Check α × State} {a : α} (h : (match x.1 with | .go b => decide (b = a) | _ => false) = true) :
    ∃ t, x = (.go a, t) := by
  rcases x with ⟨_ | _ | _, t⟩
  · exact ⟨t, by rw [of_decide_eq_true h]⟩
  all_goals cases h

theorem failed_of {α : Type} {x : Check α × State} {f : FaultRec} (h : (match x.1 with | .fault b => decide (b = f) | _ => false) = true) :
    ∃ t, x = (.fault f, t) := by
  rcases x with ⟨_ | _ | _, t⟩
  · cases h
  · cases h
  · exact ⟨t, by rw [of_decide_eq_true h]⟩

/-- A pattern record of one run of n bytes from src to dst. -/
def patRec (src dst n : Nat) : List Byte :=
  leBytes 8 src ++ leBytes 8 dst ++ leBytes 8 0 ++ leBytes 8 1 ++ List.replicate 32 0 ++ leBytes 4 n ++ List.replicate 188 0

/-- The word of `cpy` with true guard, and of `cpyo`. -/
def cpyWord : W64 := 0x4004000000000000
@[inherit_doc cpyWord] def cpyoWord : W64 := 0xC004000000000000

/-- The head of L is a `cpy` of the record at va; the record at 0x90000 copies 64 bytes from memory to the own scratchpad, the one at 0x90100 none; the
addresses from 2^30 on lie in package 1. -/
def sCopy (va : W64) : State := (mapped (teamIs fun q => { q with
    ql := [{ id := 0, word := cpyWord, ops := [va, 0, 0, 0], compared := true }], qs := [{ id := 1, word := 0xC000000000000000, ops := [va, 0, 1], compared := true }] })).modPkg 0
  fun p => { ((p.setBytes 0x90000 ((patRec 0x91000 ownSpad.toNat 64).take 72)).setBytes 0x90100 ((patRec 0x91000 ownSpad.toNat 0).take 32)).setBytes 0xB2008
    (leBytes 8 (2 ^ 60 + 2 ^ 50 + 7)) with ctxs := p.ctxs.map fun c => { c with vps := [(0, 0), (1, 0)] } }

/-- The entry of `sCopy`, and the copy it starts. -/
def xCopy (va : W64) : Entry := { id := 0, word := cpyWord, ops := [va, 0, 0, 0], compared := true }
@[inherit_doc xCopy] def theCopy (va : W64) (n : Nat) : Copy :=
  { id := 0, q := .l, word := cpyWord, caddr := 0, ops := [va, 0, 0, 0], pat := patRec 0x91000 ownSpad.toNat n }

theorem witness_CopyCommands_starts : copyOf (.cpy h0 ⟨0, 0, 0, 0, 0, .seq, false⟩ false) = some (.l, h0) ∧
    Issues (sCopy 0x90000) .l h0 (xCopy 0x90000) ∧ ((sCopy 0x90000).seq i0).copies.length < Config.maxCopies ∧
    (∃ t, readRecord i0 0x90000 256 (sCopy 0x90000) = (.go (patRec 0x91000 ownSpad.toNat 64), t)) ∧
    (let t := (readRecord i0 0x90000 256 (sCopy 0x90000)).2; patternFault i0 (theCopy 0x90000 64) t = none ∧ (t.seq i0).canTake .l h0 = true) ∧
    (∃ t, readRecord i0 0x90100 256 (sCopy 0x90100) = (.go (patRec 0x91000 ownSpad.toNat 0), t)) ∧
    (patternFault i0 (theCopy 0x90100 0) (readRecord i0 0x90100 256 (sCopy 0x90100)).2).isSome = true := by
  refine ⟨rfl, issues_of ?_, ?_, go_of ?_, ⟨?_, ?_⟩, go_of ?_, ?_⟩ <;> decide +kernel

theorem witness_CopyCommands_addresses : Issues (sCopy 0x0200000000000000) .l h0 (xCopy 0x0200000000000000) ∧ Issues (sCopy ownSpad) .l h0 (xCopy ownSpad) ∧
    (∃ t, translate 0 7 i0 0x90080 false true (sCopy 0x90080) = (.ok 0 0x90080, t)) ∧ (0x90080#64).toNat % 256 ≠ 0 ∧
    (∃ t, translate 0 7 i0 0x40000000 false true (sCopy 0x40000000) = (.ok 1 0, t)) ∧ (0x40000000#64).toNat % 256 = 0 ∧
    (∃ t, translate 0 7 i0 0x90000 false true (sCopy 0x90000) = (.ok 0 0x90000, t)) := by
  refine ⟨issues_of ?_, issues_of ?_, pair_of ?_, ?_, pair_of ?_, ?_, pair_of ?_⟩ <;> decide +kernel

theorem witness_CopyCommands_ksig : let s := fun (va : W64) => (sCopy va).modSeq i0 fun q => { q with ql := [] }
    let x : Entry := { id := 1, word := 0xC000000000000000, ops := [ownWin, 0, 1], compared := true }
    Issues (s ownWin) .s h0 x ∧ ((s ownWin).seq i0).earlierDone 1 = true ∧ (∃ t, resolve i0 ownWin 8 .sig (s ownWin) = (.ok (.win 0 0 0), t)) ∧
    (let t := (resolve i0 ownWin 8 .sig (s ownWin)).2
     (t.seq i0).canIssue = true ∧ (t.seq i0).canTake .s h0 = true ∧
      ∃ u, issueReq i0 (.sig false 1) (.win 0 0 0) ownWin 0 (.entry .s 1) true true 0 (t.modSeq i0 fun q => q.started .s h0 x) = some u) ∧
    (∃ t, resolve i0 (ownSpad + 8) 8 .sig (s (ownSpad + 8)) = (.fault { code := 5, addr := ownSpad + 8 }, t)) := by
  refine ⟨issues_of ?_, ?_, pair_of ?_, ⟨?_, ?_, Option.isSome_iff_exists.mp ?_⟩, pair_of ?_⟩ <;> decide +kernel

/-- i0 holds a copy of 64 bytes between 0x91000 and its scratchpad, of which f has changed what has been requested. -/
def sPiece (w : W64) (pat : List Byte) (f : Copy → Copy) : State := mapped (teamIs fun q => { q with
  copies := [f { id := 0, q := .l, word := w, caddr := 0, ops := [0, 0, 0, 0], pat := pat }] })

/-- The pattern of a copy in, of a copy out, and of a copy from no canonical address. -/
def patIn : List Byte := patRec 0x91000 ownSpad.toNat 64
@[inherit_doc patIn] def patOut : List Byte := patRec ownSpad.toNat 0x91000 64

theorem witness_CopyPieces_requests : let s := sPiece cpyWord patIn id
    (∀ m < 3, (askNext (⟨0, 0, ((s.core 0 0).rr + 1 + m) % 4⟩ : Sid) s).isNone = true) ∧ (∃ t, askNext (⟨0, 0, ((s.core 0 0).rr + 1 + 3) % 4⟩ : Sid) s = some t) ∧
    (∃ k pc, (s.seq i0).copies.find? Copy.wants = some k ∧ copyPiece (readIndex i0 { k with next := k.nextUp } s) 0 = some pc ∧
      (match askPiece i0 k 0 pc s with | .done _ => true | _ => false) = true ∧
      (match askPiece i0 k 0 { pc with src := 0x0200000000000000 } s with | .fault _ _ => true | _ => false) = true) := by
  refine ⟨?_, Option.isSome_iff_exists.mp ?_, _, _, rfl, rfl, ?_, ?_⟩ <;> decide +kernel

theorem witness_CopyPieces_sides : let s := sPiece cpyWord patIn id
    copyKind cpyWord = .cpy ∧ (∃ t, pieceSide i0 (srcKind .cpy) .copySrc 0x91000 64 s = (.go (.mem 0 0x91000), t)) ∧
    (∃ u, pieceSide i0 (dstKind .cpy) .copyDst ownSpad 64 (pieceSide i0 (srcKind .cpy) .copySrc 0x91000 64 s).2 = (.go (.spad 0 0 0), u)) ∧
    copyKind cpyoWord = .cpyo ∧ (∃ t, pieceSide i0 (srcKind .cpyo) .copySrc ownSpad 64 s = (.go (.spad 0 0 0), t)) ∧
    (∃ u, pieceSide i0 (dstKind .cpyo) .copyDst 0x91000 64 (pieceSide i0 (srcKind .cpyo) .copySrc ownSpad 64 s).2 = (.go (.mem 0 0x91000), u)) ∧
    (∃ t, pieceSide i0 (srcKind .cpy) .copySrc 0x0200000000000000 64 s = (.fault { code := 1, addr := 0x0200000000000000, reason := 3 }, t)) := by
  refine ⟨rfl, go_of ?_, go_of ?_, rfl, go_of ?_, go_of ?_, failed_of ?_⟩ <;> decide +kernel

/-- Piece 0 of the copy in, with its bytes, and an arrival counter at the second window word where `ctr`. -/
def sLanded (ctr : Bool) : State := sPiece (if ctr then cpyWord + 1 else cpyWord) patIn fun c =>
  { c with flight := [{ n := 0, ready := true, bytes := List.replicate 64 7 }], next := 1,
           pat := patIn.take 16 ++ leBytes 8 (if ctr then (ownWin + 8).toNat else 0) ++ patIn.drop 24, word := cpyWord }

theorem witness_CopyPieces_performed : ∀ ctr : Bool, let s := sLanded ctr
    s.has i0 = true ∧ ∃ k fl pc, (s.seq i0).copies.find? (fun c => c.id == 0) = some k ∧ k.flight.find? (fun f => f.n == 0) = some fl ∧
      copyPiece k 0 = some pc ∧ fl.ready = true ∧ fl.bytes ≠ [] ∧ earlierSameLine (s.seq i0) k 0 fl.dst = false ∧ k.stop = none ∧ copyKind k.word = .cpy ∧
      resolveWindow i0 pc.dst pc.len .copyDst s = .ok (.spad 0 0 0) ∧ placeWaking s pc.len (.spad 0 0 0) = false ∧
      (if ctr then k.counter ≠ 0 ∧ resolveWindow i0 k.counter 8 .counter (writePlace fl.bytes (.spad 0 0 0) s) = .ok (.win 0 0 8) else k.counter = 0) := by
  rintro ⟨⟩ <;> refine ⟨?_, _, _, _, rfl, rfl, rfl, ?_, ?_, ?_, ?_, ?_, ?_, ?_, ?_⟩ <;> decide +kernel
/-- Package 0 as after reset with its die 0 changed by f. -/
def sDie (f : Die → Die) : State := sTeam.modDie 0 0 f

/-- A read and a write of a copy's piece, and the same of the other die's memory. -/
def sliceRead : SliceReq := { who := i0, cid := 0, piece := 0, slices := [5], gen := 0, pa := 0x1000, bytes := 64 }
@[inherit_doc sliceRead] def sliceWrite : SliceReq := { sliceRead with write := some (List.replicate 64 7) }
@[inherit_doc sliceRead] def sliceFar : SliceReq := { sliceWrite with pa := 0x06000001000 }

/-- A delivery of the block of `sliceRead` to core 0, formed and not injected. -/
def theDelivery : Delivery := { slice := 5, pa := 0x1000, bytes := List.replicate 256 7, lines := [32], mask := 1 }

/-- Slices n to 23 have been retired but for one, which is in state st. -/
def slicesOf (n : Nat) (st : SliceSt) (d : Die) : Die := { d with slices := List.replicate n .serving ++ [st] ++ List.replicate (23 - n) .off }

theorem witness_SlicesAndRing_requests : let s := fun (r : SliceReq) => advanceClock 300 (sDie fun d => { d with reqs := [r] })
    (∀ r ∈ [sliceRead, sliceWrite, sliceFar], let s := s r; let die := (s.pkg 0).die 0
      die.reqs[0]? = some r ∧ reqWaits (s.pkg 0) die 0 r = false ∧ die.slices.getD 5 .off = .serving ∧ (reqSlots (s.pkg 0) die s.ck r).isSome = true) ∧
    (sTeam.pkg 0).homeDie sliceRead.pa = 0 ∧ (sTeam.pkg 0).homeDie sliceFar.pa = 1 ∧ sliceRead.write = none ∧ sliceRead.fwd.getD sliceRead.slices = [5] ∧
    ((sliceRead.pa + sliceRead.bytes - 1) / 256 - sliceRead.pa / 256 + 1 = 1 ∧ sliceRead.pa / 256 * 256 = 0x1000) ∧
    (mergeable sliceRead 5 0x1000 theDelivery = true ∧ mergeable sliceRead 5 0x1000 { theDelivery with lines := [33] } = false) ∧
    (let s := sDie fun d => { slicesOf 5 .rehoming d with reqs := [sliceRead] }
     ((s.pkg 0).die 0).reqs[0]? = some sliceRead ∧ ((s.pkg 0).die 0).slices.getD 5 .off = .rehoming) := by
  refine ⟨?_, ?_, ?_, rfl, rfl, ?_, ?_, rfl, ?_⟩ <;> decide +kernel

theorem witness_SlicesAndRing_delivery : let b : BlockRead := { seq := 0, cid := 0, piece := 0, block := 0x1000, off := 0, len := 64, at_ := 0 }
    let s := fun (v : Delivery) => advanceClock 300 (((sPiece cpyWord patIn fun c => { c with flight := [{ n := 0 }], next := 1 }).modDie 0 0 fun d =>
      { d with deliv := [v] }).modCore 0 0 fun c => { c with reads := [b] })
    (∀ v ∈ [theDelivery, { theDelivery with bytes := [], lines := [], ack := some (i0, 0, 0) }],
      (nextStations 0 (((s v).pkg 0).die 0))[0]? = some (0, 0) ∧ (((s v).pkg 0).die 0).deliv[0]? = some v ∧ v.side = [] ∧
      ((((s v).pkg 0).die 0).arrive ((s v).pkg 0) 0 (s v).ck v 0).isSome = true) ∧
    (∃ r ∈ ((s theDelivery).core 0 0).reads, r.block = theDelivery.pa ∧ ∀ l ∈ linesOf (r.block + r.off) r.len, l ∈ theDelivery.lines) ∧
    (∃ x, flightOf (s theDelivery) ⟨0, 0, b.seq⟩ b.cid b.piece = some x ∧ copyKind x.1.word = .cpy ∧ x.2.1.parts = [] ∧ b.at_ = 0 ∧ b.len = x.2.2.len ∧
      b.off + b.len ≤ theDelivery.bytes.length) := by
  refine ⟨?_, ?_, _, rfl, ?_, ?_, ?_, ?_, ?_⟩ <;> decide +kernel

theorem witness_SlicesAndRing_retire : let die := fun (n : Nat) (st : SliceSt) => ((sDie (slicesOf n st)).pkg 0).die 0
    ((die 12 .serving).slices.getD 12 .off = .serving ∧ ((die 12 .retiring).slices.filter (· == .serving)).length = 12) ∧
    ((die 11 .serving).slices.getD 11 .off = .serving ∧ ((die 11 .retiring).slices.filter (· == .serving)).length < 12) ∧
    ((die 23 .retiring).slices.getD 23 .off = .retiring ∧ (List.replicate 64 22).length = 64 ∧
      (22 < 24 ∧ 22 ≠ 23 ∧ (die 23 .retiring).slices.getD 22 .off = .serving)) ∧
    ((die 23 .rehoming).slices.getD 23 .off = .rehoming ∧ (die 23 .rehoming).reqs = []) ∧
    (let d := { die 23 .retiring with lines := [{ line := 32, slice := 23, dirty := true }, { line := 33, slice := 5, dirty := true }] }
     (∃ l ∈ d.lines, l.slice = 23 ∧ l.dirty = true) ∧ ∀ l ∈ { d with lines := d.lines.drop 1 }.lines, l.slice = 23 → l.dirty = false) ∧
    ((sTeam.core 0 0).offline = false ∧ (sTeam.core 0 0).bound ≠ none ∧ (sTeam.core 0 95).offline = false ∧ (sTeam.core 0 95).bound = none) := by decide +kernel

/-- A request of i0's, and a packet from package 0 to package 0 with a body. -/
def req0 (op : Op) (fs : Option Nat) : Req :=
  { who := i0, id := ⟨7, 0, 3, 0⟩, fseq := fs, dpkg := 0, op := op, place := .mem 0 0x91000, origin := .front }
@[inherit_doc req0] def pkt0 (b : Body) : Packet := { id := 4, src := 0, dst := 0, at_ := 0, sent := 0, body := b }

/-- The packet is at its destination, and ck is n. -/
def sNet (b : Body) (n : Nat) : State := { advanceClock n sTeam with net := [pkt0 b] }

theorem witness_RemoteEvents_packets :
    ((sNet (.ans (req0 (.load 8) none) (.result 0)) 143999).net[0]? = some (pkt0 (.ans (req0 (.load 8) none) (.result 0))) ∧
      (sNet (.ans (req0 (.load 8) none) (.result 0)) 143999).hasPkg 0 = true ∧ (sNet (.req (req0 (.load 8) none)) 143999).ck < 0 + 48 * 3000) ∧
    (sNet (.req (req0 (.load 8) none)) 0).net[0]? = some (pkt0 (.req (req0 (.load 8) none))) ∧
    ((sNet (.req (req0 (.store 8 1) (some 3))) 0).net[0]? = some (pkt0 (.req (req0 (.store 8 1) (some 3)))) ∧ (sTeam.pkg 0).inc = 0 ∧
      (sTeam.pkg 0).flowsRx = [] ∧ fseqBefore 3 ({ dctx := 7, src := 0 } : FlowRx).next = false ∧ 3 ≠ ({ dctx := 7, src := 0 } : FlowRx).next) ∧
    0 + 48 * 3000 ≤ (sNet (.req (req0 (.load 8) none)) 144000).ck := by
  refine ⟨⟨rfl, ?_, ?_⟩, rfl, ⟨rfl, rfl, rfl, ?_, ?_⟩, ?_⟩ <;> decide +kernel

/-- Requests that wait at the mesh: a load of memory and a load of a scratchpad whose first granule is waking. -/
def sMesh : State := (sTeam.modCore 0 0 fun c => { c with waking := [(0, 2048)] }).modPkg 0 fun p =>
  { p with mesh := [⟨req0 (.load 8) none, 0, 0⟩, ⟨{ req0 (.load 8) none with place := .vspad 0 3 0 8 }, 0, 0⟩], answers := [(req0 (.load 8) none, .result 0)] }

/-- i0 has an unordered request out, sent `attempts` times, the last time at ck 0. -/
def sOut (attempts : Nat) (f : Out → Out) : State := advanceClock 192000 (teamIs fun q => { q with out := [f { req := req0 (.load 8) none, attempts := attempts }] })

theorem witness_RemoteEvents_owner : (∃ m₀ m₁, (sMesh.pkg 0).mesh[0]? = some m₀ ∧ (sMesh.pkg 0).mesh[1]? = some m₁ ∧ sameLocation m₀ m₁ = false ∧
      (match own 0 m₀ sMesh with | .answer _ _ => true | .wait _ => false) = true ∧ (match own 0 m₁ sMesh with | .answer _ _ => false | .wait _ => true) = true) ∧
    (sMesh.pkg 0).answers[0]? = some (req0 (.load 8) none, .result 0) ∧
    ((req0 (.load 8) none).origin ≠ .unit ∧ (sOut 1 id).findSeq (req0 (.load 8) none).id = some i0 ∧
      (((sOut 1 id).seq i0).out.find? (fun o => o.matches (req0 (.load 8) none))).isSome = true) ∧
    (((sOut 1 id).seq i0).out[0]?.any (fun o => o.resendAt.isNone && decide (o.lastSend + 64 * 3000 ≤ (sOut 1 id).ck) && decide (o.attempts < 16)) = true ∧
      (sOut 1 id).has i0 = true ∧ ((sOut 1 id).seq i0).st ≠ .halt) ∧
    ((sOut 16 id).seq i0).out[0]?.any (fun o => decide (16 ≤ o.attempts)) = true ∧
    (((sOut 1 fun o => { o with resendAt := some 192000 }).seq i0).out[0]?.any (fun o => o.resendAt == some 192000 && !o.refused) = true ∧
      192000 ≤ (sOut 1 fun o => { o with resendAt := some 192000 }).ck) := by
  refine ⟨⟨_, _, rfl, rfl, ?_, ?_, ?_⟩, rfl, ⟨?_, ?_, ?_⟩, ⟨?_, ?_, ?_⟩, ?_, ?_, ?_⟩ <;> decide +kernel

/-- The reply cache of core 0. -/
def sReply (rs : List Reply) : State := sTeam.modCore 0 0 fun c => { c with replies := rs }

theorem witness_RemoteEvents_replies : let e := fun (h : Nat) => ({ id := ⟨7, 0, 3, 0⟩, serial := 5, result := 9, hold := h } : Reply)
    ((sReply [e 12000000]).core 0 0).replies[0]? = some (e 12000000) ∧ 4000 * 3000 ≤ (e 12000000).hold ∧ (e 11999999).hold < 4000 * 3000 := by
  refine ⟨rfl, ?_, ?_⟩ <;> decide

/-- An atomic addition with serial 6 of i0's at byte off of its own window, from an incarnation, all to serial 4 acknowledged. -/
def mAtomic (off inc : Nat) : MeshReq :=
  ⟨{ who := i0, id := ⟨7, 0, 3, 0⟩, serial := some 6, dpkg := 0, inc := inc, ack := 4, op := .atomic .fadd 1 0, place := .vwin 0 3 0 off }, 0, 0⟩

theorem witness_ExactlyOnce : let e := fun (n : Nat) => ({ id := ⟨7, 0, 3, 0⟩, serial := n, result := 9 } : Reply)
    let many := sReply (List.replicate 4096 { id := ⟨7, 0, 2, 0⟩, serial := 1, result := 0 })
    let acked := fun (s : State) => s.modCore 0 0 fun k => { k with replies := k.replies.filter fun e => !(e.id == ⟨7, 0, 3, 0⟩ && serLE e.serial 4) }
    (((sReply [e 6]).pkg 0).ctx? 7).isSome = true ∧ teamServes (sReply [e 6]) 0 (mAtomic 8 0) (mAtomic 8 0).req.place = true ∧
    hereOf (sReply [e 6]) 0 (mAtomic 8 0).req (mAtomic 8 0).req.place = some (.win 0 0 8) ∧
    ((acked (sReply [e 4, e 6])).core 0 0).replies = [e 6] ∧ ((acked (sReply [e 4])).core 0 0).replies = [] ∧
    (mAtomic 8 1).req.inc ≠ ((acked (sReply [])).pkg 0).inc ∧ (mAtomic 8 0).req.inc = ((acked (sReply [])).pkg 0).inc ∧
    (ownerFault (acked (sReply [])) 0 (mAtomic 8 0).req.op (.win 0 0 0x800000)).isSome = true ∧
    hereOf (sReply []) 0 (mAtomic 0x800000 0).req (mAtomic 0x800000 0).req.place = some (.win 0 0 0x800000) ∧
    ownerFault (acked (sReply [])) 0 (mAtomic 8 0).req.op (.win 0 0 8) = none ∧ 4096 ≤ ((acked many).core 0 0).replies.length := by decide +kernel

/-- Packages 0, 1, 22 and 23, with port 0 of package 0 changed by f and port 22 of package 1, its peer, by g; one packet. -/
def sLinks (f g : Port → Port) (k : Packet) : State :=
  { ({ ({} : State) with pkgs := [{ num := 0 }, { num := 1 }, { num := 22 }, { num := 23 }], net := [k], tree := [(1, 0)], drainAt := none }.modPort 0 0 f).modPort 1 22 g with
    ck := 4096 }

/-- A packet at package 0 for package d. -/
def pktTo (d vc : Nat) : Packet := { id := 4, src := 0, dst := d, at_ := 0, sent := 0, vc := vc, body := .req (req0 (.load 8) none) }

theorem witness_LinksAndRouting_links : let s := sLinks id id (pktTo 1 0)
    peerOf s 0 0 = some (1, 22) ∧ (7 < 8 ∧ 0 ≤ 30) ∧ 2 ≤ ((s.pkg 0).port 0).active ∧
    ((sLinks (fun t => { t with lanes := 1 }) id (pktTo 1 0)).pkg 0 |>.port 0).active < 2 ∧
    ((sLinks (fun t => { t with retired := true }) id (pktTo 1 0)).pkg 0 |>.port 0).retired = true ∧
    (23 % 24 = 23 ∧ 23 ≤ 30 ∧ (((s.modPort 22 30 fun t => { t with retired := true }).pkg (23 / 24 * 24 + 183 / 8)).port (23 + 183 % 8)).retired = true) ∧
    (let f : Flit := ⟨5, 4, true⟩
     let t := sLinks (fun t => { t with rxSeq := 5 }) (fun t => { t with toSend := [f] }) (pktTo 1 0)
     ((t.pkg 1).port 22).toSend = f :: [] ∧ f.seq = ((t.pkg 0).port 0).rxSeq ∧ f.seq ≠ ((s.pkg 0).port 0).rxSeq) ∧
    ((sLinks (fun t => { t with nak := true }) id (pktTo 1 0)).pkg 0 |>.port 0).nak = true := by decide +kernel

theorem witness_LinksAndRouting_packets : let s := sLinks id id (pktTo 1 0)
    (s.net[0]? = some (pktTo 1 0) ∧ (pktTo 1 4).vc < 5 ∧ (pktTo 1 0).at_ ≠ (pktTo 1 0).dst) ∧ 0 ∈ dragonPorts s (pktTo 1 0) ∧ portRoom s 0 0 (pktTo 1 0) = true ∧
    dragonPorts s (pktTo 575 0) = [] ∧ (pktTo 1 4).since + 4096 ≤ s.ck ∧ s.drainAt = none ∧
    (treeHop s 0 1 = some 1 ∧ (pktTo 1 5).epoch = (s.pkg 0).epoch ∧ (0, 1) ∈ neighbours s 0 ∧ (∀ n ∈ neighbours s 0, n.2 = 1 → n = (0, 1)) ∧ portRoom s 0 0 (pktTo 1 5) = true) ∧
    (let t : State := { sLinks id id (pktTo 1 5) with drainAt := some 0, ck := 120000 }; t.drainAt = some 0 ∧ 0 + 40 * 3000 ≤ t.ck) := by decide +kernel
/-- An 128-byte query block record: the descriptor's address, the table's, LIDX and NB; one row of eight FP32 results at address 0. -/
def qbRec (layer table lidx nb : Nat) : List Byte :=
  leBytes 8 layer ++ leBytes 8 table ++ leBytes 8 (lidx * 2 ^ 32 + nb) ++ List.replicate 104 0

/-- A 128-byte layer descriptor: one page, its list and counts, a hold time and one subscription. -/
def lyRec (subl subc hold : Nat) : List Byte :=
  List.replicate 8 0 ++ leBytes 8 subl ++ leBytes 8 subc ++ leBytes 8 1 ++ List.replicate 16 0 ++ leBytes 8 (hold * 2 ^ 48 + 2 ^ 32 + 2 * 2 ^ 24) ++
    List.replicate 72 0

/-- The slot's base address. -/
def slotVa : Nat := 0x01FE000000000000

/-- A subscription list at 0x92000, and counts at 0x93000 under another entry of the root table, as the sower reads and writes them. -/
def sublVa : Nat := 0x92000
@[inherit_doc sublVa] def subcVa : Nat := 2 ^ 48 + 0x93000

/-- The head of S and of L is an entry with operands ops; the slot holds a block record at 0, its descriptor at 256 and its table at 512. f changes the die. -/
def sAttn (ops : List W64) (f : Die → Die) : State := ((mapped (teamIs fun q => { q with
    qs := [{ id := 0, word := 0xC000000000000000, ops := ops, compared := true }], ql := [{ id := 1, word := 0x4000000000000000, ops := ops, compared := true }] })).modPkg 0
  fun p => (((p.setBytes 0xA0000 (qbRec (slotVa + 256) (slotVa + 512) 3 1)).setBytes 0xA0100 (lyRec sublVa subcVa 0)).setBytes 0xB0008 (leBytes 8 0xB1001))).modDie 0 0 f

/-- The entry at the head of S, and at the head of L. -/
def xS (ops : List W64) : Entry := { id := 0, word := 0xC000000000000000, ops := ops, compared := true }
@[inherit_doc xS] def xL (ops : List W64) : Entry := { id := 1, word := 0x4000000000000000, ops := ops, compared := true }

/-- A live block 3 of i0's core, whose table has 10 positions and whose head is 1. -/
def theBlock : Block :=
  { dctx := 7, vteam := 3, vcore := 0, core := 0, record := qbRec (slotVa + 256) (slotVa + 512) 3 10, table := List.range 10, head := 1,
    m := [negInf], l := [0], by_ := ⟨7, 0, 3, 0⟩ }

theorem witness_AttentionWords_records : let s := sAttn [BitVec.ofNat 64 slotVa] id
    let live := sAttn [BitVec.ofNat 64 slotVa] fun d => { d with blocks := [theBlock] }
    let full := sAttn [BitVec.ofNat 64 slotVa] fun d => { d with blocks := List.replicate 512 { theBlock with vteam := 1 } }
    let r := qbRec (slotVa + 256) (slotVa + 512) 3 1
    let d := lyRec sublVa subcVa 0
    let t := (recordCheck (xS [BitVec.ofNat 64 slotVa]) s).2
    Issues s .s h0 (xS [BitVec.ofNat 64 slotVa]) ∧ (∃ t, recordCheck (xS [BitVec.ofNat 64 slotVa]) s = (.go (r, d), t)) ∧
    (liveBlock i0 3 live).isSome = true ∧ (liveBlock i0 3 t).isNone = true ∧ 512 ≤ ((full.pkg 0).die 0).blocks.length ∧
    (((t.pkg 0).die 0).layer? 7 (qbLayer r) = none ∧ ((t.pkg 0).die 0).layers = [] ∧ qbNb r ≠ 0 ∧ lySubn d ≠ 0) ∧
    ((match readTable i0 r d (BitVec.ofNat 64 slotVa) t with | (.go (.ok [(0, l)]), u) => decide (l = ⟨0x92000, 0x93000⟩) && (u.seq i0).canTake .s h0 | _ => false) = true) ∧
    (liveBlock i0 3 live = some (0, theBlock) ∧ ((live.pkg 0).die 0).layers.find? theBlock.inLayer = none) := by
  refine ⟨issues_of ?_, go_of ?_, ?_, ?_, ?_, ?_, ?_, ?_⟩ <;> decide +kernel

/-- The partial's address and the block's index and rank. -/
def sMerge (off lidx rank : Nat) : State :=
  sAttn [BitVec.ofNat 64 off, BitVec.ofNat 64 lidx, BitVec.ofNat 64 rank] fun d => { d with blocks := [theBlock] }

theorem witness_AttentionWords_merge : (∀ off lidx rank : Nat, Issues (sMerge off lidx rank) .s h0 (xS [BitVec.ofNat 64 off, BitVec.ofNat 64 lidx, BitVec.ofNat 64 rank])) ∧
    directEnd ((sMerge 0 3 0).core 0 0).carve = 0x40000 ∧ (0x3DF80 % 64 = 0 ∧ 0x3DF80 + 8320 ≤ 0x40000 ∧ 0x40000 < 0x3DFC0 + 8320) ∧
    liveBlock i0 3 (sMerge 0 3 0) = some (0, theBlock) ∧ liveBlock i0 63 (sMerge 0 63 0) = none ∧
    (theBlock.pos? 10 = none ∧ theBlock.pos? 0 = some 0 ∧ 0 < theBlock.head ∧ theBlock.pos? 9 = some 9 ∧ theBlock.head + 8 ≤ 9 ∧ theBlock.pos? 1 = some theBlock.head) ∧
    ((sMerge 0x3DF80 3 1).core 0 0).wakingAt 0x3DF80 8320 = false := by
  refine ⟨fun _ _ _ => ⟨rfl, rfl, rfl, rfl, rfl⟩, ?_, ?_, ?_, ?_, ?_, ?_⟩ <;> decide +kernel

/-- The core's page slots, and a block of its page still on its way where `coming`. -/
def sSlots (ps : List PageSlot) (coming : Bool) : State :=
  (sAttn [0] fun d => { d with deliv := if coming then [{ slice := 0, pa := 0x94000, mask := 1, side := [.page 32767 [0]] }] else [] }).modCore 0 0 fun c => { c with pages := ps }

theorem witness_AttentionWords_slots : let sl : PageSlot := { slot := 0, page := 0, header := 0x10000 }
    (∀ ps c, Issues (sSlots ps c) .s h0 (xS [0]) ∧ Issues (sSlots ps c) .l h0 (xL [0])) ∧ ((sSlots [] false).core 0 0).argSlot 0 = none ∧
    ((sSlots [sl] true).core 0 0).argSlot 0 = some sl ∧ (((sSlots [sl] true).pkg 0).die 0).landing 0 sl = true ∧
    ((sSlots [sl] false).core 0 0).argSlot 0 = some sl ∧ (((sSlots [sl] false).pkg 0).die 0).landing 0 sl = false ∧
    (((sSlots [sl] false).modSeq i0 fun q => { q with ql := [] }).seq i0).earlierDone 0 = true ∧
    (((sSlots [sl] false).modSeq i0 fun q => { q with qs := { id := 9, word := 0xC000000000000000, issued := true } :: q.qs }).seq i0).earlierDone 0 = false := by
  refine ⟨fun _ _ => ⟨⟨rfl, rfl, rfl, rfl, rfl⟩, ⟨rfl, rfl, rfl, rfl, rfl⟩⟩, ?_, ?_, ?_, ?_, ?_, ?_, ?_⟩ <;> decide +kernel

/-- A layer of one page in phase ph, whose lists lie where `here` says. -/
def theLayer (ph : Phase) (hold : Nat) (subl subc : Nat) : Layer :=
  { desc := BitVec.ofNat 64 (slotVa + 256), bytes := lyRec subl subc hold, dctx := 7, by_ := ⟨7, 0, 3, 0⟩, subs := 1, phase := ph }

/-- The die has that layer and the block; the page's list has a gleaning entry in the slot, and a main entry at 0x92000; ck is n. -/
def sUnits (l : Layer) (n : Nat) : State := advanceClock n (((sAttn [0] fun d => { d with layers := [l], blocks := [{ theBlock with table := [0], head := 0 }] }).modPkg 0
  fun p => { ((((p.setBytes 0xA1000 (leBytes 4 65536)).setBytes 0xA2FFC (leBytes 4 3)).setBytes 0x92000 (leBytes 4 3)).setBytes 0x93000 (leBytes 4 1)) with
    slots := vmod p.slots 0 fun t => { t with codesz := 0x4000 } }).modCore 0 0 fun c => { c with pages := [{ slot := 0, page := 0, header := 0x10000 }] })

theorem witness_AttentionUnits_sower : let hold := theLayer .hold 1 sublVa subcVa
    let rest := theLayer .rest 0 (slotVa + 0x2000) (slotVa + 0x1000)
    let main := theLayer .main 0 sublVa subcVa
    (((sUnits hold 1024).pkg 0).die 0).layers[0]? = some hold ∧ hold.since + 1024 * lyHold hold.bytes ≤ (sUnits hold 1024).ck ∧
    (sUnits hold 1023).ck < hold.since + 1024 * lyHold hold.bytes ∧
    (let s := sUnits rest 0; ((s.pkg 0).die 0).layers[0]? = some rest ∧ (layerGleans 0 rest (fun b => b.runs (s.pkg 0)) ((s.pkg 0).die 0) (((s.pkg 0).die 0).ranksOf rest) s).1 = true) ∧
    (((sUnits hold 0).pkg 0).die 0).walking = [] ∧
    ((((sUnits main 0).pkg 0).die 0).walking = [main] ∧ (match passStep 0 0 main (sUnits main 0) with | .later _ => true | .done _ => false) = true) ∧
    (let l := { main with rank := 1 }; (((sUnits l 0).pkg 0).die 0).walking = [l] ∧ (match passStep 0 0 l (sUnits l 0) with | .later _ => false | .done _ => true) = true) := by
  refine ⟨?_, ?_, ?_, ⟨?_, ?_⟩, ?_, ⟨?_, ?_⟩, ?_, ?_⟩ <;> decide +kernel

theorem witness_AttentionUnits_merge : let b := { theBlock with held := [(1, [])] }
    let s := sAttn [0] fun d => { d with blocks := [b] }
    ((s.pkg 0).die 0).blocks[0]? = some b ∧ b.runs (s.pkg 0) = true ∧ (b.held.find? fun x => x.1 == b.head) = some (b.head, []) ∧ b.head + 1 < b.table.length ∧
    ({ b with vteam := 4 } : Block).runs (s.pkg 0) = false ∧
    f32Nan 0x7FC00000 = true ∧ f32Nan 0x3F800000 = false ∧ f32Nan 0x7F800000 = false ∧ f32Nan 0xFF800000 = false := by decide +kernel
/-- A work entry's record of two ranks, the own 0, with chunks of 64 bytes from the slot to 0x90000, of which there are 2, collective 9, a trigger and a WSIG at
the own window's first word, and DSIG. -/
def wkRec (dsig dtype : Nat) : List Byte :=
  List.replicate 8 0 ++ leBytes 8 slotVa ++ leBytes 8 0x90000 ++ List.replicate 16 0 ++ leBytes 8 ownWin.toNat ++ leBytes 4 5 ++ leBytes 4 0 ++ leBytes 8 ownWin.toNat ++
    leBytes 8 0 ++ leBytes 8 dsig ++ List.replicate 8 0 ++ leBytes 8 (9 * 2 ^ 48 + 2 * 2 ^ 32 + dtype * 16) ++ leBytes 8 2 ++ leBytes 8 64 ++ List.replicate 16 0

/-- Physical entry 63, of the context and team of i0, as f changes it; the own window's first word is 5. -/
def sWork (dsig : Nat) (f : Work → Work) : State :=
  { ((mapped sTeam).modCore 0 0 fun c => c.setWin 0 (leBytes 8 5)).modWork 0 63 fun w =>
      f { w with st := .run, dctx := 7, ve := 63, record := wkRec dsig 2, ranks := [0, 1], vteam := 3, by_ := ⟨7, 0, 3, 0⟩ } with whoEntry := (0, 63) }

/-- A `copy` of chunk 1 and an `rrs` without a write, in progress; and a staged packet for the second, of chunk c. -/
def copyRun : StepRun := { idx := 0, word := 0x40000000, chunk := 1 }
@[inherit_doc copyRun] def rrsRun : StepRun := { idx := 1, word := 0x30000000, chunk := 0, src := some 1, rbase := 0, dst := some 1 }
@[inherit_doc copyRun] def staged (c : Nat) : Nat × CollPkt := (31, { dctx := 7, coll := 9, g := 0, src := 1, dst := 0, seq := 0, kind := .data c 2 64 2 0 (List.replicate 64 1) })

theorem witness_CollectiveSteps : let w := (sWork 0 id).work 0 63
    ((sWork 0 id).whoEntry = (0, 63) ∧ (sWork 0 id).hasPkg 0 = true ∧ 63 < 64) ∧
    (sigRead ((sWork 0 id).pkg 0) w (wkWsig w.record) = some 5 ∧ (5 : BitVec 20).toNat + w.g * wkWinc w.record ≤ 5 ∧ 5 < (6 : BitVec 20).toNat + w.g * wkWinc w.record) ∧
    (((sWork 0 fun w => { w with runs := [copyRun] }).work 0 63).runs ≠ [] ∧ w.runs = [] ∧ wkDsig w.record = 0) ∧
    (let s := sWork (ownWin.toNat + 8) id; wkDsig (s.work 0 63).record ≠ 0 ∧ (sigAdd 0 (s.work 0 63) (wkDsig (s.work 0 63).record) s).isSome = true) ∧
    (let s := (sWork (ownWin.toNat + 8) id).modPkg 0 fun p => { p with teams := p.teams.map fun t => { t with st := .closing } }
     (sigAdd 0 (s.work 0 63) (wkDsig (s.work 0 63).record) s).isNone = true) := by
  refine ⟨⟨?_, ?_, ?_⟩, ⟨?_, ?_, ?_⟩, ⟨?_, ?_, ?_⟩, ⟨?_, ?_⟩, ?_⟩ <;> decide +kernel

theorem witness_CollectiveSteps_pieces : let s := fun (r : StepRun) => sWork 0 fun w => { w with runs := [r] }
    let went : StepRun := { copyRun with read := [(0, List.replicate 64 1)] }
    let t := fun (c : Nat) (r : StepRun) => sWork 0 fun w => { w with runs := [r], staged := [staged c] }
    (((s copyRun).work 0 63).st = .run ∧ ((s copyRun).work 0 63).runs[0]? = some copyRun ∧ 0 < ((s copyRun).work 0 63).cells) ∧
    (((s copyRun).work 0 63).readsAt copyRun 0 = some (((s copyRun).work 0 63).pieceAt false 1 0) ∧ copyRun.hasRead 0 = false ∧
      pieceHeld 0 ((s copyRun).work 0 63) [] copyRun 0 false (s copyRun) = false) ∧
    (∃ u, readPiece 0 ((s copyRun).work 0 63) (((s copyRun).work 0 63).pieceAt false 1 0) 64 (s copyRun) = (.go (List.replicate 64 0), u)) ∧
    (match (readPiece 0 ((s copyRun).work 0 63) 0x0200000000000000 64 (s copyRun)).1 with | .fault _ => true | _ => false) = true ∧
    (((s went).work 0 63).writesAt went 0 = some (((s went).work 0 63).pieceAt true 1 0) ∧ went.hasWritten 0 = false ∧ went.hasRead 0 = true ∧
      pieceHeld 0 ((s went).work 0 63) [] went 0 true (s went) = false ∧ ((s went).work 0 63).madeCell went 0 = .bytes (List.replicate 64 1) false false) ∧
    (∃ u, workPlaces 0 ((s went).work 0 63) (((s went).work 0 63).pieceAt true 1 0) 64 true (s went) = (.go [(0x90040, 64)], u)) ∧
    (pieceHeld 0 ((s copyRun).work 0 63) [copyRun] went 0 true (s copyRun) = true ∧
      ({ copyRun with read := [(0, [])], wrote := [0] } : StepRun).hasWritten 0 = true) ∧
    (((t 1 rrsRun).work 0 63).packetFor rrsRun 0 = some (staged 1) ∧ ((t 1 rrsRun).work 0 63).mismatch rrsRun 0 (staged 1).2 = true) ∧
    (((t 0 rrsRun).work 0 63).packetFor rrsRun 0 = some (staged 0) ∧ ((t 0 rrsRun).work 0 63).mismatch rrsRun 0 (staged 0).2 = false ∧
      rrsRun.kind = .rrs false ∧ ({ rrsRun with word := 0x20000000 } : StepRun).kind = .recv false ∧ copyRun.src = none) ∧
    (let r := { rrsRun with read := [(0, List.replicate 64 1)] }; (∀ u < ((t 0 r).work 0 63).cells, u / 4 = 0 →
      (((t 0 r).work 0 63).readsAt r u = none ∨ r.hasRead u = true) ∧ (((t 0 r).work 0 63).writesAt r u = none ∨ r.hasWritten u = true)) ∧
      (((t 0 r).work 0 63).made r 0 ≠ .later ∧ ((t 0 r).work 0 63).made r 0 ≠ .mismatch ∧ ((t 1 r).work 0 63).made r 0 = .mismatch)) ∧
    (let r := { copyRun with read := [(0, List.replicate 64 1)], wrote := [0] }; ((s r).work 0 63).packetFor r 0 = none ∧
      ((s r).work 0 63).made r 0 = .bytes (List.replicate 64 1) false false) := by
  refine ⟨⟨?_, ?_, ?_⟩, ⟨?_, ?_, ?_⟩, go_of ?_, ?_, ⟨?_, ?_, ?_, ?_, ?_⟩, go_of ?_, ⟨?_, ?_⟩, ⟨?_, ?_⟩, ⟨?_, ?_, ?_, ?_, ?_⟩, ⟨?_, ?_, ?_, ?_⟩, ?_, ?_⟩ <;>
    decide +kernel

/-- A collective packet at package 0, of kind k and generation g, for rank 0 or for no entry; and its answer. -/
def collPkt (k : CollKind) (g coll : Nat) : CollPkt := { dctx := 7, coll := coll, g := g, src := 1, dst := 0, seq := 0, kind := k }
@[inherit_doc collPkt] def collNet (b : Body) : Packet := { id := 4, src := 0, dst := 0, at_ := 0, sent := 0, body := b }

/-- Entry 63 and such a packet. -/
def sColl (b : Body) (f : Work → Work) : State := { sWork 0 f with net := [collNet b] }

/-- A packet of entry 63 that has not been answered. -/
def theOut : CollOut := { pkt := collPkt (.data 0 2 64 2 0 []) 0 9, dpkg := 0 }

theorem witness_CollectiveEvents_trigger : let s := fun (tthr : Nat) => sWork 0 fun w => { w with st := .waittrig, record := w.record.take 48 ++ leBytes 4 tthr ++ w.record.drop 52 }
    ((s 5).work 0 63).st = .waittrig ∧ sigRead ((s 5).pkg 0) ((s 5).work 0 63) (wkTsig ((s 5).work 0 63).record) = some 5 ∧
    wkTthr ((s 5).work 0 63).record = 5 ∧ wkTthr ((s 6).work 0 63).record = 6 ∧ wkTinc ((s 6).work 0 63).record = 0 := by decide +kernel

theorem witness_CollectiveEvents_packets : let data := CollKind.data 0 2 64 2 0 []
    (∀ b f, collHere 0 0 (sColl b f) = some (collNet b)) ∧
    (collTarget ((sColl (.coll (collPkt data 0 8)) id).pkg 0) (collPkt data 0 8)).isNone = true ∧
    (let s := sColl (.coll (collPkt data 0 9)) fun w => { w with g := 1 }; ∃ w, collTarget (s.pkg 0) (collPkt data 0 9) = some (63, w) ∧ 0 < w.g) ∧
    (let s := sColl (.coll (collPkt data 1 9)) id
     ∃ w, collTarget (s.pkg 0) (collPkt data 1 9) = some (63, w) ∧ w.g < 1 ∧ w.staged = [] ∧ w.st = .run ∧ stagingFree (s.pkg 0) w 0 = true) ∧
    (let s := sColl (.coll (collPkt .abort 0 9)) id
     ∃ w, collTarget (s.pkg 0) (collPkt .abort 0 9) = some (63, w) ∧ w.recvSeq.contains (msgKey 1, 0) = false ∧ wkRank w.record = 0) ∧
    (let s := sColl (.coll (collPkt (.resume 1) 0 9)) fun w => { w with st := .susp }
     ∃ w, collTarget (s.pkg 0) (collPkt (.resume 1) 0 9) = some (63, w) ∧ w.st = .susp ∧ w.restored = false) ∧
    (let s := sColl (.coll (collPkt (.resume 0) 0 9)) fun w => { w with st := .susp, restored := true }
     ∃ w, collTarget (s.pkg 0) (collPkt (.resume 0) 0 9) = some (63, w) ∧ w.restored = true ∧ w.st = .susp ∧ wkRank w.record = 0) := by
  refine ⟨fun _ _ => rfl, ?_, ⟨_, rfl, ?_⟩, ⟨_, rfl, ?_, ?_, ?_, ?_⟩, ⟨_, rfl, ?_, ?_⟩, ⟨_, rfl, ?_, ?_⟩, _, rfl, ?_, ?_, ?_⟩ <;> decide +kernel

theorem witness_CollectiveEvents_answers : let s := sColl (.collAck theOut.pkt true) fun w => { w with outs := [theOut] }
    collSender ((dropPacket 4 s).pkg 0) theOut.pkt = some 63 ∧ (s.work 0 63).outs[0]? = some theOut ∧
    (theOut.resendAt = none ∧ theOut.lastSend + 64 * 3000 ≤ (advanceClock 192000 s).ck ∧ theOut.attempts < 16 ∧ 16 ≤ ({ theOut with attempts := 16 } : CollOut).attempts) ∧
    ({ theOut with resendAt := some 3000 } : CollOut).resendAt = some 3000 ∧
    (s.work 0 63).st = .run ∧ 2 ^ 32 ≤ ({ timer := 2 ^ 32 } : Work).timer ∧ ({ timer := 2 ^ 32 - 1 } : Work).timer < 2 ^ 32 := by decide +kernel
theorem witness_TakingAFault : let g : FaultRec := { code := 1 }
    sTeam.has i0 = true ∧ (sTeam.seq i0).frec = none ∧ ((teamIs fun q => { q with frec := some g }).seq i0).frec = some g ∧
    ((sTeam.pkg 0).ctx? (sTeam.seq i0).dctx.toNat).isSome = true ∧ (⟨0, 0, 1⟩ : Sid) ≠ i0 ∧
    ((teamIs fun q => { q with deferred := [g] }).seq i0).deferred = g :: [] ∧ (sTeam.seq i0).st = .run := by
  refine ⟨rfl, rfl, rfl, rfl, ?_, rfl, rfl⟩; decide

/-- An INVOKE entry's bytes: opcode byte, and the payload from byte 64 on. -/
def cmdEntry (opc : Nat) (payload : List Byte) : List Byte := leBytes 4 (opc * 2 ^ 16) ++ List.replicate 60 0 ++ payload ++ List.replicate (192 - payload.length) 0

/-- The payload of an INVOKE of slot 0 in context 7 as team vt, of r x c cores on a die, with the bits of byte 71, a carve and a queue table at 0xC1000. -/
def ivPayload (vt r c die bits : Nat) : List Byte :=
  leBytes 4 (7 * 2 ^ 16) ++ leBytes 4 (vt + (r * 16 + c) * 2 ^ 8 + die * 2 ^ 16 + bits * 2 ^ 24) ++ leBytes 8 0 ++ leBytes 8 0x10004 ++ leBytes 8 0xC1000

/-- Invocation 0 runs as i0's team, may start again where `restart`, and is expected to last `est` ck; invocation 1, for a whole die 0, has 8 tokens. -/
def sPreempt (restart : Bool) (est : Nat) (d : Decision) : State := sTeam.modPkg 0 fun p => { p with invs :=
  [{ id := 0, q := 0, idx := 0, bytes := cmdEntry 3 (ivPayload 3 1 1 0 (if restart then 16 else 0)), estimate := est, start := some 0, decision := d },
   { id := 1, q := 0, idx := 1, bytes := cmdEntry 3 (ivPayload 4 6 8 0 8) }] }

theorem witness_Preemption_policy : let c := fun (s : State) => (s.pkg 0).invs.all fun v => (s.pkg 0).invs.all fun n => v.id != 0 || n.id != 1 || considers (s.pkg 0) n v
    c (sPreempt true 3000000 .none) = true ∧ c (sPreempt true 3000001 .none) = true ∧ c (sPreempt false 3000001 .none) = true ∧
    (∃ v n, ((sPreempt true 3000001 .none).pkg 0).invs = [v, n] ∧ v.remaining 0 = 3000001 ∧ ivRestart v.bytes = true ∧ ivTokens v.bytes + 8 ≤ ivTokens n.bytes ∧
      killable (sPreempt true 3000001 .none) (ivDctx v.bytes) = true ∧ (((sPreempt true 3000001 .none).pkg 0).invTeam? v).isSome = true) ∧
    (∃ v n, ((sPreempt false 3000001 .none).pkg 0).invs = [v, n] ∧ ivRestart v.bytes = false) ∧
    (∃ v n, ((sPreempt true 0 (.drain 0)).pkg 0).invs = [v, n] ∧ v.decision = .drain 0) := by
  refine ⟨?_, ?_, ?_, ⟨_, _, rfl, ?_, ?_, ?_, ?_, ?_⟩, ⟨_, _, rfl, ?_⟩, _, _, rfl, rfl⟩ <;> decide +kernel

/-- The team in another state. -/
def sTeamAs (f : Team → Team) (g : Seq → Seq) : State := (teamIs g).modPkg 0 fun p => { p with teams := p.teams.map f }

/-- The context stops for reason 2. -/
def stops (s : State) : State := s.modPkg 0 fun p => { p with ctxs := p.ctxs.map fun c => { c with stopping := some 2 } }

theorem witness_Preemption_image : (∃ t, (sTeam.pkg 0).team? 7 3 = some t ∧ t.st = .running ∧ stopReason (sTeam.pkg 0) t = none ∧ stopReason ((stops sTeam).pkg 0) t = some 2) ∧
    (let s := stops (sTeamAs (fun t => { t with st := .closing, reason := 2 }) fun q => { q with st := .halt })
     ∃ t, (s.pkg 0).team? 7 3 = some t ∧ t.st = .closing ∧ t.reason < 5 ∧ teamQuiet s 0 t = true ∧ saveOk (s.pkg 0) 0x1000000 (saveSize t.size) = true) ∧
    (let s := sTeamAs (fun t => { t with st := .closing, reason := 1 }) fun q => { q with copies := [theCopy 0 64] }
     ∃ t, (s.pkg 0).team? 7 3 = some t ∧ teamQuiet s 0 t = false) ∧
    (let s := (sTeamAs (fun t => { t with st := .saved, saved := [{}] }) id).modCore 0 0 fun c => { c with bound := none }
     ∃ t, (s.pkg 0).team? 7 3 = some t ∧ t.st = .saved ∧ stopReason { s.pkg 0 with invs := [] } t = none ∧ (s.pkg 0).susp = 0 ∧
       rectOk (s.pkg 0) true 1 5 7 t.rows t.cols = true ∧ t.holdsDie (s.pkg 0) = false ∧ (s.pkg 0).routerCopies = [] ∧
       (t.saved.all fun c => c.seqs.toList.all fun q => !q.barsResume) = true) := by
  refine ⟨⟨_, rfl, rfl, ?_, ?_⟩, ⟨_, rfl, rfl, ?_, ?_, ?_⟩, ⟨_, rfl, ?_⟩, _, rfl, rfl, ?_, rfl, ?_, ?_, rfl, ?_⟩ <;> decide +kernel

/-- Queue 0 in state st, VALID, with 4 entries at 0xC0000, WIX and RIX, and its slot's number; f changes what the package keeps of it. -/
def sQ (st wix rix slot : Nat) (f : CQueue → CQueue) : State := sTeam.modPkg 0 fun p =>
  { (((p.setBytes 0 (leBytes 4 wix ++ leBytes 4 rix)).setBytes 16 (leBytes 8 (2 ^ 63 + 2 * 2 ^ 56 + 0xC0000))).setBytes 48 (leBytes 1 st)).setBytes 52 (leBytes 1 slot) with
    queues := [f { num := 0 }] }

/-- Queue 4,095 asks, with PRIO 0. -/
def asks4095 (s : State) : State := s.modPkg 0 fun p =>
  { ((p.setBytes (128 * 4095) (leBytes 4 1)).setBytes (128 * 4095 + 16) (leBytes 8 (2 ^ 63))) with queues := p.queues ++ [{ num := 4095 }] }

/-- Queue 0 has spent its allowance of 1 nJ where n is 1000. -/
def spends (n : Nat) (s : State) : State := s.modPkg 0 fun p => (p.setBytes 28 (leBytes 4 1)).setBytes 56 (leBytes 8 n)

theorem witness_CommandQueues : let k := fun (s : State) => s.pkg 0
    ((k (sQ 0 0 0 0xFF id)).susp < 6 ∧ (k (sQ 0 0 0 0xFF id)).qstate 0 = 0 ∧ (k (sQ 4 0 0 0xFF id)).qstate 0 = 4 ∧ (k (sQ 3 0 0 63 id)).qstate 0 = 3) ∧
    (let s := sQ 1 5 0 63 id; (k s).qstate 0 = 1 ∧ (k s).wix 0 ≠ (k s).rix 0 ∧ (k s).qdepth 0 < ((k s).wix 0 + 2 ^ 32 - (k s).rix 0) % 2 ^ 32) ∧
    (let s := sQ 1 0 0xFFFFFFFF 63 id; (k s).wix 0 ≠ (k s).rix 0 ∧ fieldAt ((k s).bytes ((k s).qcbase 0 + 256 * ((k s).rix 0 % (k s).qdepth 0)) 256) 0 2 ≠ (k s).rix 0 % 65536) ∧
    (let s := sQ 1 4 0 63 id; ((k s).wix 0 + 2 ^ 32 - (k s).rix 0) % 2 ^ 32 ≤ (k s).qdepth 0 ∧
      fieldAt ((k s).bytes ((k s).qcbase 0 + 256 * ((k s).rix 0 % (k s).qdepth 0)) 256) 0 2 = (k s).rix 0 % 65536) ∧
    (let s := sQ 0 1 0 0xFF id; (k s).asks 0 = true ∧ (k s).susp = 0 ∧ ((List.range 64).filter fun n => !(k s).slotsUsed.contains n) ≠ []) ∧
    (let s := sQ 1 0 0 63 id; (k s).wix 0 = (k s).rix 0 ∧ ((k s).cq 0).unstarted = false ∧ ((k s).cq 0).busyAt + 10 * 3000 ≤ (advanceClock 30000 s).ck ∧ s.ck < ((k s).cq 0).busyAt + 10 * 3000) ∧
    (let s := asks4095 (sQ 1 0 0 63 id); ((k s).cq 0).mappedAt + 1000 * 3000 ≤ (advanceClock 3000000 s).ck ∧ (k s).asks 4095 = true ∧ (k s).qprio 0 ≤ (k s).qprio 4095) ∧
    ((k (spends 1000 (sQ 1 0 0 63 id))).exhausted 0 = true ∧ (k (spends 999 (sQ 1 0 0 63 id))).exhausted 0 = false) ∧
    (let s := sQ 2 0 0 0xFF fun c => { c with watch := some (0xC2000, 0) }; ((k s).cq 0).watch = some (0xC2000, 0) ∧ (0 : W64).toNat ≤ (k s).signal 0xC2000 ∧ (k s).signal 0xC2000 < (1 : W64).toNat) := by
  refine ⟨⟨?_, ?_, ?_, ?_⟩, ⟨?_, ?_, ?_⟩, ⟨?_, ?_⟩, ⟨?_, ?_⟩, ⟨?_, ?_, ?_⟩, ⟨?_, ?_, ?_, ?_⟩, ⟨?_, ?_, ?_⟩, ⟨?_, ?_⟩, ?_, ?_, ?_⟩ <;> decide +kernel
/-- Queue 0 is mapped, and its journal holds entry 0 with its opcode and payload, changed by f; g changes the package. -/
def sCmd (opc : Nat) (payload : List Byte) (f : JEntry → JEntry) (g : Package → Package) : State :=
  (sQ 1 1 1 63 fun c => { c with entries := [f { idx := 0, bytes := cmdEntry opc payload }] }).modPkg 0 g

/-- The entry may start, with a sound header. -/
def mayBegin (opc : Nat) (payload : List Byte) (g : Package → Package) : Bool :=
  let k := (sCmd opc payload id g).pkg 0
  (k.jentry? 0 0).any fun e => k.mayStart 0 0 && opcOf e.bytes == opc && badHeader e.bytes == none

/-- The entry in the journal. -/
def jEntry (opc : Nat) (payload : List Byte) : JEntry := { idx := 0, bytes := cmdEntry opc payload }

/-- A slot object of one word, with its digest. -/
def anObject : List Byte := leBytes 4 0x4F444C55 ++ leBytes 4 1 ++ leBytes 8 8 ++ List.replicate 48 0 ++
  leBytes 64 0x350f2c4d2dcc4b66a0fc6defa5c26e85afe08590497caa69b232868c955fc4a5a45a84aa240734057a7ec72eb827b3d1e2530639b82b2b95ada9a8f55bb34c32 ++
  List.replicate 128 0 ++ leBytes 8 0x0060042FFFFFFFFF

/-- The payload of a LOADSLOT of slot n from an object's bytes at 0xC4000. -/
def lsPayload (n : Nat) : List Byte := leBytes 8 n ++ leBytes 8 0xC4000 ++ leBytes 8 264

theorem witness_Commands_slots : mayBegin 0 [] id = true ∧
    (let k := (sCmd 0 [] (fun e => { e with bytes := e.bytes.take 3 ++ [4] ++ e.bytes.drop 4 }) id).pkg 0
     (k.jentry? 0 0).any (fun e => k.mayStart 0 0 && opcOf e.bytes == 0 && badHeader e.bytes == some 3) = true) ∧
    (mayBegin 1 (lsPayload 64) id = true ∧ (loadFault (sTeam.pkg 0) (cmdEntry 1 (lsPayload 64)) []).isSome = true) ∧
    (mayBegin 1 (lsPayload 63) id = true ∧ (loadFault (sTeam.pkg 0) (cmdEntry 1 (lsPayload 63)) anObject).isNone = true) ∧
    (mayBegin 2 (leBytes 1 64) id = true ∧ fieldAt (cmdEntry 2 (leBytes 1 64)) 64 1 = 64) ∧
    (mayBegin 2 (leBytes 1 0) id = true ∧ slotBusy (sTeam.pkg 0) 0 = true) ∧ (mayBegin 2 (leBytes 1 63) id = true ∧ slotBusy (sTeam.pkg 0) 63 = false) := by
  refine ⟨?_, ?_, ⟨?_, ?_⟩, ⟨?_, ?_⟩, ⟨?_, ?_⟩, ⟨?_, ?_⟩, ?_, ?_⟩ <;> decide +kernel

/-- The queue table of an invocation: four valid seed queues. -/
def ivImage : List Byte := (List.range 4).flatMap (fun n => leBytes 8 (qcw false n) ++ leBytes 8 0) ++ List.replicate 192 0

/-- The outcome of an INVOKE's first checks: its bad field, whether its context is live, its slot loaded and its team there. -/
def ivChecks (p : List Byte) (g : Package → Package) : Option Nat × Bool × Bool × Bool :=
  let k := (sCmd 3 p id g).pkg 0
  let b := cmdEntry 3 p
  (invokeBad b ivImage, (k.liveCtx? (ivDctx b)).isSome, (vget {} k.slots (ivSlot b)).loaded, (k.team? (ivDctx b) (ivVteam b)).isSome)

theorem witness_Commands_invoke : mayBegin 3 (ivPayload 4 1 1 2 0) id = true ∧ invokeBad (cmdEntry 3 (ivPayload 64 1 1 2 0)) ivImage = some 68 ∧
    ivChecks (ivPayload 4 1 1 2 0) (fun k => { k with ctxs := [] }) = (none, false, true, false) ∧
    ivChecks (ivPayload 4 1 1 2 0) (fun k => { k with slots := vmod k.slots 0 fun _ => {} }) = (none, true, false, false) ∧
    ivChecks (ivPayload 3 1 1 2 0) id = (none, true, true, true) ∧ ivChecks (ivPayload 4 1 1 2 0) id = (none, true, true, false) ∧
    (∃ t, baseBad 0 7 (cmdEntry 3 (ivPayload 4 1 1 2 0)) (List.range 16) sTeam = (.go none, t)) ∧
    (∃ t, baseBad 0 7 (cmdEntry 3 (ivPayload 4 1 1 2 0 ++ List.replicate 32 0 ++ leBytes 8 (slotVa + 4096))) (List.range 16) sTeam = (.go (some 0), t)) ∧
    rectSome (sTeam.pkg 0) false 2 6 8 = true ∧ rectSome { sTeam.pkg 0 with offline := true } false 2 1 1 = false := by
  refine ⟨?_, ?_, ?_, ?_, ?_, ?_, go_of ?_, go_of ?_, ?_, ?_⟩ <;> decide +kernel

/-- The payload of a WAIT for 1 at 0xC5000, and of a SIGNAL there. -/
def sgPayload (a : Nat) : List Byte := leBytes 8 a ++ leBytes 8 1

theorem witness_Commands_signals : mayBegin 4 (sgPayload 0xC5000) id = true ∧ signalWord 0xC5000 = true ∧ signalWord 0xC5001 = false ∧
    (let k := fun (n : Nat) (g : Package → Package) => (sCmd 4 (sgPayload 0xC5000) (fun e => { e with st := .started, step := n }) g).pkg 0
     (k 1 id).susp < 6 ∧ ((k 1 id).jentry? 0 0).any (fun e => e.st == .started && e.outcome.isNone && opcOf e.bytes == 4 && e.step % 8 == 1) = true ∧
      (k 1 id).signal 0xC5000 < 1 ∧ 1 ≤ (k 1 fun k => k.setBytes 0xC5000 [1]).signal 0xC5000 ∧ (k 3 id).wpend 0 = false ∧
      (k 3 fun k => k.setWpend 0 true).wpend 0 = true ∧ (k 4 id).qstate 0 = 1) ∧
    mayBegin 5 (sgPayload 0xC5000) id = true ∧ mayBegin 5 (sgPayload 0xC5001) id = true := by
  refine ⟨?_, ?_, ?_, ⟨?_, ?_, ?_, ?_, ?_, ?_, ?_⟩, ?_, ?_⟩ <;> decide +kernel

/-- A replay whose node 1 follows node 0, which is done with status st. -/
def nodes (st : Nat) : List Node := [{ bytes := cmdEntry 0 [], preds := [], st := .done, status := some (st, 0) }, { bytes := cmdEntry 0 [], preds := [0] }]

theorem witness_Commands_replay : (mayBegin 6 (leBytes 8 0xC6000) id = true ∧ (sTeam.pkg 0).num' 0xC6000 4 = 0) ∧
    (let k := (sCmd 6 (leBytes 8 0xC6000) id fun k => k.setBytes 0xC6000 (leBytes 4 4096)).pkg 0; k.mayStart 0 0 = true ∧ k.num' 0xC6000 4 = 4096) ∧
    (let k := fun (st : Nat) => (sCmd 6 (leBytes 8 0xC6000) (fun e => { e with st := .started, nodes := nodes st }) id).pkg 0
     (k 8).susp = 0 ∧ (k 8).exhausted 0 = false ∧ ∀ st ∈ [0, 8], ((k st).jentry? 0 0).any (fun e => e.st == .started &&
       (e.nodes[1]?).any fun d => d.st == .accepted && d.status.isNone && d.preds == [0] && (e.nodes[0]?).any fun x => x.st == .done && x.status == some (st, 0)) = true) ∧
    (∀ d ∈ ([{ bytes := [], preds := [], st := .done }] : List Node), d.st = .done) := by
  refine ⟨⟨?_, ?_⟩, ⟨?_, ?_⟩, ⟨?_, ?_, ?_⟩, ?_⟩ <;> decide +kernel

/-- The payload of a CTXNEW of DCTX 9 with n packages, whose table is at 0xC7000 and whose page tables' root is given. -/
def cxPayload (dctx n root : Nat) : List Byte := leBytes 8 (dctx + n * 2 ^ 16) ++ leBytes 8 0xC7000 ++ leBytes 8 root

theorem witness_Commands_contexts : let b := cmdEntry 7 (cxPayload 9 1 0xB0000)
    (mayBegin 7 (cxPayload 9 1 0xB0000) id = true ∧ fieldAt b 66 2 = 1 ∧ ctxTable (sTeam.pkg 0) b = [0] ∧ (sTeam.pkg 0).populated (fieldAt b 80 8) = true ∧
      fieldAt b 80 8 % 4096 = 0 ∧ (sTeam.pkg 0).ctx? 9 = none ∧ (List.range 64).filter (fun x => !(sTeam.pkg 0).ctxs.any fun c => c.lctx == x) ≠ []) ∧
    (mayBegin 7 (cxPayload 7 1 0xB0000) id = true ∧ ((sTeam.pkg 0).ctx? 7).isSome = true) ∧
    ((List.range 64).filter fun x => !((List.range 64).map fun n => ({ dctx := 100 + n, lctx := n, root := 0, vps := [] } : Context)).any fun c => c.lctx == x) = [] ∧
    (mayBegin 8 (cxPayload 9 0 0) id = true ∧ (sTeam.pkg 0).liveCtx? 9 = none) ∧ (mayBegin 8 (cxPayload 7 0 0) id = true ∧ ((sTeam.pkg 0).liveCtx? 7).isSome = true) ∧
    (let s := sCmd 8 (cxPayload 7 0 0) (fun e => { e with st := .started }) fun k => { k with teams := k.teams.map fun t => { t with st := .closing } }
     ∀ t ∈ (s.pkg 0).teams, teamQuiet s 0 t = true) ∧
    (mayBegin 9 (cxPayload 9 0 0) id = true ∧ mayBegin 9 (cxPayload 7 0 0) id = true) := by
  refine ⟨⟨?_, ?_, ?_, ?_, ?_, ?_, ?_⟩, ⟨?_, ?_⟩, ?_, ⟨?_, ?_⟩, ⟨?_, ?_⟩, ?_, ?_, ?_⟩ <;> decide +kernel

/-- The context's team is stopped, with its core's state in its image as f changed it; an invocation of it, ended or not. -/
def sStopped (ended : Bool) (f : Seq → Seq) : State := sCmd 9 (cxPayload 7 0 0) id fun k => { k with
  teams := k.teams.map fun t => { t with st := .stopped, saved := [({} : Core).modSeq 0 f] }
  ctxs := k.ctxs.map fun c => { c with stopping := some 2 }
  invs := [{ id := 0, q := 0, idx := 0, bytes := [], start := some 0, ended := ended }] }

theorem witness_Commands_resume : (∃ c, ((sStopped false id).pkg 0).liveCtx? 7 = some c ∧ c.stopping = some 2 ∧ (∀ t ∈ ((sStopped false id).pkg 0).teams, t.dctx = 7 → t.st = .stopped) ∧
      resumeBars (sStopped false id) 7 c = [] ∧ resumeBars (sStopped false fun q => { q with frec := some { code := 0x0D, resumable := false } }) 7 c ≠ [] ∧
      ((sStopped false id).pkg 0).invs.any (fun v => !v.ended) = true ∧ ((sStopped true id).pkg 0).invs.all (fun v => v.ended) = true) ∧
    (sTeam.pkg 0).ctxs.all (fun c => c.stopping.isNone) = true := by
  refine ⟨⟨_, rfl, rfl, ?_, ?_, ?_, ?_, ?_⟩, ?_⟩ <;> decide +kernel

/-- An invocation of context 7 that waits to be placed; and one of i0's team that has ended, with the sequencers of its core idle. -/
def sPlace : State := sTeam.modPkg 0 fun p => { p with invs := [{ id := 1, q := 0, idx := 1, bytes := cmdEntry 3 (ivPayload 4 1 1 2 0) }] }
@[inherit_doc sPlace] def sEnded : State := ((teamIs id).modPkg 0 fun p => { p with invs := [{ id := 0, q := 0, idx := 0, bytes := [], ended := true }] }).modCore 0 0 fun c =>
  { c with seqs := c.seqs.map fun q => { q with st := .idle } }

theorem witness_Commands_teams : (∃ v c, (sPlace.pkg 0).invs = [v] ∧ (sPlace.pkg 0).liveCtx? (ivDctx v.bytes) = some c ∧ v.start = none ∧ v.ended = false ∧
      (sPlace.pkg 0).exhausted v.q = false ∧ c.stopping = none ∧ (sPlace.pkg 0).team? c.dctx (ivVteam v.bytes) = none ∧ ivDie v.bytes = 2 ∧
      rectOk (sPlace.pkg 0) true 1 5 7 (ivRows v.bytes) (ivCols v.bytes) = true) ∧
    (∃ t, (sTeam.pkg 0).team? 7 3 = some t ∧ t.st = .running ∧ teamIdle sTeam 0 t = false) ∧
    (∃ t, (sEnded.pkg 0).team? 7 3 = some t ∧ t.st = .running ∧ teamIdle sEnded 0 t = true ∧ ∃ v ∈ (sEnded.pkg 0).invs, v.id = t.inv ∧ v.ended = true) := by
  refine ⟨⟨_, _, rfl, rfl, rfl, rfl, ?_, rfl, ?_, ?_, ?_⟩, ⟨_, rfl, rfl, ?_⟩, _, rfl, rfl, ?_, ?_⟩ <;> decide +kernel

theorem witness_Commands_ends : let k := fun (f : JEntry → JEntry) => (sCmd 6 [] (fun e => f { e with st := .started }) id).pkg 0
    ((k id).jentry? 0 0).any (fun e => e.st == .started && e.outcome.isNone) = true ∧ (k id).susp < 6 ∧
    ((k fun e => { e with outcome := some (0, 0) }).jentry? 0 0).any (fun e => e.nodes.isEmpty && e.outcome == some (0, 0)) = true ∧
    ((k fun e => { e with nodes := [{ bytes := [], preds := [], st := .done }] }).jentry? 0 0).any (fun e => opcOf e.bytes == 6 && e.outcome.isNone && e.nodes.all fun d => d.st == .done) = true := by
  decide +kernel

theorem witness_HostAndPower : let k := sTeam.pkg 0
    let host := (sTeam.modPkg 0 fun k => { k with settings := { k.settings with hostRanges := [(0xC000, 64)], qtbase := 0x10000 } }).pkg 0
    (k.susp < 6 ∧ k.periodAt + k.settings.period ≤ (advanceClock 30000000 sTeam).ck ∧ (advanceClock 29999999 sTeam).ck < k.periodAt + k.settings.period) ∧
    (host.hostRange 0xC000 64 = true ∧ host.hostRange 0xC000 65 = false ∧ host.populated 0xC03F = true ∧ 0xC03F < host.settings.qtbase ∧ host.hostRange 0xC03F 1 = true) ∧
    (∃ t ∈ k.teams, t.placed = true) ∧ (∀ t ∈ (State.reset.pkg 0).teams, t.placed = false) ∧
    (∃ w ∈ ((sWork 0 id).pkg 0).works.toList, w.st = .run ∨ w.st = .waittrig) ∧ (∀ w ∈ k.works.toList, w.st ≠ .run ∧ w.st ≠ .waittrig) ∧
    (let s : State := { sTeam.modPkg 0 (fun k => { k with susp := 5, suspAck := true }) with suspendAt := some 7 }
     s.suspendAt = some 7 ∧ ∀ k ∈ s.pkgs, k.susp = 5 ∧ k.suspAck = true) ∧
    ((∃ k ∈ sTeam.pkgs, k.suspAck = false) ∧ (∀ k ∈ sTeam.pkgs, k.susp ≠ 2)) := by
  refine ⟨⟨?_, ?_, ?_⟩, ⟨?_, ?_, ?_, ?_, ?_⟩, ?_, ?_, ?_, ?_, ⟨?_, ?_⟩, ?_, ?_⟩ <;> decide +kernel
/-- i0 runs with its program counter at c, in a loaded slot of two words of which its instruction cache holds the first line; its turn is next. -/
def sFetch (f : Seq → Seq) (line : List Byte) (t : Turn) : State :=
  { (seqIs f).modPkg 0 fun p => { p with
      slots := vmod p.slots 0 fun t => { t with loaded := true, codesz := 16 }
      cores := vmod p.cores 0 fun c => { c with icache := if line = [] then [] else [(0, 0, line ++ List.replicate (128 - line.length) 0)] } } with tape := [t] }

/-- Two words: an `addi`, and a `vadd`. -/
def codeA : List Byte := leBytes 8 0x0060042FFFFFFFFF ++ leBytes 8 vaddWord.toNat

theorem witness_StepRunsDecoded_front : let s := sFetch id codeA (.front i0)
    let c := s.core 0 0
    (s.tape = .front i0 :: [] ∧ s.has i0 = true ∧ (s.seq i0).st = .run ∧ teamStops s i0 = false ∧ (s.seq i0).deferred = [] ∧ (s.seq i0).wait = none) ∧
    (GoodTarget s i0 0 ∧ ¬ GoodTarget s i0 16 ∧ GoodTarget s i0 8) ∧ (s.pkg 0).blighted 0 = false ∧
    (c.codeWord? 0 0 = some 0x0060042FFFFFFFFF ∧ c.codeWord? 0 8 = some vaddWord ∧ ((sFetch id [] (.front i0)).core 0 0).codeWord? 0 0 = none) ∧
    (twoWord 0x0060042FFFFFFFFF = false ∧ decodeWord 0x0060042FFFFFFFFF 0 = .ok (.addi ⟨0, false⟩ 2 2 (-1)) ∧ (Raw.ofWord 0x0060042FFFFFFFFF).q = 0) ∧
    ((Raw.ofWord vaddWord).q ≠ 0 ∧ (decodeWord 0x0860042FFFFFFFFF 0).toOption = none) ∧
    ((sFetch (fun q => { q with deferred := [{ code := 1 }] }) codeA (.front i0)).seq i0).deferred ≠ [] := by
  refine ⟨⟨rfl, rfl, rfl, ?_, rfl, rfl⟩, ⟨⟨rfl, ?_, ?_, ?_⟩, fun h => absurd h.2.2.1 (by decide), ⟨rfl, ?_, ?_, ?_⟩⟩, ?_, ⟨?_, ?_, ?_⟩, ⟨?_, rfl, ?_⟩, ⟨?_, ?_⟩, ?_⟩ <;> decide +kernel

theorem witness_StepRunsDecoded_others : let s : State := { sVec [5] with tape := [.issue i0 .c] }
    let w : State := { sWork 0 (fun w => { w with steps := [0xF0000000] }) with tape := [.windrow 0 63] }
    (s.tape = .issue i0 .c :: [] ∧ s.has i0 = true ∧ (s.seq i0).st = .run ∧ teamStops s i0 = false ∧ (s.seq i0).headOf .c = some (x0 [5])) ∧
    (w.hasPkg 0 = true ∧ (w.work 0 63).st = .run ∧ (w.work 0 63).holding = false ∧ (w.work 0 63).runs.length < 4 ∧
      (w.work 0 63).steps[(w.work 0 63).pc]? = some 0xF0000000 ∧ decodeStep 0xF0000000 = some .halt) ∧
    encode (.seedPop i0) = .none := by
  refine ⟨⟨rfl, rfl, rfl, ?_, rfl⟩, ⟨?_, ?_, ?_, ?_, ?_, rfl⟩, rfl⟩ <;> decide +kernel

theorem witness_DecodeEncode : Instr.wf (.addi ⟨7, true⟩ 31 31 (-1)) = true ∧ Instr.wf (.movl ⟨7, true⟩ 31 0xFFFFFFFFFFFFFFFF) = true ∧ Instr.wf (.peer true (-1)) = true := by
  decide +kernel

theorem witness_StepKeepsMemoryForm : State.reset.memWf = true ∧ ({ State.reset with tape := [.tick 1] } : State).memWf = true := by decide +kernel

/-- 2^16 in FP16 is beyond the largest value, 2^-24 there is subnormal, and 3 and 2^-25 round, one to itself and one below the least normal. -/
theorem witness_FloatOperandsAndRounding_ofVal : Ty.isFloat .fp16 = true ∧
    (∃ y n d, (tyFmt .fp16).val (tyFmt .fp16).maxBits = .fin y n d ∧ dyCmp (roundAt .rne false 1 16 (16 + Nat.log2 1 - 10)).1 6 n d = .gt) ∧
    (0 < (roundAt .rne false 1 (-24) (-24)).1 ∧ (roundAt .rne false 1 (-24) (-24)).1 < 2 ^ (tyFmt .fp16).mb ∧ (tyFmt .fp16).w ∈ [16, 32, 64]) ∧
    (roundAt .rne false 1 (-25) (-24)).2 = false ∧ (roundAt .rne false 3 0 (-9)).2 = true := by
  refine ⟨rfl, ⟨_, _, _, rfl, ?_⟩, ?_, ?_, ?_⟩ <;> decide +kernel

/-- A window address of a class, VC, the bits below and an offset. -/
def winAddr (cls vc mid off : Nat) : W64 := BitVec.ofNat 64 (0x1FF * 2 ^ 48 + cls * 2 ^ 46 + vc * 2 ^ 40 + mid * 2 ^ 24 + off)

/-- The team has two cores. -/
def sPair : State := sTeam.modPkg 0 fun p => { p with teams := p.teams.map fun t => { t with cols := 2 } }

theorem witness_AddressChecks_windows :
    let cls := fun (a : W64) => a.toNat / 2 ^ 46 % 4
    let vc := fun (a : W64) => a.toNat / 2 ^ 40 % 64
    let off := fun (a : W64) => a.toNat % 2 ^ 23
    (cls (winAddr 1 0 0 0) = 1 ∧ cls (winAddr 3 0 0 0) = 3 ∧ isWindow (winAddr 3 0 0 0) = true) ∧
    (cls (winAddr 0 63 1 0) = 0 ∧ (winAddr 0 63 1 0).toNat / 2 ^ 24 % 2 ^ 16 ≠ 0) ∧
    (∃ t, (sPair.pkg 0).team? 7 3 = some t ∧ t.size = 2 ∧ vc (winAddr 0 2 0 0) = 2 ∧ vc (winAddr 0 1 0 0) = 1 ∧ (sPair.seq i0).vcore = 0) ∧
    ((winAddr 0 63 0 0xB00000).getLsbD 23 = true ∧ off (winAddr 0 63 0 0x82FFF8) = 0x2FFF8 ∧ off (winAddr 0 63 0 0x830000) = 0x30000) ∧
    ((winAddr 0 63 0 0x40000).getLsbD 23 = false ∧ (sPair.core 0 0).carve.toNat % 2 ^ 8 * 65536 = 0x40000) ∧
    (cls (winAddr 2 0 (3 * 2 ^ 10) 0) = 2 ∧ (winAddr 2 0 (3 * 2 ^ 10) 0).toNat / 2 ^ 34 % 64 = 3 ∧
      ∃ cx, (sPair.pkg 0).ctx? 7 = some cx ∧ cx.vps[0]? = some (0, 0) ∧ cx.vps[1]? = none) ∧
    ((sPair.pkg 0).membersOf? 7 3 = some 2 ∧ (sPair.pkg 0).membersOf? 7 4 = none) := by
  refine ⟨?_, ?_, ⟨_, rfl, ?_⟩, ?_, ?_, ⟨?_, ?_, _, rfl, ?_⟩, ?_⟩ <;> decide +kernel

/-- An atomic's address: a window word, an odd byte of one, and no window word. -/
theorem witness_AddressChecks_atomics : resolveWindow i0 ownWin 1 .atomic sTeam = .ok (.win 0 0 0) ∧ (ownWin + 4).toNat % 8 ≠ 0 ∧
    resolveWindow i0 (winAddr 1 0 0 0) 1 .atomic sTeam = .fault { code := 0x07, addr := winAddr 1 0 0 0 } := by decide +kernel

/-- The tables from 0xB0000 on lead to the one at 0xB4000, whose entry for the page at 0x91000 is e. -/
def sWalk (e : Nat) : State := (mapped sTeam).modPkg 0 fun p =>
  ((p.setBytes 0xB2000 (leBytes 8 0xB3001)).setBytes 0xB3000 (leBytes 8 0xB4001)).setBytes 0xB4488 (leBytes 8 e)

/-- A step of that walk. -/
theorem walk_step {e l t : Nat} {w : WalkEnd} (h : l ∈ [1, 2, 3, 4]) (g : t ∈ [0xB0000, 0xB1000, 0xB2000, 0xB3000])
    (b : ((sWalk e).pkg 0).blighted t = false ∧ entryIn ((sWalk e).pkg 0) 0x91000 (l + 1) t = BitVec.ofNat 64 (t + 0x1001))
    (r : Walks ((sWalk e).pkg 0) 0x91000 l (t + 0x1000) w) : Walks ((sWalk e).pkg 0) 0x91000 (l + 1) t w := by
  simp only [List.mem_cons, List.not_mem_nil, or_false] at h g
  have nb : ¬ entryBad (l + 1) (BitVec.ofNat 64 (t + 0x1001)) := by
    unfold entryBad
    rcases g with rfl | rfl | rfl | rfl <;> rcases h with rfl | rfl | rfl | rfl <;> decide
  refine .next b.1 (by rw [b.2]; rcases g with rfl | rfl | rfl | rfl <;> decide) (b.2 ▸ nb)
    (by rw [b.2]; rcases g with rfl | rfl | rfl | rfl <;> decide) ?_ (by rw [b.2]; rcases g with rfl | rfl | rfl | rfl <;> exact r)
  rw [b.2]; unfold Package.populated
  rcases g with rfl | rfl | rfl | rfl <;> simp

/-- The whole walk, from its last step. -/
theorem walk_of {e : Nat} {w : WalkEnd}
    (b : ∀ x ∈ [(5, 0xB0000), (4, 0xB1000), (3, 0xB2000), (2, 0xB3000)],
      ((sWalk e).pkg 0).blighted x.2 = false ∧ entryIn ((sWalk e).pkg 0) 0x91000 x.1 x.2 = BitVec.ofNat 64 (x.2 + 0x1001))
    (r : Walks ((sWalk e).pkg 0) 0x91000 1 0xB4000 w) : Walks ((sWalk e).pkg 0) 0x91000 5 0xB0000 w :=
  walk_step (by simp) (by simp) (b (5, 0xB0000) (by simp)) (walk_step (by simp) (by simp) (b (4, 0xB1000) (by simp))
    (walk_step (by simp) (by simp) (b (3, 0xB2000) (by simp)) (walk_step (by simp) (by simp) (b (2, 0xB3000) (by simp)) r)))

/-- A leaf, one with CRIT, an invalid entry, and one without LEAF at level 1. -/
theorem witness_AddressChecks_walks :
    (∀ e ∈ [0x91007, 0x8000000000091007, 0, 0x91001], ∃ cx, ((sWalk e).pkg 0).ctx? 7 = some cx ∧ cx.root = 0xB0000 ∧ cx.lctx = 0 ∧
      ((sWalk e).pkg 0).tlb = [] ∧ ((sWalk e).pkg 0).walk = [] ∧ ((sWalk e).pkg 0).crit = []) ∧
    (Walks ((sWalk 0x91007).pkg 0) 0x91000 5 0xB0000 (.leaf 0x91007 1 0xB4488) ∧ (0x91007#64).getLsbD 63 = false ∧ (0x91007#64).getLsbD 11 = false) ∧
    (Walks ((sWalk 0x8000000000091007).pkg 0) 0x91000 5 0xB0000 (.leaf 0x8000000000091007 1 0xB4488) ∧ (0x8000000000091007#64).getLsbD 63 = true) ∧
    Walks ((sWalk 0).pkg 0) 0x91000 5 0xB0000 (.fault 1 1) ∧ Walks ((sWalk 0x91001).pkg 0) 0x91000 5 0xB0000 (.fault 2 1) := by
  have leaf : ∀ e : Nat, entryIn ((sWalk e).pkg 0) 0x91000 1 0xB4000 = BitVec.ofNat 64 e ∧ ((sWalk e).pkg 0).blighted 0xB4000 = false →
      (BitVec.ofNat 64 e).getLsbD 0 = true → ¬ entryBad 1 (BitVec.ofNat 64 e) → (BitVec.ofNat 64 e).getLsbD 2 = true →
      Walks ((sWalk e).pkg 0) 0x91000 1 0xB4000 (.leaf (BitVec.ofNat 64 e) 1 0xB4488) := fun e h a b c => by
    have w := Walks.leaf (k := (sWalk e).pkg 0) (va := 0x91000) (l := 1) (t := 0xB4000) (by decide) h.2 (by rw [h.1]; exact a)
      (by rw [h.1]; exact b) (by rw [h.1]; exact c)
    rw [h.1] at w; exact w
  refine ⟨?_, ⟨walk_of ?_ (leaf _ ?_ rfl ?_ rfl), rfl, rfl⟩, ⟨walk_of ?_ (leaf _ ?_ rfl ?_ rfl), rfl⟩, walk_of ?_ (.invalid (by decide) ?_ ?_),
    walk_of ?_ (.reserved (by decide) ?_ ?_ ?_)⟩
  · intro e h
    simp only [List.mem_cons, List.not_mem_nil, or_false] at h
    rcases h with rfl | rfl | rfl | rfl <;> exact ⟨_, rfl, rfl, rfl, rfl, rfl, rfl⟩
  all_goals first | (unfold entryBad; decide +kernel) | decide +kernel

/-- The same page, whose CRIT leaf i0 has read at ck 0; 64 ck later it is to be read again. -/
def sCrit (e : Nat) : State := (sWalk 0x8000000000091007).modPkg 0 fun p =>
  { p with crit := [{ who := i0, lctx := 0, va := 0x91000, addr := 0xB4488, lvl := 1, entry := BitVec.ofNat 64 e, ck := 0 }] }

theorem witness_AddressChecks_crit :
    (∃ c, ((sCrit 0).pkg 0).crit = [c] ∧ c.who = i0 ∧ c.va = 0x91000 ∧ (sCrit 0).ck < c.ck + 64 ∧ c.ck + 64 ≤ 64 ∧
      BitVec.ofNat 64 (((sCrit 0).pkg 0).num' c.addr 8) ≠ c.entry) ∧
    (∃ c, ((sCrit 0x8000000000091007).pkg 0).crit = [c] ∧ BitVec.ofNat 64 (((sCrit 0x8000000000091007).pkg 0).num' c.addr 8) = c.entry ∧ 1 ≤ c.lvl ∧
      ¬ entryBad c.lvl c.entry ∧ c.entry.getLsbD 2 = true ∧ c.entry.getLsbD 11 = false) ∧
    (let x := sTeam.pkg 0; let t := vget {} x.slots 0
     (0x01FE000000000000 / 2 ^ 48 = 0x1FE ∧ 0x01FE000000000000 / 2 ^ 40 % 2 ^ 8 = 0 ∧ 0x01FE400000000000 / 2 ^ 40 % 2 ^ 8 = 64) ∧ t.loaded = true ∧
      (vget {} x.slots 1).loaded = false ∧ (4096 + 4095) / 4096 * 4096 + t.wlen = 4096 ∧ t.codesz = 4096 ∧ t.base % 4096 = 0 ∧ t.base + 4088 < 2 ^ 44 ∧
      x.populated (t.base + 4088) = true) := by
  refine ⟨⟨_, rfl, ?_⟩, ⟨_, rfl, ?_, ?_, by unfold entryBad; decide, ?_⟩, ?_⟩ <;> decide +kernel

theorem witness_LoadData_good : ∃ e, (sPending.seq i0).fe[0]? = some e ∧ e.bad = false ∧ e.size = 8 := ⟨_, rfl, rfl, rfl⟩

/-- The atomic's address names a word of the other core; `n` requests are outstanding. -/
def sRemote (n : Nat) : State := sPair.modSeq i0 fun q =>
  { q.setS 2 (winAddr 0 1 0 0x800000) with
    out := List.replicate n { req := { who := i0, id := {}, serial := some 0, dpkg := 0, op := .joinDec, place := .mem 0 0 } } }

theorem witness_AtomicWords_places : (∀ n ∈ [0, 256], Ready (sRemote n) g0 [6, 2, 7, 8] ∧
      resolve i0 (((sRemote n).seq i0).sr 2) 8 .atomic (sRemote n) = (.ok (.win 0 1 0), sRemote n) ∧ ((sRemote n).seq i0).fe = []) ∧
    (∀ d ∈ [(0 : Reg), 6], ∀ n ∈ [0, 256], (issueReq i0 (.atomic .cas 0 0) (.win 0 1 0) 0 0 (if d = 0 then .posted else .front) true true d (sRemote n)).isSome =
      (n == 0)) ∧
    (∃ e, ((teamIs fun q => { q with fe := [{ id := 0, store := true, size := 4, va := ownWin, place := .win 0 0 0 }] }).seq i0).fe = [e] ∧
      sameBytes sTeam i0 e.size 8 e.place (.win 0 0 0) = true ∧ sameBytes sTeam i0 e.size 8 e.place (.win 0 0 8) = false) := by
  refine ⟨fun n h => ?_, ?_, _, rfl, ?_⟩
  · simp only [List.mem_cons, List.not_mem_nil, or_false] at h
    rcases h with rfl | rfl <;> exact ⟨ready_of (by decide +kernel), rfl, rfl⟩
  all_goals decide +kernel

/-- The team's and the package's barriers 0 have one of two arrivals to come. -/
def sBars (f : Seq → Seq) : State := (teamIs f).modPkg 0 fun p =>
  { p with teams := p.teams.map fun t => { t with bars := vmod t.bars 0 fun b => { b with expect := 2 } }
           ctxs := p.ctxs.map fun c => { c with pkgBars := cellPut {} c.pkgBars 0 { expect := 2 } } }

theorem witness_BarrierWords_scopes : Ready (sBars id) g0 [] ∧ ((sBars id).seq i0).releaseDone = true ∧ ((sBars id).seq i0).acquireDone = true ∧
    ((sBars id).seq i0).flip = 0 ∧ ((sBars id).seq i0).atBar = none ∧
    (∃ t, ((sBars id).pkg 0).team? 7 3 = some t ∧ ∀ k ∈ [Arrive.plain, .join, .drop], (((vget {} t.bars 0).arrive ⟨{}, k, 0⟩).map (·.2)) = some []) ∧
    (∃ c, ((sBars id).pkg 0).ctx? 7 = some c ∧ ∀ k ∈ [Arrive.plain, .join, .drop], (((cellGet {} c.pkgBars 0).arrive ⟨{}, k, 0⟩).map (·.2)) = some []) ∧
    (Ready sBusy g0 [] ∧ (sBusy.seq i0).releaseDone = false ∧ (sBusy.seq i0).flip.getLsbD (scopeBit .core) = false ∧ (sBusy.seq i0).atBar = none) := by
  refine ⟨ready_of ?_, ?_, ?_, ?_, ?_, ⟨_, rfl, ?_⟩, ⟨_, rfl, ?_⟩, ready_of ?_, ?_⟩ <;> decide +kernel

/-- The waits for queues and for tokens with nothing to wait for; `tfence` with and without an enabled flag; a reap of an idle sequencer; and one of
a busy one, of which all other waits of the clause are alike. -/
theorem witness_WaitEnds_queues : (∀ w ∈ [Wait.qfence true true true true, .tfence, .tokset 0x8888, .tokset 9, .reap],
      teamStops (sWait w) i0 = false ∧ ((sWait w).seq i0).frontDone = true ∧ ((sWait w).seq i0).allDone .l = true ∧
      ((sWait w).seq i0).allDone .c = true ∧ ((sWait w).seq i0).allDone .s = true ∧ ((sWait w).seq i0).drained = true ∧
      ((sWait w).seq i0).copies = [] ∧ ((sWait w).seq i0).sr 3 = 0 ∧ ((sWait w).seq i0).fps &&& (((sWait w).seq i0).fpc >>> 8) &&& 0x1F = 0) ∧
    (let s := teamIs fun q => { q with wait := some .tfence, fps := 0x10, fpc := 0x1000 }
     teamStops s i0 = false ∧ (s.seq i0).allDone .c = true ∧ (s.seq i0).fps &&& ((s.seq i0).fpc >>> 8) &&& 0x1F ≠ 0) ∧
    (let s := sBusy.modSeq i0 fun q => { q with wait := some .reap }
     teamStops s i0 = false ∧ s.has i0 = true ∧ (s.seq i0).st = .run ∧ (s.seq i0).drained = false) := by decide +kernel

/-- `sow` waits until ck 64, or for tokens that its S queue still holds back. -/
theorem witness_SowWords_waits : (let s := (sSow false 11).modSeq i0 fun q => { q with wait := some (.sow 64) }
      Ready s g0 [0, 4, 5, 6, 7] ∧ (s.seq i0).sr 0 = 0 ∧ s.ck < 64 ∧ (s.seq i0).wait = some (.sow 64) ∧ s.ck + 64 = 64) ∧
    (let s := sBusy; (s.seq i0).sr 0 = 0 ∧ (s.seq i0).sowReady = false ∧ Ready s g0 [0, 4, 5, 6, 7]) := by
  refine ⟨⟨ready_of ?_, ?_⟩, ?_, ?_, ready_of ?_⟩ <;> decide +kernel

/-- `reap` with a join at byte 64 of the own window, of COUNT n; with one of the other core's; and with an address that is no join. -/
def sReap (a : W64) (n : Nat) (f : Seq → Seq := id) : State := sJoin n (recAt 4) (sPair.modSeq i0 fun q => f (q.setS 3 a))

theorem witness_ReapWords_joins :
    let drains := fun (s : State) => (s.modCore 0 0 fun c => c.dropLease 0).modSeq i0 fun q =>
      { q with st := .drain, wait := some .reap, lc := 0, cl := 0, cs := 0, sc := 0 }
    (∀ x ∈ [(winAddr 0 63 0 0x800040, 2), (winAddr 0 63 0 0x800040, 1), (winAddr 0 1 0 0x800040, 2), (ownSpad, 2)],
      ((sReap x.1 x.2).seq i0).drained = true ∧ ((sReap x.1 x.2).seq i0).copies = [] ∧ ((sReap x.1 x.2).seq i0).sr 3 ≠ 0 ∧
      ((sReap x.1 x.2).seq i0).releaseDone = true) ∧
    (let s := sReap (winAddr 0 63 0 0x800040) 2
     (resolve i0 (winAddr 0 63 0 0x800040) 64 .atomic (drains s)).1 = .ok (.win 0 0 64) ∧
      (joinDecrement 0 0 64 (s.seq i0).ident (winAddr 0 63 0 0x800040) (s.seq i0).pc (drains s)).isSome = true) ∧
    (let s := withQueues false (fun _ => 16) (sReap (winAddr 0 63 0 0x800040) 1)
     joinDecrement 0 0 64 (s.seq i0).ident (winAddr 0 63 0 0x800040) (s.seq i0).pc (drains s) = none) ∧
    (let s := sReap (winAddr 0 1 0 0x800040) 2
     (resolve i0 (winAddr 0 1 0 0x800040) 64 .atomic (drains s)).1 = .ok (.win 0 1 64) ∧
      (issueReq i0 .joinDec (.win 0 1 64) (winAddr 0 1 0 0x800040) (s.seq i0).pc .posted true true 0 (drains s)).isSome = true) ∧
    (resolve i0 ownSpad 64 .atomic (drains (sReap ownSpad 2))).1 = .fault { code := 5, addr := ownSpad } ∧
    (let s := sReap (winAddr 0 63 0 0x800040) 2 fun q => { q with fe := [{ id := 0, store := true, size := 8, va := 0, place := .mem 0 0 }] }
     (s.seq i0).drained = true ∧ (s.seq i0).copies = [] ∧ (s.seq i0).releaseDone = false) ∧
    (let s := teamIs fun q => { q with copies := [{ id := 0, q := .l, word := 0, caddr := 0, ops := [], pat := [] }] }
     (s.seq i0).drained = true ∧ (s.seq i0).copies ≠ []) := by decide +kernel

/-- The root block of core 0 of team 3 is the root join of an invocation that no CTXRESUME waits for. -/
theorem witness_JoinDecrements_root :
    let s := (sTeam.modPkg 0 fun p => { p with invs := [{ id := 0, q := 0, idx := 0, bytes := [], start := some 0 }] }).modCore 0 0 fun c =>
      c.setWin 0x2FFC0 (leBytes 8 1)
    (s.core 0 0).winWord 0x2FFC0 = 1 ∧ ∃ x, s.rootJoin? 0 0 0x2FFC0 = some x ∧ x.2.resumer = none := ⟨by decide +kernel, _, rfl, rfl⟩

/-- The records of the queues were pushed in this ck. -/
theorem witness_SeedPop_none : let s := sSeeds.modCore 0 0 fun c => { c with pushed := Vector.replicate 4 (65536, 1) }
    mayPop s i0 = true ∧ s.has i0 = true ∧ ∀ m < 4, (s.core 0 0).occupancy m -
      (if (vget (0, 0) (s.core 0 0).pushed m).1 = s.ck then (vget (0, 0) (s.core 0 0).pushed m).2 else 0) = 0 := by decide +kernel

/-- A checkpoint has cut an `mslice` of the second sequencer; and the team closes. -/
theorem witness_Leases_more : (let k := ((sLease none).modSeq ⟨0, 0, 1⟩ fun q => { q with msrec := some { entry := 0, fmt := ⟨0, 0, 0⟩ } }).core 0 0
      k.leaseChoice = some 1 ∧ k.cutSlice = some 1) ∧ ((sLease none).core 0 0).cutSlice = none ∧ teamStops (sLease none) ⟨0, 0, 0⟩ = false ∧
    teamStops ((sLease none).modPkg 0 fun p => { p with teams := p.teams.map fun t => { t with st := .closing } }) ⟨0, 0, 0⟩ = true := by decide +kernel

/-- A load to 0x95000 is pending. -/
theorem witness_CarveAndMaintenance_blight : readsFrame sTeam 0 0x95000 = [] ∧
    readsFrame (teamIs fun q => { q with fe := [{ id := 0, store := false, size := 8, va := 0x95000, place := .mem 0 0x95000 }] }) 0 0x95000 ≠ [] ∧
    (sTeam.pkg 0).populated 0x95000 = true ∧ 0x95 < 0xC000000 := by decide +kernel

/-- A base that is odd, one just past the direct region and one whose second chunk is, under k0. -/
theorem witness_VectorMemory_faults : (∀ ops ∈ [[(1 : W64), 64], [64, 1], [0x3FFC0, 64], [0x40000]], Issues (sVec ops) .c h0 (x0 ops)) ∧
    directEnd ((sVec []).core 0 0).carve = 0x40000 ∧
    (let chunks := fun (a b : Int) => ((List.range 8).filter fun j => (List.range 16).any fun p => (((sVec []).seq i0).kr 0).getLsbD (j * 16 + p)).map
        fun (j : Nat) => (a + j * b, 64)
     let out := fun (acc : List (Int × Nat)) => acc.find? fun r => decide (r.1 < 0) || decide (0x40000 < r.1.toNat + r.2)
     chunks 1 64 ≠ [] ∧ out (chunks 0x3FFC0 64) = some (0x40000, 64)) ∧
    (let elements := fun (a : Nat) => ((List.range 128).filter (((sVec []).seq i0).kr 0).getLsbD).map fun e =>
        (((a + velem 32 (((sVec []).seq i0).vr 2) e * 4 : Nat) : Int), 4)
     let out := fun (acc : List (Int × Nat)) => acc.find? fun r => decide (r.1 < 0) || decide (0x40000 < r.1.toNat + r.2)
     elements 1 ≠ [] ∧ out (elements 0x40000) = some (0x40000, 4)) := by
  refine ⟨fun ops h => ?_, ?_, ?_, ?_⟩
  · simp only [List.mem_cons, List.not_mem_nil, or_false] at h
    rcases h with rfl | rfl | rfl | rfl <;> exact issues_sVec _
  all_goals decide +kernel

/-- Values with and without a leading bit, digits within their range, numbers and others, lines that can be split and cannot, and a pass that is
and is not the last of its diagonal. -/
theorem witness_MatrixCommands_values : TopOf 3 [.fin false 5 1, .fin true 0 9] ∧ (∀ top, ¬ TopOf top [.fin false 0 0]) ∧
    ((0 : Int) ≤ 0 ∧ (0 : Int) ≤ 7 - 7 * 1 ∧ 3 * 2 ^ (0 - 0 : Int).toNat < 2 ^ (7 - 0 : Int).toNat) ∧
    ((tyFmt .fp32).val 0x3F800000).Number ∧ ¬ ((tyFmt .fp32).val 0x7F800000).Number ∧ (∃ v ∈ [Val.nan], ¬ v.Number) ∧ (∀ v ∈ [Val.fin false 1 0], v.Number) ∧
    (let r : MsRec := { entry := 0, fmt := ⟨fw32, 0, 0⟩, nextM := 3, nextI := 1 }; r.nextI + 1 < r.nextM ∧ r.nextM ≤ { r with nextI := 2 }.nextI + 1 ∧
      28 + (if r.fmt.at_ = 21 then 2 else 4) ≤ 30 ∧ r.fmt.at_ = 21) := by
  refine ⟨⟨⟨false, 5, 1, by simp, by decide, by decide⟩, ?_⟩, ?_, by decide, ⟨_, _, _, rfl⟩, ?_, ⟨_, List.mem_cons_self .., nofun⟩, ?_, by decide⟩
  · intro n m e h g
    simp only [List.mem_cons, List.not_mem_nil, or_false, Val.fin.injEq] at h
    rcases h with ⟨-, rfl, rfl⟩ | ⟨-, rfl, -⟩
    · decide
    · exact absurd rfl g
  · rintro top ⟨⟨n, m, e, h, g, -⟩, -⟩
    simp only [List.mem_cons, List.not_mem_nil, or_false, Val.fin.injEq] at h
    exact g h.2.1
  · have h : (tyFmt .fp32).val 0x7F800000 = .inf false := by decide
    rw [h]; nofun
  · intro v h
    rw [List.mem_singleton.mp h]; exact ⟨_, _, _, rfl⟩

/-- A copy within the own scratchpad, and a `cget` whose source lies in package 1. -/
def sGet (w : W64) (src dst : Nat) (f : Copy → Copy) : State := (sPiece w (patRec src dst 64) f).modPkg 0 fun p =>
  { p.setBytes 0xB2008 (leBytes 8 (2 ^ 60 + 2 ^ 50 + 7)) with ctxs := p.ctxs.map fun c => { c with vps := [(0, 0), (1, 0)] } }

theorem witness_CopyPieces_more :
    (let s := sGet cpyWord (ownSpad.toNat + 64) ownSpad.toNat id
     copyKind cpyWord = .cpy ∧ (∃ t, pieceSide i0 (srcKind .cpy) .copySrc (ownSpad + 64) 64 s = (.go (.spad 0 0 64), t)) ∧
      ∃ u, pieceSide i0 (dstKind .cpy) .copyDst ownSpad 64 (pieceSide i0 (srcKind .cpy) .copySrc (ownSpad + 64) 64 s).2 = (.go (.spad 0 0 0), u)) ∧
    (let w : W64 := 0x4010000000000000
     let s := sGet w 0x40000000 ownSpad.toNat id
     let t := (pieceSide i0 (srcKind .cget) .copySrc 0x40000000 64 s).2
     let u := (pieceSide i0 (dstKind .cget) .copyDst ownSpad 64 t).2
     copyKind w = .cget ∧ (∃ t, pieceSide i0 (srcKind .cget) .copySrc 0x40000000 64 s = (.go (.mem 1 0), t)) ∧
      (∃ u, pieceSide i0 (dstKind .cget) .copyDst ownSpad 64 t = (.go (.spad 0 0 0), u)) ∧
      ∃ k ∈ (s.seq i0).copies, k.far = none ∧ (issueReq i0 (.get 64) (.mem 1 0) 0x40000000 k.caddr (.piece k.id 0) (k.counter = 0) false 0 u).isSome = true) ∧
    (∃ k ∈ ((sGet 0x4010000000000000 0x40000000 ownSpad.toNat fun c => { c with far := some 2 }).seq i0).copies, k.far = some 2 ∧ 2 ≠ 1) := by
  refine ⟨⟨?_, go_of ?_, go_of ?_⟩, ⟨?_, go_of ?_, go_of ?_, ?_⟩, ?_⟩ <;> decide +kernel

/-- A packet of the next FSEQ, one behind it in the reorder buffer that is not and that is past its time, and a stale one. -/
def sOrder (sent : Nat) : State :=
  { advanceClock 144000 sTeam with
    net := [{ pkt0 (.req (req0 (.store 8 1) (some 0))) with sent := 144000 }, { pkt0 (.req (req0 (.store 8 1) (some 1))) with id := 5, held := true, sent := sent }] }

theorem witness_RemoteEvents_order : (sOrder 144000).hasPkg 0 = true ∧ (∃ x, (sOrder 144000).net[0]? = some x ∧ x.at_ = x.dst ∧ x.held = false ∧
      (sOrder 144000).ck < x.sent + 48 * 3000 ∧ (req0 (.store 8 1) (some 0)).fseq = some ({ dctx := 7, src := 0 } : FlowRx).next) ∧
    (let turn := fun (y : Packet) => y.held && y.dst == 0 && y.src == 0 && (match y.body with | .req z => z.id.dctx == 7 && z.fseq == some 1 | _ => false)
     (∀ n ∈ [0, 144000], ((sOrder n).net.find? turn).any (fun y => y.id == 5 && y.sent == n) = true) ∧ 0 + 48 * 3000 ≤ (sOrder 0).ck ∧
      (sOrder 144000).ck < 144000 + 48 * 3000 ∧ (sTeam.net.find? turn) = none) ∧
    (fseqBefore 65535 0 = true ∧ (1 : Nat) ≠ (sTeam.pkg 0).inc) := by
  refine ⟨?_, ⟨_, rfl, ?_, ?_, ?_, ?_⟩, ?_, ?_⟩ <;> decide +kernel

/-- A barrier unit's request unanswered for 64 µs, and a request that i0 has sent as an entry, a word and without waiting. -/
theorem witness_RemoteEvents_units : (let s := advanceClock 192000 (sTeam.modPkg 0 fun p => { p with unitOut := [{ req := req0 .joinDec none }] })
      ∃ o, (s.pkg 0).unitOut[0]? = some o ∧ o.resendAt = none ∧ o.lastSend + 64 * 3000 ≤ s.ck ∧ o.attempts < 16) ∧
    ({ req0 (.load 8) none with origin := .entry .s 1 } : Req).origin = .entry .s 1 ∧ ((sWait (.reply 6 none none)).seq i0).wait = some (.reply 6 none none) ∧
    (({ req0 .joinDec none with origin := .posted } : Req).origin = .posted ∧ ∀ ws, Op.joinDec ≠ .push ws) :=
  ⟨⟨_, rfl, rfl, by decide +kernel, by decide⟩, rfl, rfl, rfl, nofun⟩

/-- A request of i0's with serial 6 to its own core, whose queues are valid and hold n records, with a join of COUNT c at byte 64. -/
def mOp (op : Op) : MeshReq := ⟨{ who := i0, id := ⟨7, 0, 3, 0⟩, serial := some 6, dpkg := 0, ack := 4, op := op, place := .vwin 0 3 0 64 }, 0, 0⟩
@[inherit_doc mOp] def sOwner (n c : Nat) (rs : List Reply) : State :=
  (sJoin c (recAt 4) (withQueues false (fun _ => n) sTeam)).modCore 0 0 fun k => { k with replies := rs }

theorem witness_ExactlyOnce_more :
    (∀ op ∈ [Op.count 8, .sig true 9, .sig false 9, .joinDec, .push (recAt 4), .push (recAt 8), .put [1] (some (.vwin 0 3 0 64)) false],
      ((mOp op).req.serial = some 6 ∧ (mOp op).req.inc = ((sOwner 0 2 []).pkg 0).inc) ∧ teamServes (sOwner 0 2 []) 0 (mOp op) (ownerPlace (mOp op).req) = true ∧
      teamServes (sOwner 0 2 []) 0 (mOp op) (mOp op).req.place = true ∧ hereOf (sOwner 0 2 []) 0 (mOp op).req (ownerPlace (mOp op).req) = some (.win 0 0 64)) ∧
    (∀ op ∈ [Op.count 8, .sig true 9, .joinDec], ownerFault (sOwner 0 2 []) 0 op (.win 0 0 64) = none) ∧ 0 < 4096 ∧
    (joinDecrement 0 0 64 ⟨7, 0, 3, 0⟩ 0 0 (sOwner 0 2 [])).isSome = true ∧ (joinDecrement 0 0 64 ⟨7, 0, 3, 0⟩ 0 0 (sOwner 16 1 [])).isNone = true ∧
    (recordBad (sOwner 0 2 []) 0 0 (recAt 8) = true ∧ recordBad (sOwner 0 2 []) 0 0 (recAt 4) = false ∧ ((sOwner 0 2 []).core 0 0).queueBad 2 = false ∧
      (sTeam.core 0 0).queueBad 2 = true ∧ ((sOwner 0 2 []).core 0 0).queueFull 2 false = false ∧ ((sOwner 16 2 []).core 0 0).queueFull 2 false = true) ∧
    (let r := { (mOp (.put [1] (some (.vwin 0 3 0 64)) false)).req with place := .vspad 0 3 0 0 }
     64 + 8 ≤ 0x30000 ∧ hereOf (sOwner 0 2 []) 0 r r.place = some (.spad 0 0 0) ∧ ownerFault (sOwner 0 2 []) 0 r.op (.spad 0 0 0) = none ∧
      placeWaking (sOwner 0 2 []) 1 (.spad 0 0 0) = false ∧ (ownerFault (sOwner 0 2 []) 0 r.op (.spad 0 0 0x40000)).isSome = true) := by
  decide +kernel

theorem witness_LinksAndRouting_flits : let f : Flit := ⟨5, 4, true⟩
    let s := sLinks (fun t => { t with errs := List.replicate 1025 (0, 0) }) (fun t => { t with toSend := [f] }) (pktTo 1 0)
    ((s.pkg 1).port 22).change = false ∧ ((s.pkg 1).port 22).toSend = [f] ∧ (∃ n < 8, ((s.pkg 1).port 22).stripe.getLsbD n = true) ∧
    1024 < (((s.pkg 0).port 0).errs.filter fun (e : Nat × Nat) => e.1 == ((s.pkg 1).port 22).nextLane).length ∧
    (((sLinks id (fun t => { t with change := true }) (pktTo 1 0)).pkg 1).port 22).change = true := by decide +kernel

/-- Package 0 with n flits to send on its link to package 26 of group 1, and another way there by package 50 of group 2. -/
def sCost (n : Nat) : State := ({ ({} : State) with pkgs := [{ num := 0 }, { num := 24 }, { num := 26 }, { num := 50 }] }).modPort 0 23 fun t =>
  { t with toSend := List.replicate n ⟨0, 0, false⟩ }

theorem witness_LinksAndRouting_cost : minimalPorts (sCost 65) 0 26 = [23] ∧ detourPorts (sCost 65) 0 26 = [24] ∧ minimalPorts (sCost 65) 0 575 = [] ∧
    0 < ((sCost 65).pkg 0 |>.port 23).active ∧ Within (sCost 65) 3 0 26 ∧
    (LeastCost (sCost 65) 0 [23] (65 * 840) ∧ LeastCost (sCost 65) 0 [24] 0 ∧ 2 * 0 + 64 * 840 < 65 * 840) ∧
    (LeastCost (sCost 64) 0 [23] (64 * 840) ∧ ∀ b, LeastCost (sCost 64) 0 [24] b → 64 * 840 ≤ 2 * b + 64 * 840) := by
  refine ⟨by decide +kernel, by decide +kernel, by decide +kernel, by decide +kernel, .hop (port := 23) (q := 26) (by decide +kernel) (.here _ _), ?_, ?_, ?_⟩
  · unfold LeastCost; decide +kernel
  · unfold LeastCost; decide +kernel
  · omega

theorem witness_LinksAndRouting_turns : let s := { sLinks id id (pktTo 1 0) with net := [{ pktTo 1 0 with since := 5 }, { pktTo 1 0 with id := 5, want := some 0 },
      { pktTo 1 7 with id := 6, want := some 0, fresh := false }] }
    (rivals s 0 (pktTo 1 0)).map (·.id) = [5, 6] ∧ (rivals s 0 (pktTo 1 0)).map (nextVc s) = [0, 7] ∧ nextVc s { pktTo 1 0 with since := 5 } = 0 ∧
    rivals (sLinks id id (pktTo 1 0)) 0 (pktTo 1 0) = [] ∧ hasCredit (sLinks id id (pktTo 1 0)) 0 (pktTo 1 0) = true ∧
    hasTurn (sLinks id id (pktTo 1 0)) 0 (pktTo 1 0) = true ∧ portRoom (sLinks id (fun t => t) (pktTo 1 0)) 0 0 (pktTo 1 0) = true ∧
    portRoom (sLinks (fun t => { t with replay := List.replicate 1024 ⟨0, 0, false⟩ }) id (pktTo 1 0)) 0 0 (pktTo 1 0) = false := by decide +kernel

/-- `asub` and `aunsub` beside the active layer l of the descriptor, with the blocks bs. -/
def sLayer (l : Layer) (bs : List Block) : State := sAttn [BitVec.ofNat 64 slotVa] fun d => { d with layers := [l], blocks := bs }

/-- The state after `recordCheck`. -/
def checked (s : State) : State := (recordCheck (xS [BitVec.ofNat 64 slotVa]) s).2

theorem witness_AttentionWords_layers : let r := qbRec (slotVa + 256) (slotVa + 512) 3 1
    let one := { theBlock with table := [0] }
    (∀ ph ∈ [Phase.hold, .main, .glean, .rest], let l := theLayer ph 0 sublVa subcVa
      let t := checked (sLayer l [])
      (match (recordCheck (xS [BitVec.ofNat 64 slotVa]) (sLayer l [])).1 with | .go x => x.1 == r | _ => false) = true ∧ (liveBlock i0 (qbLidx r) t).isNone = true ∧
      ((t.pkg 0).die 0).layer? 7 (qbLayer r) = some l ∧ l.phase ≠ .ending ∧
      (match readTable i0 r l.bytes (BitVec.ofNat 64 slotVa) t with | (.go (.ok ls), u) => ls.length == 1 && (u.seq i0).canTake .s h0 | _ => false) = true) ∧
    (let l := { theLayer .hold 0 sublVa subcVa with bytes := [] }
     let t := checked (sLayer l [])
     ((t.pkg 0).die 0).layer? 7 (qbLayer r) = some l ∧
      (match readTable i0 r l.bytes (BitVec.ofNat 64 slotVa) t with | (.go (.bad _), u) => (u.seq i0).canTake .s h0 | _ => false) = true) ∧
    (∀ ph ∈ [Phase.hold, .main, .glean], let l := theLayer ph 0 sublVa subcVa
      let t := checked (sLayer l [one])
      liveBlock i0 (qbLidx r) t = some (0, one) ∧ ((t.pkg 0).die 0).layers.find? one.inLayer = some l ∧
      (match findLists i0 one.dctx l.bytes true one.table t with | (.go ls, u) => ls.length == 1 && (u.seq i0).canTake .s h0 | _ => false) = true) ∧
    (let l := theLayer .main 0 sublVa subcVa
     l ∈ (((sLayer l [one]).pkg 0).die 0).layers ∧ one ∈ (((sLayer l [one]).pkg 0).die 0).blocks ∧ one.inLayer l = true) := by
  refine ⟨?_, ?_, ?_, ?_⟩ <;> decide +kernel

/-- Position 3 lies within the window of head 1: with a slot of the pool left, and with the pool taken by other blocks. -/
theorem witness_AttentionWords_window : theBlock.pos? 3 = some 3 ∧ theBlock.head < 3 ∧ 3 < theBlock.head + 8 ∧ theBlock.reserved.contains 3 = false ∧
    0 < (((sMerge 0 3 3).pkg 0).die 0).poolFree ∧ ({ theBlock with reserved := [3] } : Block).reserved.contains 3 = true ∧
    (((sLayer (theLayer .main 0 sublVa subcVa) (theBlock :: { theBlock with reserved := [2, 3, 4, 5, 6] } ::
      List.replicate 223 { theBlock with vteam := 1, reserved := [2, 3, 4, 5, 6, 7, 8] })).pkg 0).die 0).poolFree = 0 := by
  refine ⟨?_, ?_, ?_, ?_, ?_, ?_, ?_⟩ <;> decide +kernel

/-- The block at its last position, with an address of its results and a join. -/
def lastBlock (dest join : Nat) : Block :=
  { theBlock with head := 9, held := [(9, [])], record := (theBlock.record.take 24) ++ leBytes 8 dest ++ leBytes 8 0 ++ leBytes 8 join ++ List.replicate 80 0 }

/-- The block stands on i0's die; a join at byte 64 of the own window, of COUNT c; the seed queues hold n records. -/
def sDone (b : Block) (c n : Nat) : State := sJoin c (recAt 4) (withQueues false (fun _ => n) (sAttn [0] fun d => { d with blocks := [b] }))

/-- What the completion of a block comes to. -/
def doneOf (b : Block) (s : State) : Written := (completionWrites (unitSid 0 b.by_ s) b (b.writes.drop b.written) b.written s).1

theorem witness_AttentionUnits_completion : let b := lastBlock ownSpad.toNat 0
    let j := lastBlock ownSpad.toNat (ownWin.toNat + 64)
    (((sDone b 2 0).pkg 0).die 0).blocks[0]? = some b ∧ b.runs ((sDone b 2 0).pkg 0) = true ∧ (b.held.find? fun x => x.1 == b.head) = some (b.head, []) ∧
    b.table.length ≤ b.head + 1 ∧ b.writes.length = 8 ∧ doneOf b (sDone b 2 0) = .all ∧ qbJoin b.record = 0 ∧
    (let x := { b with head := 10, held := [] }; (x.held.find? fun y => y.1 == x.head) = none ∧ x.table.length ≤ x.head) ∧
    (let x := { b with table := [], head := 0, held := [] }; (x.held.find? fun y => y.1 == x.head) = none ∧ x.table.length ≤ x.head) ∧
    doneOf (lastBlock (2 ^ 40) 0) (sDone b 2 0) = .fault ∧
    (let s := (sDone b 2 0).modCore 0 0 fun c => { c with waking := [(0, 2048)] }; doneOf (lastBlock ownSpad.toNat 0) s = .wait 0) ∧
    (qbJoin j.record ≠ 0 ∧ ∀ x ∈ [(2, 0, true), (1, 0, true), (1, 16, false)], doneOf j (sDone j x.1 x.2.1) = .all ∧
      (let s := sDone j x.1 x.2.1
       let t := (completionWrites (unitSid 0 j.by_ s) j (j.writes.drop j.written) j.written s).2
       resolveWindow (unitSid 0 j.by_ s) (qbJoin j.record) 64 .atomic t = .ok (.win 0 0 64) ∧
       (joinDecrement 0 0 64 j.by_ (qbJoin j.record) j.caddr t).isSome = x.2.2)) := by
  refine ⟨?_, ?_, ?_, ?_, ?_, ?_, ?_, ?_, ?_, ?_, ?_, ?_, ?_⟩ <;> decide +kernel

/-- A maximum that is neither a NaN nor an infinity, as 1.0 is (see `witness_AttentionUnits_merge`). -/
theorem witness_AttentionUnits_rows : f32Nan 0x40000000 = false ∧ (0x40000000#32) ≠ 0x7F800000#32 ∧ (0x40000000#32) ≠ 0xFF800000#32 := by decide +kernel

theorem witness_CollectiveEvents_triggers : (∀ x ∈ [(5, false), (6, true)], let s := sWork 0 fun w =>
      { w with st := .waittrig, trig := x.2, record := w.record.take 48 ++ leBytes 4 x.1 ++ w.record.drop 52 }
      (s.work 0 63).st = .waittrig ∧ sigRead (s.pkg 0) (s.work 0 63) (wkTsig (s.work 0 63).record) = some 5 ∧
      wkTthr (s.work 0 63).record + (s.work 0 63).g * wkTinc (s.work 0 63).record = x.1 ∧ (x.1 ≤ 5 ∨ (s.work 0 63).trig = true)) ∧
    ((sWork 0 id).work 0 63).st = .run ∧ ((sWork 0 id).work 0 63).trig = false ∧
    (let s := sWork 0 id; wkTthr (s.work 0 63).record = 5 ∧ wkTinc (s.work 0 63).record = 0 ∧
      (s.work 0 63).watchTrigger (s.pkg 0) = { s.work 0 63 with trig := true }) := by
  refine ⟨?_, ?_, ?_, ?_⟩ <;> decide +kernel

/-- A message for no entry, and SUSPENDs of this rank and of the other; the entry waits for its trigger, runs with a step or without, or is suspended. -/
theorem witness_CollectiveEvents_suspends :
    (∀ c ∈ [CollKind.suspend 0, .resume 0, .abort], (collTarget ((sColl (.coll (collPkt c 0 8)) id).pkg 0) (collPkt c 0 8)).isNone = true) ∧
    (∀ o ∈ [0, 1], let s := sColl (.coll (collPkt (.suspend o) 0 9)) id
      (collTarget (s.pkg 0) (collPkt (.suspend o) 0 9)).any (fun x => x.1 == 63 && wkRank x.2.record == 0) = true) ∧
    (∀ st ∈ [WorkSt.waittrig, .run], ((sWork 0 fun w => { w with st := st }).work 0 63).passed.contains 1 = false) ∧
    ((sWork 0 fun w => { w with passed := [1] }).work 0 63).passed.contains 1 = true ∧
    (let s := sWork 0 fun w => { w with holding := true, pass := [1] }; mustEnd 0 (s.work 0 63) s [] (s.work 0 63).runs = false) ∧
    (let s := sWork 0 fun w => { w with holding := true, pass := [1], runs := [copyRun] }; mustEnd 0 (s.work 0 63) s [] (s.work 0 63).runs = true) ∧
    (let s := sWork 0 fun w => { w with st := .susp }
     s.net.length ≤ 63 ∧ (s.pkg 0).susp = 0 ∧ 63 < s.net.length + 64 ∧ (s.work 0 (63 - s.net.length)).st = .susp ∧ (s.work 0 63).restored = false ∧
       (s.pkg 0).isVp (s.work 0 63).dctx (s.work 0 63).by_.vp = true) := by
  refine ⟨?_, ?_, ?_, ?_, ?_, ?_, ?_⟩ <;> decide +kernel

/-- An invocation that has ended while it drains; a team saved on another package; and a context that already stops. -/
theorem witness_Preemption_others : (let s := (sPreempt true 0 (.drain 0)).modPkg 0 fun k => { k with invs := k.invs.map fun v => { v with ended := true } }
      (s.pkg 0).invs.any (fun v => v.id == 0 && v.decision == .drain 0 && v.ended) = true) ∧
    (let s : State := { sTeam with pkgs := [{ sTeam.pkg 0 with teams := [] },
        { num := 1, teams := [{ dctx := 7, vteam := 3, st := .saved, die := 0, row := 0, col := 0, rows := 1, cols := 1, slot := 0, inv := 0 }] }] }
     ((s.pkg 0).team? 7 3).isNone = true ∧ ((s.pkg 1).team? 7 3).any (fun t => t.st == .saved && (s.pkg 0).isVp 7 t.vp) = true ∧
       (∀ x ∈ s.pkgs, x ≠ s.pkg 1 → (x.team? 7 3).isNone = true)) ∧
    (((stops sTeam).pkg 0).ctx? 7).any (fun c => c.stopping == some 2) = true := by
  refine ⟨?_, ⟨?_, ?_, ?_⟩, ?_⟩ <;> decide +kernel

/-- The host may reach the records of the queues. -/
def hosts (s : State) : State := s.modPkg 0 fun k => { k with settings := { k.settings with hostRanges := [(0, 524288)] } }

theorem witness_CommandQueues_host : (∃ r ∈ ((hosts sTeam).pkg 0).settings.hostRanges, r.1 ≤ ((hosts sTeam).pkg 0).qrec 4095 + 16 ∧
      ((hosts sTeam).pkg 0).qrec 4095 + 16 + 32 ≤ r.1 + r.2) ∧ (sTeam.pkg 0).settings.hostRanges = [] := by
  refine ⟨⟨_, List.mem_cons_self, ?_, ?_⟩, ?_⟩ <;> decide +kernel

theorem witness_CommandQueues_events : (let s := sQ 3 0 0 63 id; ((s.modPkg 0 fun k => k.event 0 .wake).pkg 0).qstate 0 = 3) ∧
    (∀ st ∈ [0, 1, 2], let s := sQ st 0 0 63 id; ((s.modPkg 0 fun k => k.event 0 .wake).pkg 0).qstate 0 ≠ 3) ∧
    ((sTeam.pkg 0).evqp 0 = 0 ∧ ((sTeam.modPkg 0 fun k => k.setBytes 40 (leBytes 8 0xFFFFFFFFFFFFFFFF)).pkg 0).evqp 0 ≠ 0) ∧
    (let k := (sQ 2 0 0 0xFF fun c => { c with watch := some (0xC2000, 1), seen := true }).pkg 0; (k.cq 0).seen = true ∧ (k.cq 0).watch = some (0xC2000, 1) ∧ k.susp < 6) ∧
    (let k := (spends 1000 (sQ 1 4 0 63 id)).pkg 0; k.exhausted 0 = true ∧ k.wix 0 ≠ k.rix 0) ∧
    (let c : CQueue := { num := 0, watch := some (0xC2000, 0) }; c.watch = some (0xC2000, 0) ∧ (0 : W64).toNat ≤ (sTeam.pkg 0).signal 0xC2000) := by
  refine ⟨?_, ?_, ⟨?_, ?_⟩, ⟨?_, ?_, ?_⟩, ⟨?_, ?_⟩, ?_, ?_⟩ <;> decide +kernel

/-- The steps of a WAIT: its queue PARKED, mapped again and not met, or met. -/
theorem witness_Commands_waits : let k := fun (st n : Nat) (g : Package → Package) =>
      ((sCmd 4 (sgPayload 0xC5000) (fun e => { e with st := .started, step := n }) g).modPkg 0 fun k => k.setQstate 0 st).pkg 0
    ((k 2 4 id).qstate 0 ≠ 1 ∧ (k 1 4 id).qstate 0 = 1 ∧ (k 1 12 id).qstate 0 = 1) ∧ (8 ≤ 12 ∧ 12 % 8 = 4 ∧ 9 % 8 = 1) ∧
    ((k 1 4 id).cq 0).seen = false ∧ (k 1 4 id).signal 0xC5000 < 1 ∧ 1 ≤ (k 1 4 fun k => k.setBytes 0xC5000 [1]).signal 0xC5000 := by
  refine ⟨⟨?_, ?_, ?_⟩, ?_, ?_, ?_, ?_⟩ <;> decide +kernel

/-- An invocation that no rectangle in service fits any more; and one of a killed team, which is to run again. -/
theorem witness_Commands_placements : (let s := sPlace.modPkg 0 fun k => { k with offline := true }
      (s.pkg 0).invs.any (fun v => v.id == 1 && ((s.pkg 0).liveCtx? (ivDctx v.bytes)).isSome) = true ∧
      (s.pkg 0).invs.any (fun v => v.id == 1 && v.start.isNone && !v.ended && v.resumer.isNone &&
        !rectSome (s.pkg 0) false (ivDie v.bytes) (ivRows v.bytes) (ivCols v.bytes)) = true ∧ (s.pkg 0).susp = 0) ∧
    (let s := sPlace; (s.pkg 0).invs.any (fun v => rectSome (s.pkg 0) false (ivDie v.bytes) (ivRows v.bytes) (ivCols v.bytes)) = true) ∧
    (let s := (sTeamAs (fun t => { t with st := .closing, reason := 5 }) fun q => { q with st := .halt }).modPkg 0 fun k =>
        { k with invs := [{ id := 0, q := 0, idx := 0, bytes := [], start := some 0 }] }
     (((s.pkg 0).team? 7 3).any fun t => t.st == .closing && t.reason == 5 && teamQuiet s 0 t && (s.invOf t).isSome) = true ∧
      (s.pkg 0).invs.all (fun v => v.resumer.isNone && v.node.isNone) = true) := by
  refine ⟨⟨?_, ?_, ?_⟩, ?_, ?_, ?_⟩ <;> decide +kernel

theorem witness_Commands_takeover : let k := fun (opc : Nat) (f : JEntry → JEntry) => (sCmd opc [] f id).pkg 0
    let started := fun (e : JEntry) => { e with st := .started }
    ((k 3 id).jentry? 0 0).any (fun e => e.st != .started) = true ∧
    (∀ opc ∈ [3, 4, 8], ((k opc started).jentry? 0 0).any (fun e => e.st == .started && e.nodes.isEmpty && e.outcome.isNone && opcOf e.bytes == opc) = true) ∧
    ((k 8 fun e => { started e with outcome := some (0, 0) }).jentry? 0 0).any (fun e => e.outcome.isSome && opcOf e.bytes == 8) = true ∧
    ((k 6 fun e => { started e with nodes := [{ bytes := cmdEntry 3 [], preds := [], st := .started }] }).jentry? 0 0).any (fun e =>
      e.nodes.findIdx? (fun d => d.st == .started && (d.status.isSome || opcOf d.bytes ≠ 8)) == some 0) = true := by
  refine ⟨?_, ?_, ?_, ?_⟩ <;> decide +kernel

/-- Frames of the host's range: an ordinary one, one that an error has blighted, and one of a slot, which is the granary's. -/
def sHost : State := sTeam.modPkg 0 fun k => { k with settings := { k.settings with hostRanges := [(0, 0x100000)], qtbase := 0x10000 } }

theorem witness_HostAndPower_host : let k := sHost.pkg 0
    (k.hostRange 0xC000 8 = true ∧ k.frameOpen 0xC000 = true ∧ k.blighted 0xC000 = false ∧ 0xC000 < k.settings.qtbase) ∧
    (k.frameOpen 0xA0000 = false ∧ k.hostRange 0xA0000 1 = true ∧ k.populated 0xA0000 = true ∧ k.settings.qtbase + 128 * 4096 ≤ 0xA0000) ∧
    (∀ n ∈ [0, 3, 4, 7, 8, 15, 16, 47, 48, 127], k.hostRange (k.qrec 4095 + n) 1 = true ∧ k.populated (k.qrec 4095 + n) = true ∧ k.frameOpen (k.qrec 4095 + n) = true) ∧
    k.recordOpen 4095 = true ∧ (let j := (sHost.modPkg 0 fun k => k.setQstate 4095 1).pkg 0; j.recordOpen 4095 = false) := by
  refine ⟨⟨?_, ?_, ?_, ?_⟩, ⟨?_, ?_, ?_, ?_⟩, ?_, ?_, ?_⟩ <;> decide +kernel

theorem witness_HostAndPower_clock : (∀ k ∈ sTeam.pkgs, ∀ d ∈ k.dies.toList, d.stretched = false) ∧
    (∃ k ∈ (sTeam.modDie 0 1 fun d => { d with stretched := true }).pkgs, ∃ d ∈ k.dies.toList, d.stretched = true) ∧
    (let s := sTeam.modPkg 0 fun p => { p with unitOut := [{ req := req0 .joinDec none }] }; sendsDue 192000 s = false ∧ sendsDue 192001 s = true) ∧
    (∀ n ∈ [0, 1, 2, 3, 4], ((sTeam.modPkg 0 fun k => { k with susp := n }).pkg 0).susp = n) ∧
    (let s : State := { sTeam with suspendAt := some 7, time := 7 + 4500000 * 3000 }; s.time ≤ 7 + 4500000 * 3000 ∧ 7 + 4500000 * 3000 ≤ s.time) := by
  refine ⟨?_, ?_, ⟨?_, ?_⟩, ?_, ?_⟩ <;> decide +kernel

/-- The turns of a piece, of the clock and of a charge, and a word of a frame that an error has blighted. -/
theorem witness_StepRunsDecoded_turns :
    (∀ t ∈ [Turn.piece 0 63 0 0 true, .tick 7, .charge 0 4095 5, .unit (.seedPop i0)], (sFetch id codeA t).tape = t :: []) ∧
    (∀ w, Instr.seedPop i0 ≠ .dispatch w) ∧
    (let s := (sFetch id codeA (.front i0)).modPkg 0 fun p => p.setBytes (p.settings.bmbase + frameIndex 0 / 8) [1]
     (s.pkg 0).blighted ((vget {} (s.pkg 0).slots (s.seq i0).slotN.toNat).base + (s.seq i0).pc.toNat) = true) := by
  refine ⟨?_, nofun, ?_⟩ <;> decide +kernel

end Sys2Proof.Tests
end

section
/-! The state after reset (01 R16; 25 R392). -/
namespace Sys2Proof.Machine

theorem reset_hasPkg (p : Nat) : State.reset.hasPkg p = decide (p = 0) := by
  simp [State.hasPkg, State.reset, Bool.beq_eq_decide_eq, eq_comm]

/-- A sequencer after its reset: a guard names p0 or a predicate that reads 0. -/
theorem guard_reset (g : Guard) : ({} : Seq).guard g = ((g.pg == 0) != g.pn) := by
  simp [Seq.guard, Seq.pr]

theorem sr_reset (r : Reg) : ({} : Seq).sr r = 0 := by
  simp [Seq.sr, vget_replicate]

theorem foldl_keep {α β : Type} (l : List β) (a : α) : l.foldl (fun a _ => a) a = a := by
  induction l with
  | nil => rfl
  | cons _ _ ih => exact ih

theorem tagi_reset : ({} : Seq).tagi = 0 := by
  have unnamed : ∀ n, ({} : Seq).namesTag n = false := fun _ => rfl
  simp only [Seq.tagi, unnamed, Bool.false_eq_true, if_false]
  exact foldl_keep _ _

/-- A byte of a package after its reset reads as the rule of unlisted bytes says. -/
theorem byte_reset (p a : Nat) : (State.reset.pkg p).byte a =
    if (State.reset.pkg p).settings.qtbase ≤ a ∧ a < (State.reset.pkg p).settings.qtbase + 4096 * 128 ∧
      (a - (State.reset.pkg p).settings.qtbase) % 128 = 52 then 0xFF else 0 := by
  rw [byte_of_empty _ (by rw [reset_pkg]), Package.unlisted]
  simp [and_assoc, Nat.mul_comm]

/-- The default map of a die names slice I mod 24 at index I. -/
theorem map_reset {n : Nat} (h : n < 64) : ({} : Die).map[n]? = some (n % 24) := by
  simp [h]

theorem memWf_reset : State.reset.memWf = true := by
  simp [State.memWf, State.reset, Package.memWf, Core.memWf, cellSorted]

/-- The fields of every queue record (25 R392). -/
theorem queueRecord_reset {q : Nat} (hq : q < 4096) :
    let k := State.reset.pkg 0
    k.wix q = 0 ∧ k.rix q = 0 ∧ k.qvalid q = false ∧ k.qstate q = 0 ∧ k.qget q 52 1 = 0xFF ∧ k.wpend q = false ∧ k.spent q = 0 := by
  intro k
  have hm : k.mem = [] := by rfl
  have zero {off n : Nat} (h1 : off + n ≤ 128) (h2 : 52 < off ∨ off + n ≤ 52) : k.qget q off n = 0 := qget_of_empty k hm h1 h2
  refine ⟨zero (by omega) (by omega), zero (by omega) (by omega), ?_, ?_, slotn_of_empty k hm hq, ?_, zero (by omega) (by omega)⟩
  · simp [Package.qvalid, zero (off := 16) (n := 8) (by omega) (by omega)]
  · simp [Package.qstate, zero (off := 48) (n := 1) (by omega) (by omega), bitsOf]
  · simp [Package.wpend, zero (off := 49) (n := 1) (by omega) (by omega)]

end Sys2Proof.Machine

open Sys2Proof Sys2Proof.Machine

/-- Settles O56: every package, core, sequencer and die of the reset state has its default fields, and its memory lists nothing. -/
theorem resetState : Obligations.ResetState := by
  unfold Obligations.ResetState
  refine ⟨reset_hasPkg, rfl, rfl, memWf_reset, fun i => ?_, fun p c => ?_, fun d n _ hn => ?_, fun d => ?_, byte_reset,
    fun q hq => queueRecord_reset hq, fun e => ?_⟩
  · rw [reset_seq]
    exact ⟨guard_reset, sr_reset, rfl, rfl, rfl, tagi_reset, rfl, rfl, rfl, rfl, rfl, rfl, rfl, rfl, rfl, rfl, rfl, rfl, rfl⟩
  · rw [reset_core]
    refine ⟨rfl, rfl, rfl, rfl, fun t => ?_⟩
    rw [vget_replicate]
    exact ⟨rfl, rfl, rfl, fun _ => rfl⟩
  · exact (congrArg (fun x : Die => x.map[n]?) (reset_die 0 d)).trans (map_reset hn)
  · exact congrArg Die.gen (reset_die 0 d)
  · exact congrArg Work.st (vget_replicate _ _ _)
end

section
/-! The queues of a sequencer (03 R44, R47, R48) and the instruction cache (01 R20). -/
namespace Sys2Proof.Machine

/-- ENTRY_RETIRE of an oldest entry that has completed and whose FIFOs have room. -/
theorem exec_entryRetire_of_canPut {s : State} {i : Sid} {e : EQ} {x : Entry} {rest : List Entry} (hi : s.has i = true)
    (hq : (s.seq i).queue e = x :: rest) (hd : x.done = true) (hp : (s.seq i).canPut e x.head = true) :
    exec (.entryRetire i e) s = .next (s.modSeq i fun q => (q.setQueue e rest).put e x.head) := by
  show execEntryRetire i e s = _
  simp [execEntryRetire, hi, hq, hd, hp]

theorem not_or_eq_true_iff (a b : Bool) : (!a || b) = true ↔ (a = true → b = true) := by
  cases a <;> simp

theorem not_or_decide_iff (a : Bool) (P : Prop) [Decidable P] : (!a || decide P) = true ↔ (a = true → P) :=
  (not_or_eq_true_iff _ _).trans (imp_congr_right fun _ => decide_eq_true_iff)

theorem Seq.canPut_l_iff (q : Seq) (h : EHead) : q.canPut .l h = true ↔ (h.pr = true → q.lc ≤ 7) :=
  not_or_decide_iff _ _

theorem Seq.canPut_c_iff (q : Seq) (h : EHead) : q.canPut .c h = true ↔ (h.pl = true → q.cl ≤ 7) ∧ (h.pr = true → q.cs ≤ 7) := by
  rw [Seq.canPut, Bool.and_eq_true, not_or_decide_iff, not_or_decide_iff]

theorem Seq.canPut_s_iff (q : Seq) (h : EHead) : q.canPut .s h = true ↔ (h.pl = true → q.sc ≤ 7) :=
  not_or_decide_iff _ _

theorem Seq.put_l (q : Seq) (h : EHead) : q.put .l h = { q with lc := if h.pr then q.lc + 1 else q.lc } := by
  cases hp : h.pr <;> simp [Seq.put, hp]

theorem Seq.put_s (q : Seq) (h : EHead) : q.put .s h = { q with sc := if h.pl then q.sc + 1 else q.sc } := by
  cases hp : h.pl <;> simp [Seq.put, hp]

/-- A queue that cannot move, by the three ways of R48. -/
theorem Seq.stuckQueue_iff (q : Seq) (e : EQ) : q.stuckQueue e = true ↔
    q.queue e = [] ∨ (∃ y, q.headOf e = some y ∧ y.compared = true ∧ q.canTake e y.head = false) ∨
      ∃ y r, q.queue e = y :: r ∧ y.done = true ∧ q.canPut e y.head = false := by
  unfold Seq.stuckQueue
  cases q.queue e <;> cases q.headOf e <;> simp

theorem Seq.quietQueue_iff (q : Seq) (e : EQ) : q.quietQueue e = true ↔ ∀ y ∈ q.queue e, y.issued = true → y.done = true := by
  simp only [Seq.quietQueue, List.all_eq_true, not_or_eq_true_iff]

theorem Seq.deadlocked_iff (q : Seq) :
    q.deadlocked = true ↔ (∀ e, q.stuckQueue e = true ∧ q.quietQueue e = true) ∧ q.stalledOnQueues = true := by
  simp only [Seq.deadlocked, Bool.and_eq_true, List.all_eq_true]
  refine and_congr_left fun _ => ⟨fun h e => h e ?_, fun h e _ => h e⟩
  cases e <;> simp

/-- The waits that only an entry of L, C or S can end (03 R48). -/
theorem Seq.wait_of_stalledOnQueues {q : Seq} (h : q.stalledOnQueues = true) :
    q.wait = some .reap ∨ (∃ v, q.wait = some (.tokset v)) ∨ q.wait = some .tfence ∨
      (∃ f l c s, q.wait = some (.qfence f l c s)) ∨ (∃ sc, q.wait = some (.rel sc)) ∨
      ∃ e, q.wait = some (.dispatch e) ∧ 16 ≤ (q.queue e).length := by
  unfold Seq.stalledOnQueues at h
  cases hw : q.wait with
  | none => simp [hw] at h
  | some w =>
    rw [hw] at h
    cases w with
    | dispatch e => exact .inr (.inr (.inr (.inr (.inr ⟨e, rfl, of_decide_eq_true h⟩))))
    | reap => exact .inl rfl
    | tokset v => exact .inr (.inl ⟨v, rfl⟩)
    | tfence => exact .inr (.inr (.inl rfl))
    | qfence f l c s => exact .inr (.inr (.inr (.inl ⟨f, l, c, s, rfl⟩)))
    | rel sc => exact .inr (.inr (.inr (.inr (.inl ⟨sc, rfl⟩))))
    | _ => simp at h

/-- TOKEN_DEADLOCK of a running sequencer in deadlock (03 R48, 23 R368). -/
theorem exec_tokenDeadlock_of_deadlocked {s : State} {i : Sid} (hi : s.has i = true) (hd : (s.seq i).deadlocked = true)
    (hr : (s.seq i).st = .run) (ht : teamStops s i = false) :
    exec (.tokenDeadlock i) s =
      .next (takeFault i { code := 0x10, caddr := (s.seq i).pc, addr := (s.seq i).pc } (s.modSeq i (Seq.abandon false))) := by
  have hpc : ((s.modSeq i (Seq.abandon false)).seq i).pc = (s.seq i).pc := by rw [State.seq_modSeq_self _ _ _ hi]; rfl
  show execTokenDeadlock i s = _
  simp [execTokenDeadlock, wordFault, fcTokenDeadlock, hi, hd, hr, ht, hpc]

/-- INSTRUCTION_FETCH_MISS_FILL of a running sequencer of a loaded slot (01 R20). -/
theorem exec_instructionFetchMissFill_of_loaded {s : State} {i : Sid} (hi : s.has i = true) (hr : (s.seq i).st = .run)
    (hl : (vget {} (s.pkg i.pkg).slots (s.seq i).slotN.toNat).loaded = true) :
    exec (.instructionFetchMissFill i) s = .next (s.modCore i.pkg i.core fun c =>
      { c with icache := ((missingLines i s).map (fun l => ((s.seq i).slotN.toNat, l, (s.pkg i.pkg).bytes
          ((vget {} (s.pkg i.pkg).slots (s.seq i).slotN.toNat).base + l * Config.icacheLine) Config.icacheLine)) ++
            c.icache).take Config.icacheLines }) := by
  show execInstructionFetchMissFill i s = _
  simp [execInstructionFetchMissFill, hi, hr, hl]

end Sys2Proof.Machine

open Sys2Proof Sys2Proof.Machine

/-- Settles O28: each retirement is that of a queue whose oldest entry can put its tokens, and a deadlock is read off its three queues
and the wait of the front end. -/
theorem queueEvents : Obligations.QueueEvents := by
  unfold Obligations.QueueEvents
  intro s i x rest hi
  refine ⟨fun hq hd hr => ?_, fun hq hd hl hr => ?_, fun hq hd hl => ?_, fun hd hr ht => exec_tokenDeadlock_of_deadlocked hi hd hr ht,
    fun hd => Seq.wait_of_stalledOnQueues ((Seq.deadlocked_iff _).1 hd).2, fun hd e => ?_,
    fun hr hl => exec_instructionFetchMissFill_of_loaded hi hr hl⟩
  · rw [exec_entryRetire_of_canPut (e := .l) hi hq hd ((Seq.canPut_l_iff _ _).2 hr)]
    simp only [Seq.put_l]
    rfl
  · rw [exec_entryRetire_of_canPut (e := .c) hi hq hd ((Seq.canPut_c_iff _ _).2 ⟨hl, hr⟩)]
    rfl
  · rw [exec_entryRetire_of_canPut (e := .s) hi hq hd ((Seq.canPut_s_iff _ _).2 hl)]
    simp only [Seq.put_s]
    rfl
  · obtain ⟨stuck, quiet⟩ := ((Seq.deadlocked_iff _).1 hd).1 e
    exact ⟨(Seq.quietQueue_iff _ _).1 quiet, (Seq.stuckQueue_iff _ _).1 stuck⟩
end

section
/-! The slices and the ring of a die (15 R263-R270), slices retired (15 R265) and cores taken offline (01 R37). -/
namespace Sys2Proof.Machine

/-! ## A package with a changed die -/

theorem keepsNum_modDies (d : Nat) (f : Die → Die) : KeepsNum (fun k => { k with dies := vmod k.dies d f }) := fun _ => rfl

/-- The home of an address depends on the package's memory size alone, which no change of a die touches. -/
theorem homeDie_modDie (s : State) (p q d pa : Nat) (f : Die → Die) :
    ((s.modDie p d f).pkg q).homeDie pa = (s.pkg q).homeDie pa :=
  State.modPkg_field s p q _ (keepsNum_modDies d f) (·.homeDie pa) fun _ => rfl

/-! ## Requests at their slices -/

/-- The bit of a core in a die's mask. -/
theorem SliceReq.bits_of_mask_nil {r : SliceReq} (h : r.mask = []) : r.bits = 1#48 <<< (r.who.core % 48) := by
  simp [SliceReq.bits, SliceReq.cores, h]

theorem SliceReq.side_of_mask_nil {r : SliceReq} (h : r.mask = []) (b : Nat) : r.side b = [] := by
  simp [SliceReq.side, h]

/-- A request that waits behind no other of its core about the same block (15 R265, R266). -/
theorem reqWaits_eq_false {k : Package} {die : Die} {j : Nat} {r : SliceReq}
    (h1 : ∀ x ∈ die.reqs.take j, x.who.core = r.who.core → ∀ b ∈ ringBlocks x.pa x.bytes, b ∉ ringBlocks r.pa r.bytes)
    (h2 : r.again = true ∨ ∀ b ∈ ringBlocks r.pa r.bytes, b ∉ (k.core r.who.core).rehomed) : reqWaits k die j r = false := by
  have earlier : (die.reqs.take j).any (fun x => x.who.core == r.who.core &&
      (ringBlocks x.pa x.bytes).any (ringBlocks r.pa r.bytes).contains) = false := by
    simpa using h1
  have met : (!r.again && (ringBlocks r.pa r.bytes).any (k.core r.who.core).rehomed.contains) = false := by
    rcases h2 with h2 | h2
    · simp [h2]
    · simpa using fun _ => h2
  rw [reqWaits, earlier, met]; rfl

/-- A request leaves the ring, and the list of those that wait. -/
def State.tookRequest (s : State) (p d k : Nat) (r : SliceReq) (ys : List (Nat × Nat × Nat × Nat × Nat)) : State :=
  s.modDie p d fun x => { x.tookReq r s.ck ys with reqs := x.reqs.eraseIdx k }

/-- SLICE_REQUEST of a request that waits for nothing, whose slices take it and whose messages are there: it leaves the ring, and is served
at its home or forwarded there. -/
theorem exec_sliceRequest_of_taken {s : State} {p d k : Nat} {r : SliceReq} {ys : List (Nat × Nat × Nat × Nat × Nat)}
    (hr : ((s.pkg p).die d).reqs[k]? = some r) (hw : reqWaits (s.pkg p) ((s.pkg p).die d) k r = false)
    (hs : ∀ m ∈ r.slices, ((s.pkg p).die d).slices.getD m .off = .serving ∨ ((s.pkg p).die d).slices.getD m .off = .retiring)
    (hy : reqSlots (s.pkg p) ((s.pkg p).die d) s.ck r = some ys) :
    exec (.sliceRequest p d k) s = .next (if (s.pkg p).homeDie r.pa = d
      then serveReq p ((s.pkg p).homeDie r.pa) r (s.tookRequest p d k r ys)
      else forwardReq p ((s.pkg p).homeDie r.pa) r (s.tookRequest p d k r ys)) := by
  show execSliceRequest p d k s = _
  simp only [execSliceRequest, State.tookRequest, hr, hw, hy, Bool.false_or, homeDie_modDie]
  rw [if_neg]
  rw [List.any_eq_true]
  rintro ⟨m, hm, h⟩
  rcases hs m hm with e | e <;> rw [e] at h <;> exact Bool.false_ne_true h

/-- SLICE_REQUEST and REHOME of a request of which a slice has given up its lines (15 R265). -/
theorem exec_of_rehoming {s : State} {p d k : Nat} {r : SliceReq} (hr : ((s.pkg p).die d).reqs[k]? = some r)
    (hs : ∃ m ∈ r.slices, ((s.pkg p).die d).slices.getD m .off = .rehoming ∨ ((s.pkg p).die d).slices.getD m .off = .off) :
    exec (.rehome p d k) s = .next ((s.modDie p d fun x =>
        { x with reqs := x.reqs.modify k fun y =>
            { y with slices := (ringBlocks r.pa r.bytes).map x.sliceOf, gen := x.gen, since := s.ck, again := true } }).modCore p r.who.core
          fun c => { c with rehomed := (ringBlocks r.pa r.bytes ++ c.rehomed).eraseDups }) ∧
      exec (.sliceRequest p d k) s = .next s := by
  obtain ⟨m, hm, hs⟩ := hs
  constructor
  · show execRehome p d k s = _
    simp only [execRehome, hr]
    rw [if_neg]
    rw [List.all_eq_true]
    intro h
    have h := h m hm
    rcases hs with e | e <;> rw [e] at h <;> exact Bool.false_ne_true h
  · show execSliceRequest p d k s = _
    simp only [execSliceRequest, hr]
    rw [if_pos]
    rw [Bool.or_eq_true, List.any_eq_true]
    refine .inr ⟨m, hm, ?_⟩
    rcases hs with e | e <;> rw [e]

/-- The write of a request that is at home: performed, with its acknowledgement for the station that asked. -/
theorem serveReq_write {r : SliceReq} {bs : List Byte} (hb : r.write = some bs) (hm : r.mask = []) (p home : Nat) (t : State) :
    serveReq p home r t = (t.modPkg p fun x => x.writeAt (!r.na) r.pa bs).modDie p (r.who.core / 48) fun x => { x with deliv := x.deliv ++
      [{ slice := (r.fwd.getD r.slices).getD 0 0, pa := r.pa / 256 * 256, mask := 1#48 <<< (r.who.core % 48)
         ack := some (r.who, r.cid, r.piece) }] } := by
  simp only [serveReq, hb, SliceReq.bits_of_mask_nil hm, dieOf]

/-- The write of a request of the other die's memory goes to the slices that the home die's map names (01 R28). -/
theorem forwardReq_write {r : SliceReq} {bs : List Byte} (hb : r.write = some bs) (p home : Nat) (t : State) :
    forwardReq p home r t = t.modDie p home fun x => { x with reqs := x.reqs ++
      [{ r with slices := (ringBlocks r.pa r.bytes).map x.sliceOf, gen := x.gen, fwd := some r.slices }] } := by
  simp [forwardReq, hb]

/-! ## The read of one block -/

/-- The lines of a request that lies in one block are the lines that it asks of that block. -/
theorem reqLines_of_oneBlock {r : SliceReq} {n : Nat} (h : ringBlocks r.pa r.bytes = [n]) : reqLines r n = linesOf r.pa r.bytes := by
  have hlen : (r.pa + r.bytes - 1) / 256 - r.pa / 256 + 1 = 1 := by simpa [ringBlocks] using congrArg List.length h
  have hn : n = r.pa / 256 * 256 := by
    rw [ringBlocks, hlen] at h
    simpa using h.symm
  have hoff : n + (max r.pa n - n) = r.pa := by omega
  have hcount : min (r.pa + r.bytes) (n + 256) - max r.pa n = r.bytes := by omega
  simp only [reqLines, blockPart, hoff, hcount]

/-- The delivery of a block that the read of a request without sideband forms (15 R269). -/
def SliceReq.delivery (r : SliceReq) (m n : Nat) (bytes : List Byte) : Delivery :=
  { slice := m, pa := n, bytes := bytes, lines := reqLines r n, mask := r.bits }

theorem SliceReq.delivery_of_oneBlock {r : SliceReq} {n : Nat} (h : ringBlocks r.pa r.bytes = [n]) (hm : r.mask = []) (m : Nat)
    (bytes : List Byte) : r.delivery m n bytes =
      { slice := m, pa := n, bytes := bytes, lines := linesOf r.pa r.bytes, mask := 1#48 <<< (r.who.core % 48) } := by
  rw [SliceReq.delivery, reqLines_of_oneBlock h, SliceReq.bits_of_mask_nil hm]

/-- The deliveries of a die after the read of one block: merged into the first that may still be merged, or in a new one. -/
def mergeRead (r : SliceReq) (m n : Nat) (fresh : Delivery) (l : List Delivery) : List Delivery :=
  match l.findIdx? (mergeable r m n) with
  | some j => l.modify j fun v => { v with mask := v.mask ||| r.bits }
  | none => l ++ [fresh]

theorem mergeRead_of_none {r : SliceReq} {m n : Nat} {fresh : Delivery} {l : List Delivery} (h : ∀ v ∈ l, mergeable r m n v = false) :
    mergeRead r m n fresh l = l ++ [fresh] := by
  rw [mergeRead, List.findIdx?_eq_none_iff.2 h]

theorem mergeRead_of_first {r : SliceReq} {m n : Nat} {fresh v : Delivery} {pre post : List Delivery}
    (hpre : ∀ w ∈ pre, mergeable r m n w = false) (hv : mergeable r m n v = true) :
    mergeRead r m n fresh (pre ++ v :: post) = pre ++ { v with mask := v.mask ||| r.bits } :: post := by
  have hi : (pre ++ v :: post).findIdx? (mergeable r m n) = some pre.length := by
    simp [List.findIdx?_append, List.findIdx?_eq_none_iff.2 hpre, List.findIdx?_cons, hv]
  rw [mergeRead, hi]
  simp [List.modify_eq_take_cons_drop]

/-- A request with no receivers of a `cmc` has no sideband, and so its delivery of a block is mergeRead. -/
theorem Die.deliver_of_mask_nil {r : SliceReq} (hm : r.mask = []) (d : Die) (k : Package) (m n : Nat) :
    d.deliver k r m n = { d with deliv := mergeRead r m n (r.delivery m n (k.bytes n 256)) d.deliv } := by
  unfold Die.deliver mergeRead SliceReq.delivery
  cases d.deliv.findIdx? (mergeable r m n) <;> simp [SliceReq.side_of_mask_nil hm]

/-- What a slice merges a read into (15 R270). -/
theorem mergeable_iff (r : SliceReq) (m n : Nat) (v : Delivery) : mergeable r m n v = true ↔
    v.sent = none ∧ v.ack = none ∧ v.slice = m ∧ v.pa = n ∧ v.fresh = true ∧ (∀ l ∈ reqLines r n, l ∈ v.lines) ∧
      maskCount v.mask < 48 := by
  simp [mergeable, and_assoc]

/-- The slices of the home die hold the lines of a read, unless `.na` forbids it (15 R263, R273). -/
def holdLines (p home : Nat) (r : SliceReq) (t : State) : State :=
  if r.na then t else t.modDie p home fun x => (linesOf r.pa r.bytes).foldl (fun x l => x.allocate l false) x

/-- The read of one block at its home: its lines are held, unless `.na` forbids it, and the block is delivered. -/
theorem serveReq_readBlock {r : SliceReq} {m n : Nat} (hw : r.write = none) (hm : r.mask = []) (hb : ringBlocks r.pa r.bytes = [n])
    (hs : r.fwd.getD r.slices = [m]) (p home : Nat) (t : State) :
    serveReq p home r t = (holdLines p home r t).modDie p (r.who.core / 48) fun x =>
      { x with deliv := mergeRead r m n (r.delivery m n (((holdLines p home r t).pkg p).bytes n 256)) x.deliv } := by
  simp only [serveReq, hw, hb, hs, List.zip_cons_cons, List.zip_nil_left, List.foldl_cons, List.foldl_nil, Die.deliver_of_mask_nil hm,
    dieOf]
  rfl

/-! ## Deliveries at their stations -/

theorem Core.mem_satisfied_iff (k : Core) (v : Delivery) (x : BlockRead) : x ∈ k.satisfied v ↔
    x ∈ k.reads ∧ x.block = v.pa ∧ ∀ l ∈ linesOf (x.block + x.off) x.len, l ∈ v.lines := by
  simp [Core.satisfied]

/-- The state in which a station has taken a delivery: its bit has left the mask, with the last bit the slot is empty, and the station waits
for the reads given, and for blocks that met REHOME, no more. -/
def State.delivered (s : State) (p d j st : Nat) (v : Delivery) (die2 : Die) (at_ : Nat × Nat) (taken : List BlockRead) : State :=
  let w := { v with mask := v.mask &&& ~~~(1#48 <<< (st % 48)), sent := some at_ }
  (s.modDie p d fun _ => { die2 with deliv := if w.mask = 0 then die2.deliv.eraseIdx j else die2.deliv.set j w }).modCore p st fun c =>
    { c with reads := c.reads.filter fun x => !taken.contains x, rehomed := c.rehomed.filter (· ≠ v.pa) }

section
variable {s : State} {p d k j st : Nat} {v : Delivery} {die2 : Die} {at_ : Nat × Nat}
  (hn : (nextStations d ((s.pkg p).die d))[k]? = some (j, st)) (hv : ((s.pkg p).die d).deliv[j]? = some v)
  (hw : ∀ w ∈ ((s.pkg p).die d).deliv.take j, w.pa = v.pa → st ∉ w.stations d) (hside : v.side = [])
  (ha : ((s.pkg p).die d).arrive (s.pkg p) d s.ck v st = some (die2, at_))
include hw

/-- A delivery is behind no other about its block (15 R269). -/
theorem any_behind_eq_false : (((s.pkg p).die d).deliv.take j).any (fun w => w.pa == v.pa && (w.stations d).contains st) = false := by
  simpa using hw

include hn hv hside ha

/-- An acknowledgement that reaches its station ends the piece's wait (15 R266). -/
theorem exec_ringDelivery_ack {a : Sid × Nat × Nat} (hack : v.ack = some a) :
    exec (.ringDelivery p d k) s = .next (landPiece a.1 a.2.1 a.2.2 [] (s.delivered p d j st v die2 at_ [])) := by
  show execRingDelivery p d k s = _
  simp only [execRingDelivery, hn, hv, any_behind_eq_false hw, hside, ha, hack, List.any_nil, Bool.or_false, List.foldl_nil, Option.isSome_some, State.delivered, Bool.false_eq_true, if_true, if_false]

/-- Every read of a station that a delivery satisfies takes its part of it (15 R269). -/
theorem exec_ringDelivery_reads (hack : v.ack = none) :
    exec (.ringDelivery p d k) s = .next (((s.core p st).satisfied v).foldl (fun t r => takeRead p st v r t)
      (s.delivered p d j st v die2 at_ ((s.core p st).satisfied v))) := by
  show execRingDelivery p d k s = _
  simp only [execRingDelivery, hn, hv, any_behind_eq_false hw, hside, ha, hack, List.any_nil, Bool.or_false, List.foldl_nil, Option.isSome_none, State.delivered, Bool.false_eq_true, if_false]

end

/-! ## A read of one part -/

/-- A name that stands for no sequencer of the machine reads as one after reset. -/
theorem State.seq_of_not_has {s : State} {i : Sid} (h : s.has i = false) : s.seq i = {} := by
  by_cases hp : s.hasPkg i.pkg = true
  · by_cases hq : i.seq < 4
    · have hc : ¬ i.core < 96 := by simpa [State.has, hp, hq] using h
      have hcore : s.core i.pkg i.core = {} := dif_neg hc
      rw [State.seq, hcore]
      exact vget_replicate _ _ _
    · exact dif_neg hq
  · have hpkg : s.pkg i.pkg = { num := i.pkg } := by
      have hf : s.pkgs.find? (fun p => p.num == i.pkg) = none := by simpa [State.hasPkg] using hp
      rw [State.pkg, hf]; rfl
    have hcore : s.core i.pkg i.core = {} := by
      rw [State.core, hpkg]
      exact vget_replicate _ _ _
    rw [State.seq, hcore]
    exact vget_replicate _ _ _

/-- A sequencer with a copy is in the machine. -/
theorem State.has_of_copy {s : State} {i : Sid} {c : Copy} (h : c ∈ (s.seq i).copies) : s.has i = true := by
  cases hi : s.has i with
  | true => rfl
  | false =>
    rw [State.seq_of_not_has hi] at h
    exact absurd h List.not_mem_nil

theorem flightOf_eq_some_iff (s : State) (who : Sid) (cid n : Nat) (c : Copy) (f : Flight) (pc : Piece) :
    flightOf s who cid n = some (c, f, pc) ↔ (s.seq who).copies.find? (fun c => c.id == cid) = some c ∧
      c.flight.find? (fun f => f.n == n) = some f ∧ copyPiece c n = some pc := by
  simp only [flightOf, Option.bind_eq_bind, Option.bind_eq_some_iff, Option.pure_def, Option.some.injEq, Prod.mk.injEq]
  constructor
  · rintro ⟨c', hc, f', hf, pc', hpc, rfl, rfl, rfl⟩
    exact ⟨hc, hf, hpc⟩
  · rintro ⟨hc, hf, hpc⟩
    exact ⟨c, hc, f, hf, pc, hpc, rfl, rfl, rfl⟩

/-- The first of a list that bears a key, after a change that keeps keys. -/
theorem find?_map_key {α : Type} {l : List α} {key : α → Nat} {n : Nat} {x : α} (g : α → α) (hg : ∀ y, key (g y) = key y)
    (h : l.find? (fun y => key y == n) = some x) : (l.map g).find? (fun y => key y == n) = some (g x) := by
  rw [List.find?_map]
  have : ((fun y => key y == n) ∘ g) = fun y => key y == n := by funext y; simp [hg]
  rw [this, h]; rfl

/-- A copy of which the flight of piece n has taken a part. -/
def Copy.withPart (c : Copy) (n st at_ : Nat) (bytes : List Byte) : Copy :=
  { c with flight := c.flight.map fun f => if f.n = n then { f with parts := f.parts ++ [(st, at_, bytes)] } else f }

theorem flightOf_landPart {s : State} {who : Sid} {cid n : Nat} {c : Copy} {f : Flight} {pc : Piece}
    (h : flightOf s who cid n = some (c, f, pc)) (st at_ : Nat) (bytes : List Byte) :
    flightOf (landPart who cid n st at_ bytes s) who cid n =
      some (c.withPart n st at_ bytes, { f with parts := f.parts ++ [(st, at_, bytes)] }, pc) := by
  obtain ⟨hc, hf, hpc⟩ := (flightOf_eq_some_iff ..).1 h
  have hi := State.has_of_copy (List.mem_of_find?_eq_some hc)
  have hid : c.id = cid := by simpa using List.find?_some hc
  have hfn : f.n = n := by simpa using List.find?_some hf
  rw [flightOf_eq_some_iff, landPart, State.seq_modSeq_self _ _ _ hi]
  refine ⟨?_, ?_, hpc⟩
  · exact (find?_map_key (key := Copy.id) _ (fun y => by split <;> rfl) hc).trans (congrArg some (if_pos hid))
  · exact (find?_map_key (key := Flight.n) _ (fun y => by split <;> rfl) hf).trans (congrArg some (if_pos hfn))

/-- The one part of a piece is its bytes. -/
theorem Flight.at_onePart {f : Flight} (h : f.parts = []) (st at_ : Nat) (bytes : List Byte) :
    Flight.at { f with parts := f.parts ++ [(st, at_, bytes)] } st = bytes := by
  simp [Flight.at, h, cellIns]

theorem fillGather_of_cpy {c : Copy} (h : copyKind c.word = .cpy) (p core : Nat) (r : BlockRead) (v : Delivery) (s : State) :
    fillGather p core c r v s = s := by
  simp [fillGather, usesGather, h]

/-- A read that is all of its piece: the delivery brings the piece its bytes. -/
theorem takeRead_of_whole {s : State} {p st : Nat} {v : Delivery} {b : BlockRead} {c : Copy} {f : Flight} {pc : Piece}
    (h : flightOf s ⟨p, st, b.seq⟩ b.cid b.piece = some (c, f, pc)) (hk : copyKind c.word = .cpy) (hf : f.parts = [])
    (hl : b.len = pc.len) (hv : b.off + b.len ≤ v.bytes.length) :
    takeRead p st v b s = landPiece ⟨p, st, b.seq⟩ b.cid b.piece ((v.bytes.drop b.off).take b.len)
      (landPart ⟨p, st, b.seq⟩ b.cid b.piece st b.at_ ((v.bytes.drop b.off).take b.len) s) := by
  have hlen : ¬ ((v.bytes.drop b.off).take b.len).length < pc.len := by
    rw [List.length_take, List.length_drop]; omega
  simp only [takeRead, h, fillGather_of_cpy hk, flightOf_landPart h, Flight.at_onePart hf]
  rw [if_neg hlen]

/-! ## Slices retired -/

theorem exec_sliceRetire_of_serving {s : State} {p d k : Nat} (h : ((s.pkg p).die d).slices.getD k .off = .serving) (map : List Nat) :
    let t := s.modDie p d fun x => { x with slices := x.slices.set k .retiring }
    exec (.sliceRetire p d k map) s = .next (if (((t.pkg p).die d).slices.filter (· == .serving)).length < 12
      then takeOffline p (dieCores d) t else t) := by
  intro t
  show execSliceRetire p d k map s = _
  simp only [execSliceRetire, h, apply_ite Host.Outcome.next]
  rfl

theorem exec_sliceRetire_of_dirty {s : State} {p d k : Nat} (h : ((s.pkg p).die d).slices.getD k .off = .retiring)
    (hl : ((s.pkg p).die d).dirtyIn k = true) (map : List Nat) :
    exec (.sliceRetire p d k map) s = .next (s.modDie p d fun x => x.writeBack fun l => l.slice == k) := by
  show execSliceRetire p d k map s = _
  simp only [execSliceRetire, h, hl, if_true]

theorem exec_sliceRetire_of_clean {s : State} {p d k : Nat} {map : List Nat} (h : ((s.pkg p).die d).slices.getD k .off = .retiring)
    (hl : ((s.pkg p).die d).dirtyIn k = false) (hm : mapOk ((s.pkg p).die d) k map = true) :
    exec (.sliceRetire p d k map) s = .next (s.modDie p d fun x =>
      { x with map := map, gen := (x.gen + 1) % 65536, slices := x.slices.set k .rehoming
               lines := x.lines.filter fun l => map.getD (sliceIndex (128 * l.line)) 0 == l.slice }) := by
  show execSliceRetire p d k map s = _
  simp only [execSliceRetire, h, hl, hm, if_true]
  rfl

theorem Die.dirtyIn_iff (d : Die) (k : Nat) : d.dirtyIn k = true ↔ ∃ l ∈ d.lines, l.slice = k ∧ l.dirty = true := by
  simp [Die.dirtyIn]

theorem mapOk_iff (d : Die) (k : Nat) (map : List Nat) :
    mapOk d k map = true ↔ map.length = 64 ∧ ∀ n ∈ map, n < 24 ∧ n ≠ k ∧ d.slices.getD n .off = .serving := by
  simp [mapOk, and_assoc]

theorem exec_slicePowerDown_of_rehoming {s : State} {p d k : Nat} (h : ((s.pkg p).die d).slices.getD k .off = .rehoming)
    (hr : ∀ r ∈ ((s.pkg p).die d).reqs, k ∉ r.slices) :
    exec (.slicePowerDown p d k) s = .next (s.modDie p d fun x => { x with slices := x.slices.set k .off }) := by
  have none : (((s.pkg p).die d).reqs.any fun r => r.slices.contains k) = false := by simpa using hr
  show execSlicePowerDown p d k s = _
  simp only [execSlicePowerDown, h, none]
  rfl

/-! ## A core offline (01 R37) -/

/-- A sequencer of a core that goes offline stops. -/
def Seq.offlineHalt (q : Seq) : Seq :=
  if q.st = .unbound ∨ q.st = .halt then q else { q.dropWait with st := .halt, idleStop := q.st == .idle }

theorem takeOffline_unbound {s : State} {p k : Nat} (ho : (s.core p k).offline = false) (hb : (s.core p k).bound = none) :
    takeOffline p [k] s = s.modCore p k fun c => { c with offline := true } := by
  simp [takeOffline, ho, hb]

theorem takeOffline_bound {s : State} {p k : Nat} (ho : (s.core p k).offline = false) (hb : (s.core p k).bound ≠ none) :
    let t := (s.modCore p k fun c => { c with offline := true }).modCore p k fun c => { c with seqs := c.seqs.map Seq.offlineHalt }
    takeOffline p [k] s = takeFault ⟨p, k, 0⟩ { code := 0x33, caddr := (t.seq ⟨p, k, 0⟩).pc, aux := BitVec.ofNat 64 k } t := by
  intro t
  have hb : (s.core p k).bound.isNone = false := by simpa [Option.isSome_iff_ne_none] using hb
  simp only [takeOffline, List.foldl_cons, List.foldl_nil, ho, hb, Bool.false_eq_true, if_false, Bool.or_eq_true, beq_iff_eq]
  rfl

end Sys2Proof.Machine

open Sys2Proof Sys2Proof.Machine

/-- Settles O43, clause by clause: a request served or forwarded, REHOME, a delivery taken at its station, a slice's three steps out of
service, and a core taken offline. -/
theorem slicesAndRing : Obligations.SlicesAndRing := by
  unfold Obligations.SlicesAndRing
  intro s p d k m n j st r v map bs a at_ ys die2 c f pc b die state ask blocks free bits
  refine ⟨fun hr hfree hs hy => ?_, mergeable_iff r m n v, exec_of_rehoming, fun hn hv hw hside ha => ?_,
    fun hfl hk hp hat hl hv => ?_, fun h => ?_, fun h hl => ?_, fun h hl hlen hmap => ?_, exec_slicePowerDown_of_rehoming, fun ho => ?_⟩
  · have hex := exec_sliceRequest_of_taken hr (reqWaits_eq_false hfree.1 hfree.2) hs hy
    refine ⟨fun hd hb hm => ?_, fun hd hb hm h1 h2 => ?_, fun hd hb => ?_⟩
    · rw [hex, if_pos hd, serveReq_write hb hm]
      rfl
    · refine ⟨mergeRead r m n (r.delivery m n (((holdLines p d r (s.tookRequest p d k r ys)).pkg p).bytes n 256)), fun l hl => ?_,
        fun pre post hpre hv => ?_, ?_⟩
      · rw [mergeRead_of_none hl, SliceReq.delivery_of_oneBlock h1 hm, ← hd]
        rfl
      · rw [mergeRead_of_first hpre hv, SliceReq.bits_of_mask_nil hm]
      · rw [hex, if_pos hd, serveReq_readBlock hb hm h1 h2, ← hd]
        rfl
    · rw [hex, if_neg hd, forwardReq_write hb]
      rfl
  · refine ⟨fun hack => exec_ringDelivery_ack hn hv hw hside ha hack, fun hack => ?_⟩
    have htakes : ∀ x ∈ (s.core p st).reads, ((s.core p st).satisfied v).contains x = true ↔
        x.block = v.pa ∧ ∀ l ∈ linesOf (x.block + x.off) x.len, l ∈ v.lines := by
      intro x hx
      rw [List.contains_iff_mem, Core.mem_satisfied_iff, and_iff_right hx]
    have hsat : (s.core p st).reads.filter ((s.core p st).satisfied v).contains = (s.core p st).satisfied v :=
      List.filter_congr fun x hx => Bool.eq_iff_iff.2 ((htakes x hx).trans (by simp))
    refine ⟨((s.core p st).satisfied v).contains, htakes, ?_⟩
    rw [exec_ringDelivery_reads hn hv hw hside ha hack, hsat]
    rfl
  · rw [takeRead_of_whole hfl hk hp hl hv, hat]
  · intro t left
    have hex := exec_sliceRetire_of_serving h map
    exact ⟨fun hle => by rw [hex, if_neg (Nat.not_lt.2 hle)], fun hlt => by rw [hex, if_pos hlt]⟩
  · rw [exec_sliceRetire_of_dirty h ((Die.dirtyIn_iff _ _).2 hl)]
    simp [Die.writeBack]
  · have hclean : ¬ ∃ l ∈ ((s.pkg p).die d).lines, l.slice = k ∧ l.dirty = true := fun ⟨l, hm, hk, hd⟩ =>
      Bool.false_ne_true ((hl l hm hk).symm.trans hd)
    exact exec_sliceRetire_of_clean h (Bool.eq_false_iff.2 fun hd => hclean ((Die.dirtyIn_iff _ _).1 hd)) ((mapOk_iff ..).2 ⟨hlen, hmap⟩)
  · intro off
    exact ⟨fun hb => congrArg Host.Outcome.next (takeOffline_unbound ho hb), fun hb => congrArg Host.Outcome.next (takeOffline_bound ho hb)⟩
end

section
/-! Lanes, links and flits (01 R29, R30; 17 R310-R313), and the outputs that a packet may take (17 R314-R318). -/
namespace Sys2Proof.Machine

/-! ## Wiring -/

/-- The other end of a port depends on the packages that are there and on the global indices assigned to spares. -/
theorem peerOf_congr {s t : State} (hp : ∀ q, t.hasPkg q = s.hasPkg q)
    (hg : ∀ q n, ((t.pkg q).port n).gindex = ((s.pkg q).port n).gindex) (p n : Nat) : peerOf t p n = peerOf s p n := by
  have hi : ∀ group g, indexPort t group g = indexPort s group g := fun group g => by simp only [indexPort, hg]
  have hn : globalIndex t p n = globalIndex s p n := by simp only [globalIndex, hg]
  simp only [peerOf, hi, hn, hp]

theorem keepsNum_report (f : Package → Report) : KeepsNum (fun k => k.report (f k)) := fun _ => rfl

/-- A report to management leaves the wiring as it is. -/
theorem peerOf_report (s : State) (a : Nat) (f : Package → Report) (p n : Nat) :
    peerOf (s.modPkg a fun k => k.report (f k)) p n = peerOf s p n :=
  peerOf_congr (fun q => State.hasPkg_modPkg s a q _ (keepsNum_report f))
    (fun q n => State.modPkg_field s a q _ (keepsNum_report f) (fun k => (k.port n).gindex) fun _ => rfl) p n

theorem modLink_of_peer {s : State} {p n q m : Nat} (h : peerOf s p n = some (q, m)) (f : Port → Port) :
    modLink p n f s = (s.modPort p n f).modPort q m f := by
  simp [modLink, h]

theorem peerOf_local {s : State} {p n : Nat} (hn : n ≤ 22) (hp : s.hasPkg (p / 24 * 24 + (p % 24 + n + 1) % 24) = true) :
    peerOf s p n = some (p / 24 * 24 + (p % 24 + n + 1) % 24, 22 - n) := by
  simp [peerOf, hn, hp]

theorem linkUp_iff (s : State) (p n : Nat) : linkUp s p n = true ↔ ∃ q m, peerOf s p n = some (q, m) ∧
    ((s.pkg p).port n).retired = false ∧ ((s.pkg q).port m).retired = false ∧ 2 ≤ ((s.pkg p).port n).active ∧
      2 ≤ ((s.pkg q).port m).active := by
  unfold linkUp
  cases peerOf s p n with
  | none => simp
  | some x => simp [and_assoc, Prod.ext_iff]

theorem mem_neighbours_iff (s : State) (p n q : Nat) : (n, q) ∈ neighbours s p ↔ n ≤ 30 ∧ ∃ m, peerOf s p n = some (q, m) ∧
    ((s.pkg p).port n).retired = false ∧ ((s.pkg q).port m).retired = false ∧ 2 ≤ ((s.pkg p).port n).active ∧
      2 ≤ ((s.pkg q).port m).active := by
  have range : ∀ x, x ∈ List.range 31 ↔ x ≤ 30 := fun x => by rw [List.mem_range]; omega
  simp only [neighbours, List.mem_filterMap, range]
  constructor
  · rintro ⟨x, hx, h⟩
    split at h
    next up =>
      obtain ⟨q', m, hpeer, rest⟩ := (linkUp_iff s p x).1 up
      simp only [hpeer, Option.map_some, Option.some.injEq, Prod.mk.injEq] at h
      obtain ⟨rfl, rfl⟩ := h
      exact ⟨hx, m, hpeer, rest⟩
    next => cases h
  · rintro ⟨hn, m, hpeer, rest⟩
    refine ⟨n, hn, ?_⟩
    rw [if_pos ((linkUp_iff s p n).2 ⟨q, m, hpeer, rest⟩), hpeer]
    rfl

/-! ## Lanes -/

/-- A lane of a port falls fallow, or is ACTIVE again: the stripe is to change, and its errors count anew (17 R310, R311). -/
def Port.laneSet (lane : Nat) (on : Bool) (t : Port) : Port :=
  { t with
    lanes := if on then t.lanes ||| (1#8 <<< lane) else t.lanes &&& ~~~(1#8 <<< lane)
    change := t.change || t.lanes.getLsbD lane != on
    errs := t.errs.filter fun e => e.1 ≠ lane }

/-- The report of a lane of a port to management. -/
def Package.reportLane (n lane : Nat) (on : Bool) (k : Package) : Package := k.report (.lane n lane on ((k.port n).errors lane))

/-- A change of a lane reports and changes both ends of its link. -/
theorem setLane_of_peer {s : State} {p port q m : Nat} (h : peerOf s p port = some (q, m)) (lane : Nat) (on : Bool) :
    setLane p port lane on s = ((((s.modPkg p (Package.reportLane port lane on)).modPkg q (Package.reportLane m lane on)).modPort p port
      (Port.laneSet lane on)).modPort q m (Port.laneSet lane on)) := by
  have hends : linkEnds s p port = [(p, port), (q, m)] := by simp [linkEnds, h]
  have hpeer : peerOf ((s.modPkg p (Package.reportLane port lane on)).modPkg q (Package.reportLane m lane on)) p port = some (q, m) :=
    (peerOf_report _ q _ p port).trans ((peerOf_report s p _ p port).trans h)
  rw [← modLink_of_peer hpeer]
  simp only [setLane, hends]
  rfl

theorem exec_laneFallow_of_lane {s : State} {p port lane : Nat} (hl : lane < 8) (hp : port ≤ 30) :
    exec (.laneFallow p port lane) s = .next (fallow p port lane s) := by
  show execLaneFallow p port lane s = _
  rw [execLaneFallow, if_neg]
  simp only [Bool.or_eq_true, decide_eq_true_eq]
  omega

theorem exec_laneRetrain_of_lane {s : State} {p port lane : Nat} (hl : lane < 8) (hp : port ≤ 30) :
    exec (.laneRetrain p port lane) s = .next (setLane p port lane true s) := by
  show execLaneRetrain p port lane s = _
  rw [execLaneRetrain, if_neg]
  simp only [Bool.or_eq_true, decide_eq_true_eq]
  omega

theorem exec_linkReturn_of_retired {s : State} {p port : Nat} (hp : port ≤ 30) (h : ((s.pkg p).port port).retired = true) :
    exec (.linkReturn p port) s = .next (modLink p port (fun t => { t.trained with retired := false }) s) := by
  show execLinkReturn p port s = _
  simp [execLinkReturn, hp, h]

theorem exec_spareLinkAssign_of_retired {s : State} {p port g : Nat} (hm : p % 24 = 23) (h1 : 23 ≤ port) (h2 : port ≤ 30) (hg : g < 184)
    (h : ((s.pkg (p / 24 * 24 + g / 8)).port (23 + g % 8)).retired = true) :
    exec (.spareLinkAssign p port g) s = .next (s.modPort p port fun t => { t with gindex := some g }) := by
  show execSpareLinkAssign p port g s = _
  simp [execSpareLinkAssign, hm, h1, h2, hg, h]

/-! ## Flits -/

/-- The lane whose turn it is carries flits, where any lane does (17 R311). -/
theorem stripe_nextLane {t : Port} (h : ∃ n < 8, t.stripe.getLsbD n = true) :
    t.nextLane < 8 ∧ t.stripe.getLsbD t.nextLane = true := by
  obtain ⟨n, hn, hb⟩ := h
  unfold Port.nextLane
  cases hf : ((List.range 8).map fun n => (t.lane + n) % 8).find? fun n => t.stripe.getLsbD n with
  | none =>
    rw [List.find?_eq_none] at hf
    refine absurd hb (hf n (List.mem_map.2 ⟨(n + 8 - t.lane % 8) % 8, ?_, ?_⟩))
    · rw [List.mem_range]; omega
    · omega
  | some l =>
    obtain ⟨j, -, rfl⟩ := List.mem_map.1 (List.mem_of_find?_eq_some hf)
    exact ⟨Nat.mod_lt _ (by decide), by simpa using List.find?_some hf⟩

/-- A control flit goes ahead of every other; received bad, it is sent again (17 R311). -/
theorem exec_flitReceive_of_change {s : State} {p port q m : Nat} (h : peerOf s p port = some (q, m))
    (hc : ((s.pkg q).port m).change = true) (good : Bool) : exec (.flitReceive p port good) s =
      .next (if good then s.modPort q m fun t => { t with change := false, stripe := t.lanes, lane := 0 } else s) := by
  show execFlitReceive p port good s = _
  simp [execFlitReceive, h, hc]

/-- A flit has crossed its link by a lane: it has left the sender, and the receiver has counted it. -/
def State.crossed (s : State) (p port q m lane : Nat) (good : Bool) (rest : List Flit) : State :=
  let d := (s.modPort q m fun t => { t with toSend := rest, lane := lane + 1 }).drawBool
  d.2.modPort p port fun t => t.receive lane (good && d.1)

/-- A flit that has crossed its link is taken, asks for a replay, or is out of sequence (17 R312). -/
def State.judged (s : State) (p port q m : Nat) (good : Bool) (f : Flit) : State :=
  if f.seq ≠ ((s.pkg p).port port).rxSeq then s
  else if !good then s.modPort q m fun t => { t with nak := true }
  else takeFlit p port q m f s

theorem State.judged_eq (s : State) (p port q m : Nat) (good : Bool) (f : Flit) : s.judged p port q m good f =
    if f.seq ≠ ((s.pkg p).port port).rxSeq then s
    else if good = false then s.modPort q m fun t => { t with nak := true }
    else takeFlit p port q m f s := by
  cases good <;> rfl

theorem exec_flitReceive_of_flit {s : State} {p port q m : Nat} {f : Flit} {rest : List Flit} (h : peerOf s p port = some (q, m))
    (hc : ((s.pkg q).port m).change = false) (hs : ((s.pkg q).port m).toSend = f :: rest) (good : Bool) :
    let lane := ((s.pkg q).port m).nextLane
    let u := (s.crossed p port q m lane good rest).judged p port q m good f
    exec (.flitReceive p port good) s =
      .next (if ((u.pkg p).port port).errors lane > 1024 then fallow p port lane u else u) := by
  show execFlitReceive p port good s = _
  simp only [execFlitReceive, h, hc, hs]
  rfl

theorem exec_flitReplay_of_nak {s : State} {p port : Nat} (h : ((s.pkg p).port port).nak = true) :
    exec (.flitReplay p port) s = .next (s.modPort p port fun t => { t with nak := false, toSend := t.replay }) := by
  show execFlitReplay p port s = _
  rw [execFlitReplay, if_pos h]

/-! ## Outputs and their cost -/

/-- A port has at most eight ACTIVE lanes. -/
theorem Port.active_le (t : Port) : t.active ≤ 8 := by
  have count : ∀ (l : List Nat) (a : Nat), l.foldl (fun n i => if t.lanes.getLsbD i then n + 1 else n) a ≤ a + l.length := by
    intro l
    induction l with
    | nil => exact fun a => Nat.le_refl _
    | cons i l ih =>
      intro a
      rw [List.foldl_cons, List.length_cons]
      exact Nat.le_trans (ih _) (by split <;> omega)
  simpa [Port.active, popBits] using count (List.range 8) 0

/-- 840 is a multiple of every number of lanes, so that a cost in 840ths is exact (17 R315). -/
theorem portCost_mul_active (s : State) (p n : Nat) (h : 0 < ((s.pkg p).port n).active) :
    portCost s p n * ((s.pkg p).port n).active = ((s.pkg p).port n).toSend.length * 8 * 840 := by
  have hdvd : ∀ a ≤ 8, 0 < a → a ∣ 840 := by decide
  exact Nat.div_mul_cancel (Nat.dvd_mul_left_of_dvd (hdvd _ (Port.active_le _) h) _)

theorem reachesGroup_iff (s : State) (p g : Nat) :
    reachesGroup s p g = true ↔ ∃ l b, (l, b) ∈ neighbours s p ∧ 23 ≤ l ∧ b / 24 = g := by
  simp [reachesGroup]

theorem sameGroup_iff (a b : Nat) : sameGroup a b = true ↔ a / 24 = b / 24 := by simp [sameGroup]

theorem mem_outputs_iff {l : List (Nat × Nat)} {P : Nat × Nat → Bool} {n : Nat} :
    n ∈ (l.filter P).map (·.1) ↔ ∃ q, (n, q) ∈ l ∧ P (n, q) = true := by
  simp

theorem mem_minimalPorts_iff (s : State) (p dst n : Nat) : n ∈ minimalPorts s p dst ↔ ∃ q, (n, q) ∈ neighbours s p ∧
    if p / 24 = dst / 24 then q = dst
    else q / 24 = dst / 24 ∨ (q / 24 = p / 24 ∧ ∃ l b, (l, b) ∈ neighbours s q ∧ 23 ≤ l ∧ b / 24 = dst / 24) := by
  rw [minimalPorts, mem_outputs_iff]
  refine exists_congr fun q => and_congr_right fun _ => ?_
  rw [← reachesGroup_iff, eq_comm (a := q / 24) (b := p / 24)]
  by_cases h : p / 24 = dst / 24 <;> simp [sameGroup, h]

/-- A group through which a detour may lead (17 R315): neither end's, and with a running global link to the destination's. -/
def Intermediate (s : State) (p dst g : Nat) : Prop :=
  g ≠ p / 24 ∧ g ≠ dst / 24 ∧
    ∃ m < 24, s.hasPkg (g * 24 + m) = true ∧ ∃ j b, (j, b) ∈ neighbours s (g * 24 + m) ∧ 23 ≤ j ∧ b / 24 = dst / 24

theorem mem_detourPorts_iff_intermediate (s : State) (p dst n : Nat) : n ∈ detourPorts s p dst ↔ ∃ q, (n, q) ∈ neighbours s p ∧
    if q / 24 = p / 24 then ∃ l b, (l, b) ∈ neighbours s q ∧ 23 ≤ l ∧ Intermediate s p dst (b / 24)
    else Intermediate s p dst (q / 24) := by
  have through : ∀ g, (g ≠ p / 24 && g ≠ dst / 24 &&
      (List.range 24).any fun m => s.hasPkg (g * 24 + m) && reachesGroup s (g * 24 + m) (dst / 24)) = true ↔ Intermediate s p dst g := by
    intro g
    simp only [Bool.and_eq_true, decide_eq_true_eq, List.any_eq_true, List.mem_range, reachesGroup_iff, and_assoc, Intermediate]
  rw [detourPorts, mem_outputs_iff]
  refine exists_congr fun q => and_congr_right fun _ => ?_
  by_cases h : q / 24 = p / 24
  · rw [if_pos ((sameGroup_iff _ _).2 h.symm), if_pos h]
    simp only [List.any_eq_true, Bool.and_eq_true, decide_eq_true_eq, through, Prod.exists]
  · rw [if_neg fun e => h ((sameGroup_iff _ _).1 e).symm, if_neg h]
    exact through _

theorem mem_detourPorts_iff (s : State) (p dst n : Nat) : n ∈ detourPorts s p dst ↔ ∃ q g l, (n, q) ∈ neighbours s p ∧
    g ≠ p / 24 ∧ g ≠ dst / 24 ∧ (if q / 24 = p / 24 then ∃ b, (l, b) ∈ neighbours s q ∧ 23 ≤ l ∧ b / 24 = g else q / 24 = g) ∧
      ∃ m < 24, s.hasPkg (g * 24 + m) = true ∧ ∃ j b, (j, b) ∈ neighbours s (g * 24 + m) ∧ 23 ≤ j ∧ b / 24 = dst / 24 := by
  rw [mem_detourPorts_iff_intermediate]
  refine exists_congr fun q => ?_
  by_cases h : q / 24 = p / 24
  · simp only [if_pos h]
    constructor
    · rintro ⟨hn, l, b, hb, hl, h1, h2, h3⟩
      exact ⟨b / 24, l, hn, h1, h2, ⟨b, hb, hl, rfl⟩, h3⟩
    · rintro ⟨_, l, hn, h1, h2, ⟨b, hb, hl, rfl⟩, h3⟩
      exact ⟨hn, l, b, hb, hl, h1, h2, h3⟩
  · simp only [if_neg h]
    constructor
    · rintro ⟨hn, h1, h2, h3⟩
      exact ⟨q / 24, 0, hn, h1, h2, rfl, h3⟩
    · rintro ⟨_, _, hn, h1, h2, rfl, h3⟩
      exact ⟨hn, h1, h2, h3⟩

theorem bestCost_eq_some_iff (s : State) (p : Nat) (ns : List Nat) (a : Nat) : bestCost s p ns = some a ↔ LeastCost s p ns a := by
  simp [bestCost, LeastCost, List.min?_eq_some_iff]

theorem bestCost_eq_none_iff (s : State) (p : Nat) (ns : List Nat) : bestCost s p ns = none ↔ ns = [] := by
  simp [bestCost]

/-! ## The choice of the source router -/

theorem sourcePorts_of_noMinimal {s : State} {p dst : Nat} (h : minimalPorts s p dst = []) : sourcePorts s p dst = detourPorts s p dst := by
  simp only [sourcePorts, (bestCost_eq_none_iff ..).2 h]

/-- Where the best minimal cost exceeds twice the best detour cost plus 64, a detour is chosen. -/
theorem sourcePorts_of_dear {s : State} {p dst a b : Nat} (ha : LeastCost s p (minimalPorts s p dst) a)
    (hb : LeastCost s p (detourPorts s p dst) b) (h : 2 * b + 64 * 840 < a) : sourcePorts s p dst = detourPorts s p dst := by
  simp only [sourcePorts, (bestCost_eq_some_iff ..).2 ha, (bestCost_eq_some_iff ..).2 hb]
  exact if_pos h

/-- Otherwise a cheapest output of a minimal path is. -/
theorem sourcePorts_of_cheap {s : State} {p dst a : Nat} (ha : LeastCost s p (minimalPorts s p dst) a)
    (h : ∀ b, LeastCost s p (detourPorts s p dst) b → a ≤ 2 * b + 64 * 840) :
    sourcePorts s p dst = (minimalPorts s p dst).filter fun n => portCost s p n == a := by
  simp only [sourcePorts, (bestCost_eq_some_iff ..).2 ha]
  cases hd : bestCost s p (detourPorts s p dst) with
  | none => rfl
  | some b => exact if_neg (Nat.not_lt.2 (h b ((bestCost_eq_some_iff ..).1 hd)))

/-! ## The choice of a later router -/

theorem Within.step {s : State} {n p d : Nat} (h : Within s n p d) : Within s (n + 1) p d := by
  induction h with
  | here n p => exact .here _ _
  | hop hq _ ih => exact .hop hq ih

theorem Within.mono {s : State} {n m p d : Nat} (h : Within s n p d) (hm : n ≤ m) : Within s m p d := by
  induction hm with
  | refl => exact h
  | step _ ih => exact ih.step

/-- The packages within n hops of a set are those within n hops of one of them. -/
theorem mem_within_iff (s : State) (n : Nat) (ps : List Nat) (d : Nat) : d ∈ within s n ps ↔ ∃ p ∈ ps, Within s n p d := by
  induction n generalizing ps with
  | zero =>
    constructor
    · exact fun h => ⟨d, h, .here _ _⟩
    · rintro ⟨p, hp, h⟩
      cases h
      exact hp
  | succ n ih =>
    rw [within, ih]
    simp only [List.mem_eraseDups, List.mem_append, List.mem_flatMap, List.mem_map, Prod.exists, exists_eq_right]
    constructor
    · rintro ⟨q, hq | ⟨p, hp, port, hq⟩, h⟩
      · exact ⟨q, hq, h.step⟩
      · exact ⟨p, hp, .hop hq h⟩
    · rintro ⟨p, hp, h⟩
      cases h with
      | here => exact ⟨_, .inl hp, .here _ _⟩
      | hop hq h => exact ⟨_, .inr ⟨_, hp, _, hq⟩, h⟩

theorem hops_isSome_iff (s : State) (src dst bound : Nat) : (hops s src dst bound).isSome = true ↔ Within s bound src dst := by
  simp only [hops, List.find?_isSome, List.mem_range, List.contains_iff_mem, mem_within_iff, List.mem_singleton, exists_eq_left]
  constructor
  · rintro ⟨n, hn, h⟩
    exact h.mono (Nat.le_of_lt_succ hn)
  · exact fun h => ⟨bound, Nat.lt_succ_self _, h⟩

/-- The outputs from which the destination lies within the hops that the channels above allow (17 R315). -/
def leadingPorts (s : State) (p dst vc : Nat) : List Nat :=
  ((neighbours s p).filter fun n => (hops s n.2 dst (4 - (vc + 1))).isSome).map (·.1)

theorem mem_leadingPorts_iff (s : State) (p dst vc n : Nat) :
    n ∈ leadingPorts s p dst vc ↔ ∃ q, (n, q) ∈ neighbours s p ∧ Within s (3 - vc) q dst := by
  have bound : 4 - (vc + 1) = 3 - vc := by omega
  simp only [leadingPorts, mem_outputs_iff, hops_isSome_iff, bound]

/-- A later router chooses the cheapest of the leading outputs. -/
theorem mem_laterPorts_iff (s : State) (p dst vc n : Nat) : n ∈ laterPorts s p dst vc ↔ vc < 4 ∧ n ∈ leadingPorts s p dst vc ∧
    ∀ l ∈ leadingPorts s p dst vc, portCost s p n ≤ portCost s p l := by
  by_cases hv : 4 ≤ vc
  · simp [laterPorts, hv, Nat.not_lt.2 hv]
  · have hlater : laterPorts s p dst vc = match bestCost s p (leadingPorts s p dst vc) with
        | none => []
        | some a => (leadingPorts s p dst vc).filter fun n => portCost s p n == a := if_neg hv
    rw [hlater, and_iff_right (Nat.not_le.1 hv)]
    cases hb : bestCost s p (leadingPorts s p dst vc) with
    | none => simp [(bestCost_eq_none_iff ..).1 hb]
    | some a =>
      obtain ⟨⟨l, hl, hla⟩, hmin⟩ := (bestCost_eq_some_iff ..).1 hb
      simp only [List.mem_filter, beq_iff_eq]
      refine and_congr_right fun hn => ⟨fun h => h ▸ hmin, fun h => ?_⟩
      exact Nat.le_antisymm (hla ▸ h l hl) (hmin n hn)

/-! ## Turns (17 R314) -/

theorem hasTurn_of_noRivals {s : State} {n : Nat} {x : Packet} (h : rivals s n x = []) : hasTurn s n x = true := by
  simp [hasTurn, h]

/-- Management's packets go first. -/
theorem hasTurn_of_management {s : State} {n : Nat} {x y : Packet} (hy : y ∈ rivals s n x) (h7 : nextVc s y = 7) (hx : nextVc s x ≠ 7) :
    hasTurn s n x = false := by
  have waits : (rivals s n x).any (fun x => nextVc s x == 7) = true := List.any_eq_true.2 ⟨y, hy, by simp [h7]⟩
  simp [hasTurn, waits, hx]

/-- The oldest of a channel goes first. -/
theorem hasTurn_of_older {s : State} {n : Nat} {x y : Packet} (hy : y ∈ rivals s n x) (hv : nextVc s y = nextVc s x)
    (h6 : nextVc s x ≠ 6) (ho : y.since < x.since) : hasTurn s n x = false := by
  have older : (rivals s n x).any (fun y => nextVc s y == nextVc s x && (nextVc s x ≠ 6 || y.coll == x.coll) && decide (y.since < x.since)) =
      true := List.any_eq_true.2 ⟨y, hy, by simp [hv, h6, ho]⟩
  simp only [hasTurn, older, Bool.not_true, Bool.false_and]

/-! ## Packets at a router -/

theorem onDragon_of_lt {s : State} {x : Packet} (h : x.vc < 5) : onDragon s x = true := by simp [onDragon, h]

theorem onDragon_headland {s : State} {x : Packet} (h : x.vc = 5) : onDragon s x = false := by simp [onDragon, h]

theorem legalPorts_of_lt {s : State} {x : Packet} (h : x.vc < 5) : legalPorts s x = dragonPorts s x := by
  simp [legalPorts, onDragon_of_lt h]

theorem legalPorts_headland {s : State} {x : Packet} {q : Nat} (h : x.vc = 5) (ht : treeHop s x.at_ x.dst = some q) :
    legalPorts s x = ((neighbours s x.at_).filter fun n => n.2 == q).map (·.1) := by
  simp [legalPorts, onDragon_headland h, h, ht]

/-- The one output that leads to a package. -/
theorem head?_outputs_of_unique {l : List (Nat × Nat)} {m q : Nat} (hm : (m, q) ∈ l) (hone : ∀ n ∈ l, n.2 = q → n = (m, q)) :
    ((l.filter fun n => n.2 == q).map (·.1)).head? = some m := by
  have hmem : (m, q) ∈ l.filter fun n => n.2 == q := List.mem_filter.2 ⟨hm, beq_self_eq_true q⟩
  cases hf : l.filter fun n => n.2 == q with
  | nil => rw [hf] at hmem; exact absurd hmem List.not_mem_nil
  | cons a r =>
    obtain ⟨ha, haq⟩ := List.mem_filter.1 (hf ▸ List.mem_cons_self : a ∈ l.filter fun n => n.2 == q)
    rw [hone a ha (beq_iff_eq.1 haq)]
    rfl

/-- An output has room, credit and a turn for a packet (17 R312, R314). -/
def outputFree (s : State) (x : Packet) (n : Nat) : Bool := portRoom s x.at_ n x && hasCredit s n x && hasTurn s n x

theorem outputFree_iff (s : State) (x : Packet) (n : Nat) :
    outputFree s x n = true ↔ portRoom s x.at_ n x = true ∧ hasCredit s n x = true ∧ hasTurn s n x = true := by
  simp [outputFree, and_assoc]

/-- A packet leaves by an output that is free for it, and waits for one that is not. -/
def routeTo (s : State) (x : Packet) (n : Nat) : Out' :=
  if outputFree s x n then .next (takePort x n (nextVc s x) s)
  else .next { s with net := s.net.map fun y => if y.id = x.id then { x with want := some n } else y }

theorem routeTo_of_free {s : State} {x : Packet} {n : Nat} (h : outputFree s x n = true) :
    routeTo s x n = .next (takePort x n (nextVc s x) s) := if_pos h

section
variable {s : State} {k port : Nat} {x : Packet} (hx : s.net[k]? = some x) (hp : x.port = none) (hh : x.held = false) (ha : x.at_ ≠ x.dst)
include hx hp hh ha

theorem exec_packetRoute_dragon (hv : x.vc < 5) (hw : x.want = none) (hport : port ∈ dragonPorts s x) :
    exec (.packetRoute k port) s = routeTo s x port := by
  have h5 : x.vc ≠ 5 := Nat.ne_of_lt hv
  show execPacketRoute k port s = _
  simp [execPacketRoute, routeTo, outputFree, hx, hp, hh, ha, h5, hw, legalPorts_of_lt hv, hport]

theorem exec_packetRoute_headland {n : Nat} (hv : x.vc = 5) (he : x.epoch = (s.pkg x.at_).epoch) (hn : (legalPorts s x).head? = some n) :
    exec (.packetRoute k port) s = routeTo s x n := by
  show execPacketRoute k port s = _
  simp [execPacketRoute, routeTo, outputFree, hx, hp, hh, ha, hv, he, hn]

theorem exec_headlandMove_of_stuck (hv : x.vc < 5) (hd : s.drainAt = none) (hs : dragonPorts s x = [] ∨ x.since + 4096 ≤ s.ck) :
    exec (.headlandMove k) s = .next { s with net := s.net.map fun y =>
      if y.id = x.id then { y with vc := 5, want := none, epoch := (s.pkg x.at_).epoch } else y } := by
  show execHeadlandMove k s = _
  simp [execHeadlandMove, hx, hp, hh, ha, onDragon_of_lt hv, hd, Config.headlandCk, hs]

end

/-! ## Trees (17 R318) -/

theorem exec_treeSwitch_of_drained {s : State} {m : Nat} (hd : s.drainAt = some m)
    (h : (∀ k ∈ s.net, k.vc = 5 → k.at_ = k.dst) ∨ m + 40 * 3000 ≤ s.ck) :
    exec .treeSwitch s = .next { s with
      net := s.net.filter (fun k => !(k.vc == 5 && k.at_ ≠ k.dst)), drainAt := none, tree := buildTree s
      treeEpoch := (s.treeEpoch + 1) % 65536, pkgs := s.pkgs.map fun p => { p with epoch := (s.treeEpoch + 1) % 65536 } } := by
  have drained : (s.net.any (fun k => k.vc == 5 && k.at_ ≠ k.dst) && decide (s.ck < m + 40 * Config.ckPerUs)) = false := by
    rw [Bool.and_eq_false_iff]
    rcases h with h | h
    · exact .inl (List.any_eq_false.2 fun k hk => by simpa using h k hk)
    · exact .inr (decide_eq_false (Nat.not_lt.2 h))
  show execTreeSwitch s = _
  simp only [execTreeSwitch, hd, drained]
  rfl

end Sys2Proof.Machine

open Sys2Proof Sys2Proof.Machine

/-- Settles O46, clause by clause: lanes and links, flits, the outputs of a router and its choice among them, the turn and the hop of a packet,
and the switch of the headland tree. -/
theorem linksAndRouting : Obligations.LinksAndRouting := by
  unfold Obligations.LinksAndRouting
  intro s p port lane g q m k n dst vc f rest x both here there lanes
  refine ⟨fun hpeer hl hp => ?_, exec_spareLinkAssign_of_retired, fun hpeer hc => ?_, fun hpeer hc hs good => ?_,
    exec_flitReplay_of_nak, ⟨fun hn hq => peerOf_local hn hq, mem_neighbours_iff s p n q, portCost_mul_active s p port,
      mem_minimalPorts_iff s p dst n, mem_detourPorts_iff s p dst n, sourcePorts_of_noMinimal, fun a ha => ?_, ?_, rfl⟩,
    fun hx hp hh ha => ?_, rfl, exec_treeSwitch_of_drained⟩
  · have hset : ∀ on, setLane p port lane on s = lanes on := setLane_of_peer hpeer lane
    refine ⟨fun h => ?_, fun h => ?_, ?_, fun h => ?_⟩
    · rw [exec_laneFallow_of_lane hl hp, fallow, hset]
      exact congrArg Host.Outcome.next (if_neg (Nat.not_lt.2 h))
    · rw [exec_laneFallow_of_lane hl hp, fallow, hset]
      exact congrArg Host.Outcome.next (if_pos h)
    · rw [exec_laneRetrain_of_lane hl hp, hset]
    · rw [exec_linkReturn_of_retired hp h, modLink_of_peer hpeer]
  · exact ⟨exec_flitReceive_of_change hpeer hc true, exec_flitReceive_of_change hpeer hc false⟩
  · intro on drawn t taken u bad
    have hu : (s.crossed p port q m on good rest).judged p port q m good f = u := State.judged_eq ..
    have hex := exec_flitReceive_of_flit hpeer hc hs good
    refine ⟨stripe_nextLane, fun h => ?_, fun h => ?_⟩
    · rw [hex, hu]
      exact congrArg Host.Outcome.next (if_neg (Nat.not_lt.2 h))
    · rw [hex, hu]
      exact congrArg Host.Outcome.next (if_pos h)
  · refine ⟨fun b hb h => sourcePorts_of_dear ha hb h, fun h => ?_⟩
    rw [sourcePorts_of_cheap ha h]
    simp
  · simp only [mem_laterPorts_iff, mem_leadingPorts_iff]
  · intro free
    have hfree : ∀ l, outputFree s x l = true ↔ free l := outputFree_iff s x
    refine ⟨fun hv hw hport => ?_, hasTurn_of_noRivals, fun y hy => hasTurn_of_management hy, fun y hy => hasTurn_of_older hy,
      exec_headlandMove_of_stuck hx hp hh ha, fun hv ht he hm hone hf => ?_⟩
    · rw [exec_packetRoute_dragon hx hp hh ha hv hw hport]
      refine ⟨fun h => ?_, fun h => ?_⟩
      · rw [routeTo_of_free ((hfree _).2 h), nextVc, if_pos (onDragon_of_lt hv)]
      · exact if_neg fun e => h ((hfree _).1 e)
    · have hhead : (legalPorts s x).head? = some m := by
        rw [legalPorts_headland hv ht]
        exact head?_outputs_of_unique hm hone
      rw [exec_packetRoute_headland hx hp hh ha hv he hhead, routeTo_of_free ((hfree _).2 hf), nextVc, onDragon_headland hv, hv]
      rfl
end

section
/-! Every well-formed instruction is read back from its word, word pair or step (05 R84-R103; 21 R345). -/
namespace Sys2Proof.Laws
open Sys2Proof

/-! ## The format of each instruction -/

/-- The format of an instruction's word (05 R88-R93) by route (05 R98-R101): of the front end (F), of the C, L and S queues. The RRR words of
route C are those on elements and masks (11 R205-R209), and those that move, convert, reduce and load (11 R210-R222). A step is that of a
collective (21 R345), and an event has no word. -/
inductive Form where
  | rrrF | rriF | riF | xF | elemC | moveC | rriC | mxC | cxL | cxS | step | event

/-- The format of an instruction, as the opcode tables list it (05 R98-R101). -/
def form : Instr → Form
  | .add .. | .sub .. | .mul .. | .mulh .. | .div .. | .rem .. | .and .. | .or .. | .xor .. | .shl .. | .shr .. | .sra .. | .min ..
  | .max .. | .sel .. | .clz .. | .ctz .. | .popc .. | .fadd .. | .fsub .. | .fmul .. | .fdiv .. | .ffma .. | .fsqrt .. | .fmin ..
  | .fmax .. | .fcvt .. | .cmp .. | .fcmp .. | .pand .. | .por .. | .pxor .. | .pnot .. | .jr .. | .callr .. | .ret .. | .sow ..
  | .reap .. | .bar .. | .bard .. | .barj .. | .tokget .. | .tokset .. | .wtany .. | .wtall .. | .wtff .. | .wcnt .. | .qfence ..
  | .rel .. | .acq .. | .tagclr .. | .aadd .. | .afadd .. | .amin .. | .amax .. | .aand .. | .aor .. | .axor .. | .aswap .. | .acas ..
  | .tfence .. | .sysNop .. | .sysDtime .. | .sysHostevent .. | .sysAllowance .. | .sysEstimate .. | .sysCtxinfo .. | .sysNoService ..
  | .pchg .. | .tlbi .. | .tlbia .. | .blclr .. | .blq .. | .mfmt .. | .karm .. | .kstat .. | .kdis .. => .rrrF
  | .addi .. | .andi .. | .ori .. | .xori .. | .shli .. | .shri .. | .srai .. | .muli .. | .lea .. | .ld8 .. | .ld16 .. | .ld32 ..
  | .ld64 .. | .ld8s .. | .ld16s .. | .ld32s .. | .st8 .. | .st16 .. | .st32 .. | .st64 .. | .lset .. | .sget .. | .ssetFpc ..
  | .ssetFps .. | .ssetTags .. | .ssetLease .. | .ssetPrio .. | .ssetMemb .. | .ssetLc .. | .ssetBase .. => .rriF
  | .movi .. | .movhi .. | .br .. | .call .. | .lend .. => .riF
  | .leal .. | .movl .. => .xF
  | .vadd .. | .vsub .. | .vmul .. | .vmulh .. | .vfma .. | .vfms .. | .vfnma .. | .vabs .. | .vneg .. | .vmin .. | .vmax .. | .vabd ..
  | .vclamp .. | .vdiv .. | .vand .. | .vor .. | .vxor .. | .vnot .. | .vshl .. | .vshr .. | .vsra .. | .vrot .. | .vcmp .. | .vsel ..
  | .kand .. | .kor .. | .kxor .. | .knot .. | .kmov .. | .kmovS .. | .kpop .. => .elemC
  | .vperm .. | .vrev .. | .vzip .. | .vunzip ..
  | .vslide .. | .vbcast .. | .vbcastEl .. | .vext .. | .vins .. | .vmov .. | .vcmpr .. | .vexpd .. | .vwadd .. | .vwmul .. | .vwcvt ..
  | .vnar .. | .vcvt .. | .vunpk .. | .vsum .. | .vsumw .. | .vmaxr .. | .vminr .. | .vexp .. | .vexp2 .. | .vlog2 .. | .vrcp ..
  | .vrsqrt .. | .vsqrt .. | .vsin .. | .vcos .. | .vtanh .. | .vsigm .. | .vrand .. | .vlds .. | .vsts .. | .vldx .. | .vstx .. => .moveC
  | .vld .. | .vst .. | .vldb .. => .rriC
  | .mlease .. | .mrel .. | .mmul .. | .mslice .. | .mzero .. | .mld .. | .mst .. | .msow .. => .mxC
  | .cpy .. | .cgat .. | .cmc .. | .cget .. | .await .. => .cxL
  | .cpyo .. | .cput .. | .ksig .. | .asub .. | .aunsub .. | .amerge .. | .afin .. => .cxS
  | .send .. | .recv .. | .rrs .. | .copy .. | .wait .. | .loop .. | .endl .. | .peer .. | .halt => .step
  | _ => .event

/-! ## Words that pass the checks of their format -/

/-- The operands of an RRR word are all that its instruction accepts (05 R103, FIELD to COMBO). -/
def Admits (n : Need) (r : RRR) : Prop :=
  (n.d.fieldOk r.d && n.a.fieldOk r.a && n.b.fieldOk r.b && n.c.fieldOk r.c) = true ∧ n.ty.getD (r.ty == 0 && r.ty2 == 0) = true ∧
    (r.rnd == 0 || (n.rnd && r.rnd ≤ 4)) = true ∧ (!r.sat || n.sat) = true ∧ (r.scope == 0 || (n.scope && r.scope ≤ 4)) = true ∧
    n.opx.getD (r.opx == 0) = true ∧ (n.d.regOk r.d && n.a.regOk r.a && n.b.regOk r.b && n.c.regOk r.c) = true ∧
    n.align = true ∧ (r.km == 0 || n.km) = true

/-- The operands of an RRI, RI or two-word form are all that its instruction accepts (05 R103, FIELD to COMBO). -/
def AdmitsI (n : NeedI) (d a : Reg) : Prop :=
  (n.d.fieldOk d && n.a.fieldOk a) = true ∧ n.sel = true ∧ (n.d.regOk d && n.a.regOk a) = true ∧ n.combo = true

theorem checkRrr_none {w : Raw} {r : RRR} {n : Need} (ht : tokOk w = true) (hn : Admits n r) (hg : guardOk w = true) :
    checkRrr w r (some n) = none := by
  obtain ⟨hfield, hty, hrnd, hsat, hscope, hopx, hreg, halign, hkm⟩ := hn
  simp only [checkRrr, ht, hfield, hty, hrnd, hsat, hscope, hopx, hreg, halign, hkm, hg, firstBad]

theorem checkImm_none {w : Raw} {d a : Reg} {n : NeedI} (ht : tokOk w = true) (hn : AdmitsI n d a) (hg : guardOk w = true) :
    checkImm w d a true (some n) = none := by
  obtain ⟨hfield, hsel, hreg, hcombo⟩ := hn
  simp only [checkImm, ht, hfield, hsel, hreg, hcombo, hg, firstBad, Bool.and_true]

section
variable {i j : Instr} {g : Sys2Proof.Guard} {h : EHead} {op : BitVec 8}

/-- A front-end RRR word with a legal guard and operands that are accepted reads back as what is built from its fields; so do the words
of the other formats. -/
theorem readsBack_rrrF {r : RRR} {n : Need} (he : encode i = .word ((Hd.f g).word op r.toBits)) (hf : fmtOf 0 op = .rrr)
    (hn : needF op r = some n) (hb : buildF op g r = some j) (hw : g.ok = true ∧ Admits n r ∧ j = i) : ReadsBack i := by
  obtain ⟨hg, ha, rfl⟩ := hw
  exact rt_rrrF he hf (hn ▸ checkRrr_none rfl ha hg) hb

theorem readsBack_rrrC {r : RRR} {n : Need} (he : encode i = .word ((Hd.e 2 h).word op r.toBits)) (hf : fmtOf 2 op = .rrr)
    (hn : needC op r = some n) (hb : buildC op h r = some j) (hw : h.okC = true ∧ Admits n r ∧ j = i) : ReadsBack i := by
  obtain ⟨hg, ha, rfl⟩ := hw
  exact rt_rrrC he hf (hn ▸ checkRrr_none rfl ha hg) hb

theorem readsBack_rriF {r : RRI} {n : NeedI} (he : encode i = .word ((Hd.f g).word op r.toBits)) (hf : fmtOf 0 op = .rri)
    (hn : needRri op r = some n) (hb : buildRri op g r = some j) (hw : g.ok = true ∧ AdmitsI n r.d r.a ∧ j = i) : ReadsBack i := by
  obtain ⟨hg, ha, rfl⟩ := hw
  exact rt_rriF he hf (hn ▸ checkImm_none rfl ha hg) hb

theorem readsBack_riF {r : RI} {n : NeedI} (he : encode i = .word ((Hd.f g).word op r.toBits)) (hf : fmtOf 0 op = .ri)
    (hn : needRi op r = some n) (hb : buildRi op g r = some j) (hw : g.ok = true ∧ AdmitsI n r.d 0 ∧ j = i) : ReadsBack i := by
  obtain ⟨hg, ha, rfl⟩ := hw
  exact rt_riF he hf (hn ▸ checkImm_none rfl ha hg) hb

theorem readsBack_xF {d a : Reg} {x : W64} {n : NeedI} (he : encode i = .pair ((Hd.f g).word op (XX.toBits { d := d, a := a })) x)
    (hf : fmtOf 0 op = .x) (hn : needX op { d := d, a := a } = some n) (hb : buildX op g { d := d, a := a } x = some j)
    (hw : g.ok = true ∧ AdmitsI n d a ∧ j = i) : ReadsBack i := by
  obtain ⟨hg, ha, rfl⟩ := hw
  exact rt_xF he hf (hn ▸ checkImm_none rfl ha hg) hb

theorem readsBack_rriC {r : RRI} {n : NeedI} (he : encode i = .word ((Hd.e 2 h).word op r.toBits)) (hf : fmtOf 2 op = .rri)
    (hn : needRriC op r = some n) (hb : buildRriC op h r = some j) (hw : h.okC = true ∧ AdmitsI n r.d r.a ∧ j = i) : ReadsBack i := by
  obtain ⟨hg, ha, rfl⟩ := hw
  exact rt_rriC he hf (hn ▸ checkImm_none rfl ha hg) hb

/-- What has no encoding reads back: there is nothing to read. -/
theorem readsBack_none (he : encode i = .none) : ReadsBack i := by
  intro ext
  rw [he]
  exact ⟨nofun, nofun, nofun⟩
end

/-! ## Operand fields that are put together from several operands -/

/-- The queue bits of a `qfence` read back one by one. -/
theorem qfence_bits (f l c s : Bool) :
    let x : BitVec 6 := bit 0 f ||| bit 1 l ||| bit 2 c ||| bit 3 s
    x.getLsbD 0 = f ∧ x.getLsbD 1 = l ∧ x.getLsbD 2 = c ∧ x.getLsbD 3 = s := by
  revert f l c s; decide

/-- Of an OPX that is put together from `.sb` and `.sc`, each bit comes from its own operand. -/
theorem bit0_at1 (b : Bool) : (bit 0 b : BitVec 6)[1] = false := (bits2be b false).1
theorem bit1_at0 (b : Bool) : (bit 1 b : BitVec 6)[0] = false := (bits2ae false b).2
theorem bit1_at1 (b : Bool) : (bit 1 b : BitVec 6)[1] = b := (bits2be false b).2

/-- The numbers from 6 on name no service of `sys`. -/
theorem sysNoService_number {n : BitVec 4} (hn : 6 ≤ n.toNat) (m : BitVec 6) (hm : m ≤ 5) : n.setWidth 6 ≠ m := by
  have above : ∀ n : BitVec 4, 6 ≤ n.toNat → 5#6 < n.setWidth 6 := by decide
  exact fun h => absurd (h ▸ above n hn) (by simpa using hm)

theorem sysNoService_built (g : Sys2Proof.Guard) (d a : Reg) (n : BitVec 4) (hn : 6 ≤ n.toNat) :
    buildF 0x8b g { d := d, a := a, opx := n.setWidth 6 } = some (.sysNoService g d a n) := by
  simp [buildF, sysNoService_number hn]

/-- `sset` names each loop counter and each buffer address by its number. -/
theorem ssetLc_built (g : Sys2Proof.Guard) (n : Bool) (a : Reg) :
    buildRri 0x89 g { a := a, imm := if n then 5 else 4 } = some (.ssetLc g n a) := by
  cases n <;> rfl

theorem ssetBase_number (n : BitVec 4) (m : BitVec 36) (hm : m ≤ 8) : 0x20#36 ||| n.setWidth 36 ≠ m := by
  have above : ∀ n : BitVec 4, 8#36 < 0x20#36 ||| n.setWidth 36 := by decide
  exact fun h => absurd (h ▸ above n) (by simpa using hm)

theorem ssetBase_built (g : Sys2Proof.Guard) (n : BitVec 4) (a : Reg) :
    buildRri 0x89 g { a := a, imm := 0x20#36 ||| n.setWidth 36 } = some (.ssetBase g n a) := by
  simp [buildRri, ssetBase_number]

/-- A widening word that rounds or saturates is of a float type (11 R212). -/
theorem widens_ok {ty : Ty} {rnd : Rnd} {sat : Bool} (h : ty.isFloat = true ∨ rnd = .dyn ∧ sat = false) :
    (rnd = .dyn ∨ ty.isFloat = true) ∧ (sat = false ∨ ty.isFloat = true) := by
  rcases h with h | ⟨hrnd, hsat⟩
  · exact ⟨.inr h, .inr h⟩
  · exact ⟨.inl hrnd, .inl hsat⟩

/-! ## Each format

The lemma of its format reduces each case to the checks that the word must pass, which are what well-formedness says of the operands, and to
the codes of the operands, which read back. -/

theorem readsBack_of_event {i : Instr} (hf : form i = .event) : ReadsBack i := by
  apply readsBack_none
  cases i <;> cases hf <;> rfl

theorem readsBack_of_step {i : Instr} (hf : form i = .step) : ReadsBack i := by
  cases i <;> cases hf
  all_goals
    refine step_rt rfl fun w hps hx hmr hm0 hm1 hv hop => ?_
    simp_all [decodeStep, coefRound]

theorem readsBack_of_rriF {i : Instr} (hf : form i = .rriF) (hw : i.wf = true) : ReadsBack i := by
  cases i <;> cases hf
  case ssetLc g n a => exact readsBack_rriF rfl rfl rfl (ssetLc_built g n a) ⟨hw, by simp [AdmitsI, Cls.fieldOk, Cls.regOk], rfl⟩
  case ssetBase g n a => exact readsBack_rriF rfl rfl rfl (ssetBase_built g n a) ⟨hw, by simp [AdmitsI, Cls.fieldOk, Cls.regOk], rfl⟩
  all_goals
    refine readsBack_rriF rfl rfl rfl rfl ?_
    simp only [Instr.wf, Bool.and_eq_true] at hw
    simp_all [AdmitsI, Cls.fieldOk, Cls.regOk]

theorem readsBack_of_riF {i : Instr} (hf : form i = .riF) (hw : i.wf = true) : ReadsBack i := by
  cases i <;> cases hf
  all_goals
    refine readsBack_riF rfl rfl rfl rfl ⟨hw, ?_⟩
    simp [AdmitsI, Cls.fieldOk, Cls.regOk]

theorem readsBack_of_xF {i : Instr} (hf : form i = .xF) (hw : i.wf = true) : ReadsBack i := by
  cases i <;> cases hf
  all_goals
    refine readsBack_xF rfl rfl rfl rfl ⟨hw, ?_⟩
    simp [AdmitsI, Cls.fieldOk, Cls.regOk]

theorem readsBack_of_rriC {i : Instr} (hf : form i = .rriC) (hw : i.wf = true) : ReadsBack i := by
  cases i <;> cases hf
  all_goals
    refine readsBack_rriC rfl rfl rfl rfl ⟨hw, ?_⟩
    simp [AdmitsI, Cls.fieldOk, Cls.regOk]

theorem readsBack_of_rrrF {i : Instr} (hf : form i = .rrrF) (hw : i.wf = true) : ReadsBack i := by
  cases i <;> cases hf
  case sysNoService g d a n =>
    obtain ⟨hg, hn⟩ := Bool.and_eq_true_iff.1 hw
    exact readsBack_rrrF rfl rfl rfl (sysNoService_built g d a n (of_decide_eq_true hn))
      ⟨hg, by simp [Admits, Cls.fieldOk, Cls.regOk], rfl⟩
  case qfence g f l c s =>
    obtain ⟨hg, hq⟩ := Bool.and_eq_true_iff.1 hw
    obtain ⟨h0, h1, h2, h3⟩ := qfence_bits f l c s
    refine readsBack_rrrF rfl rfl rfl rfl ⟨hg, by simpa [Admits, Cls.fieldOk, Cls.regOk] using hq, ?_⟩
    rw [h0, h1, h2, h3]
  all_goals
    refine readsBack_rrrF rfl rfl rfl rfl ?_
    simp only [Instr.wf, Bool.and_eq_true] at hw
    simp_all [Admits, isTys, Cls.fieldOk, Cls.regOk]

theorem readsBack_of_elemC {i : Instr} (hf : form i = .elemC) (hw : i.wf = true) : ReadsBack i := by
  cases i <;> cases hf
  all_goals
    refine readsBack_rrrC rfl rfl rfl rfl ?_
    simp only [Instr.wf, Bool.and_eq_true] at hw
    simp_all [Admits, isTy, Cls.fieldOk, Cls.regOk, bit0_at1, bit1_at0, bit1_at1]

theorem readsBack_of_moveC {i : Instr} (hf : form i = .moveC) (hw : i.wf = true) : ReadsBack i := by
  cases i <;> cases hf
  case vwadd | vwmul =>
    simp only [Instr.wf, Bool.and_eq_true, Bool.or_eq_true] at hw
    obtain ⟨hg, ⟨hpair, hround⟩, halign⟩ := hw
    have := widens_ok (by simpa using hround)
    refine readsBack_rrrC rfl rfl rfl rfl ⟨hg, ?_, ?_⟩
    · simp_all [Admits, isTys, Cls.fieldOk, Cls.regOk]
    · simp
  all_goals
    refine readsBack_rrrC rfl rfl rfl rfl ?_
    simp only [Instr.wf, Bool.and_eq_true] at hw
    simp_all [Admits, isTy, isTys, Cls.fieldOk, Cls.regOk]

theorem readsBack_of_mxC {i : Instr} (hf : form i = .mxC) (hw : i.wf = true) : ReadsBack i := by
  cases i <;> cases hf
  all_goals
    refine rt_mxC rfl rfl ?_ ?_
    · simp only [Instr.wf, Bool.and_eq_true] at hw
      simp_all [checkMx, MX.fieldOk, MX.comboOk, tokOk, guardOk, EHead.okC, Sys2Proof.Guard.ok]
    · simp [buildMx]

theorem readsBack_of_cxL {i : Instr} (hf : form i = .cxL) (hw : i.wf = true) : ReadsBack i := by
  cases i <;> cases hf
  all_goals
    refine rt_cxL rfl ?_ ?_
    · simp only [Instr.wf, Bool.and_eq_true] at hw
      simp_all [checkCx, CXW.toB, CXB.fieldOk, CXB.copies, tokOk, guardOk, EHead.okL, Sys2Proof.Guard.ok]
    · simp [buildL]

theorem readsBack_of_cxS {i : Instr} (hf : form i = .cxS) (hw : i.wf = true) : ReadsBack i := by
  cases i <;> cases hf
  all_goals
    refine rt_cxS rfl ?_ ?_
    · simp only [Instr.wf, Bool.and_eq_true] at hw
      simp_all [checkCx, CXW.toB, CXB.fieldOk, CXB.copies, tokOk, guardOk, EHead.okS, Sys2Proof.Guard.ok]
    · simp [buildS]

/-- Every well-formed instruction is read back from its word, pair or step. -/
theorem readsBack (i : Instr) (hw : i.wf = true) : ReadsBack i := by
  cases hf : form i with
  | rrrF => exact readsBack_of_rrrF hf hw
  | rriF => exact readsBack_of_rriF hf hw
  | riF => exact readsBack_of_riF hf hw
  | xF => exact readsBack_of_xF hf hw
  | elemC => exact readsBack_of_elemC hf hw
  | moveC => exact readsBack_of_moveC hf hw
  | rriC => exact readsBack_of_rriC hf hw
  | mxC => exact readsBack_of_mxC hf hw
  | cxL => exact readsBack_of_cxL hf hw
  | cxS => exact readsBack_of_cxS hf hw
  | step => exact readsBack_of_step hf
  | event => exact readsBack_of_event hf

end Sys2Proof.Laws

open Sys2Proof Sys2Proof.Laws

/-- Settles O59: each format's fields read back from its word, and what a well-formed instruction puts in them passes the checks. -/
theorem decodeEncode : Obligations.DecodeEncode := by
  unfold Obligations.DecodeEncode
  exact fun i ext hw => readsBack i hw ext
end

section
/-! Words that the chapters write out (05 R84-R93; 21 R345). -/
namespace Sys2Proof.Laws

/-- The word that a well-formed instruction encodes to decodes to it. -/
theorem decodeWord_of_encode {i : Instr} {w : W64} (hw : i.wf = true) (he : encode i = .word w) (ext : W64 := 0) : decodeWord w ext = .ok i :=
  ((readsBack i hw ext).1 w he).1

/-- The step that a well-formed instruction encodes to decodes to it. -/
theorem decodeStep_of_encode {i : Instr} {w : BitVec 32} (hw : i.wf = true) (he : encode i = .step w) : decodeStep w = some i :=
  (readsBack i hw 0).2.2 w he

/-- A word that fails a check of the scanner does not decode. -/
theorem decodeWord_of_scan {w : W64} {r : Reason} (h : scanWord w = some r) (ext : W64 := 0) : decodeWord w ext = .error r := by
  rw [decodeWord, h]

end Sys2Proof.Laws

open Sys2Proof Sys2Proof.Laws

/-- Settles O58: seventeen words and five steps are the encodings of well-formed instructions, and two words fail the scanner's checks. -/
theorem decodeWords : Obligations.DecodeWords := by
  unfold Obligations.DecodeWords
  refine ⟨?_, ?_, ?_, ?_, ?_, ?_, ?_, ?_, ?_, ?_, ?_, ?_, ?_, ?_, ?_, ?_, ?_, ?_, ?_, ?_, ?_, ?_, ?_, ?_⟩
  iterate 17 exact decodeWord_of_encode rfl (by decide)
  iterate 2 exact decodeWord_of_scan (by decide)
  all_goals exact decodeStep_of_encode rfl (by decide)
end

section
/-! Front-end words: the false guard, the wait for load data, and transfers of control (05 R86, R105; 09 R165, R171, R172). -/
namespace Sys2Proof.Machine

/-! ## Words that wait -/

/-- Load data that has not come for one register of the list is load data that has not come for the list. -/
theorem Seq.clear_eq_false {q : Seq} {rs : List Reg} : q.clear rs = false ↔ ∃ r ∈ rs, q.loading r = true := by
  simp [Seq.clear]

/-- A word that names a register whose load data has not come stays (09 R165). -/
theorem frontWord_waits {s : State} {g : Guard} {rs : List Reg} (n : Nat) (body : Seq → State → State) (h : s.has s.who = true)
    (hg : (s.seq s.who).guard g = true) (hl : ∃ r ∈ rs, (s.seq s.who).loading r = true) : frontWord n g rs body s = .next s := by
  simp [frontWord, h, hg, Seq.clear_eq_false.2 hl]

/-! ## Transfers -/

/-- What fetchOk checks is that the target is legal (05 R105). -/
theorem fetchOk_iff (s : State) (i : Sid) (t : W64) :
    (vget {} (s.pkg i.pkg).slots (s.seq i).slotN.toNat).fetchOk t = true ↔ GoodTarget s i t := by
  simp [Slot.fetchOk, GoodTarget, and_assoc]

theorem transfer_good {s : State} {i : Sid} {t : W64} (h : GoodTarget s i t) (f : Seq → Seq) :
    transfer i t f s = s.modSeq i fun q => { f q with pc := t } :=
  if_pos ((fetchOk_iff s i t).2 h)

theorem transfer_bad {s : State} {i : Sid} {t : W64} (h : ¬ GoodTarget s i t) (f : Seq → Seq) :
    transfer i t f s = takeFault i { code := 0x0F, caddr := (s.seq i).pc, addr := t } s :=
  if_neg (mt (fetchOk_iff s i t).1 h)

/-- A ready word that transfers control takes a legal target; any other raises "fetch range", and f does not act. -/
theorem frontWord_transfer {s : State} {g : Guard} {rs : List Reg} (h : Ready s g rs) (n : Nat) (t : Seq → W64) (f : Seq → Seq → Seq) :
    let q := s.seq s.who
    let o := frontWord n g rs (fun q s => transfer s.who (t q) (f q) s) s
    (GoodTarget s s.who (t q) → o = .next (s.modSeq s.who fun x => { f q x with pc := t q })) ∧
      (¬ GoodTarget s s.who (t q) → o = .next (takeFault s.who { code := 0x0F, caddr := q.pc, addr := t q } s)) := by
  refine ⟨fun ht => ?_, fun ht => ?_⟩
  · rw [frontWord_ready h, transfer_good ht]
  · rw [frontWord_ready h, transfer_bad ht]

/-- `lend` branches while the counter that it lowers is above 0. -/
theorem execLend_branch {s : State} {g : Guard} {n : Bool} (h : Ready s g []) (imm : BitVec 41)
    (hv : 0 < ((s.seq s.who).lcr n - 1).toInt) :
    execLend g n imm s = frontWord 8 g [] (fun q s => transfer s.who (branchTarget q.pc imm) (fun x => x.setLcr n (q.lcr n - 1)) s) s := by
  simp only [execLend, frontWord_ready h, hv, if_true]

/-- `lend` goes on where the counter that it lowers is no longer above 0. -/
theorem execLend_end {s : State} {g : Guard} {n : Bool} (h : Ready s g []) (imm : BitVec 41)
    (hv : ¬ 0 < ((s.seq s.who).lcr n - 1).toInt) :
    execLend g n imm s = .next (s.modSeq s.who fun x => (x.setLcr n ((s.seq s.who).lcr n - 1)).adv 8) := by
  simp only [execLend, frontWord_ready h, hv, if_false]

end Sys2Proof.Machine

open Sys2Proof Sys2Proof.Machine

/-- Settles O6: each transfer is a front-end word that either takes its legal target or faults with nothing changed. -/
theorem controlTransfers : Obligations.ControlTransfers := by
  unfold Obligations.ControlTransfers
  intro s g n d a imm imm36
  refine ⟨fun h => ?_, fun h => ⟨?_, ?_, ?_⟩, fun h => ?_, fun h => ?_, fun h => ⟨fun hv => ?_, fun hv => ?_⟩⟩
  · exact frontWord_transfer h 8 (fun q => branchTarget q.pc imm) fun _ => id
  · exact frontWord_transfer h 8 (fun q => q.sr a) fun _ => id
  · exact frontWord_transfer h 8 (fun q => q.sr a) fun _ => id
  · exact regWord_ready h 8 _
  · exact frontWord_transfer h 8 (fun q => branchTarget q.pc imm) fun _ q => q.setS d (q.pc + 8)
  · exact frontWord_transfer h 8 (fun q => q.sr a) fun _ q => q.setS d (q.pc + 8)
  · have hb : exec (.lend g n imm) s = _ := execLend_branch h imm hv
    rw [hb]
    exact frontWord_transfer h 8 (fun q => branchTarget q.pc imm) fun q x => x.setLcr n (q.lcr n - 1)
  · exact execLend_end h imm hv

/-- Settles O7: every word of frontOf runs as one front-end word, whose guard comes first and whose load data comes second. -/
theorem guardAndLoadHazard : Obligations.GuardAndLoadHazard := by
  unfold Obligations.GuardAndLoadHazard
  intro s i g n rs hi hs
  obtain ⟨body, hexec⟩ := exec_front hi
  rw [hexec]
  exact ⟨frontWord_skip s n g rs body hs, frontWord_waits n body hs⟩
end

section
/-! Vector logic, shifts, compares, selects and masks (11 R206-R209; 07 R133). -/
namespace Sys2Proof.Machine

variable {s : State} {h : EHead} {x : Entry}

/-! ## Values of elements -/

/-- A power of two, as an integer. -/
theorem cast_two_pow (k : Nat) : ((2 ^ k : Nat) : Int) = 2 ^ k := Int.natCast_pow 2 k

/-- A pattern taken modulo 2^w, as an integer. -/
theorem cast_mod_two_pow (w n : Nat) : ((n % 2 ^ w : Nat) : Int) = (n : Int) % 2 ^ w :=
  (Int.natCast_emod n (2 ^ w)).trans (congrArg ((n : Int) % ·) (cast_two_pow w))

/-- Complementing a pattern of width w takes it from the largest one. -/
theorem cast_complement {w m : Nat} (h : m < 2 ^ w) : ((2 ^ w - 1 - m : Nat) : Int) = 2 ^ w - 1 - m := by
  rw [← cast_two_pow]
  omega

/-- The pattern of an integer, as that integer modulo 2^w. -/
theorem cast_wrapInt_mod (w : Nat) (v : Int) : ((wrapInt w v % 2 ^ w : Nat) : Int) = v % 2 ^ w := by
  rw [cast_mod_two_pow, wrapInt_cast, Int.emod_emod_of_dvd _ (Int.dvd_refl _)]

/-- An element of width w as a signed integer (07 R120). -/
def signedElem (w n : Nat) : Int := if 2 ^ (w - 1) ≤ n then (n : Int) - 2 ^ w else n

/-- An element as an integer of its type (07 R120). -/
def intElem (ty : Ty) (n : Nat) : Int := if ty.isSigned then signedElem ty.width n else n

theorem intOf_true_of_lt {w n : Nat} (h : n < 2 ^ w) : intOf w true n = signedElem w n := intOf_eq w true n h

theorem tyInt_of_lt {ty : Ty} {n : Nat} (h : n < 2 ^ ty.width) : tyInt ty n = intElem ty n := intOf_eq ty.width ty.isSigned n h

/-- A chunk of 64 bits is replaced, and the other bits stay (11 R209). -/
theorem mskChunk_bit (m : Msk) (c : Nat) (v : W64) (i : Nat) (hi : i < 1024) :
    (mskChunk m c v).getLsbD i = if i / 64 = c then v.getLsbD (i % 64) else m.getLsbD i := by
  simp only [mskChunk, BitVec.getLsbD_or, BitVec.getLsbD_and, BitVec.getLsbD_not, BitVec.getLsbD_shiftLeft, BitVec.getLsbD_setWidth,
    BitVec.getLsbD_allOnes, hi, decide_true, Bool.true_and]
  by_cases hc : i / 64 = c
  · have hlo : ¬ i < 64 * c := by omega
    have hsub : i - 64 * c = i % 64 := by omega
    have h64 : i % 64 < 64 := by omega
    simp only [hc, hlo, hsub, h64, show i % 64 < 1024 by omega, if_true, decide_true, decide_false, Bool.not_false, Bool.and_true,
      Bool.true_and, Bool.not_true, Bool.and_false, Bool.false_or]
  · rw [if_neg hc]
    rcases Nat.lt_or_ge i (64 * c) with hlo | hlo
    · simp only [hlo, decide_true, Bool.not_true, Bool.false_and, Bool.not_false, Bool.and_true, Bool.or_false]
    · have hhi : 64 ≤ i - 64 * c := by omega
      simp only [Nat.not_lt.2 hhi, BitVec.getLsbD_of_ge v _ hhi, decide_false, Bool.and_false, Bool.not_false, Bool.and_true, Bool.or_false]

/-! ## The forms of 11 R204 -/

/-- A vector operand is less than 2^w, whether it is an element or a scalar as every element. -/
theorem vecOpd_lt (w : Nat) (sb : Bool) (x : Entry) (q : Seq) (b : Reg) (i : Nat) : vecOpd w sb x 0 q b i < 2 ^ w := by
  rw [vecOpd]
  split
  · exact Nat.mod_lt _ (Nat.two_pow_pos w)
  · exact velem_lt _ _ _

/-- What a word with two operands writes, where f agrees with val modulo 2^w and in its flags. -/
theorem vec2_writes (hi : Issues s .c h x) (ty : Ty) (sb : Bool) (km : KReg) (d a b : Reg) (f : Entry → Nat → Nat → Nat × Nat)
    (val : Nat → Nat → Int × Nat)
    (hv : ∀ m < 2 ^ ty.width, ∀ n < 2 ^ ty.width,
      (((f x m n).1 % 2 ^ ty.width : Nat) : Int) = (val m n).1 % 2 ^ ty.width ∧ (f x m n).2 = (val m n).2) :
    VecWrites s h x ty.width km d (fun q i => val (velem ty.width (q.vr a) i) (vecOpd ty.width sb x 0 q b i)) (vec2 h ty sb km d a b f s) :=
  vecElems_writes hi ty.width km d _ (Nat.le_of_eq (width_elems ty).2) _ fun _ _ => hv _ (velem_lt _ _ _) _ (vecOpd_lt _ _ _ _ _ _)

/-- A word with two operands whose result is a bit pattern, and that sets no flag. -/
theorem vec2_pattern (hi : Issues s .c h x) (ty : Ty) (sb : Bool) (km : KReg) (d a b : Reg) (f : Nat → Nat → Nat) :
    VecWrites s h x ty.width km d (fun q i => ((f (velem ty.width (q.vr a) i) (vecOpd ty.width sb x 0 q b i) : Nat), 0))
      (vec2 h ty sb km d a b (fun _ m n => (f m n, 0)) s) :=
  vec2_writes hi ty sb km d a b _ (fun m n => ((f m n : Nat), 0)) fun _ _ _ _ => ⟨cast_mod_two_pow _ _, rfl⟩

/-- What a word with one operand writes, where f agrees with val modulo 2^w and in its flags. -/
theorem vec1_writes (hi : Issues s .c h x) (ty : Ty) (km : KReg) (d a : Reg) (f : Entry → Nat → Nat × Nat) (val : Nat → Int × Nat)
    (hv : ∀ m < 2 ^ ty.width, (((f x m).1 % 2 ^ ty.width : Nat) : Int) = (val m).1 % 2 ^ ty.width ∧ (f x m).2 = (val m).2) :
    VecWrites s h x ty.width km d (fun q i => val (velem ty.width (q.vr a) i)) (vec1 h ty km d a f s) :=
  vecElems_writes hi ty.width km d _ (Nat.le_of_eq (width_elems ty).2) _ fun _ _ => hv _ (velem_lt _ _ _)

/-- What a word writes that makes one whole mask and sets no flag. -/
theorem vecWord_mask (hi : Issues s .c h x) (kd : KReg) (m : Entry → Seq → Msk) (val : Seq → Nat → Bool)
    (hv : ∀ q, ∀ i < 1024, (m x q).getLsbD i = val q i) :
    ∃ f : Seq → Seq, VecEnds s h x f (vecWord h (fun x q => (q.setK kd (m x q), 0)) s) ∧
      ∀ q, ∃ n, f q = q.setK kd n ∧ ∀ i < 1024, n.getLsbD i = val q i :=
  ⟨_, vecWord_ends hi _, fun q => ⟨m x q, Seq.orFps_zero _, hv q⟩⟩

/-! ## Shifts, selects, compares and masks -/

section
variable (hi : Issues s .c h x) (ty : Ty) (sat sb : Bool) (cond : Cond) (km ka kc kd : KReg) (d a b : Reg)

include hi in
theorem vnot_writes : VecWrites s h x ty.width km d (fun q i => (2 ^ ty.width - 1 - (velem ty.width (q.vr a) i : Int), 0))
    (exec (.vnot h ty km d a) s) :=
  vec1_writes hi ty km d a (fun _ m => (2 ^ ty.width - 1 - m, 0)) (fun m => (2 ^ ty.width - 1 - (m : Int), 0)) fun m hm =>
    ⟨by rw [cast_mod_two_pow, cast_complement hm], rfl⟩

include hi in
theorem vshl_writes : VecWrites s h x ty.width km d
    (fun q i => vecInt ty sat (intElem ty (velem ty.width (q.vr a) i) * 2 ^ (vecOpd ty.width sb x 0 q b i % ty.width)))
    (exec (.vshl h ty sat sb km d a b) s) := by
  refine vec2_writes hi ty sb km d a b (fun _ m n => intResult ty.width ty.isSigned sat (tyInt ty m * (2 ^ (n % ty.width) : Nat)))
    (fun m n => vecInt ty sat (intElem ty m * 2 ^ (n % ty.width))) fun m hm n _ => ?_
  rw [← tyInt_of_lt hm, ← cast_two_pow]
  exact intResult_eq ty sat _

include hi in
theorem vsra_writes : VecWrites s h x ty.width km d
    (fun q i => (Int.fdiv (signedElem ty.width (velem ty.width (q.vr a) i)) (2 ^ (vecOpd ty.width sb x 0 q b i % ty.width)), 0))
    (exec (.vsra h ty sb km d a b) s) := by
  refine vec2_writes hi ty sb km d a b
    (fun _ m n => (wrapInt ty.width (Int.fdiv (intOf ty.width true m) (2 ^ (n % ty.width) : Nat)), 0))
    (fun m n => (Int.fdiv (signedElem ty.width m) (2 ^ (n % ty.width)), 0)) fun m hm n _ => ⟨?_, rfl⟩
  rw [cast_wrapInt_mod, intOf_true_of_lt hm, cast_two_pow]

include hi in
theorem vrot_writes : VecWrites s h x ty.width km d
    (fun q i =>
      let m := velem ty.width (q.vr a) i
      let n := vecOpd ty.width sb x 0 q b i % ty.width
      ((m * 2 ^ n + m / 2 ^ (ty.width - n) : Nat), 0))
    (exec (.vrot h ty sb km d a b) s) :=
  vec2_writes hi ty sb km d a b (fun _ m n => (rotLeft ty.width m (n % ty.width), 0))
    (fun m n => ((m * 2 ^ (n % ty.width) + m / 2 ^ (ty.width - n % ty.width) : Nat), 0)) fun _ _ _ _ =>
      ⟨by rw [rotLeft, Nat.mod_mod, cast_mod_two_pow], rfl⟩

include hi in
theorem vsel_writes : VecWrites s h x ty.width km d (fun q i => (velem ty.width (q.vr (if (q.kr kc).getLsbD i then a else b)) i, 0))
    (exec (.vsel h ty km d a b kc) s) :=
  vecElems_writes hi ty.width km d (fun _ q i => (velem ty.width (q.vr (if (q.kr kc).getLsbD i then a else b)) i, 0))
    (Nat.le_of_eq (width_elems ty).2) _ fun _ _ => ⟨cast_mod_two_pow _ _, rfl⟩

/-- Bit i of what a compare writes: the compare of the elements where element i is active, and 0 elsewhere (11 R207). -/
def vcmpBit (x : Entry) (q : Seq) (i : Nat) : Bool :=
  let m := velem ty.width (q.vr a) i
  let n := vecOpd ty.width sb x 0 q b i
  decide (i < elems ty.width) && ((q.kr km).getLsbD i &&
    if ty.isFloat then (tyFmt ty).cond (x.env .dyn) cond m n else condInt cond (intElem ty m) (intElem ty n))

include hi in
theorem vcmp_mask {val : Seq → Nat → Bool} (hv : ∀ q i, vcmpBit ty sb cond km a b x q i = val q i) :
    ∃ f : Seq → Seq, VecEnds s h x f (exec (.vcmp h ty cond sb km kd a b) s) ∧
      ∀ q, ∃ n, f q = q.setK kd n ∧ ∀ i < 1024, n.getLsbD i = val q i := by
  refine vecWord_mask hi kd (fun x q => mskBuild (elems ty.width) fun i => (q.kr km).getLsbD i &&
    (let m := velem ty.width (q.vr a) i
     let n := vecOpd ty.width sb x 0 q b i
     if ty.isFloat then (tyFmt ty).cond (x.env .dyn) cond m n else condInt cond (tyInt ty m) (tyInt ty n))) _ fun q i h1024 => ?_
  rw [← hv, vcmpBit]
  simp only [mskBuild_bit _ _ _ h1024, tyInt_of_lt (velem_lt _ _ _), tyInt_of_lt (vecOpd_lt _ _ _ _ _ _)]

include hi in
/-- `kpop` counts the bits that are set in both masks (11 R209). -/
theorem kpop_ends : ∃ f : Seq → Seq, VecEnds s h x f (exec (.kpop h km d ka) s) ∧ ∀ q, f q = q.setV d (BitVec.ofNat 4096
    (((List.range 1024).filter fun i => (q.kr ka).getLsbD i && (q.kr km).getLsbD i).length)) := by
  refine ⟨_, vecWord_ends hi (fun _ q => (q.setV d (BitVec.ofNat 4096 (popBits (q.kr ka &&& q.kr km))), 0)), fun q => ?_⟩
  simp only [popBits_eq, BitVec.getLsbD_and]
  exact Seq.orFps_zero _

end

end Sys2Proof.Machine

open Sys2Proof Sys2Proof.Machine

/-- Settles O33, word by word: a result agrees with the model's modulo 2^w, and a mask bit by bit. -/
theorem vectorLogicAndMasks : Obligations.VectorLogicAndMasks := by
  unfold Obligations.VectorLogicAndMasks
  intro s h x ty cond sat sb km ka kb kc kd d a b ch hi
  dsimp only
  refine ⟨?_, ?_, ?_, ?_, ?_, ?_, ?_, ?_, ?_, ?_, ?_, ?_, ?_, ?_, ?_, ?_, ?_⟩
  · exact vec2_pattern hi ty sb km d a b (· &&& ·)
  · exact vec2_pattern hi ty sb km d a b (· ||| ·)
  · exact vec2_pattern hi ty sb km d a b (· ^^^ ·)
  · exact vnot_writes hi ty km d a
  · exact vshl_writes hi ty sat sb km d a b
  · exact vec2_pattern hi ty sb km d a b fun m n => m / 2 ^ (n % ty.width)
  · exact vsra_writes hi ty sb km d a b
  · exact vrot_writes hi ty sb km d a b
  · exact vsel_writes hi ty km kc d a b
  · refine vcmp_mask hi ty sb cond km kd a b fun q i => ?_
    rw [vcmpBit, cond_eq, condInt_eq, Bool.and_assoc]
    rfl
  · exact vecWord_mask hi kd (fun _ q => q.kr ka &&& q.kr kb) _ fun _ _ _ => BitVec.getLsbD_and
  · exact vecWord_mask hi kd (fun _ q => q.kr ka ||| q.kr kb) _ fun _ _ _ => BitVec.getLsbD_or
  · exact vecWord_mask hi kd (fun _ q => q.kr ka ^^^ q.kr kb) _ fun _ _ _ => BitVec.getLsbD_xor
  · exact vecWord_mask hi kd (fun _ q => ~~~q.kr ka) _ fun _ _ h1024 => by simp [h1024]
  · exact vecWord_mask hi kd (fun _ q => q.kr ka) _ fun _ _ _ => rfl
  · exact vecWord_mask hi kd (fun x q => mskChunk (q.kr kd) ch.toNat (x.opd 0)) _ fun _ _ h1024 => mskChunk_bit _ _ _ _ h1024
  · exact kpop_ends hi km ka d
end
